-- ==== Sys2Proof/Word.lean ====
section
/-! DEFINITION. The word types of the controller's ports (10_state.md R34, 20_memory.md R60, R67). -/

namespace Sys2Proof

/-- One 64-bit host register, the only size of a host access (R34, R67). A StorageWord of `W ≤ 64` bits is held
zero-extended in one of these. -/
abbrev Reg := BitVec 64

/-- One byte lane of the array's store (log 11). -/
abbrev Byte := BitVec 8

/-- A register index of the host port, `0x000` to `0xFFF` (R34). -/
abbrev PortIndex := BitVec 12

end Sys2Proof
end

