-- ==== Sys2Proof/Syntax.lean ====
section
/-! DEFINITION. The command set (00_scope.md R3, 30_encoding.md R94): one constructor of `Instr` per row of
spec/opcode_table.json. A command's other operands are registers (R90, R95), so they are no part of the syntax. -/

namespace Sys2Proof

/-- The closed set of regions (R92). -/
inductive Region where
  | bulkData
  | configuration
  | strap
  | security
  deriving DecidableEq, Repr

/-- The multi-word policy of WRITE_REGION (R93). -/
inductive Policy where
  | continueOnError
  | failFast
  deriving DecidableEq, Repr

/-- The fifteen commands, in the order of their opcodes `0x01` to `0x0F` (R94). -/
inductive Instr where
  | beginSession
  | endSession
  | read (r : Region)
  | write (r : Region)
  | readRegion (r : Region)
  | writeRegion (r : Region) (policy : Policy)
  | lock
  | isLocked
  | enableRegionProtection (r : Region)
  | isRegionProtected (r : Region)
  | soakProgram (r : Region)
  | programWithSoakFallback (r : Region)
  | selectNextWritable (r : Region)
  | isWritable (r : Region)
  | readSlot (r : Region)
  deriving DecidableEq, Repr

end Sys2Proof
end

