-- ==== Sys2Proof/Config.lean ====
section
/-! DEFINITION. The implementation parameters of 00_scope.md R8, the reference configuration `REF` of R9, and the
free values of the OTP macro's oracle (20_memory.md R62 to R65). -/

namespace Sys2Proof

/-- The legal widths `W` of a StorageWord (R8). -/
inductive WordWidth where
  | w8
  | w16
  | w32
  | w64
  deriving DecidableEq, Repr

/-- One row `REGION_MAP(v, r)` with `SOAK_AVAILABLE(v, r, ·)` (R8). `soakAvailable` is the answer at every offset but
those of `soakExceptions`, where it is the opposite: every function on the region's finitely many offsets has this form
(log 2). -/
structure RegionInfo where
  base : Nat
  capacity : Nat
  alignment : Nat
  protectable : Bool
  attemptLimited : Bool
  soakAvailable : Bool
  soakExceptions : List Nat
  deriving DecidableEq, Repr

/-- A SoakConfig `(pulse_duration, max_retries, verify_margin)` with the widths of R8 and R38. -/
structure SoakConfig where
  pulse : BitVec 32
  retries : BitVec 16
  margin : BitVec 16
  deriving DecidableEq, Repr

/-- One element of `VARIANTS` with its region map and its `DEFAULT_SOAK` (R8). -/
structure Variant where
  ident : Reg
  bulkData : RegionInfo
  configuration : RegionInfo
  strap : RegionInfo
  security : RegionInfo
  soak : SoakConfig
  deriving DecidableEq, Repr

/-- The parameters of R8. `PASSWORD` and `POLL_TIMEOUT` are the opaque constants below, and `BUS_BYTE_ORDER` is outside
the controller (R67; log 22, log 24). -/
structure Config where
  width : WordWidth
  arrayWords : Nat
  variants : List Variant
  chipId : Reg
  numSlots : Nat
  attemptBits : Nat
  initAttempts : Nat
  bufWords : Nat
  readWithoutSession : Bool
  oobDuringSession : Bool
  deriving DecidableEq, Repr

/-- The reference configuration `REF` (R9). -/
def Config.ref : Config where
  width := .w32
  arrayWords := 4096
  variants := [{
    ident := 1
    bulkData := ⟨0, 2048, 1, false, false, true, []⟩
    configuration := ⟨2048, 64, 1, true, false, true, []⟩
    strap := ⟨0, 16, 1, true, true, true, []⟩
    security := ⟨2112, 32, 2, true, false, false, []⟩
    soak := ⟨100, 3, 0⟩ }]
  chipId := 1
  numSlots := 7
  attemptBits := 8
  initAttempts := 4
  bufWords := 8
  readWithoutSession := false
  oobDuringSession := false

/-- The status of a programming pulse (R63). -/
inductive PulseStatus where
  | ready
  | timeout
  | fault
  deriving DecidableEq, Repr, Inhabited

/-- Everything the macro may draw in answer to one call. `bits` is the mask `m` of MacroPulse and the value `v` of a
poisoned word's read (R63, R64); `slotBits` holds the draw for each poisoned slot of a cell (R64); `status` is the
status of a pulse (R63); `ok` says whether a protect or lock reports OK (R65); `took` is the one-bit draw `m` of
MacroPulseSlot and `x` of a failed or interrupted protect or lock (R63, R65, R274). -/
structure Answer where
  bits : Reg
  slotBits : BitVec 256
  status : PulseStatus
  ok : Bool
  took : Bool
  deriving DecidableEq, Repr, Inhabited

/-- FREE VALUE (log 3): the macro's answer to the `n`-th draw. Nothing constrains it (R13, R62 to R65). -/
opaque Config.freeAnswer : Nat → Answer

/-- `PASSWORD` (R8): opaque, and no rule depends on it (log 22). -/
opaque Config.password : Nat

/-- `POLL_TIMEOUT` (R8): opaque, and no rule depends on it; its expiry is the `timeout` status of a pulse (R63, R249;
log 22). -/
opaque Config.pollTimeout : Nat

end Sys2Proof
end

