-- ==== Sys2Proof/WellFormed.lean ====
section
/-! DEFINITION. What is well formed: a command word (spec/opcode_table.json, 30_encoding.md R91, R98) and a configuration
(00_scope.md R8, 20_memory.md R66). Every term of `Instr` is well formed: its operands are closed types that hold the
legal values of R92 and R93 and no other. -/

namespace Sys2Proof

/-- One row of spec/opcode_table.json: a word `w` is of this row when `w &&& mask = pattern`. -/
structure OpRow where
  mnemonic : String
  pattern : Reg
  mask : Reg
  deriving DecidableEq, Repr

/-- spec/opcode_table.json, row by row. Decoding does not use it: R97 is the decoder's rule, and the two are compared
by a statement. -/
def opcodeRows : List OpRow := [
  ⟨"BEGIN_SESSION", 0x0000000000000001, 0xFFFFFFFFFFFFFFFF⟩,
  ⟨"END_SESSION", 0x0000000000000002, 0xFFFFFFFFFFFFFFFF⟩,
  ⟨"READ", 0x0000000000000003, 0xFFFFFFFFFFFFFCFF⟩,
  ⟨"WRITE", 0x0000000000000004, 0xFFFFFFFFFFFFFCFF⟩,
  ⟨"READ_REGION", 0x0000000000000005, 0xFFFFFFFFFFFFFCFF⟩,
  ⟨"WRITE_REGION", 0x0000000000000006, 0xFFFFFFFFFFFFF8FF⟩,
  ⟨"LOCK", 0x0000000000000007, 0xFFFFFFFFFFFFFFFF⟩,
  ⟨"IS_LOCKED", 0x0000000000000008, 0xFFFFFFFFFFFFFFFF⟩,
  ⟨"ENABLE_REGION_PROTECTION", 0x0000000000000009, 0xFFFFFFFFFFFFFCFF⟩,
  ⟨"IS_REGION_PROTECTED", 0x000000000000000A, 0xFFFFFFFFFFFFFCFF⟩,
  ⟨"SOAK_PROGRAM", 0x000000000000000B, 0xFFFFFFFFFFFFFCFF⟩,
  ⟨"PROGRAM_WITH_SOAK_FALLBACK", 0x000000000000000C, 0xFFFFFFFFFFFFFCFF⟩,
  ⟨"SELECT_NEXT_WRITABLE", 0x000000000000000D, 0xFFFFFFFFFFFFFCFF⟩,
  ⟨"IS_WRITABLE", 0x000000000000000E, 0xFFFFFFFFFFFFFCFF⟩,
  ⟨"READ_SLOT", 0x000000000000000F, 0xFFFFFFFFFFFFFCFF⟩]

/-- The word matches the row. -/
def OpRow.covers (row : OpRow) (w : Reg) : Bool := w &&& row.mask == row.pattern

/-- A legal command word: one that some row of the table covers. -/
def legalWord (w : Reg) : Bool := opcodeRows.any (·.covers w)

/-- R66: the unit range of a region that is not attempt-limited lies in the array. -/
def RegionInfo.insideArray (info : RegionInfo) (arrayWords : Nat) : Bool :=
  info.attemptLimited || decide (info.base + info.capacity ≤ arrayWords)

/-- R66: the physical ranges of two regions that are not attempt-limited are disjoint. An empty range meets no other. -/
def RegionInfo.disjoint (a b : RegionInfo) : Bool :=
  a.attemptLimited || b.attemptLimited || decide (a.capacity = 0) || decide (b.capacity = 0)
    || decide (a.base + a.capacity ≤ b.base) || decide (b.base + b.capacity ≤ a.base)

/-- The four regions of a variant, in the order of their codes. -/
def Variant.regions (v : Variant) : List RegionInfo := [v.bulkData, v.configuration, v.strap, v.security]

/-- R66 for one variant: alignments, containment, disjointness. -/
def Variant.legal (v : Variant) (arrayWords : Nat) : Bool :=
  v.regions.all (fun info => decide (1 ≤ info.alignment))
    && v.regions.all (·.insideArray arrayWords)
    && v.bulkData.disjoint v.configuration && v.bulkData.disjoint v.strap && v.bulkData.disjoint v.security
    && v.configuration.disjoint v.strap && v.configuration.disjoint v.security && v.strap.disjoint v.security

/-- `VARIANTS` is a set: no identifier is listed twice (R8). -/
def distinctIdents : List Variant → Bool
  | [] => true
  | v :: vs => vs.all (fun u => decide (u.ident ≠ v.ident)) && distinctIdents vs

/-- R8: the legal values of the counts and widths. -/
def Config.legalSizes (c : Config) : Bool :=
  decide (1 ≤ c.arrayWords) && decide (1 ≤ c.numSlots) && decide (c.numSlots ≤ 255)
    && decide (1 ≤ c.attemptBits) && decide (c.attemptBits ≤ 32)
    && decide (c.initAttempts < 2 ^ c.attemptBits)
    && decide (1 ≤ c.bufWords) && decide (c.bufWords ≤ 256)

/-- A legal configuration: R8's legal values and the predicate of R66 for every variant. -/
def Config.legal (c : Config) : Bool :=
  c.legalSizes && !c.variants.isEmpty && distinctIdents c.variants && c.variants.all (·.legal c.arrayWords)

end Sys2Proof
end

