-- ==== Sys2Proof/Decode.lean ====
section
/-! DEFINITION. Decoding and encoding of the 64-bit command word (30_encoding.md R90 to R99). A word moves whole, so no
byte order enters (20_memory.md R67). -/

namespace Sys2Proof

/-- Why a word is no command: the four checks of R97, in its order. Each ends the command with IllegalCommand. -/
inductive Reject where
  | reservedBits
  | reservedOpcode
  | strayRegion
  | strayPolicy
  deriving DecidableEq, Repr

/-- The fields of a command word (R91). -/
structure RawCommand where
  opcode : BitVec 8
  region : BitVec 2
  policy : Bool
  reserved : BitVec 53
  deriving DecidableEq, Repr

/-- Field extraction (R91). -/
def rawOf (w : Reg) : RawCommand where
  opcode := w.extractLsb' 0 8
  region := w.extractLsb' 8 2
  policy := w.getLsbD 10
  reserved := w.extractLsb' 11 53

/-- REGION codes (R92). -/
def regionOf (c : BitVec 2) : Region :=
  if c = 0 then .bulkData else if c = 1 then .configuration else if c = 2 then .strap else .security

/-- REGION codes (R92). -/
def regionCode : Region → BitVec 2
  | .bulkData => 0
  | .configuration => 1
  | .strap => 2
  | .security => 3

/-- POLICY codes (R93). -/
def policyOf (b : Bool) : Policy := if b then .failFast else .continueOnError

/-- POLICY codes (R93). -/
def policyBit : Policy → Bool
  | .continueOnError => false
  | .failFast => true

/-- The opcode map (R94), with the operands the word gives. -/
def opcodeMap (op : BitVec 8) (r : Region) (pol : Policy) : Option Instr :=
  match op.toNat with
  | 0x01 => some .beginSession
  | 0x02 => some .endSession
  | 0x03 => some (.read r)
  | 0x04 => some (.write r)
  | 0x05 => some (.readRegion r)
  | 0x06 => some (.writeRegion r pol)
  | 0x07 => some .lock
  | 0x08 => some .isLocked
  | 0x09 => some (.enableRegionProtection r)
  | 0x0A => some (.isRegionProtected r)
  | 0x0B => some (.soakProgram r)
  | 0x0C => some (.programWithSoakFallback r)
  | 0x0D => some (.selectNextWritable r)
  | 0x0E => some (.isWritable r)
  | 0x0F => some (.readSlot r)
  | _ => none

/-- BEGIN_SESSION, END_SESSION, LOCK and IS_LOCKED take no region (R97). -/
def takesRegion : Instr → Bool
  | .beginSession | .endSession | .lock | .isLocked => false
  | _ => true

/-- Only WRITE_REGION takes a policy (R93, R97). -/
def takesPolicy : Instr → Bool
  | .writeRegion _ _ => true
  | _ => false

/-- The checks of R97 in their order, on the fields. -/
def decodeRaw (f : RawCommand) : Except Reject Instr :=
  if f.reserved ≠ 0 then .error .reservedBits
  else match opcodeMap f.opcode (regionOf f.region) (policyOf f.policy) with
    | none => .error .reservedOpcode
    | some i =>
      if !takesRegion i && f.region != 0 then .error .strayRegion
      else if !takesPolicy i && f.policy then .error .strayPolicy
      else .ok i

/-- Decoding (R97), total on every word. -/
def decode (w : Reg) : Except Reject Instr := decodeRaw (rawOf w)

/-- The OPCODE of a command (R94). -/
def opcodeOf : Instr → BitVec 8
  | .beginSession => 0x01
  | .endSession => 0x02
  | .read _ => 0x03
  | .write _ => 0x04
  | .readRegion _ => 0x05
  | .writeRegion _ _ => 0x06
  | .lock => 0x07
  | .isLocked => 0x08
  | .enableRegionProtection _ => 0x09
  | .isRegionProtected _ => 0x0A
  | .soakProgram _ => 0x0B
  | .programWithSoakFallback _ => 0x0C
  | .selectNextWritable _ => 0x0D
  | .isWritable _ => 0x0E
  | .readSlot _ => 0x0F

/-- The region a command names; BulkData, whose code is 0, for a command that names none (R91). -/
def regionField : Instr → Region
  | .read r | .write r | .readRegion r | .writeRegion r _ | .enableRegionProtection r | .isRegionProtected r
  | .soakProgram r | .programWithSoakFallback r | .selectNextWritable r | .isWritable r | .readSlot r => r
  | .beginSession | .endSession | .lock | .isLocked => .bulkData

/-- The policy a command names; continue-on-error, whose code is 0, for a command that names none (R93). -/
def policyField : Instr → Policy
  | .writeRegion _ p => p
  | _ => .continueOnError

/-- `CMD = OPCODE | (REGION << 8) | (POLICY << 10)` (R91). -/
def encode (i : Instr) : Reg :=
  (opcodeOf i).zeroExtend 64 ||| ((regionCode (regionField i)).zeroExtend 64 <<< 8)
    ||| ((BitVec.ofBool (policyBit (policyField i))).zeroExtend 64 <<< 10)

/-- The instruction that the decoder reads from the table's bits `w`: the one command word, every bit at or above `nbits`
being 0 (R90, R99). -/
def decodeTableWord (nbits w : Nat) : Option Instr :=
  match decode (BitVec.ofNat 64 (w % 2 ^ nbits)) with
  | .ok i => some i
  | .error _ => none

end Sys2Proof
end

