-- ==== Sys2Proof/Machine/State.lean ====
section
/-! DEFINITION. The machine's state as plain data (10_state.md), the moves of the other agents (00_scope.md R13), and the
reasons a step can stop. -/

namespace Sys2Proof.Machine

/-- The session latch (R29). -/
inductive Session where
  | idle
  | active
  deriving DecidableEq, Repr

/-- The error codes 0 to 12 of R240, in the order of their codes. -/
inductive ErrCode where
  | ok
  | invalidAddress
  | alignmentError
  | boundaryError
  | regionProtected
  | memoryLocked
  | noSession
  | alreadyActive
  | writeExhausted
  | verificationFailed
  | timeout
  | hardwareFault
  | illegalCommand
  deriving DecidableEq, Repr

/-- The aggregate results 0 to 2 of `STATUS.RESULT` (R36, R192). -/
inductive Aggregate where
  | success
  | partialFailure
  | failure
  deriving DecidableEq, Repr

/-- The engine states 0 to 8 of `STATUS.ENGINE_STATE` (R36, R182). -/
inductive EngState where
  | init
  | normalProgram
  | verify
  | needsSoak
  | soakProgram
  | reverify
  | retrySoak
  | success
  | failure
  deriving DecidableEq, Repr

/-- The codes 0 to 6 of `OUTCOME[i].CODE` (R42, R189). -/
inductive OutcomeCode where
  | notAttempted
  | setNormal
  | setSoak
  | failedExhausted
  | failedVerify
  | abortedTimeout
  | abortedFault
  deriving DecidableEq, Repr

/-- One `OUTCOME[i]` register (R42). Its reserved bits read 0, so they are not stored. -/
structure OutcomeReg where
  code : OutcomeCode
  soakPulses : BitVec 16
  normalPulse : Bool
  deriving DecidableEq, Repr

/-- One entry `SLOT[r][c][s]` of the write-attempt counter array (R26) with its `SLOT_POISON` bit (R24). -/
structure Slot where
  remaining : Nat
  writable : Bool
  committed : Bool
  poisoned : Bool
  deriving DecidableEq, Repr

/-- The array's store: byte cells in one canonical form (log 11). Byte lane `j` of word `p`, its bits `[8j+7:8j]`, is
the cell `8 * p + j`. -/
abbrev Memory := List Host.Cell

/-- The persistent, OTP-resident state (R20, R23 to R26). `poison` lists the poisoned words, `slots` the rows of the
counter array that differ from the factory row, by cell key; both are sparse lists in canonical form. -/
structure Otp where
  mem : Memory
  poison : List (Nat × Bool)
  physProt : BitVec 4
  physLock : Bool
  slots : List (Nat × List Slot)
  deriving DecidableEq, Repr

/-- The protection lock register `SNAP` (R30). Bit `r` of `prot` is `SNAP.prot[r]`. -/
structure Snap where
  prot : BitVec 4
  lock : Bool
  valid : Bool
  deriving DecidableEq, Repr

/-- The stored fields of `STATUS` (R36). SESSION_ACTIVE reads `session`, and the reserved bits read 0. -/
structure Status where
  busy : Bool
  overrun : Bool
  err : ErrCode
  result : Aggregate
  engState : EngState
  deriving DecidableEq, Repr

/-- The counters of R45. -/
structure Counters where
  normal : Reg
  soak : Reg
  macros : Reg
  deriving DecidableEq, Repr

/-- The engine latches `ENG` (R33): `off` is `ENG.off`, `count` is `ENG.n`, `soak` is `ENG.cfg`. -/
structure Eng where
  op : Option Instr
  region : Region
  off : Nat
  count : Nat
  policy : Policy
  soak : SoakConfig
  k : Nat
  nsucc : Nat
  firstErr : ErrCode
  slot : Nat
  deriving DecidableEq, Repr

/-- Where the current command's pseudocode stands between two steps, with the local values it still needs (R43; log 8).
Each constructor but `start` names the `Macro*` call that the last step made. -/
inductive Phase where
  /-- Not begun, or no command: the next step decodes (R97). -/
  | start
  /-- BEGIN_SESSION after MacroUnlock. -/
  | beginUnlocked
  /-- BEGIN_SESSION after MacroReadId. -/
  | beginIdRead (vid : Reg)
  /-- BEGIN_SESSION after MacroRelock, on an unknown variant. -/
  | beginRelocked
  /-- BEGIN_SESSION after MacroReadProt. -/
  | beginProtRead (vid : Reg) (pp : BitVec 4) (pl : Bool)
  /-- END_SESSION after MacroRelock. -/
  | endRelocked
  /-- LOCK after MacroLockAll. -/
  | lockAnswered (ok : Bool)
  /-- ENABLE_REGION_PROTECTION after MacroProtect. -/
  | protectAnswered (ok : Bool)
  /-- The session-less read path after MacroReadId (R222). -/
  | readIdRead (vid : Reg)
  /-- The session-less read path after MacroReadProt (R222). -/
  | readProtRead (vid : Reg) (pp : BitVec 4)
  /-- READ or READ_REGION after reading unit `WORD_INDEX`, for variant `v`. -/
  | unitRead (v : Reg)
  /-- The engine after a normal pulse. -/
  | normalPulsed (st : PulseStatus)
  /-- The engine after a verify read. -/
  | verifyRead (rb : Reg)
  /-- The engine after a soak pulse. -/
  | soakPulsed (st : PulseStatus)
  /-- The engine after a re-verify read. -/
  | reverifyRead (rb : Reg)
  deriving DecidableEq, Repr

/-- One change by the out-of-band agent (R72). -/
inductive OobAct where
  | setBits (p : Nat) (x : Reg)
  | protect (r : Region)
  | lockAll
  | commit (r : Region) (c sl : Nat)
  | lower (r : Region) (c sl y : Nat)
  | retire (r : Region) (c sl : Nat)
  deriving DecidableEq, Repr

/-- One move of an agent (R13): a host register access, a turn of the controller, an out-of-band change, a reset between
two steps (R270), or a reset that interrupts the controller's next step (R274). -/
inductive Event where
  | hostWrite (idx : PortIndex) (v : Reg)
  | hostRead (idx : PortIndex)
  | controller
  | outOfBand (act : OobAct)
  | reset
  | resetDuringStep
  deriving DecidableEq, Repr

/-- The MODEL's own fields, not the spec's: the moves still to come (log 5), the macro answers already fixed and the
counter that indexes the free ones (log 3), and the value the host's last register read returned (log 18). -/
structure Env where
  inbox : List Event
  oracle : List Answer
  draws : Nat
  hostData : Reg
  deriving DecidableEq, Repr

/-- The whole machine: the parameters (R8; log 1), the persistent state (R20), the volatile registers and latches
(R29 to R46), and the model's own fields. -/
structure State where
  cfg : Config
  otp : Otp
  session : Session
  snap : Snap
  macroUnlocked : Bool
  variant : Reg
  cmdLatch : Reg
  status : Status
  addr : Reg
  len : Reg
  soak : SoakConfig
  qresult : Reg
  cnt : Counters
  wordIndex : Reg
  buf : List (Nat × Reg)
  outcome : List (Nat × OutcomeReg)
  eng : Eng
  phase : Phase
  env : Env
  deriving DecidableEq, Repr

/-- Why a step can stop. The spec gives the controller no stopping error (R244): each of these is the model's own, is
safe, and is reached from no state that satisfies the invariant of Safety.lean (log 13). -/
inductive Fault where
  /-- Raised by MacroRead and MacroPulse at a physical word at or above ARRAY_WORDS, which does not exist (R23, R60).
  Safe: R66 and R120 rule it out (R78). -/
  | noSuchWord
  /-- Raised by a programming, protect or lock primitive while MACRO_UNLOCKED = 0, against its `requires` (R63, R65).
  Safe: R31 rules it out. -/
  | macroLocked
  /-- Raised by a command that is asked to go on from a place of another command. Safe: CMD_LATCH does not change while a
  command runs (R35, R43). -/
  | strayStep
  deriving DecidableEq, Repr

/-- Why a step can be refused. -/
inductive Refusal where
  /-- Answered by an arm of `exec` that has no meaning yet. Safe. No arm answers it. -/
  | notModelled (mnemonic : String)
  /-- Answered by `step` when the configuration is not legal: "A model should refuse a configuration that fails this
  predicate" (R66; log 14). Safe. -/
  | illegalConfiguration
  deriving DecidableEq, Repr

/-- The factory state of the persistent state (R272): nothing listed, so every word reads 0 and every row of the counter
array is the factory row. -/
def Otp.factory : Otp where
  mem := []
  poison := []
  physProt := 0
  physLock := false
  slots := []

/-- `SNAP` after reset (R48). -/
def Snap.clear : Snap := ⟨0, false, false⟩

/-- `STATUS` after reset (R48). -/
def Status.clear : Status := ⟨false, false, .ok, .success, .init⟩

/-- `ENG` after reset: unspecified by R33 and R48 and read by no rule; these values are the model's (log 9). -/
def Eng.clear : Eng := ⟨none, .bulkData, 0, 0, .continueOnError, ⟨0, 0, 0⟩, 0, 0, .ok, 0⟩

/-- The machine right after reset (R48, R271): the reference configuration (R9; log 1) and the factory state (R272;
log 10). -/
def State.reset : State where
  cfg := Config.ref
  otp := Otp.factory
  session := .idle
  snap := Snap.clear
  macroUnlocked := false
  variant := 0
  cmdLatch := 0
  status := Status.clear
  addr := 0
  len := 0
  soak := ⟨0, 0, 0⟩
  qresult := 0
  cnt := ⟨0, 0, 0⟩
  wordIndex := 0
  buf := []
  outcome := []
  eng := Eng.clear
  phase := .start
  env := ⟨[], [], 0, 0⟩

end Sys2Proof.Machine
end

