-- ==== Sys2Proof/Machine/Sparse.lean ====
section
/-! DEFINITION. Sparse lists in canonical form: keys strictly rising, no entry equal to what an unlisted key reads as.
Every indexed store of the machine is one (the array's bytes, the poison bits, the counter rows, BUF, OUTCOME), so that
equal contents are equal data. -/

namespace Sys2Proof.Machine

/-- What key `k` reads as; an unlisted key reads as `d`. -/
def sparseGet (d : β) : List (Nat × β) → Nat → β
  | [], _ => d
  | (j, v) :: m, k => if j = k then v else sparseGet d m k

/-- `(k, v)` put before the first greater key. -/
def sparseInsert (k : Nat) (v : β) : List (Nat × β) → List (Nat × β)
  | [] => [(k, v)]
  | (j, w) :: m => if k < j then (k, v) :: (j, w) :: m else (j, w) :: sparseInsert k v m

/-- Key `k` set to `v`. Setting what an unlisted key reads as removes the entry. -/
def sparseSet [DecidableEq β] (d : β) (m : List (Nat × β)) (k : Nat) (v : β) : List (Nat × β) :=
  let rest := m.filter (fun e => e.1 != k)
  if v = d then rest else sparseInsert k v rest

/-- The canonical form. -/
def sparseWf [DecidableEq β] (d : β) : List (Nat × β) → Bool
  | [] => true
  | (j, v) :: m => decide (v ≠ d) && m.all (fun e => decide (j < e.1)) && sparseWf d m

end Sys2Proof.Machine
end

