-- ==== Sys2Proof/Machine/Operands.lean ====
section
/-! DEFINITION. Operand assembly (30_encoding.md R95) and look-ups in the parameters (00_scope.md R8). -/

namespace Sys2Proof.Machine

/-- `W` in bits (R8). -/
def widthBits : WordWidth → Nat
  | .w8 => 8
  | .w16 => 16
  | .w32 => 32
  | .w64 => 64

/-- `mask_W = 2^W - 1` (R10). -/
def wordMask (c : Config) : Reg := BitVec.ofNat 64 (2 ^ widthBits c.width - 1)

/-- The listed variant with identifier `v`. -/
def variantOf (c : Config) (v : Reg) : Option Variant := c.variants.find? (fun u => u.ident == v)

/-- `v ∈ VARIANTS` (R8). -/
def knownVariant (c : Config) (v : Reg) : Bool := (variantOf c v).isSome

/-- The row of a region that does not exist: capacity 0 (R66). -/
def absentRegion : RegionInfo := ⟨0, 0, 1, false, false, false, []⟩

/-- `REGION_MAP(v, r)` (R8). An identifier that is not in `VARIANTS` has no regions (log 15). -/
def regionInfo (c : Config) (v : Reg) (r : Region) : RegionInfo :=
  match variantOf c v with
  | none => absentRegion
  | some u =>
    match r with
    | .bulkData => u.bulkData
    | .configuration => u.configuration
    | .strap => u.strap
    | .security => u.security

/-- `SOAK_AVAILABLE(v, r, o)` (R8; log 2). -/
def soakAvailable (c : Config) (v : Reg) (r : Region) (o : Nat) : Bool :=
  let info := regionInfo c v r
  if info.soakExceptions.contains o then !info.soakAvailable else info.soakAvailable

/-- `DEFAULT_SOAK(v)`, or 0 in every field when `v ∉ VARIANTS` (R8, R39). -/
def defaultSoak (c : Config) (v : Reg) : SoakConfig :=
  match variantOf c v with
  | none => ⟨0, 0, 0⟩
  | some u => u.soak

/-- The bit of region `r` in a four-bit protection field (R41). -/
def regionBit (r : Region) : BitVec 4 := 1#4 <<< (regionCode r).toNat

/-- Bit `r` of a four-bit protection field. -/
def protBit (p : BitVec 4) (r : Region) : Bool := p.getLsbD (regionCode r).toNat

/-- The regions that are protectable in variant `v`, as a four-bit field (R25). -/
def protectMask (c : Config) (v : Reg) : BitVec 4 :=
  let bit (r : Region) : BitVec 4 := if (regionInfo c v r).protectable then regionBit r else 0
  bit .bulkData ||| bit .configuration ||| bit .strap ||| bit .security

/-- `REGION_MAP` and the rest for `v = R[VARIANT]` (R32). -/
def State.info (s : State) (r : Region) : RegionInfo := regionInfo s.cfg s.variant r

/-- `o = R[ADDR]`, all 64 bits, as an unbounded natural (R95, R10). It is the cell index of the tracker commands. -/
def offsetOperand (s : State) : Nat := s.addr.toNat

/-- `n = R[LEN]`, all 64 bits, as an unbounded natural (R95, R10). It is the slot index of READ_SLOT. -/
def countOperand (s : State) : Nat := s.len.toNat

/-- The caller's SoakConfig `(SOAK_PULSE, SOAK_RETRIES, SOAK_MARGIN)` (R95). -/
def callerSoak (s : State) : SoakConfig := s.soak

/-- `BUF[i]` (R42). -/
def bufAt (s : State) (i : Nat) : Reg := sparseGet 0 s.buf i

/-- The target of a unit: `BUF[i][W-1:0]`, or `BUF[i][0]` for an attempt-limited region (R67, R95). -/
def targetOf (c : Config) (info : RegionInfo) (data : Reg) : Reg :=
  if info.attemptLimited then data &&& 1 else data &&& wordMask c

end Sys2Proof.Machine
end

