-- ==== Sys2Proof/Machine/Flags.lean ====
section
/-! DEFINITION. The encodings of the host-visible registers that hold flags and codes, and the tests that set them
(10_state.md R36, R40 to R42; 44_program_engine.md R181, R182, R192; 60_exceptions.md R240). -/

namespace Sys2Proof.Machine

/-- Error codes (R240). -/
def errBits : ErrCode → BitVec 4
  | .ok => 0
  | .invalidAddress => 1
  | .alignmentError => 2
  | .boundaryError => 3
  | .regionProtected => 4
  | .memoryLocked => 5
  | .noSession => 6
  | .alreadyActive => 7
  | .writeExhausted => 8
  | .verificationFailed => 9
  | .timeout => 10
  | .hardwareFault => 11
  | .illegalCommand => 12

/-- RESULT codes (R36). -/
def resultBits : Aggregate → BitVec 2
  | .success => 0
  | .partialFailure => 1
  | .failure => 2

/-- ENGINE_STATE codes (R36, R182). -/
def engBits : EngState → BitVec 4
  | .init => 0
  | .normalProgram => 1
  | .verify => 2
  | .needsSoak => 3
  | .soakProgram => 4
  | .reverify => 5
  | .retrySoak => 6
  | .success => 7
  | .failure => 8

/-- OUTCOME codes (R42, R189). -/
def outcomeBits : OutcomeCode → BitVec 4
  | .notAttempted => 0
  | .setNormal => 1
  | .setSoak => 2
  | .failedExhausted => 3
  | .failedVerify => 4
  | .abortedTimeout => 5
  | .abortedFault => 6

/-- STATUS as the host reads it (R36): bits 63:16, 11:10 and 3 read 0. -/
def statusWord (active : Bool) (st : Status) : Reg :=
  (0#48 ++ engBits st.engState ++ 0#2 ++ resultBits st.result ++ errBits st.err ++ 0#1 ++ BitVec.ofBool st.overrun
    ++ BitVec.ofBool active ++ BitVec.ofBool st.busy : BitVec 64)

/-- PROT as the host reads it (R41): 0 unless the snapshot is valid. -/
def protWord (p : Snap) : Reg :=
  if p.valid then (0#48 ++ 1#1 ++ 0#6 ++ BitVec.ofBool p.lock ++ 0#4 ++ p.prot : BitVec 64) else 0

/-- What `OUTCOME[i]` holds after reset and after acceptance (R42). -/
def outcomeClear : OutcomeReg := ⟨.notAttempted, 0, false⟩

/-- `OUTCOME[i]` as the host reads it (R42). -/
def outcomeWord (o : OutcomeReg) : Reg :=
  (0#39 ++ BitVec.ofBool o.normalPulse ++ o.soakPulses ++ 0#4 ++ outcomeBits o.code : BitVec 64)

/-- QRESULT of a boolean query (R40). -/
def boolWord (b : Bool) : Reg := (BitVec.ofBool b).setWidth 64

/-- QRESULT of SELECT_NEXT_WRITABLE (R40, R162). -/
def selectWord : Option Nat → Reg
  | some sl => 0x100 ||| BitVec.ofNat 64 sl
  | none => 0

/-- QRESULT of READ_SLOT (R40, R164). -/
def slotWord (remaining : Nat) (writable committed : Bool) : Reg :=
  (0#30 ++ BitVec.ofBool committed ++ BitVec.ofBool writable ++ BitVec.ofNat 32 remaining : BitVec 64)

/-- The monotonic match (R181): every bit of the target is set in the read-back. -/
def monotonicMatch (rb t : Reg) : Bool := rb &&& t == t

/-- The aggregate result (R192). -/
def aggregate (nsucc n : Nat) : Aggregate :=
  if nsucc = n then .success else if nsucc = 0 then .failure else .partialFailure

/-- A unit that ends so ends in Success (R189). -/
def unitSucceeded : OutcomeCode → Bool
  | .setNormal | .setSoak => true
  | _ => false

/-- The unit error of a code that is no success (R187, R189). -/
def unitError : OutcomeCode → ErrCode
  | .failedVerify => .verificationFailed
  | .abortedTimeout => .timeout
  | .abortedFault => .hardwareFault
  | _ => .writeExhausted

/-- `SOAK_PULSES`, saturating (R42, R185). -/
def soakPulseBits (k : Nat) : BitVec 16 := BitVec.ofNat 16 (min k 0xFFFF)

end Sys2Proof.Machine
end

