-- ==== Sys2Proof/Machine/Ops.lean ====
section
/-! DEFINITION. The named operations over the machine's state: the array and the counter array, the macro's primitives
(20_memory.md R62 to R65), ending a command (10_state.md R44), which is all there is of an exception here (60_exceptions.md
R244, R245), acceptance (30_encoding.md R96), the local checks (40_region_map.md, 45_facade.md), reset and the host port. -/

namespace Sys2Proof.Machine

/-! ### The array, its poison bits and the counter array -/

/-- One byte of the array's store. An unlisted cell reads as the factory value 0 (R23). -/
def Memory.read (m : Memory) (a : Nat) : Byte := sparseGet 0 m a

/-- One byte of the array's store written. -/
def Memory.write (m : Memory) (a : Nat) (b : Byte) : Memory := sparseSet 0 m a b

/-- The canonical form of the array's store. -/
def Memory.wf (m : Memory) : Bool := sparseWf 0 m

/-- Byte lane `j` of a word. -/
def laneOf (x : Reg) (j : Nat) : Byte := x.extractLsb' (8 * j) 8

/-- `ARRAY[p]`, zero-extended (R23, R67; log 11). -/
def Memory.word (m : Memory) (p : Nat) : Reg :=
  (m.read (8 * p + 7) ++ m.read (8 * p + 6) ++ m.read (8 * p + 5) ++ m.read (8 * p + 4) ++ m.read (8 * p + 3)
    ++ m.read (8 * p + 2) ++ m.read (8 * p + 1) ++ m.read (8 * p) : BitVec 64)

/-- Lane `j` of word `p` ORed with lane `j` of `x`. -/
def Memory.orLane (p : Nat) (x : Reg) (m : Memory) (j : Nat) : Memory :=
  m.write (8 * p + j) (m.read (8 * p + j) ||| laneOf x j)

/-- `ARRAY[p] <- ARRAY[p] | x` (R23, R63). -/
def Memory.orWord (m : Memory) (p : Nat) (x : Reg) : Memory :=
  [0, 1, 2, 3, 4, 5, 6, 7].foldl (Memory.orLane p x) m

/-- `ARRAY[p]` (R23). -/
def State.word (s : State) (p : Nat) : Reg := Memory.word s.otp.mem p

/-- `ARRAY[p] <- ARRAY[p] | x`. -/
def State.orWord (s : State) (p : Nat) (x : Reg) : State :=
  { s with otp := { s.otp with mem := Memory.orWord s.otp.mem p x } }

/-- `POISON[p]` (R24). -/
def State.poisoned (s : State) (p : Nat) : Bool := sparseGet false s.otp.poison p

/-- `POISON[p] <- 1` (R24, R274). -/
def State.poisonWord (s : State) (p : Nat) : State :=
  { s with otp := { s.otp with poison := sparseSet false s.otp.poison p true } }

/-- The factory value of a slot (R26, R272). -/
def factorySlot (c : Config) : Slot := ⟨c.initAttempts, decide (0 < c.initAttempts), false, false⟩

/-- The factory value of a cell's row of NUM_SLOTS slots (R26). -/
def factoryRow (c : Config) : List Slot := List.replicate c.numSlots (factorySlot c)

/-- The key of the row of cell `(r, c)`. -/
def rowKey (r : Region) (c : Nat) : Nat := 4 * c + (regionCode r).toNat

/-- The row `SLOT[r][c]` (R26). -/
def State.row (s : State) (r : Region) (c : Nat) : List Slot :=
  sparseGet (factoryRow s.cfg) s.otp.slots (rowKey r c)

/-- `SLOT[r][c][sl]` (R26). -/
def State.slotAt (s : State) (r : Region) (c sl : Nat) : Slot := (s.row r c).getD sl (factorySlot s.cfg)

/-- `SLOT[r][c][sl]` replaced by `f` of it. -/
def State.modifySlot (s : State) (r : Region) (c sl : Nat) (f : Slot → Slot) : State :=
  { s with otp := { s.otp with
      slots := sparseSet (factoryRow s.cfg) s.otp.slots (rowKey r c) ((s.row r c).set sl (f (s.slotAt r c sl))) } }

/-- The effect of `record_attempt` on a slot (R160). -/
def Slot.attempted (x : Slot) : Slot :=
  { x with remaining := x.remaining - 1, writable := x.writable && decide (x.remaining - 1 ≠ 0) }

/-- The effect of a pulse on a slot: `.committed <- .committed | b` (R63). -/
def Slot.commit (b : Bool) (x : Slot) : Slot := { x with committed := x.committed || b }

/-- `SLOT_POISON <- 1` (R24, R274). -/
def Slot.poison (x : Slot) : Slot := { x with poisoned := true }

/-- The condition of `select` on one slot (R161). -/
def Slot.selectable (x : Slot) : Bool := decide (0 < x.remaining) && x.writable

/-- `select(r, c)`: the first selectable slot, lowest index first (R161). -/
def State.select (s : State) (r : Region) (c : Nat) : Option Nat := (s.row r c).findIdx? Slot.selectable

/-- `record_attempt(r, c, sl)` (R160). -/
def State.recordAttempt (s : State) (r : Region) (c sl : Nat) : State := s.modifySlot r c sl Slot.attempted

/-- `cell_value(r, c)` (R28). -/
def State.cellValue (s : State) (r : Region) (c : Nat) : Bool := (s.row r c).any (·.committed)

/-- The device's protection flags (R25): a bit is hardwired 0 for a region that is not protectable in the variant the
device reports (log 16). -/
def State.deviceProt (s : State) : BitVec 4 := s.otp.physProt &&& protectMask s.cfg s.cfg.chipId

/-- `PHYS_PROT[r] <- PHYS_PROT[r] | b`, discarded where the bit is hardwired 0 (R25). -/
def State.protectDevice (s : State) (r : Region) (b : Bool) : State :=
  let bit := if b then regionBit r &&& protectMask s.cfg s.cfg.chipId else 0
  { s with otp := { s.otp with physProt := s.otp.physProt ||| bit } }

/-- `PHYS_LOCK <- PHYS_LOCK | b` (R25). -/
def State.lockDevice (s : State) (b : Bool) : State :=
  { s with otp := { s.otp with physLock := s.otp.physLock || b } }

/-! ### The oracle and the counters -/

/-- The macro's answer to the next draw: the next one already fixed, or a free value (R13; log 3). -/
def State.answer (s : State) : Answer :=
  match s.env.oracle with
  | a :: _ => a
  | [] => Config.freeAnswer s.env.draws

/-- The state after a draw. -/
def State.drew (s : State) : State :=
  { s with env := { s.env with oracle := s.env.oracle.tail, draws := s.env.draws + 1 } }

/-- `CNT_MACRO <- CNT_MACRO + 1`, modulo 2^64 (R45). -/
def State.countMacro (s : State) : State := { s with cnt := { s.cnt with macros := s.cnt.macros + 1 } }

/-- The timing of a pulse (R63). -/
inductive Timing where
  | normal
  | soak (duration : BitVec 32)
  deriving DecidableEq, Repr

/-- `CNT_NORMAL` or `CNT_SOAK` counts a pulse, modulo 2^64 (R45, R63). -/
def State.countPulse (s : State) : Timing → State
  | .normal => { s with cnt := { s.cnt with normal := s.cnt.normal + 1 } }
  | .soak _ => { s with cnt := { s.cnt with soak := s.cnt.soak + 1 } }

/-! ### The macro's primitives -/

/-- `MacroUnlock(PASSWORD)` (R62). The password is passed to the macro and changes no state. -/
def macroUnlock (_password : Nat) (s : State) : State := { s.countMacro with macroUnlocked := true }

/-- `MacroRelock()` (R62). -/
def macroRelock (s : State) : State := { s.countMacro with macroUnlocked := false }

/-- `MacroReadId()` (R62): the identifier and the state after the call. -/
def macroReadId (s : State) : Reg × State := (s.cfg.chipId, s.countMacro)

/-- `MacroReadProt()` (R62): the device's flags, its lock and the state after the call. -/
def macroReadProt (s : State) : BitVec 4 × Bool × State := (s.deviceProt, s.otp.physLock, s.countMacro)

/-- `MacroPulse(p, t, timing, margin)` (R63): the status and the state after the call. The margin, and the duration of a
soak pulse, are passed to the macro and change no state; a pulse that does not report READY may have set bits too. -/
def macroPulse (p : Nat) (t : Reg) (timing : Timing) (_margin : BitVec 16) (s : State) : PulseStatus × State :=
  (s.answer.status, (s.drew.countMacro.countPulse timing).orWord p (t &&& s.answer.bits))

/-- `MacroPulseSlot(r, c, sl, b, timing, margin)` (R63). -/
def macroPulseSlot (r : Region) (c sl : Nat) (b : Bool) (timing : Timing) (_margin : BitVec 16) (s : State) :
    PulseStatus × State :=
  (s.answer.status,
    (s.drew.countMacro.countPulse timing).modifySlot r c sl (Slot.commit (b && s.answer.took)))

/-- `MacroRead(p)` (R64): exact, but a fresh draw of `W` bits for a poisoned word. -/
def macroRead (p : Nat) (s : State) : Reg × State :=
  if s.poisoned p then (s.answer.bits &&& wordMask s.cfg, s.drew.countMacro) else (s.word p, s.countMacro)

/-- `slot_bit` for the slots of a row in order: the committed bit, or the slot's draw if it is poisoned (R64). -/
def slotBits (draw : BitVec 256) : Nat → List Slot → List Bool
  | _, [] => []
  | j, x :: xs => (if x.poisoned then draw.getLsbD j else x.committed) :: slotBits draw (j + 1) xs

/-- A read of the row needs a draw: some slot of it is poisoned (R64). -/
def State.rowPoisoned (s : State) (r : Region) (c : Nat) : Bool := (s.row r c).any (·.poisoned)

/-- The cell is set, and no slot of it is poisoned: the state of an already-set unit (R197). -/
def State.cellSet (s : State) (r : Region) (c : Nat) : Bool := s.cellValue r c && !s.rowPoisoned r c

/-- `MacroReadCell(r, c)` (R64): the OR of the row's slot bits, zero-extended. -/
def macroReadCell (r : Region) (c : Nat) (s : State) : Reg × State :=
  (boolWord ((slotBits s.answer.slotBits 0 (s.row r c)).any id),
    (if s.rowPoisoned r c then s.drew else s).countMacro)

/-- `slot_bit(r, c, sl)` (R64): no macro call, so no count. -/
def slotBit (r : Region) (c sl : Nat) (s : State) : Bool × State :=
  if (s.slotAt r c sl).poisoned then (s.answer.slotBits.getLsbD sl, s.drew) else ((s.slotAt r c sl).committed, s)

/-- `MacroProtect(r)` (R65): after a FAULT the flag may or may not have been set. -/
def macroProtect (r : Region) (s : State) : Bool × State :=
  (s.answer.ok, s.drew.countMacro.protectDevice r (s.answer.ok || s.answer.took))

/-- `MacroLockAll()` (R65). -/
def macroLockAll (s : State) : Bool × State :=
  (s.answer.ok, s.drew.countMacro.lockDevice (s.answer.ok || s.answer.took))

/-! ### Registers that commands write -/

/-- The place where the command goes on. -/
def State.atPhase (s : State) (p : Phase) : State := { s with phase := p }

/-- `S <- state` (R11, R182). -/
def State.setEng (s : State) (e : EngState) : State := { s with status := { s.status with engState := e } }

/-- `R[QRESULT] <- v` (R40). -/
def State.setQresult (s : State) (v : Reg) : State := { s with qresult := v }

/-- `BUF[i] <- v` (R42). -/
def State.setBuf (s : State) (i : Nat) (v : Reg) : State := { s with buf := sparseSet 0 s.buf i v }

/-- `OUTCOME[i]` (R42). -/
def State.outcomeAt (s : State) (i : Nat) : OutcomeReg := sparseGet outcomeClear s.outcome i

/-- `OUTCOME[i]` replaced by `f` of it (R42). -/
def State.modifyOutcome (s : State) (i : Nat) (f : OutcomeReg → OutcomeReg) : State :=
  { s with outcome := sparseSet outcomeClear s.outcome i (f (s.outcomeAt i)) }

/-- `R[WORD_INDEX] <- i` (R46, R191). -/
def State.setWordIndex (s : State) (i : Nat) : State := { s with wordIndex := BitVec.ofNat 64 i }

/-- `SNAP.lock <- 1` (R30, R140). -/
def State.snapLock (s : State) : State := { s with snap := { s.snap with lock := true } }

/-- `SNAP.prot[r] <- 1` (R30, R142). -/
def State.snapProtect (s : State) (r : Region) : State :=
  { s with snap := { s.snap with prot := s.snap.prot ||| regionBit r } }

/-- `finish(err, result)` (R44): how every command ends, with an error or without. Nothing else happens on an error: no
state is saved, nothing is masked and control goes nowhere (R244). -/
def finish (err : ErrCode) (result : Aggregate) (s : State) : State :=
  { s with status := { s.status with err := err, result := result, busy := false }, phase := .start }

/-- `raise E` (R11): a refusal by a local check. -/
def raise (err : ErrCode) (s : State) : State := finish err .failure s

/-- Acceptance of a host write to CMD (R96). That it clears ERR and RESULT is R96's and R245's, against R36 and R49, which have
`finish` alone write them (log 28). -/
def accept (v : Reg) (s : State) : State :=
  { s with
    cmdLatch := v
    status := { busy := true, overrun := false, err := .ok, result := .success, engState := .init }
    qresult := 0
    wordIndex := 0
    outcome := []
    phase := .start }

/-! ### Local checks -/

/-- `resolve(v, r, o, n)` on the region's row (R120 to R125), over unbounded naturals. -/
def resolve (info : RegionInfo) (o n : Nat) : ErrCode :=
  if o ≥ info.capacity then .invalidAddress
  else if o % info.alignment ≠ 0 then .alignmentError
  else if o + n > info.capacity then .boundaryError
  else .ok

/-- `write_checks(r, o, n)` (R220, R194): the first failing check, or OK. -/
def writeChecks (r : Region) (o n : Nat) (s : State) : ErrCode :=
  if s.session = .idle then .noSession
  else if s.snap.lock then .memoryLocked
  else if protBit s.snap.prot r then .regionProtected
  else resolve (s.info r) o n

/-- `tracker_checks(r, c)` (R165). -/
def trackerChecks (r : Region) (c : Nat) (s : State) : ErrCode :=
  if s.session = .idle then .noSession
  else if !(s.info r).attemptLimited then .illegalCommand
  else if c ≥ (s.info r).capacity then .invalidAddress
  else .ok

/-! ### Reset -/

/-- Reset (R270, R48): every volatile item at its reset value; the persistent state, the parameters and what the other
agents will still do are kept. -/
def hardReset (s : State) : State :=
  { s with
    session := .idle
    snap := Snap.clear
    macroUnlocked := false
    variant := 0
    cmdLatch := 0
    status := Status.clear
    addr := 0
    len := 0
    soak := ⟨0, 0, 0⟩
    qresult := 0
    cnt := ⟨0, 0, 0⟩
    wordIndex := 0
    buf := []
    outcome := []
    eng := Eng.clear
    phase := .start }

/-! ### The host port -/

/-- The registers of R34. -/
inductive PortReg where
  | cmd
  | status
  | addr
  | len
  | soakPulse
  | soakRetries
  | soakMargin
  | qresult
  | variant
  | defPulse
  | defRetries
  | defMargin
  | cntNormal
  | cntSoak
  | cntMacro
  | wordIndex
  | prot
  | buf (i : Nat)
  | outcome (i : Nat)
  | reserved
  deriving DecidableEq, Repr

/-- The register map (R34). Every index that names no register is reserved (R47). -/
def portReg (c : Config) (idx : PortIndex) : PortReg :=
  match idx.toNat with
  | 0x000 => .cmd
  | 0x001 => .status
  | 0x002 => .addr
  | 0x003 => .len
  | 0x004 => .soakPulse
  | 0x005 => .soakRetries
  | 0x006 => .soakMargin
  | 0x007 => .qresult
  | 0x008 => .variant
  | 0x009 => .defPulse
  | 0x00A => .defRetries
  | 0x00B => .defMargin
  | 0x00C => .cntNormal
  | 0x00D => .cntSoak
  | 0x00E => .cntMacro
  | 0x00F => .wordIndex
  | 0x010 => .prot
  | n =>
    if 0x100 ≤ n ∧ n < 0x100 + c.bufWords then .buf (n - 0x100)
    else if 0x200 ≤ n ∧ n < 0x200 + c.bufWords then .outcome (n - 0x200)
    else .reserved

/-- What the host reads from a register (R34 to R47). -/
def readReg (s : State) : PortReg → Reg
  | .cmd => s.cmdLatch
  | .status => statusWord (s.session = .active) s.status
  | .addr => s.addr
  | .len => s.len
  | .soakPulse => s.soak.pulse.setWidth 64
  | .soakRetries => s.soak.retries.setWidth 64
  | .soakMargin => s.soak.margin.setWidth 64
  | .qresult => s.qresult
  | .variant => s.variant
  | .defPulse => (defaultSoak s.cfg s.variant).pulse.setWidth 64
  | .defRetries => (defaultSoak s.cfg s.variant).retries.setWidth 64
  | .defMargin => (defaultSoak s.cfg s.variant).margin.setWidth 64
  | .cntNormal => s.cnt.normal
  | .cntSoak => s.cnt.soak
  | .cntMacro => s.cnt.macros
  | .wordIndex => s.wordIndex
  | .prot => protWord s.snap
  | .buf i => bufAt s i
  | .outcome i => outcomeWord (s.outcomeAt i)
  | .reserved => 0

/-- What a host write to a register does while no command runs (R35, R37, R38, R42, R47): CMD is accepted as a command,
an operand register stores the bits it has, and every other register ignores the write. -/
def writeReg (s : State) (v : Reg) : PortReg → State
  | .cmd => accept v s
  | .addr => { s with addr := v }
  | .len => { s with len := v }
  | .soakPulse => { s with soak := { s.soak with pulse := v.setWidth 32 } }
  | .soakRetries => { s with soak := { s.soak with retries := v.setWidth 16 } }
  | .soakMargin => { s with soak := { s.soak with margin := v.setWidth 16 } }
  | .buf i => s.setBuf i v
  | .status | .qresult | .variant | .defPulse | .defRetries | .defMargin | .cntNormal | .cntSoak | .cntMacro
  | .wordIndex | .prot | .outcome _ | .reserved => s

/-- `MemRead(idx, 8)` (R69): no side effect; the value goes to the host. -/
def hostRead (idx : PortIndex) (s : State) : State :=
  { s with env := { s.env with hostData := readReg s (portReg s.cfg idx) } }

/-- `MemWrite(idx, 8, v)`: while BUSY = 1 a write to any index only sets OVERRUN (R43). -/
def hostWrite (idx : PortIndex) (v : Reg) (s : State) : State :=
  if s.status.busy then { s with status := { s.status with overrun := true } }
  else writeReg s v (portReg s.cfg idx)

/-! ### The out-of-band agent -/

/-- The out-of-band agent may act (R72): also between two steps of BEGIN_SESSION, whose session is Idle to its last step, so
that the snapshot can be stale from the start, a cause that R77 does not list (log 29). -/
def oobAllowed (s : State) : Bool := decide (s.session = .idle) || s.cfg.oobDuringSession

/-- The device has slot `(r, c, sl)` (R26). -/
def slotExists (s : State) (r : Region) (c sl : Nat) : Bool :=
  let info := regionInfo s.cfg s.cfg.chipId r
  info.attemptLimited && decide (c < info.capacity) && decide (sl < s.cfg.numSlots)

/-- `.remaining <- y` for `y < .remaining`, with `.writable <- 0` if `y = 0` (R72). -/
def Slot.lower (y : Nat) (x : Slot) : Slot :=
  if y < x.remaining then { x with remaining := y, writable := x.writable && decide (y ≠ 0) } else x

/-- One change of R72. A change to a word or slot that does not exist is none (log 17). -/
def oobEffect (s : State) : OobAct → State
  | .setBits p x => if p < s.cfg.arrayWords then s.orWord p (x &&& wordMask s.cfg) else s
  | .protect r => s.protectDevice r true
  | .lockAll => s.lockDevice true
  | .commit r c sl => if slotExists s r c sl then s.modifySlot r c sl (Slot.commit true) else s
  | .lower r c sl y => if slotExists s r c sl then s.modifySlot r c sl (Slot.lower y) else s
  | .retire r c sl => if slotExists s r c sl then s.modifySlot r c sl (fun x => { x with writable := false }) else s

/-- A step of the out-of-band agent, which happens only when it may (R72). -/
def outOfBand (act : OobAct) (s : State) : State := if oobAllowed s then oobEffect s act else s

end Sys2Proof.Machine
end

