-- ==== Sys2Proof/Machine/Plan.lean ====
section
/-! DEFINITION. One controller step (10_state.md R43): what the command does up to its next `Macro*` call. The calls that a
reset can interrupt (70_reset_and_hazards.md R274) are kept apart from their effect, so that one description of the step
serves both the whole step and the interrupted one. -/

namespace Sys2Proof.Machine

/-- What one controller step does. `done` is a step without an interruptible call. The others make one: they hold the
call's arguments, the state in which it is made, and what the same step does with the call's answer (log 7). -/
inductive Plan where
  | done (s : State)
  | stop (f : Fault)
  | pulse (p : Nat) (t : Reg) (timing : Timing) (margin : BitVec 16) (s : State) (k : PulseStatus → State → State)
  | pulseSlot (r : Region) (c sl : Nat) (b : Bool) (timing : Timing) (margin : BitVec 16) (s : State)
      (k : PulseStatus → State → State)
  | protect (r : Region) (s : State) (k : Bool → State → State)
  | lockAll (s : State) (k : Bool → State → State)

/-- A primitive that `requires MACRO_UNLOCKED = 1` (R63, R65). -/
def needUnlocked (s : State) (o : Host.Outcome State Fault Refusal) : Host.Outcome State Fault Refusal :=
  if s.macroUnlocked then o else .fault .macroLocked

/-- The whole step. An attempt of a soak pulse is recorded in the step of the pulse (R160). -/
def Plan.run : Plan → Host.Outcome State Fault Refusal
  | .done s => .next s
  | .stop f => .fault f
  | .pulse p t timing margin s k =>
    needUnlocked s <|
      if p < s.cfg.arrayWords then
        .next (k (macroPulse p t timing margin s).1 (macroPulse p t timing margin s).2)
      else .fault .noSuchWord
  | .pulseSlot r c sl b timing margin s k =>
    needUnlocked s <|
      .next (k (macroPulseSlot r c sl b timing margin s).1 (macroPulseSlot r c sl b timing margin s).2)
  | .protect r s k => needUnlocked s <| .next (k (macroProtect r s).1 (macroProtect r s).2)
  | .lockAll s k => needUnlocked s <| .next (k (macroLockAll s).1 (macroLockAll s).2)

/-- The attempt that an interrupted soak pulse still consumes (R274). -/
def attemptOf (r : Region) (c sl : Nat) (s : State) : Timing → State
  | .normal => s
  | .soak _ => s.recordAttempt r c sl

/-- The step replaced by the combined step of R274, then reset. `s₀` is the state before the step: a step without an
interruptible call leaves nothing but the reset. -/
def Plan.cut (s₀ : State) : Plan → Host.Outcome State Fault Refusal
  | .done _ => .next (hardReset s₀)
  | .stop f => .fault f
  | .pulse p t timing margin s _ =>
    needUnlocked s <|
      if p < s.cfg.arrayWords then .next (hardReset ((macroPulse p t timing margin s).2.poisonWord p))
      else .fault .noSuchWord
  | .pulseSlot r c sl b timing margin s _ =>
    needUnlocked s <|
      .next (hardReset (attemptOf r c sl ((macroPulseSlot r c sl b timing margin s).2.modifySlot r c sl Slot.poison) timing))
  | .protect r s _ => needUnlocked s <| .next (hardReset (s.drew.protectDevice r s.answer.took))
  | .lockAll s _ => needUnlocked s <| .next (hardReset (s.drew.lockDevice s.answer.took))

end Sys2Proof.Machine
end

