-- ==== Sys2Proof/Machine/Engine.lean ====
section
/-! DEFINITION. The program/verify/soak/retry engine (44_program_engine.md R180 to R193). The current unit is
`R[WORD_INDEX]` (10_state.md R21); a command goes on from `State.phase`. -/

namespace Sys2Proof.Machine

/-- A read of unit offset `o` of region `r` for variant `v`, and what the same step does with the value: MacroReadCell for
an attempt-limited region, else MacroRead at `base + o` (R61, R187, R188, R223). -/
def readUnit (v : Reg) (r : Region) (o : Nat) (s : State) (k : Reg → State → State) : Plan :=
  let info := regionInfo s.cfg v r
  if info.attemptLimited then .done (k (macroReadCell r o s).1 (macroReadCell r o s).2)
  else if info.base + o < s.cfg.arrayWords then
    .done (k (macroRead (info.base + o) s).1 (macroRead (info.base + o) s).2)
  else .stop .noSuchWord

/-- The index `i` of the current unit (R46, R191). -/
def unitIndex (s : State) : Nat := s.wordIndex.toNat

/-- The offset `o + i` of the current unit (R191). -/
def unitOff (s : State) : Nat := s.eng.off + unitIndex s

/-- The region of the command, for `v = R[VARIANT]` (R32). -/
def unitInfo (s : State) : RegionInfo := s.info s.eng.region

/-- The target `t` of the current unit (R187, R188). -/
def unitTarget (s : State) : Reg := targetOf s.cfg (unitInfo s) (bufAt s (unitIndex s))

/-- The match of a state of the engine (R181, R183). -/
def unitMatches (rb : Reg) (s : State) : Bool := monotonicMatch rb (unitTarget s)

/-- The bit that the normal pulse on the current cell requests: the target's, but nothing of a cell that is already set, for
then it "requests only bits already set, changes nothing" (90_conflicts.md C14, R197), whatever slot is selected (log 26). -/
def normalRequest (s : State) : Bool :=
  (unitTarget s).getLsbD 0 && !s.cellSet s.eng.region (unitOff s)

/-- `avail` (R183). -/
def unitAvail (s : State) : Bool := soakAvailable s.cfg s.variant s.eng.region (unitOff s)

/-- The kind of `program_op` (R191): SOAK_ONLY for SOAK_PROGRAM (R195), else STD. -/
def soakOnly (s : State) : Bool :=
  match s.eng.op with
  | some (.soakProgram _) => true
  | _ => false

/-- `S <- VERIFY` or `S <- REVERIFY` and its read (R187, R188). -/
def readBack (e : EngState) (at_ : Reg → Phase) (s : State) : Plan :=
  let s := s.setEng e
  readUnit s.variant s.eng.region (unitOff s) s (fun rb s => s.atPhase (at_ rb))

/-- `OUTCOME[i].NORMAL_PULSE <- 1`: the statement after the normal pulse's call, so the first of the next step (R43,
R187). -/
def noteNormalPulse (s : State) : State :=
  s.modifyOutcome (unitIndex s) (fun o => { o with normalPulse := true })

/-- `ENG.k <- ENG.k + 1; OUTCOME[i].SOAK_PULSES <- min(ENG.k, 0xFFFF)`: the statements after a soak pulse's call, so the first
of the next step (R43, R185, R187). -/
def noteSoakPulse (s : State) : State :=
  let s := { s with eng := { s.eng with k := s.eng.k + 1 } }
  s.modifyOutcome (unitIndex s) (fun o => { o with soakPulses := soakPulseBits s.eng.k })

/-- `S <- NORMAL_PROGRAM` and the normal pulse; a cell with no selectable slot gets none and goes to VERIFY (R187, R188,
R186). -/
def normalPulse (s : State) : Plan :=
  let s := s.setEng .normalProgram
  if (unitInfo s).attemptLimited then
    match s.select s.eng.region (unitOff s) with
    | some sl =>
      .pulseSlot s.eng.region (unitOff s) sl (normalRequest s) .normal s.eng.soak.margin
        { s with eng := { s.eng with slot := sl } } (fun st u => u.atPhase (.normalPulsed st))
    | none => readBack .verify .verifyRead s
  else
    .pulse ((unitInfo s).base + unitOff s) (unitTarget s) .normal s.eng.soak.margin s
      (fun st u => u.atPhase (.normalPulsed st))

/-- `if can_soak`, `S <- SOAK_PROGRAM` and the soak pulse, which consumes an attempt in the same step for a cell (R183,
R186 to R188, R160); otherwise `exhausted`. -/
def soakPulse (exhausted : Plan) (s : State) : Plan :=
  let t := s.setEng .soakProgram
  let timing := Timing.soak s.eng.soak.pulse
  if s.eng.k < s.eng.soak.retries.toNat then
    if (unitInfo s).attemptLimited then
      match s.select s.eng.region (unitOff s) with
      | some sl =>
        .pulseSlot s.eng.region (unitOff s) sl ((unitTarget s).getLsbD 0) timing s.eng.soak.margin
          { t with eng := { t.eng with slot := sl } }
          (fun st u => (u.recordAttempt s.eng.region (unitOff s) sl).atPhase (.soakPulsed st))
      | none => exhausted
    else
      .pulse ((unitInfo s).base + unitOff s) (unitTarget s) timing s.eng.soak.margin t
        (fun st u => u.atPhase (.soakPulsed st))
  else exhausted

/-- `OUTCOME[i].CODE <- code` and the final state of the unit (R187, R189). -/
def endUnit (code : OutcomeCode) (s : State) : State :=
  (s.modifyOutcome (unitIndex s) (fun o => { o with code := code })).setEng
    (if unitSucceeded code then .success else .failure)

/-- The end of `program_op` (R191, R192). -/
def finishProgram (s : State) : State := finish s.eng.firstErr (aggregate s.eng.nsucc s.eng.count) s

/-- `abort_unit` and the end of the command under either policy (R187, R191, R193). -/
def abortUnit (code : OutcomeCode) (s : State) : State :=
  let s := endUnit code s
  finish (unitError code) (aggregate s.eng.nsucc s.eng.count) s

/-- The code of an aborting status (R187). -/
def abortCode : PulseStatus → OutcomeCode
  | .timeout => .abortedTimeout
  | _ => .abortedFault

/-- `end_unit` and the loop's case on its result: count a success, or keep the first failure and, under fail-fast, leave
the loop; then `next` (R187, R191). -/
def closeWith (next : State → Plan) (code : OutcomeCode) (s : State) : Plan :=
  let s := endUnit code s
  if unitSucceeded code then next { s with eng := { s.eng with nsucc := s.eng.nsucc + 1 } }
  else
    let s := { s with eng := { s.eng with
      firstErr := if s.eng.firstErr = .ok then unitError code else s.eng.firstErr } }
    if s.eng.policy = .failFast then .done (finishProgram s) else next s

/-- `R[WORD_INDEX] <- i`, `ENG.k <- 0`, `S <- INIT` (R187, R191). -/
def openUnit (i : Nat) (s : State) : State :=
  let s := (s.setWordIndex i).setEng .init
  { s with eng := { s.eng with k := 0 } }

/-- A unit from INIT to its first `Macro*` call, or to its end if it has none (R183, R187, R188). -/
def startUnit (close : OutcomeCode → State → Plan) (s : State) : Plan :=
  if soakOnly s then
    if unitAvail s then soakPulse (close .failedExhausted s) s else close .failedVerify s
  else normalPulse s

/-- The loop of `program_op` with `rem` units to go (R191). -/
def runUnits : Nat → State → Plan
  | 0, s => .done (finishProgram s)
  | rem + 1, s => startUnit (closeWith (runUnits rem)) (openUnit (s.eng.count - (rem + 1)) s)

/-- The current unit ends and the loop goes on (R191). -/
def closeUnit (code : OutcomeCode) (s : State) : Plan :=
  closeWith (runUnits (s.eng.count - (unitIndex s + 1))) code s

/-- After a pulse and its bookkeeping: go on to the read-back if it reported READY, else abort (R183, R187). -/
def afterPulse (st : PulseStatus) (e : EngState) (at_ : Reg → Phase) (s : State) : Plan :=
  match st with
  | .ready => readBack e at_ s
  | _ => .done (abortUnit (abortCode st) s)

/-- The verify read decides (R183, R187). -/
def afterVerify (rb : Reg) (s : State) : Plan :=
  if unitMatches rb s then closeUnit .setNormal s
  else if unitAvail s then
    let s := s.setEng .needsSoak
    soakPulse (closeUnit .failedExhausted s) s
  else closeUnit .failedVerify s

/-- The re-verify read decides (R183, R187). -/
def afterReverify (rb : Reg) (s : State) : Plan :=
  if unitMatches rb s then closeUnit .setSoak s
  else soakPulse (closeUnit .failedExhausted s) (s.setEng .retrySoak)

/-- The engine goes on from where it stands. -/
def engineResume (s : State) : Plan :=
  match s.phase with
  | .normalPulsed st => afterPulse st .verify .verifyRead (noteNormalPulse s)
  | .verifyRead rb => afterVerify rb s
  | .soakPulsed st => afterPulse st .reverify .reverifyRead (noteSoakPulse s)
  | .reverifyRead rb => afterReverify rb s
  | _ => .stop .strayStep

/-- The latches of a unit command: `ENG.op`, `ENG.r`, `ENG.off`, `ENG.n`, `ENG.policy` (R33; log 19). -/
def latchCommand (i : Instr) (n : Nat) (s : State) : State :=
  { s with eng := { s.eng with
      op := some i, region := regionField i, off := offsetOperand s, count := n, policy := policyField i } }

/-- `program_op` (R191) with the SoakConfig latched once for the whole command (R190). -/
def programOp (i : Instr) (n : Nat) (cfg : SoakConfig) (s : State) : Plan :=
  let s := latchCommand i n s
  runUnits n { s with eng := { s.eng with soak := cfg, nsucc := 0, firstErr := .ok } }

/-- A write-class unit command: `write_checks`, then `program_op` (R194, R220). -/
def programCommand (i : Instr) (n : Nat) (cfg : SoakConfig) (s : State) : Plan :=
  match writeChecks (regionField i) (offsetOperand s) n s with
  | .ok => programOp i n cfg s
  | e => .done (raise e s)

/-- SOAK_PROGRAM (R195). -/
def planSoakProgram (r : Region) (s : State) : Plan :=
  match s.phase with
  | .start => programCommand (.soakProgram r) 1 (callerSoak s) s
  | _ => engineResume s

/-- PROGRAM_WITH_SOAK_FALLBACK (R196). -/
def planProgramWithSoakFallback (r : Region) (s : State) : Plan :=
  match s.phase with
  | .start => programCommand (.programWithSoakFallback r) 1 (callerSoak s) s
  | _ => engineResume s

/-- SOAK_PROGRAM (R195). -/
def execSoakProgram (r : Region) (s : State) : Host.Outcome State Fault Refusal := (planSoakProgram r s).run

/-- PROGRAM_WITH_SOAK_FALLBACK (R196). -/
def execProgramWithSoakFallback (r : Region) (s : State) : Host.Outcome State Fault Refusal :=
  (planProgramWithSoakFallback r s).run

end Sys2Proof.Machine
end

