-- ==== Sys2Proof/Machine/Facade.lean ====
section
/-! DEFINITION. The data commands READ, READ_REGION, WRITE and WRITE_REGION (45_facade.md R220 to R228). -/

namespace Sys2Proof.Machine

/-- The end of `read_checks` for variant `v`: `resolve`, then the transfer (R222). Its error is R222's `finish(e, FAILURE)`, not
`raise`, which R11 keeps for before any macro operation. -/
def readResolved (r : Region) (v : Reg) (transfer : Reg → State → Plan) (s : State) : Plan :=
  match resolve (regionInfo s.cfg v r) s.eng.off s.eng.count with
  | .ok => transfer v s
  | e => .done (finish e .failure s)

/-- `read_checks` (R222) at the start of a read. -/
def readChecks (r : Region) (transfer : Reg → State → Plan) (s : State) : Plan :=
  if s.session = .active then readResolved r s.variant transfer s
  else if s.cfg.readWithoutSession then .done ((macroReadId s).2.atPhase (.readIdRead (macroReadId s).1))
  else .done (raise .noSession s)

/-- `read_checks` (R222) after MacroReadId on the session-less path. -/
def readChecksId (vid : Reg) (s : State) : Plan :=
  if knownVariant s.cfg vid then .done ((macroReadProt s).2.2.atPhase (.readProtRead vid (macroReadProt s).1))
  else .done (finish .hardwareFault .failure s)

/-- `read_checks` (R222) after MacroReadProt on the session-less path: a protected region needs a session, and then `resolve`
runs, so that its errors come after two macro calls, as R222's pseudocode (in program order, R12) and R126 have them (`v` is
MacroReadId's result) and R227 does not (log 27). -/
def readChecksProt (r : Region) (vid : Reg) (pp : BitVec 4) (transfer : Reg → State → Plan) (s : State) : Plan :=
  if protBit pp r then .done (finish .noSession .failure s) else readResolved r vid transfer s

/-- One unit read into BUF: `BUF[i] <- zext_64(…)`, whose right side is the step's `Macro*` call (R223, R224; log 7). -/
def readIntoBuf (r : Region) (v : Reg) (i : Nat) (s : State) : Plan :=
  readUnit v r (s.eng.off + i) s (fun x s => (s.setBuf i x).atPhase (.unitRead v))

/-- Unit `i` of READ_REGION, or its end after the last unit (R224). -/
def readRegionUnit (r : Region) (i : Nat) (v : Reg) (s : State) : Plan :=
  if i < s.eng.count then readIntoBuf r v i (s.setWordIndex i) else .done (finish .ok .success s)

/-- READ (R223). -/
def planRead (r : Region) (s : State) : Plan :=
  let transfer (v : Reg) (s : State) : Plan := readIntoBuf r v 0 s
  match s.phase with
  | .start => readChecks r transfer (latchCommand (.read r) 1 s)
  | .readIdRead vid => readChecksId vid s
  | .readProtRead vid pp => readChecksProt r vid pp transfer s
  | .unitRead _ => .done (finish .ok .success s)
  | _ => .stop .strayStep

/-- READ_REGION (R224): `LEN > BUF_WORDS` is refused before the session check. -/
def planReadRegion (r : Region) (s : State) : Plan :=
  match s.phase with
  | .start =>
    if countOperand s > s.cfg.bufWords then .done (raise .illegalCommand s)
    else readChecks r (readRegionUnit r 0) (latchCommand (.readRegion r) (countOperand s) s)
  | .readIdRead vid => readChecksId vid s
  | .readProtRead vid pp => readChecksProt r vid pp (readRegionUnit r 0) s
  | .unitRead v => readRegionUnit r (unitIndex s + 1) v s
  | _ => .stop .strayStep

/-- WRITE (R225), with the compiled-in SoakConfig (R190). -/
def planWrite (r : Region) (s : State) : Plan :=
  match s.phase with
  | .start => programCommand (.write r) 1 (defaultSoak s.cfg s.variant) s
  | _ => engineResume s

/-- WRITE_REGION (R226): `LEN > BUF_WORDS` is refused before the session check. -/
def planWriteRegion (r : Region) (policy : Policy) (s : State) : Plan :=
  match s.phase with
  | .start =>
    if countOperand s > s.cfg.bufWords then .done (raise .illegalCommand s)
    else programCommand (.writeRegion r policy) (countOperand s) (defaultSoak s.cfg s.variant) s
  | _ => engineResume s

/-- READ (R223). -/
def execRead (r : Region) (s : State) : Host.Outcome State Fault Refusal := (planRead r s).run

/-- READ_REGION (R224). -/
def execReadRegion (r : Region) (s : State) : Host.Outcome State Fault Refusal := (planReadRegion r s).run

/-- WRITE (R225). -/
def execWrite (r : Region) (s : State) : Host.Outcome State Fault Refusal := (planWrite r s).run

/-- WRITE_REGION (R226). -/
def execWriteRegion (r : Region) (policy : Policy) (s : State) : Host.Outcome State Fault Refusal :=
  (planWriteRegion r policy s).run

end Sys2Proof.Machine
end

