-- ==== Sys2Proof/Machine/Protection.lean ====
section
/-! DEFINITION. The protection lock register commands (42_protection.md R140 to R145). -/

namespace Sys2Proof.Machine

/-- LOCK (R140). -/
def planLock (s : State) : Plan :=
  match s.phase with
  | .start =>
    if s.session = .idle then .done (raise .noSession s)
    else if s.snap.lock then .done (finish .ok .success s)
    else .lockAll s (fun ok s => s.atPhase (.lockAnswered ok))
  | .lockAnswered ok =>
    if ok then .done (finish .ok .success s.snapLock) else .done (finish .hardwareFault .failure s)
  | _ => .stop .strayStep

/-- IS_LOCKED (R141). -/
def planIsLocked (s : State) : Plan :=
  match s.phase with
  | .start =>
    if s.session = .idle then .done (raise .noSession s)
    else .done (finish .ok .success (s.setQresult (boolWord s.snap.lock)))
  | _ => .stop .strayStep

/-- ENABLE_REGION_PROTECTION (R142). -/
def planEnableRegionProtection (r : Region) (s : State) : Plan :=
  match s.phase with
  | .start =>
    if s.session = .idle then .done (raise .noSession s)
    else if !(s.info r).protectable then .done (raise .illegalCommand s)
    else if s.snap.lock then .done (raise .memoryLocked s)
    else if protBit s.snap.prot r then .done (finish .ok .success s)
    else .protect r s (fun ok s => s.atPhase (.protectAnswered ok))
  | .protectAnswered ok =>
    if ok then .done (finish .ok .success (s.snapProtect r)) else .done (finish .hardwareFault .failure s)
  | _ => .stop .strayStep

/-- IS_REGION_PROTECTED (R143). -/
def planIsRegionProtected (r : Region) (s : State) : Plan :=
  match s.phase with
  | .start =>
    if s.session = .idle then .done (raise .noSession s)
    else .done (finish .ok .success (s.setQresult (boolWord (protBit s.snap.prot r))))
  | _ => .stop .strayStep

/-- LOCK (R140). -/
def execLock (s : State) : Host.Outcome State Fault Refusal := (planLock s).run

/-- IS_LOCKED (R141). -/
def execIsLocked (s : State) : Host.Outcome State Fault Refusal := (planIsLocked s).run

/-- ENABLE_REGION_PROTECTION (R142). -/
def execEnableRegionProtection (r : Region) (s : State) : Host.Outcome State Fault Refusal :=
  (planEnableRegionProtection r s).run

/-- IS_REGION_PROTECTED (R143). -/
def execIsRegionProtected (r : Region) (s : State) : Host.Outcome State Fault Refusal := (planIsRegionProtected r s).run

end Sys2Proof.Machine
end

