-- ==== Sys2Proof/Machine/Session.lean ====
section
/-! DEFINITION. The session commands (41_session.md R130 to R133). -/

namespace Sys2Proof.Machine

/-- BEGIN_SESSION's last statements, on a known variant (R130). The snapshot is what MacroReadProt answered in the step before
(R43); an out-of-band step in between is not in it (log 29). -/
def openSession (vid : Reg) (pp : BitVec 4) (pl : Bool) (s : State) : State :=
  finish .ok .success
    { s with variant := vid, snap := ⟨pp, pl, true⟩, soak := defaultSoak s.cfg vid, session := .active }

/-- END_SESSION's last statements (R131). -/
def closeSession (s : State) : State := finish .ok .success { s with session := .idle, snap := Snap.clear }

/-- BEGIN_SESSION (R130), one `Macro*` call a step. -/
def planBeginSession (s : State) : Plan :=
  match s.phase with
  | .start =>
    if s.session = .active then .done (raise .alreadyActive s)
    else .done ((macroUnlock Config.password s).atPhase .beginUnlocked)
  | .beginUnlocked => .done ((macroReadId s).2.atPhase (.beginIdRead (macroReadId s).1))
  | .beginIdRead vid =>
    if knownVariant s.cfg vid then
      .done ((macroReadProt s).2.2.atPhase (.beginProtRead vid (macroReadProt s).1 (macroReadProt s).2.1))
    else .done ((macroRelock s).atPhase .beginRelocked)
  | .beginRelocked => .done (finish .hardwareFault .failure s)
  | .beginProtRead vid pp pl => .done (openSession vid pp pl s)
  | _ => .stop .strayStep

/-- END_SESSION (R131). It never fails. -/
def planEndSession (s : State) : Plan :=
  match s.phase with
  | .start => .done ((macroRelock s).atPhase .endRelocked)
  | .endRelocked => .done (closeSession s)
  | _ => .stop .strayStep

/-- BEGIN_SESSION (R130). -/
def execBeginSession (s : State) : Host.Outcome State Fault Refusal := (planBeginSession s).run

/-- END_SESSION (R131). -/
def execEndSession (s : State) : Host.Outcome State Fault Refusal := (planEndSession s).run

end Sys2Proof.Machine
end

