-- ==== Sys2Proof/Machine/Tracker.lean ====
section
/-! DEFINITION. The commands that show the write-attempt counter array (43_write_attempt_tracker.md R160 to R166). -/

namespace Sys2Proof.Machine

/-- A tracker command: `tracker_checks`, then the query (R165). -/
def trackerQuery (r : Region) (s : State) (query : Nat → Plan) : Plan :=
  match s.phase with
  | .start =>
    match trackerChecks r (offsetOperand s) s with
    | .ok => query (offsetOperand s)
    | e => .done (raise e s)
  | _ => .stop .strayStep

/-- SELECT_NEXT_WRITABLE (R162). -/
def planSelectNextWritable (r : Region) (s : State) : Plan :=
  trackerQuery r s fun c => .done (finish .ok .success (s.setQresult (selectWord (s.select r c))))

/-- IS_WRITABLE (R163). -/
def planIsWritable (r : Region) (s : State) : Plan :=
  trackerQuery r s fun c => .done (finish .ok .success (s.setQresult (boolWord (s.select r c).isSome)))

/-- READ_SLOT (R164): the committed bit is as read (R64), and no macro call is counted. -/
def planReadSlot (r : Region) (s : State) : Plan :=
  trackerQuery r s fun c =>
    let sl := countOperand s
    if sl ≥ s.cfg.numSlots then .done (raise .invalidAddress s)
    else
      let x := s.slotAt r c sl
      let bit := slotBit r c sl s
      .done (finish .ok .success (bit.2.setQresult (slotWord x.remaining x.writable bit.1)))

/-- SELECT_NEXT_WRITABLE (R162). -/
def execSelectNextWritable (r : Region) (s : State) : Host.Outcome State Fault Refusal := (planSelectNextWritable r s).run

/-- IS_WRITABLE (R163). -/
def execIsWritable (r : Region) (s : State) : Host.Outcome State Fault Refusal := (planIsWritable r s).run

/-- READ_SLOT (R164). -/
def execReadSlot (r : Region) (s : State) : Host.Outcome State Fault Refusal := (planReadSlot r s).run

end Sys2Proof.Machine
end

