-- ==== Sys2Proof/Machine/Dispatch.lean ====
section
/-! DEFINITION. One controller step of a command (10_state.md R43): one arm per command of the opcode map (30_encoding.md
R94). -/

namespace Sys2Proof.Machine

def exec (i : Instr) (s : State) : Host.Outcome State Fault Refusal :=
  match i with
  | .beginSession => Sys2Proof.Machine.execBeginSession s
  | .endSession => Sys2Proof.Machine.execEndSession s
  | .read r => Sys2Proof.Machine.execRead r s
  | .write r => Sys2Proof.Machine.execWrite r s
  | .readRegion r => Sys2Proof.Machine.execReadRegion r s
  | .writeRegion r policy => Sys2Proof.Machine.execWriteRegion r policy s
  | .lock => Sys2Proof.Machine.execLock s
  | .isLocked => Sys2Proof.Machine.execIsLocked s
  | .enableRegionProtection r => Sys2Proof.Machine.execEnableRegionProtection r s
  | .isRegionProtected r => Sys2Proof.Machine.execIsRegionProtected r s
  | .soakProgram r => Sys2Proof.Machine.execSoakProgram r s
  | .programWithSoakFallback r => Sys2Proof.Machine.execProgramWithSoakFallback r s
  | .selectNextWritable r => Sys2Proof.Machine.execSelectNextWritable r s
  | .isWritable r => Sys2Proof.Machine.execIsWritable r s
  | .readSlot r => Sys2Proof.Machine.execReadSlot r s

end Sys2Proof.Machine
end

