-- ==== Sys2Proof/Machine/Agents.lean ====
section
/-! DEFINITION. The turns of the four agents and of resets (00_scope.md R13, 70_reset_and_hazards.md R270, R274), over
`exec`. -/

namespace Sys2Proof.Machine

/-- The step of a command before its interruptible call is made, command by command. `exec` runs the same plan. -/
def planOf : Instr → State → Plan
  | .beginSession, s => planBeginSession s
  | .endSession, s => planEndSession s
  | .read r, s => planRead r s
  | .write r, s => planWrite r s
  | .readRegion r, s => planReadRegion r s
  | .writeRegion r policy, s => planWriteRegion r policy s
  | .lock, s => planLock s
  | .isLocked, s => planIsLocked s
  | .enableRegionProtection r, s => planEnableRegionProtection r s
  | .isRegionProtected r, s => planIsRegionProtected r s
  | .soakProgram r, s => planSoakProgram r s
  | .programWithSoakFallback r, s => planProgramWithSoakFallback r s
  | .selectNextWritable r, s => planSelectNextWritable r s
  | .isWritable r, s => planIsWritable r s
  | .readSlot r, s => planReadSlot r s

/-- The controller's turn while a command runs: decode the latched word (R97) and take one step of the command. A word
that is no command ends at once with IllegalCommand and no macro call. -/
def commandStep (s : State) : Host.Outcome State Fault Refusal :=
  match decode s.cmdLatch with
  | .ok i => exec i s
  | .error _ => .next (raise .illegalCommand s)

/-- The controller's turn. With no command running it waits for the host (R270; log 5). -/
def controllerTurn (s : State) : Host.Outcome State Fault Refusal := if s.status.busy then commandStep s else .next s

/-- A reset that interrupts the controller's next step (R274). -/
def interruptedTurn (s : State) : Host.Outcome State Fault Refusal :=
  if s.status.busy then
    match decode s.cmdLatch with
    | .ok i => (planOf i s).cut s
    | .error _ => .next (hardReset s)
  else .next (hardReset s)

/-- One move of an agent (R13). -/
def deliver (s : State) : Event → Host.Outcome State Fault Refusal
  | .hostWrite idx v => .next (hostWrite idx v s)
  | .hostRead idx => .next (hostRead idx s)
  | .controller => controllerTurn s
  | .outOfBand act => .next (outOfBand act s)
  | .reset => .next (hardReset s)
  | .resetDuringStep => interruptedTurn s

/-- The next move: the first of the inbox, or the controller's turn when nothing waits there (log 5). -/
def nextMove (s : State) : Host.Outcome State Fault Refusal :=
  match s.env.inbox with
  | [] => controllerTurn s
  | e :: es => deliver { s with env := { s.env with inbox := es } } e

/-- The command word `w` accepted (R96), with no other move waiting before it runs (log 6). -/
def issue (w : Reg) (s : State) : State := accept w { s with env := { s.env with inbox := [] } }

end Sys2Proof.Machine
end

