-- ==== Sys2Proof/Machine/Step.lean ====
section
/-! DEFINITION. One step of the machine: one move of one agent (00_scope.md R13), under a legal configuration. -/

namespace Sys2Proof.Machine

/-- One step. A configuration that fails the predicate of R66, or holds a value that R8 does not allow, is refused
(log 14). -/
def step (s : State) : Host.Outcome State Fault Refusal :=
  if s.cfg.legal then nextMove s else .refused .illegalConfiguration

/-- `s` with the command word `w` accepted, so that the next step decodes and runs it (R96, R97; log 6). The controller
fetches from no memory (R76): CMD_LATCH is where the next command is read. -/
def State.withFetchWord (s : State) (nbits w : Nat) : State := issue (BitVec.ofNat 64 (w % 2 ^ nbits)) s

end Sys2Proof.Machine
end

