-- ==== Sys2Proof/Safety.lean ====
section
/-! DEFINITION. What the statements speak of: the order in which persistent state only ever grows (20_memory.md R78), the
invariant of a legal machine, and runs of several controller steps of one command. -/

namespace Sys2Proof.Machine

/-! ### The monotonic laws -/

/-- What R78 allows of one slot: `.committed` and `SLOT_POISON` only rise, `.writable` only falls, `.remaining` never
increases. -/
structure SlotGrows (x y : Slot) : Prop where
  committed : x.committed = true → y.committed = true
  poisoned : x.poisoned = true → y.poisoned = true
  writable : y.writable = true → x.writable = true
  remaining : y.remaining ≤ x.remaining

/-- What R78 allows of the persistent state between `s` and `t`, for the same device. -/
structure PersistentGrows (s t : State) : Prop where
  cfg : t.cfg = s.cfg
  array : ∀ p, s.word p &&& t.word p = s.word p
  poison : ∀ p, s.poisoned p = true → t.poisoned p = true
  prot : s.otp.physProt &&& t.otp.physProt = s.otp.physProt
  lock : s.otp.physLock = true → t.otp.physLock = true
  slots : ∀ r c sl, SlotGrows (s.slotAt r c sl) (t.slotAt r c sl)

/-! ### The invariant -/

/-- The persistent state has its canonical form and holds only what the device has: words inside the array and inside `W`
bits (R23), rows of NUM_SLOTS slots whose counts never exceed INIT_ATTEMPTS and whose writable slots have an attempt left
(R26, R161), and no flag of a non-protectable region (R25). -/
structure DeviceOk (s : State) : Prop where
  memWf : Memory.wf s.otp.mem = true
  poisonWf : sparseWf false s.otp.poison = true
  slotsWf : sparseWf (factoryRow s.cfg) s.otp.slots = true
  wordsInside : ∀ p, s.cfg.arrayWords ≤ p → s.word p = 0
  wordsFit : ∀ p, s.word p &&& wordMask s.cfg = s.word p
  rowLength : ∀ r c, (s.row r c).length = s.cfg.numSlots
  slotCount : ∀ r c, ∀ x ∈ s.row r c, x.remaining ≤ s.cfg.initAttempts
  slotWritable : ∀ r c, ∀ x ∈ s.row r c, x.writable = true → 0 < x.remaining
  protWired : s.otp.physProt &&& protectMask s.cfg s.cfg.chipId = s.otp.physProt

/-- BUF and OUTCOME have their canonical form, and no register at or above BUF_WORDS exists (R42, R47). -/
structure RegsOk (s : State) : Prop where
  bufWf : sparseWf 0 s.buf = true
  outcomeWf : sparseWf outcomeClear s.outcome = true
  bufInside : ∀ i, s.cfg.bufWords ≤ i → bufAt s i = 0
  outcomeInside : ∀ i, s.cfg.bufWords ≤ i → s.outcomeAt i = outcomeClear

/-- Where MACRO_UNLOCKED is 1 (R31): in a session, but from BEGIN_SESSION's unlock and until END_SESSION's relock. -/
def unlockedNow (s : State) : Bool :=
  match s.phase with
  | .beginUnlocked | .beginIdRead _ | .beginProtRead _ _ _ => true
  | .beginRelocked | .endRelocked => false
  | _ => decide (s.session = .active)

/-- The session, its snapshot and its variant agree with the device (R29 to R32, R77). -/
structure SessionOk (s : State) : Prop where
  valid : s.snap.valid = decide (s.session = .active)
  idleClear : s.session = .idle → s.snap = Snap.clear
  protLe : s.snap.prot &&& s.deviceProt = s.snap.prot
  lockLe : s.snap.lock = true → s.otp.physLock = true
  variantKnown : s.session = .active → s.variant = s.cfg.chipId ∧ knownVariant s.cfg s.cfg.chipId = true
  unlocked : s.macroUnlocked = unlockedNow s

/-- Command `i` is running (R35, R43, R97). -/
def running (s : State) (i : Instr) : Prop := s.status.busy = true ∧ decode s.cmdLatch = .ok i

/-- The commands that reach the engine (R180). -/
def isProgram : Instr → Bool
  | .write _ | .writeRegion _ _ | .soakProgram _ | .programWithSoakFallback _ => true
  | _ => false

/-- READ or READ_REGION is running, with its operands latched (R33, R222 to R224). -/
def reading (s : State) : Prop :=
  ∃ r, (running s (.read r) ∧ s.eng.count = 1 ∨ running s (.readRegion r)) ∧ s.eng.region = r
    ∧ s.eng.count ≤ s.cfg.bufWords

/-- An engine command is running unit `R[WORD_INDEX]` of its `ENG.n`, all inside the region, past its local checks
(R180, R185, R191). -/
structure Programming (s : State) (i : Instr) : Prop where
  running : running s i
  program : isProgram i = true
  op : s.eng.op = some i
  region : s.eng.region = regionField i
  active : s.session = .active
  notLocked : s.snap.lock = false
  notProtected : protBit s.snap.prot s.eng.region = false
  inside : s.eng.off + s.eng.count ≤ (s.info s.eng.region).capacity
  unit : unitIndex s < s.eng.count
  bufs : s.eng.count ≤ s.cfg.bufWords
  pulses : s.eng.k ≤ s.eng.soak.retries.toNat
  successes : s.eng.nsucc ≤ unitIndex s

/-- The place where the command stands is one of its own, and its local values are what the last `Macro*` call gave. After a
soak pulse `ENG.k` does not count it yet (R43). -/
def PhaseOk (s : State) : Prop :=
  match s.phase with
  | .start => True
  | .beginUnlocked => running s .beginSession ∧ s.session = .idle
  | .beginIdRead vid => running s .beginSession ∧ s.session = .idle ∧ vid = s.cfg.chipId
  | .beginRelocked => running s .beginSession ∧ s.session = .idle
  | .beginProtRead vid pp pl =>
    running s .beginSession ∧ s.session = .idle ∧ vid = s.cfg.chipId ∧ knownVariant s.cfg vid = true
      ∧ pp &&& s.deviceProt = pp ∧ (pl = true → s.otp.physLock = true)
  | .endRelocked => running s .endSession
  | .lockAnswered ok => running s .lock ∧ s.session = .active ∧ (ok = true → s.otp.physLock = true)
  | .protectAnswered ok =>
    ∃ r, running s (.enableRegionProtection r) ∧ s.session = .active
      ∧ (ok = true → regionBit r &&& s.deviceProt = regionBit r)
  | .readIdRead vid => reading s ∧ s.session = .idle ∧ vid = s.cfg.chipId
  | .readProtRead vid _ => reading s ∧ s.session = .idle ∧ vid = s.cfg.chipId ∧ knownVariant s.cfg vid = true
  | .unitRead v =>
    reading s ∧ v = s.cfg.chipId ∧ knownVariant s.cfg v = true
      ∧ s.eng.off + s.eng.count ≤ (regionInfo s.cfg v s.eng.region).capacity
  | .normalPulsed _ | .verifyRead _ => ∃ i, Programming s i ∧ s.eng.k = 0
  | .soakPulsed _ => ∃ i, Programming s i ∧ s.eng.k < s.eng.soak.retries.toNat
  | .reverifyRead _ => ∃ i, Programming s i ∧ 1 ≤ s.eng.k

/-- The invariant of a machine under a legal configuration. It holds after reset, and every step of every agent keeps
it. -/
structure State.Inv (s : State) : Prop where
  legal : s.cfg.legal = true
  device : DeviceOk s
  regs : RegsOk s
  session : SessionOk s
  phase : PhaseOk s
  idleStart : s.status.busy = false → s.phase = .start

/-! ### Runs of one command -/

/-- `n` controller steps of command `i`, with no other agent's move between them. -/
def execSteps (i : Instr) : Nat → State → Host.Outcome State Fault Refusal
  | 0, s => .next s
  | n + 1, s =>
    match exec i s with
    | .next t => execSteps i n t
    | .fault f => .fault f
    | .refused f => .refused f

/-- The engine commands whose units begin with a normal pulse (kind STD; R191, R196, R225, R226). -/
def startsNormal : Instr → Bool
  | .write _ | .writeRegion _ _ | .programWithSoakFallback _ => true
  | _ => false

/-- The unit count `n` of a data or engine command: LEN for READ_REGION and WRITE_REGION, else 1 (R126). -/
def unitCount : Instr → State → Nat
  | .writeRegion _ _, s | .readRegion _, s => s.len.toNat
  | _, _ => 1

/-- Where an engine command takes its SoakConfig from (R190). -/
def soakSource : Instr → State → SoakConfig
  | .soakProgram _, s | .programWithSoakFallback _, s => s.soak
  | _, s => defaultSoak s.cfg s.variant

/-- The engine latches as `program_op` sets them for command `i` before its first unit (R33, R190, R191). `ENG.slot` is
kept. -/
def engAt (i : Instr) (s : State) : Eng :=
  ⟨some i, regionField i, s.addr.toNat, unitCount i s, policyField i, soakSource i s, 0, 0, .ok, s.eng.slot⟩

/-- Engine command `i` at its start, past every local check, with the macro unlocked (R31, R220, R224, R226). -/
structure ReadyToProgram (s : State) (i : Instr) : Prop where
  start : s.phase = .start
  legal : s.cfg.legal = true
  active : s.session = .active
  unlocked : s.macroUnlocked = true
  notLocked : s.snap.lock = false
  notProtected : protBit s.snap.prot (regionField i) = false
  count : unitCount i s ≤ s.cfg.bufWords
  inside : s.addr.toNat < (s.info (regionField i)).capacity
  aligned : s.addr.toNat % (s.info (regionField i)).alignment = 0
  fits : s.addr.toNat + unitCount i s ≤ (s.info (regionField i)).capacity

/-- STATUS after `finish(err, result)` (R44). -/
def finished (err : ErrCode) (result : Aggregate) (st : Status) : Status :=
  { st with err := err, result := result, busy := false }

/-- The errors of the local checks (R227). -/
def isLocalError : ErrCode → Bool
  | .illegalCommand | .noSession | .alreadyActive | .memoryLocked | .regionProtected | .invalidAddress
  | .alignmentError | .boundaryError => true
  | _ => false

/-- The `j`-th of the macro's answers still to come (R13; log 3). -/
def State.answerAt (s : State) (j : Nat) : Answer :=
  match s.env.oracle[j]? with
  | some a => a
  | none => Config.freeAnswer (s.env.draws + j)

end Sys2Proof.Machine
end

