-- ==== Sys2Proof/Certificates/Slice0/Obligations.lean ====
section
/-! DEFINITION. The statements for the provers. A next state is given as a record update of the state before, so that each
statement about an instruction is its frame as well: every field that is not named is unchanged. -/

open Sys2Proof Sys2Proof.Machine

/-! ### Encoding and decoding -/

/-- 30_encoding.md R91, R92, R93, R94, R97: a word decodes to a command exactly when it is that command's encoding; no bit
of the word is dropped or free. -/
def Obligations.DecodeExactlyInvertsEncode : Prop :=
  ∀ (w : Reg) (i : Instr), decode w = .ok i ↔ w = encode i

/-- 30_encoding.md R102: its words, and its illegal examples. -/
def Obligations.ListedWordsDecode : Prop :=
  decode 0x1 = .ok .beginSession ∧ decode 0x2 = .ok .endSession ∧ decode 0x7 = .ok .lock ∧ decode 0x8 = .ok .isLocked ∧
  decode 0x3 = .ok (.read .bulkData) ∧ decode 0x103 = .ok (.read .configuration) ∧
  decode 0x203 = .ok (.read .strap) ∧ decode 0x303 = .ok (.read .security) ∧
  decode 0x4 = .ok (.write .bulkData) ∧ decode 0x104 = .ok (.write .configuration) ∧
  decode 0x204 = .ok (.write .strap) ∧ decode 0x304 = .ok (.write .security) ∧
  decode 0x5 = .ok (.readRegion .bulkData) ∧
  decode 0x6 = .ok (.writeRegion .bulkData .continueOnError) ∧ decode 0x406 = .ok (.writeRegion .bulkData .failFast) ∧
  decode 0x106 = .ok (.writeRegion .configuration .continueOnError) ∧
  decode 0x506 = .ok (.writeRegion .configuration .failFast) ∧
  decode 0x109 = .ok (.enableRegionProtection .configuration) ∧ decode 0x9 = .ok (.enableRegionProtection .bulkData) ∧
  decode 0x10A = .ok (.isRegionProtected .configuration) ∧
  decode 0xB = .ok (.soakProgram .bulkData) ∧ decode 0xC = .ok (.programWithSoakFallback .bulkData) ∧
  decode 0x20D = .ok (.selectNextWritable .strap) ∧ decode 0x20E = .ok (.isWritable .strap) ∧
  decode 0x20F = .ok (.readSlot .strap) ∧
  decode 0x0 = .error .reservedOpcode ∧ decode 0x10 = .error .reservedOpcode ∧ decode 0x107 = .error .strayRegion ∧
  decode 0x404 = .error .strayPolicy ∧ decode 0x800 = .error .reservedBits

/-- spec/opcode_table.json and 30_encoding.md R97: the words the decoder takes are the words of the table's rows, and no word
is of two rows. -/
def Obligations.LegalWordsAreTheTablesRows : Prop :=
  (∀ w : Reg, legalWord w = true ↔ ∃ i, decode w = .ok i) ∧
  opcodeRows.Pairwise fun a b => ∀ w : Reg, ¬ (a.covers w = true ∧ b.covers w = true)

/-- 30_encoding.md R97, R98: which words are refused, by their bits, and what a refused word does: it ends the command with
IllegalCommand, makes no macro call and changes only STATUS. -/
def Obligations.IllegalWordsEndWithIllegalCommand : Prop :=
  (∀ w : Reg, (∃ e, decode w = .error e) ↔
    (w >>> 11 ≠ 0 ∨ w.extractLsb' 0 8 = 0 ∨ 0x0F < (w.extractLsb' 0 8).toNat
      ∨ ((w.extractLsb' 0 8 = 0x01 ∨ w.extractLsb' 0 8 = 0x02 ∨ w.extractLsb' 0 8 = 0x07 ∨ w.extractLsb' 0 8 = 0x08)
          ∧ w.extractLsb' 8 2 ≠ 0)
      ∨ (w.extractLsb' 0 8 ≠ 0x06 ∧ w.getLsbD 10 = true)))
  ∧ ∀ (s : State) (e : Reject), s.cfg.legal = true → s.env.inbox = [] → s.status.busy = true →
      decode s.cmdLatch = .error e →
      step s = .next { s with status := finished .illegalCommand .failure s.status, phase := .start }

/-! ### Steps -/

/-- 10_state.md R43, 30_encoding.md R97: while a command runs, a step is `exec` of the latched word's command, on the state
itself when no other agent's move waits, and on the state without the move when the controller's turn is the next move. -/
def Obligations.StepRunsTheDecodedCommand : Prop :=
  ∀ (s : State) (i : Instr), s.cfg.legal = true → s.status.busy = true → decode s.cmdLatch = .ok i →
    (s.env.inbox = [] → step s = exec i s)
    ∧ ∀ es, s.env.inbox = .controller :: es → step s = exec i { s with env := { s.env with inbox := es } }

/-- 30_encoding.md R96, R97: a word that the host writes to CMD while no command runs is the next command that runs:
accepted in one step, and `exec` of its command in the next. -/
def Obligations.WrittenCommandRunsNext : Prop :=
  ∀ (s : State) (w : Reg) (i : Instr), s.cfg.legal = true → s.status.busy = false → decode w = .ok i →
    s.env.inbox = [.hostWrite 0 w] →
    step s = .next (s.withFetchWord 64 w.toNat) ∧
    step (s.withFetchWord 64 w.toNat) = exec i (s.withFetchWord 64 w.toNat)

/-! ### The host port -/

/-- 30_encoding.md R96: acceptance of a command word, and what it clears (ERR and RESULT too, where the model follows R96 and
not R49: log 28). -/
def Obligations.AcceptanceClearsTheResults : Prop :=
  ∀ (s : State) (v : Reg), s.status.busy = false →
    ∃ t, hostWrite 0 v s = t ∧
      t = { s with
        cmdLatch := v, qresult := 0, wordIndex := 0, outcome := t.outcome, phase := .start,
        status := ⟨true, false, .ok, .success, .init⟩ } ∧
      ∀ i, t.outcomeAt i = outcomeClear

/-- 10_state.md R43: a host write while BUSY = 1, to any index, has no effect on its target and sets OVERRUN. -/
def Obligations.BusyWritesOnlySetOverrun : Prop :=
  ∀ (s : State) (idx : PortIndex) (v : Reg) (es : List Event), s.cfg.legal = true → s.status.busy = true →
    s.env.inbox = .hostWrite idx v :: es →
    step s = .next { s with status := { s.status with overrun := true }, env := { s.env with inbox := es } }

/-- 10_state.md R34, R47: which indices are reserved or read-only; writes to them are ignored while no command runs, and a
reserved index reads 0. -/
def Obligations.ReservedAndReadOnlyIgnoreWrites : Prop :=
  ∀ (s : State) (idx : PortIndex) (v : Reg), s.cfg.bufWords ≤ 256 →
    let n := idx.toNat
    let operand := (0x002 ≤ n ∧ n ≤ 0x006) ∨ (0x100 ≤ n ∧ n < 0x100 + s.cfg.bufWords)
    let listed := n ≤ 0x010 ∨ (0x100 ≤ n ∧ n < 0x100 + s.cfg.bufWords) ∨ (0x200 ≤ n ∧ n < 0x200 + s.cfg.bufWords)
    (s.status.busy = false → n ≠ 0 → ¬ operand → hostWrite idx v s = s) ∧
    (¬ listed → readReg s (portReg s.cfg idx) = 0)

/-- 10_state.md R37, R38, R42: an operand register reads back the bits it stores, and a write to it changes no other
register. -/
def Obligations.OperandRegistersHoldWhatIsWritten : Prop :=
  ∀ (s : State) (v : Reg), s.status.busy = false → s.cfg.bufWords ≤ 256 →
    hostWrite 0x002 v s = { s with addr := v } ∧
    hostWrite 0x003 v s = { s with len := v } ∧
    hostWrite 0x004 v s = { s with soak := { s.soak with pulse := v.extractLsb' 0 32 } } ∧
    hostWrite 0x005 v s = { s with soak := { s.soak with retries := v.extractLsb' 0 16 } } ∧
    hostWrite 0x006 v s = { s with soak := { s.soak with margin := v.extractLsb' 0 16 } } ∧
    (∀ i < s.cfg.bufWords,
      ∃ t, hostWrite (BitVec.ofNat 12 (0x100 + i)) v s = t ∧ t = { s with buf := t.buf } ∧
        ∀ j, bufAt t j = if j = i then v else bufAt s j) ∧
    (∀ k : Fin 5, ∀ idx : PortIndex, idx = BitVec.ofNat 12 (2 + k) →
      readReg (hostWrite idx v s) (portReg s.cfg idx) =
        if k.val ≤ 1 then v else if k.val = 2 then v &&& 0xFFFFFFFF else v &&& 0xFFFF)

/-- 20_memory.md R69, R60, 10_state.md R34, R35, R37, R38, R39, R40, R42, R45, R46: a host read has no side effect on the
controller or the device; it only delivers a value. The value at each index that names no flag register is the stored item: CMD
the last accepted word, the operands, QRESULT, VARIANT, the variant's defaults (0 for an unknown variant), the counters,
WORD_INDEX and BUF[i]. -/
def Obligations.HostReadsHaveNoSideEffect : Prop :=
  (∀ (s : State) (idx : PortIndex) (es : List Event), s.cfg.legal = true → s.env.inbox = .hostRead idx :: es →
    ∃ v, step s = .next { s with env := { s.env with inbox := es, hostData := v } } ∧
      v = readReg s (portReg s.cfg idx)) ∧
  ∀ s : State, s.cfg.bufWords ≤ 256 →
    let read (n : Nat) : Reg := readReg s (portReg s.cfg (BitVec.ofNat 12 n))
    read 0x000 = s.cmdLatch ∧ read 0x002 = s.addr ∧ read 0x003 = s.len ∧
    read 0x004 = s.soak.pulse.setWidth 64 ∧ read 0x005 = s.soak.retries.setWidth 64 ∧
    read 0x006 = s.soak.margin.setWidth 64 ∧ read 0x007 = s.qresult ∧ read 0x008 = s.variant ∧
    (∀ u, variantOf s.cfg s.variant = some u →
      read 0x009 = u.soak.pulse.setWidth 64 ∧ read 0x00A = u.soak.retries.setWidth 64 ∧
      read 0x00B = u.soak.margin.setWidth 64) ∧
    (variantOf s.cfg s.variant = none → read 0x009 = 0 ∧ read 0x00A = 0 ∧ read 0x00B = 0) ∧
    read 0x00C = s.cnt.normal ∧ read 0x00D = s.cnt.soak ∧ read 0x00E = s.cnt.macros ∧ read 0x00F = s.wordIndex ∧
    ∀ i < s.cfg.bufWords, read (0x100 + i) = bufAt s i

/-- 10_state.md R34, R36, R29, R41, R42, 44_program_engine.md R182, R189, R192, 60_exceptions.md R240: the fields of STATUS
(index 0x001), of PROT (index 0x010; 0 without a valid snapshot) and of OUTCOME[i] (index 0x200 + i), the codes that they hold
by name, and every reserved bit reads 0. -/
def Obligations.FlagRegistersReadTheirFields : Prop :=
  (∀ s : State,
    (let w := readReg s (portReg s.cfg 0x001);
      w.getLsbD 0 = s.status.busy ∧ w.getLsbD 1 = decide (s.session = .active) ∧ w.getLsbD 2 = s.status.overrun ∧
      w.getLsbD 3 = false ∧ w.extractLsb' 4 4 = errBits s.status.err ∧ w.extractLsb' 8 2 = resultBits s.status.result ∧
      w.extractLsb' 10 2 = 0 ∧ w.extractLsb' 12 4 = engBits s.status.engState ∧ w >>> 16 = 0) ∧
    (let w := readReg s (portReg s.cfg 0x010);
      (s.snap.valid = false → w = 0) ∧
      (s.snap.valid = true →
        w.extractLsb' 0 4 = s.snap.prot ∧ w.extractLsb' 4 4 = 0 ∧ w.getLsbD 8 = s.snap.lock ∧ w.extractLsb' 9 6 = 0 ∧
        w.getLsbD 15 = true ∧ w >>> 16 = 0)) ∧
    (s.cfg.bufWords ≤ 256 → ∀ i < s.cfg.bufWords, let w := readReg s (portReg s.cfg (BitVec.ofNat 12 (0x200 + i)));
      w.extractLsb' 0 4 = outcomeBits (s.outcomeAt i).code ∧ w.extractLsb' 4 4 = 0 ∧
      w.extractLsb' 8 16 = (s.outcomeAt i).soakPulses ∧ w.getLsbD 24 = (s.outcomeAt i).normalPulse ∧ w >>> 25 = 0)) ∧
  errBits .ok = 0 ∧ errBits .invalidAddress = 1 ∧ errBits .alignmentError = 2 ∧ errBits .boundaryError = 3 ∧
  errBits .regionProtected = 4 ∧ errBits .memoryLocked = 5 ∧ errBits .noSession = 6 ∧ errBits .alreadyActive = 7 ∧
  errBits .writeExhausted = 8 ∧ errBits .verificationFailed = 9 ∧ errBits .timeout = 10 ∧ errBits .hardwareFault = 11 ∧
  errBits .illegalCommand = 12 ∧
  resultBits .success = 0 ∧ resultBits .partialFailure = 1 ∧ resultBits .failure = 2 ∧
  engBits .init = 0 ∧ engBits .normalProgram = 1 ∧ engBits .verify = 2 ∧ engBits .needsSoak = 3 ∧
  engBits .soakProgram = 4 ∧ engBits .reverify = 5 ∧ engBits .retrySoak = 6 ∧ engBits .success = 7 ∧ engBits .failure = 8 ∧
  outcomeBits .notAttempted = 0 ∧ outcomeBits .setNormal = 1 ∧ outcomeBits .setSoak = 2 ∧
  outcomeBits .failedExhausted = 3 ∧ outcomeBits .failedVerify = 4 ∧ outcomeBits .abortedTimeout = 5 ∧
  outcomeBits .abortedFault = 6

/-! ### Reset -/

/-- 70_reset_and_hazards.md R270, 10_state.md R48: a reset between two steps sets every volatile item in one step and
leaves every persistent item, the parameters and the other agents alone. ENG is unspecified after it. -/
def Obligations.ResetSetsVolatileKeepsPersistent : Prop :=
  ∀ (s : State) (es : List Event), s.cfg.legal = true → s.env.inbox = .reset :: es →
    ∃ t, step s = .next t ∧
      t = { s with
        session := .idle, snap := ⟨0, false, false⟩, macroUnlocked := false, variant := 0, cmdLatch := 0,
        status := ⟨false, false, .ok, .success, .init⟩, addr := 0, len := 0, soak := ⟨0, 0, 0⟩, qresult := 0,
        cnt := ⟨0, 0, 0⟩, wordIndex := 0, buf := t.buf, outcome := t.outcome, eng := t.eng, phase := .start,
        env := { s.env with inbox := es } } ∧
      ∀ i, bufAt t i = 0 ∧ t.outcomeAt i = ⟨.notAttempted, 0, false⟩

/-- 70_reset_and_hazards.md R271, 10_state.md R39: after a reset every register reads 0, but when 0 is a variant the DEF
registers read its defaults. -/
def Obligations.RegistersReadZeroAfterReset : Prop :=
  ∀ (s : State) (idx : PortIndex),
    (knownVariant s.cfg 0 = false → readReg (hardReset s) (portReg s.cfg idx) = 0) ∧
    ∀ u, variantOf s.cfg 0 = some u → readReg (hardReset s) (portReg s.cfg idx) =
      if idx = 0x009 then u.soak.pulse.setWidth 64
      else if idx = 0x00A then u.soak.retries.setWidth 64
      else if idx = 0x00B then u.soak.margin.setWidth 64
      else 0

/-- 70_reset_and_hazards.md R272: the factory state, in which the model's `State.reset` stands: that it does is the model's
choice (log 10). -/
def Obligations.ResetStandsInTheFactoryState : Prop :=
  let s := State.reset
  (∀ p, s.word p = 0) ∧ (∀ p, s.poisoned p = false) ∧ s.deviceProt = 0 ∧ s.otp.physLock = false ∧
  (∀ r c, s.row r c = List.replicate s.cfg.numSlots
    ⟨s.cfg.initAttempts, decide (0 < s.cfg.initAttempts), false, false⟩)

/-- 70_reset_and_hazards.md R274: a reset that interrupts a pulse on a word keeps the bits the pulse set, poisons the word
and resets every volatile item. -/
def Obligations.InterruptedPulsePoisonsTheWord : Prop :=
  ∀ (s u : State) (i : Instr) (p : Nat) (t : Reg) (tm : Timing) (mg : BitVec 16) (k : PulseStatus → State → State),
    s.status.busy = true → decode s.cmdLatch = .ok i → planOf i s = .pulse p t tm mg u k →
    u.macroUnlocked = true → p < u.cfg.arrayWords →
    ∃ v, deliver s .resetDuringStep = .next v ∧ v.word p = s.word p ||| (t &&& s.answer.bits) ∧
      (∀ a, a / 8 ≠ p → v.otp.mem.read a = s.otp.mem.read a) ∧
      (∀ q, v.poisoned q = if q = p then true else s.poisoned q) ∧
      v = hardReset { s with
        otp := { s.otp with mem := v.otp.mem, poison := v.otp.poison }, env := s.drew.env }

/-- 70_reset_and_hazards.md R274, 43_write_attempt_tracker.md R160: a reset that interrupts a pulse on a slot keeps the bit
the pulse set, poisons the slot, consumes the attempt of a soak pulse, and resets every volatile item. -/
def Obligations.InterruptedPulsePoisonsTheSlot : Prop :=
  ∀ (s u : State) (i : Instr) (r : Region) (c sl : Nat) (b : Bool) (tm : Timing) (mg : BitVec 16)
    (k : PulseStatus → State → State),
    s.status.busy = true → decode s.cmdLatch = .ok i → planOf i s = .pulseSlot r c sl b tm mg u k →
    u.macroUnlocked = true → sl < (s.row r c).length →
    ∃ v, deliver s .resetDuringStep = .next v ∧
      (v.slotAt r c sl).committed = ((s.slotAt r c sl).committed || (b && s.answer.took)) ∧
      (v.slotAt r c sl).poisoned = true ∧
      (v.slotAt r c sl).remaining = (s.slotAt r c sl).remaining - (if tm = .normal then 0 else 1) ∧
      (tm = .normal → (v.slotAt r c sl).writable = (s.slotAt r c sl).writable) ∧
      (tm ≠ .normal → (v.slotAt r c sl).writable =
        ((s.slotAt r c sl).writable && decide (1 < (s.slotAt r c sl).remaining))) ∧
      (∀ r' c' sl', ¬ (r' = r ∧ c' = c ∧ sl' = sl) → v.slotAt r' c' sl' = s.slotAt r' c' sl') ∧
      v = hardReset { s with otp := { s.otp with slots := v.otp.slots }, env := s.drew.env }

/-- 70_reset_and_hazards.md R274, 10_state.md R25: a reset that interrupts LOCK's or ENABLE_REGION_PROTECTION's macro call either
keeps its flag or does not, and resets every volatile item. That a flag of a region not protectable in the variant CHIP_ID
names stays 0 is log 16's reading of R25. -/
def Obligations.InterruptedProtectOrLockMayTakeEffect : Prop :=
  ∀ (s u : State) (i : Instr), s.status.busy = true → decode s.cmdLatch = .ok i → u.macroUnlocked = true →
    (∀ k, planOf i s = .lockAll u k → deliver s .resetDuringStep =
      .next (hardReset { s with
        otp := { s.otp with physLock := s.otp.physLock || s.answer.took }, env := s.drew.env })) ∧
    (∀ r k, planOf i s = .protect r u k → deliver s .resetDuringStep =
      .next (hardReset { s with
        otp := { s.otp with physProt := s.otp.physProt |||
          (if s.answer.took then regionBit r &&& protectMask s.cfg s.cfg.chipId else 0) }, env := s.drew.env }))

/-! ### Session commands -/

/-- 41_session.md R130: BEGIN_SESSION of a known variant runs in four steps and three macro calls to an Active session with
the device's snapshot and the variant's default SoakConfig, and changes nothing else. -/
def Obligations.BeginSessionOpensASession : Prop :=
  ∀ s : State, s.phase = .start → s.session = .idle → knownVariant s.cfg s.cfg.chipId = true →
    ∃ s₁ s₂ s₃, exec .beginSession s = .next s₁ ∧ exec .beginSession s₁ = .next s₂ ∧ exec .beginSession s₂ = .next s₃ ∧
      exec .beginSession s₃ = .next { s with
        session := .active
        macroUnlocked := true
        variant := s.cfg.chipId
        snap := ⟨s.deviceProt, s.otp.physLock, true⟩
        soak := defaultSoak s.cfg s.cfg.chipId
        cnt := { s.cnt with macros := s.cnt.macros + 3 }
        status := finished .ok .success s.status }

/-- 41_session.md R130, R133: BEGIN_SESSION while Active is refused without a macro call, and the session is unaffected; on an
unknown variant it makes three macro calls, relocks the macro, leaves the session Idle and reports HardwareFault. -/
def Obligations.BeginSessionRefusals : Prop :=
  ∀ s : State, s.phase = .start →
    (s.session = .active → exec .beginSession s = .next { s with status := finished .alreadyActive .failure s.status }) ∧
    (s.session = .idle → knownVariant s.cfg s.cfg.chipId = false →
      ∃ s₁ s₂ s₃, exec .beginSession s = .next s₁ ∧ exec .beginSession s₁ = .next s₂ ∧ exec .beginSession s₂ = .next s₃ ∧
        exec .beginSession s₃ = .next { s with
          macroUnlocked := false
          cnt := { s.cnt with macros := s.cnt.macros + 3 }
          status := finished .hardwareFault .failure s.status })

/-- 41_session.md R131: END_SESSION, from any session state, relocks the macro, goes Idle, drops the snapshot and reports
OK, with one macro call. -/
def Obligations.EndSessionAlwaysRelocks : Prop :=
  ∀ s : State, s.phase = .start →
    ∃ s₁, exec .endSession s = .next s₁ ∧
      exec .endSession s₁ = .next { s with
        session := .idle
        snap := ⟨0, false, false⟩
        macroUnlocked := false
        cnt := { s.cnt with macros := s.cnt.macros + 1 }
        status := finished .ok .success s.status }

/-- 10_state.md R29, 41_session.md R133: only BEGIN_SESSION (to Active) and END_SESSION (to Idle) change the session. -/
def Obligations.OnlySessionCommandsChangeTheSession : Prop :=
  ∀ (i : Instr) (s t : State), exec i s = .next t → t.session ≠ s.session →
    (i = .beginSession ∧ t.session = .active) ∨ (i = .endSession ∧ t.session = .idle)

/-- 41_session.md R132: without a session every command but BEGIN_SESSION and END_SESSION reports NoSession before any macro
call and any other check, but for the LEN check of the region transfers and for session-less reads. -/
def Obligations.CommandsNeedASession : Prop :=
  ∀ (i : Instr) (s : State), s.phase = .start → s.session = .idle → i ≠ .beginSession → i ≠ .endSession →
    (∀ r, i = .read r ∨ i = .readRegion r → s.cfg.readWithoutSession = false) →
    (∀ r p, i = .readRegion r ∨ i = .writeRegion r p → s.len.toNat ≤ s.cfg.bufWords) →
    ∃ e, exec i s = .next { s with eng := e, status := finished .noSession .failure s.status }

/-! ### Protection commands -/

/-- 42_protection.md R140, 20_memory.md R65: LOCK in a session whose snapshot is not locked asks the macro; on OK the device
and the snapshot are locked, on FAULT the command reports HardwareFault, the snapshot stays, and the device may or may not
be locked. LOCK of a locked device is a success without a macro call. -/
def Obligations.LockSetsTheLock : Prop :=
  ∀ s : State, s.phase = .start → s.session = .active →
    (s.macroUnlocked = true → s.snap.lock = false → ∃ s₁, exec .lock s = .next s₁ ∧
      exec .lock s₁ = .next { s with
        otp := { s.otp with physLock := s.otp.physLock || (s.answer.ok || s.answer.took) }
        snap := { s.snap with lock := s.answer.ok }
        cnt := { s.cnt with macros := s.cnt.macros + 1 }
        env := s.drew.env
        status := if s.answer.ok then finished .ok .success s.status else finished .hardwareFault .failure s.status }) ∧
    (s.snap.lock = true → exec .lock s = .next { s with status := finished .ok .success s.status })

/-- 42_protection.md R141, R143, 10_state.md R40: IS_LOCKED answers the snapshot's lock, and IS_REGION_PROTECTED the snapshot's
flag of the region, in QRESULT, without a macro call. -/
def Obligations.ProtectionQueriesAnswerTheSnapshot : Prop :=
  ∀ (r : Region) (s : State), s.phase = .start → s.session = .active →
    exec .isLocked s = .next { s with
      qresult := if s.snap.lock then 1 else 0, status := finished .ok .success s.status } ∧
    exec (.isRegionProtected r) s = .next { s with
      qresult := if protBit s.snap.prot r then 1 else 0, status := finished .ok .success s.status }

/-- 42_protection.md R142, 20_memory.md R65, 10_state.md R25: ENABLE_REGION_PROTECTION of a protectable region that is not
protected asks the macro; on OK the device's flag and the snapshot's flag of that region are set and no other, on FAULT the
command reports HardwareFault and the snapshot stays. -/
def Obligations.EnableProtectionSetsTheRegionsFlag : Prop :=
  ∀ (r : Region) (s : State), s.phase = .start → s.session = .active → s.macroUnlocked = true →
    s.variant = s.cfg.chipId → (s.info r).protectable = true → s.snap.lock = false → protBit s.snap.prot r = false →
    ∃ s₁ t, exec (.enableRegionProtection r) s = .next s₁ ∧ exec (.enableRegionProtection r) s₁ = .next t ∧
      (∀ r', protBit t.otp.physProt r' =
        (protBit s.otp.physProt r' || (decide (r' = r) && (s.answer.ok || s.answer.took)))) ∧
      (∀ r', protBit t.snap.prot r' = (protBit s.snap.prot r' || (decide (r' = r) && s.answer.ok))) ∧
      t = { s with
        otp := { s.otp with physProt := t.otp.physProt }
        snap := { s.snap with prot := t.snap.prot }
        cnt := { s.cnt with macros := s.cnt.macros + 1 }
        env := s.drew.env
        status := if s.answer.ok then finished .ok .success s.status else finished .hardwareFault .failure s.status }

/-- 42_protection.md R142: ENABLE_REGION_PROTECTION's refusals in their order, and the success without a macro call on a
region already protected. -/
def Obligations.EnableProtectionChecksInOrder : Prop :=
  ∀ (r : Region) (s : State), s.phase = .start → s.session = .active →
    ((s.info r).protectable = false →
      exec (.enableRegionProtection r) s = .next { s with status := finished .illegalCommand .failure s.status }) ∧
    ((s.info r).protectable = true → s.snap.lock = true →
      exec (.enableRegionProtection r) s = .next { s with status := finished .memoryLocked .failure s.status }) ∧
    ((s.info r).protectable = true → s.snap.lock = false → protBit s.snap.prot r = true →
      exec (.enableRegionProtection r) s = .next { s with status := finished .ok .success s.status })

/-- 42_protection.md R144: no step of any agent clears a flag or the lock of the device, and while the snapshot stays valid
no step clears one of its flags or its lock. -/
def Obligations.ProtectionIsOneWay : Prop :=
  ∀ s t : State, s.Inv → step s = .next t →
    (∀ r, protBit s.otp.physProt r = true → protBit t.otp.physProt r = true) ∧
    (s.otp.physLock = true → t.otp.physLock = true) ∧
    (s.snap.valid = true → t.snap.valid = true →
      (∀ r, protBit s.snap.prot r = true → protBit t.snap.prot r = true) ∧
      (s.snap.lock = true → t.snap.lock = true))

/-! ### Tracker commands -/

/-- 43_write_attempt_tracker.md R161, R162, 10_state.md R40: SELECT_NEXT_WRITABLE answers the lowest slot that has an attempt
left and is writable, with bit 8 set, or 0 when there is none. -/
def Obligations.SelectAnswersTheFirstWritableSlot : Prop :=
  ∀ (r : Region) (s : State), s.phase = .start → s.session = .active → s.cfg.numSlots ≤ 255 →
    (s.info r).attemptLimited = true → s.addr.toNat < (s.info r).capacity →
    (s.row r s.addr.toNat).length = s.cfg.numSlots →
    let good (sl : Nat) : Prop :=
      0 < (s.slotAt r s.addr.toNat sl).remaining ∧ (s.slotAt r s.addr.toNat sl).writable = true
    ∃ q, exec (.selectNextWritable r) s = .next { s with qresult := q, status := finished .ok .success s.status } ∧
      ((∀ sl < s.cfg.numSlots, ¬ good sl) → q = 0) ∧
      (∀ sl < s.cfg.numSlots, good sl → (∀ j < sl, ¬ good j) → q = BitVec.ofNat 64 (0x100 + sl))

/-- 43_write_attempt_tracker.md R161, R163: IS_WRITABLE answers 1 exactly when some slot of the cell has an attempt left and
is writable. -/
def Obligations.IsWritableAnswersWhetherASlotRemains : Prop :=
  ∀ (r : Region) (s : State), s.phase = .start → s.session = .active → (s.info r).attemptLimited = true →
    s.addr.toNat < (s.info r).capacity → (s.row r s.addr.toNat).length = s.cfg.numSlots →
    ∃ q, exec (.isWritable r) s = .next { s with qresult := q, status := finished .ok .success s.status } ∧
      (q = 0 ∨ q = 1) ∧
      (q = 1 ↔ ∃ sl < s.cfg.numSlots,
        0 < (s.slotAt r s.addr.toNat sl).remaining ∧ (s.slotAt r s.addr.toNat sl).writable = true)

/-- 43_write_attempt_tracker.md R164, 10_state.md R40, 20_memory.md R64: READ_SLOT shows the slot's fields and counts no macro
call; the committed bit of a poisoned slot is a free draw. -/
def Obligations.ReadSlotShowsTheSlot : Prop :=
  ∀ (r : Region) (s : State), s.phase = .start → s.session = .active → (s.info r).attemptLimited = true →
    s.addr.toNat < (s.info r).capacity → s.len.toNat < s.cfg.numSlots →
    let x := s.slotAt r s.addr.toNat s.len.toNat
    ∃ q, exec (.readSlot r) s = .next { s with
        qresult := q, status := finished .ok .success s.status, env := if x.poisoned then s.drew.env else s.env } ∧
      q.extractLsb' 0 32 = BitVec.ofNat 32 x.remaining ∧ q.getLsbD 32 = x.writable ∧
      q.getLsbD 33 = (if x.poisoned then s.answer.slotBits.getLsbD s.len.toNat else x.committed) ∧ q >>> 34 = 0

/-- 43_write_attempt_tracker.md R164, R165: the refusals of the tracker commands in a session, in their order. -/
def Obligations.TrackerChecksInOrder : Prop :=
  ∀ (r : Region) (i : Instr) (s : State), s.phase = .start → s.session = .active →
    i = .selectNextWritable r ∨ i = .isWritable r ∨ i = .readSlot r →
    ((s.info r).attemptLimited = false →
      exec i s = .next { s with status := finished .illegalCommand .failure s.status }) ∧
    ((s.info r).attemptLimited = true → (s.info r).capacity ≤ s.addr.toNat →
      exec i s = .next { s with status := finished .invalidAddress .failure s.status }) ∧
    ((s.info r).attemptLimited = true → s.addr.toNat < (s.info r).capacity → i = .readSlot r →
      s.cfg.numSlots ≤ s.len.toNat →
      exec i s = .next { s with status := finished .invalidAddress .failure s.status })

/-! ### Local address checks -/

/-- 40_region_map.md R120 to R124: `resolve`, case by case. -/
def Obligations.ResolveClassifiesRequests : Prop :=
  ∀ (info : RegionInfo) (o n : Nat),
    (resolve info o n = .invalidAddress ↔ info.capacity ≤ o) ∧
    (resolve info o n = .alignmentError ↔ o < info.capacity ∧ o % info.alignment ≠ 0) ∧
    (resolve info o n = .boundaryError ↔ o < info.capacity ∧ o % info.alignment = 0 ∧ info.capacity < o + n) ∧
    (resolve info o n = .ok ↔ o < info.capacity ∧ o % info.alignment = 0 ∧ o + n ≤ info.capacity) ∧
    resolve info o 1 ≠ .boundaryError

/-! ### Read commands -/

/-- 45_facade.md R223, 20_memory.md R64: READ of a region that is not attempt-limited, in a session, delivers the word at
`base + offset` (a free draw if it is poisoned) in BUF[0], with one macro call. -/
def Obligations.ReadDeliversTheWord : Prop :=
  ∀ (r : Region) (s : State), s.phase = .start → s.session = .active → s.cfg.legal = true →
    (s.info r).attemptLimited = false → s.addr.toNat < (s.info r).capacity →
    s.addr.toNat % (s.info r).alignment = 0 →
    let p := (s.info r).base + s.addr.toNat
    ∃ s₁ t, exec (.read r) s = .next s₁ ∧ exec (.read r) s₁ = .next t ∧
      t = { s with
        buf := t.buf, eng := t.eng, cnt := { s.cnt with macros := s.cnt.macros + 1 },
        env := if s.poisoned p then s.drew.env else s.env, status := finished .ok .success s.status } ∧
      ∀ j, bufAt t j =
        if j = 0 then (if s.poisoned p then s.answer.bits &&& wordMask s.cfg else s.word p) else bufAt s j

/-- 45_facade.md R223, 10_state.md R28, 20_memory.md R64: READ of an attempt-limited region, in a session, delivers the cell's
logical value in BUF[0] when no slot of the cell is poisoned, and 0 or 1 in any case. -/
def Obligations.ReadDeliversTheCellsValue : Prop :=
  ∀ (r : Region) (s : State), s.phase = .start → s.session = .active → (s.info r).attemptLimited = true →
    s.addr.toNat < (s.info r).capacity → s.addr.toNat % (s.info r).alignment = 0 →
    ∃ s₁ t, exec (.read r) s = .next s₁ ∧ exec (.read r) s₁ = .next t ∧
      t = { s with
        buf := t.buf, eng := t.eng, cnt := { s.cnt with macros := s.cnt.macros + 1 }, env := t.env,
        status := finished .ok .success s.status } ∧
      (∀ j, j ≠ 0 → bufAt t j = bufAt s j) ∧ (bufAt t 0 = 0 ∨ bufAt t 0 = 1) ∧
      (s.rowPoisoned r s.addr.toNat = false →
        t.env = s.env ∧ bufAt t 0 = if (s.row r s.addr.toNat).any (·.committed) then 1 else 0)

/-- 45_facade.md R224, 10_state.md R28, R43, 20_memory.md R64: READ_REGION of `n` units, in a session. The first step reads the
first unit into BUF[0] (a free draw if a word is poisoned; 0 or 1 for a cell; that BUF[0] holds it at the end of the read's own
step is log 7's reading) and the command is still running. Where nothing
is poisoned, `n + 1` steps fill BUF[0] to BUF[n-1] with the units from the offset on, leave the other BUF registers, and make
`n` macro calls. -/
def Obligations.ReadRegionFillsTheBuffers : Prop :=
  ∀ (r : Region) (s : State), s.phase = .start → s.session = .active → s.cfg.legal = true →
    s.len.toNat ≤ s.cfg.bufWords → s.addr.toNat < (s.info r).capacity →
    s.addr.toNat % (s.info r).alignment = 0 → s.addr.toNat + s.len.toNat ≤ (s.info r).capacity →
    let p := (s.info r).base + s.addr.toNat
    let c := s.addr.toNat
    let limited := (s.info r).attemptLimited
    let value (j : Nat) : Reg := if limited then (if s.cellValue r (c + j) then 1 else 0) else s.word (p + j)
    (1 ≤ s.len.toNat → ∃ t, exec (.readRegion r) s = .next t ∧
      t = { s with
        buf := t.buf, eng := t.eng, wordIndex := 0, phase := .unitRead s.variant,
        cnt := { s.cnt with macros := s.cnt.macros + 1 }, env := t.env } ∧
      (∀ j, j ≠ 0 → bufAt t j = bufAt s j) ∧
      (limited = false → t.env = (if s.poisoned p then s.drew.env else s.env) ∧
        bufAt t 0 = if s.poisoned p then s.answer.bits &&& wordMask s.cfg else s.word p) ∧
      (limited = true → (bufAt t 0 = 0 ∨ bufAt t 0 = 1) ∧
        (s.rowPoisoned r c = false → t.env = s.env ∧ bufAt t 0 = value 0))) ∧
    ((∀ j < s.len.toNat, (if limited then s.rowPoisoned r (c + j) else s.poisoned (p + j)) = false) →
      ∃ t, execSteps (.readRegion r) (s.len.toNat + 1) s = .next t ∧
        t = { s with
          buf := t.buf, eng := t.eng, wordIndex := if s.len.toNat = 0 then s.wordIndex else s.len - 1,
          cnt := { s.cnt with macros := s.cnt.macros + s.len }, status := finished .ok .success s.status } ∧
        ∀ j, bufAt t j = if j < s.len.toNat then value j else bufAt s j)

/-- 45_facade.md R222: with READ_WITHOUT_SESSION and no session, READ and READ_REGION of a protected region report NoSession
after two macro calls, and on an unknown variant HardwareFault after one. On an unprotected region the errors of `resolve` come
after the two macro calls (the model follows R222 and not R227 here: log 27), and a read of `n` units that passes `resolve`
takes `n + 3` steps and two macro calls more than in a session. SESSION, SNAP, VARIANT and MACRO_UNLOCKED are unchanged. -/
def Obligations.SessionlessReadPath : Prop :=
  ∀ (r : Region) (i : Instr) (s : State), s.phase = .start → s.session = .idle → s.cfg.legal = true →
    s.cfg.readWithoutSession = true → i = .read r ∨ i = .readRegion r ∧ s.len.toNat ≤ s.cfg.bufWords →
    let info := regionInfo s.cfg s.cfg.chipId r
    let n := unitCount i s
    let c := s.addr.toNat
    let p := info.base + c
    let value (j : Nat) : Reg :=
      if info.attemptLimited then (if s.cellValue r (c + j) then 1 else 0) else s.word (p + j)
    (knownVariant s.cfg s.cfg.chipId = false →
      ∃ s₁ e, exec i s = .next s₁ ∧ exec i s₁ = .next { s with
        eng := e, cnt := { s.cnt with macros := s.cnt.macros + 1 },
        status := finished .hardwareFault .failure s.status }) ∧
    (knownVariant s.cfg s.cfg.chipId = true →
      (protBit s.deviceProt r = true →
        ∃ s₁ s₂ e, exec i s = .next s₁ ∧ exec i s₁ = .next s₂ ∧ exec i s₂ = .next { s with
          eng := e, cnt := { s.cnt with macros := s.cnt.macros + 2 },
          status := finished .noSession .failure s.status }) ∧
      (protBit s.deviceProt r = false → ∀ err, resolve info c n = err → err ≠ .ok →
        ∃ s₁ s₂ e, exec i s = .next s₁ ∧ exec i s₁ = .next s₂ ∧ exec i s₂ = .next { s with
          eng := e, cnt := { s.cnt with macros := s.cnt.macros + 2 },
          status := finished err .failure s.status }) ∧
      (protBit s.deviceProt r = false → resolve info c n = .ok →
        (∀ j < n, (if info.attemptLimited then s.rowPoisoned r (c + j) else s.poisoned (p + j)) = false) →
        ∃ t, execSteps i (n + 3) s = .next t ∧
          t = { s with
            buf := t.buf, eng := t.eng
            wordIndex := if i = .read r ∨ n = 0 then s.wordIndex else BitVec.ofNat 64 (n - 1)
            cnt := { s.cnt with macros := s.cnt.macros + BitVec.ofNat 64 (n + 2) }
            status := finished .ok .success s.status } ∧
          ∀ j, bufAt t j = if j < n then value j else bufAt s j))

/-- 45_facade.md R223, R224, R228: the refusals of READ and READ_REGION in a session: LEN above BUF_WORDS, then the error of
`resolve`; none makes a macro call. -/
def Obligations.ReadChecksInOrder : Prop :=
  ∀ (r : Region) (i : Instr) (s : State), s.phase = .start → i = .read r ∨ i = .readRegion r →
    (i = .readRegion r → s.cfg.bufWords < s.len.toNat →
      exec i s = .next { s with status := finished .illegalCommand .failure s.status }) ∧
    (s.session = .active → (i = .readRegion r → s.len.toNat ≤ s.cfg.bufWords) →
      ∀ e, resolve (s.info r) s.addr.toNat (unitCount i s) = e → e ≠ .ok →
        ∃ eng, exec i s = .next { s with eng := eng, status := finished e .failure s.status })

/-- 45_facade.md R224, R226: a region transfer of LEN = 0 units at an offset inside the region succeeds without a macro
call. -/
def Obligations.EmptyTransfersSucceed : Prop :=
  ∀ (r : Region) (i : Instr) (s : State), s.phase = .start → s.session = .active → s.len = 0 →
    i = .readRegion r ∨ (∃ p, i = .writeRegion r p) ∧ s.snap.lock = false ∧ protBit s.snap.prot r = false →
    s.addr.toNat < (s.info r).capacity → s.addr.toNat % (s.info r).alignment = 0 →
    ∃ eng, exec i s = .next { s with eng := eng, status := finished .ok .success s.status }

/-! ### Write-class commands -/

/-- 45_facade.md R220, R228, 44_program_engine.md R194: the refusals of the four engine commands in a session, in their order;
none makes a macro call. -/
def Obligations.WriteChecksInOrder : Prop :=
  ∀ (i : Instr) (s : State), s.phase = .start → isProgram i = true →
    let r := regionField i
    let refusal (e : ErrCode) : Prop := exec i s = .next { s with status := finished e .failure s.status }
    ((∃ p, i = .writeRegion r p) → s.cfg.bufWords < s.len.toNat → refusal .illegalCommand) ∧
    (((∃ p, i = .writeRegion r p) → s.len.toNat ≤ s.cfg.bufWords) →
      (s.session = .idle → refusal .noSession) ∧
      (s.session = .active → s.snap.lock = true → refusal .memoryLocked) ∧
      (s.session = .active → s.snap.lock = false → protBit s.snap.prot r = true → refusal .regionProtected) ∧
      (s.session = .active → s.snap.lock = false → protBit s.snap.prot r = false →
        ∀ e, resolve (s.info r) s.addr.toNat (unitCount i s) = e → e ≠ .ok → refusal e))

/-- 10_state.md R43, 44_program_engine.md R187, R190, R191, 20_memory.md R63: WRITE, WRITE_REGION and PROGRAM_WITH_SOAK_FALLBACK on a region
that is not attempt-limited begin with one normal pulse on the word at `base + offset`, which sets a free subset of the
requested bits of BUF[0] and reports a free status. The step ends with the call, so OUTCOME does not show the pulse yet. -/
def Obligations.NormalPulseOnAWord : Prop :=
  ∀ (i : Instr) (s : State), startsNormal i = true → ReadyToProgram s i → 1 ≤ unitCount i s →
    (s.info (regionField i)).attemptLimited = false →
    let p := (s.info (regionField i)).base + s.addr.toNat
    ∃ t, exec i s = .next t ∧
      t.word p = s.word p ||| (bufAt s 0 &&& wordMask s.cfg &&& s.answer.bits) ∧
      (∀ a, a / 8 ≠ p → t.otp.mem.read a = s.otp.mem.read a) ∧
      t = { s with
        otp := { s.otp with mem := t.otp.mem }
        cnt := { s.cnt with normal := s.cnt.normal + 1, macros := s.cnt.macros + 1 }
        status := { s.status with engState := .normalProgram }
        wordIndex := 0
        eng := engAt i s
        phase := .normalPulsed s.answer.status
        env := s.drew.env }

/-- 10_state.md R43, 44_program_engine.md R186, R188, 20_memory.md R63: on an attempt-limited region they begin with one normal pulse on the
cell's first selectable slot, which consumes no attempt, changes no slot of a cell that is already set and poison-free (log 26),
and which OUTCOME does not show yet; when no slot is selectable, they issue no pulse and read the cell
back in the first step. -/
def Obligations.NormalPulseOnACell : Prop :=
  ∀ (i : Instr) (s : State), startsNormal i = true → ReadyToProgram s i → 1 ≤ unitCount i s →
    (s.info (regionField i)).attemptLimited = true →
    let r := regionField i
    let c := s.addr.toNat
    (∀ sl, s.select r c = some sl → ∃ t, exec i s = .next t ∧
      (∀ r' c' sl', t.slotAt r' c' sl' =
        if r' = r ∧ c' = c ∧ sl' = sl then
          { s.slotAt r c sl with
            committed := (s.slotAt r c sl).committed ||
              ((bufAt s 0).getLsbD 0 && !(s.cellValue r c && !s.rowPoisoned r c) && s.answer.took) }
        else s.slotAt r' c' sl') ∧
      t = { s with
        otp := { s.otp with slots := t.otp.slots }
        cnt := { s.cnt with normal := s.cnt.normal + 1, macros := s.cnt.macros + 1 }
        status := { s.status with engState := .normalProgram }
        wordIndex := 0
        eng := { engAt i s with slot := sl }
        phase := .normalPulsed s.answer.status
        env := s.drew.env }) ∧
    (s.select r c = none → ∃ t rb, exec i s = .next t ∧
      (s.rowPoisoned r c = false → rb = (if s.cellValue r c then 1 else 0) ∧ t.env = s.env) ∧
      t = { s with
        cnt := { s.cnt with macros := s.cnt.macros + 1 }
        status := { s.status with engState := .verify }
        wordIndex := 0
        eng := engAt i s
        phase := .verifyRead rb
        env := t.env })

/-- 10_state.md R43, 44_program_engine.md R183, R187, R188, R189, R195, 43_write_attempt_tracker.md R160: SOAK_PROGRAM, with soak
available at the offset and at least one retry, begins with a soak pulse and no normal pulse: on the word of a region that is
not attempt-limited, or on the first selectable slot of a cell, which consumes one attempt whatever the pulse reports. The step
ends with the call, so ENG.k and OUTCOME do not count the pulse yet. When the pulse reports READY and the re-verify matches (on
a poison-free word or cell), the command ends SET_SOAK with OK and SUCCESS in the third step, with one soak pulse and one
read. -/
def Obligations.SoakProgramBeginsWithASoakPulse : Prop :=
  ∀ (r : Region) (s : State), ReadyToProgram s (.soakProgram r) →
    soakAvailable s.cfg s.variant r s.addr.toNat = true → 0 < s.soak.retries.toNat →
    let p := (s.info r).base + s.addr.toNat
    let c := s.addr.toNat
    let d := bufAt s 0 &&& wordMask s.cfg
    let begun (t : State) : State := { s with
      otp := t.otp
      cnt := { s.cnt with soak := s.cnt.soak + 1, macros := s.cnt.macros + 1 }
      status := { s.status with engState := .soakProgram }
      wordIndex := 0
      eng := { engAt (.soakProgram r) s with slot := t.eng.slot }
      phase := .soakPulsed s.answer.status
      env := s.drew.env }
    let ended (t : State) : Prop :=
      t = { s with
        otp := t.otp
        cnt := { s.cnt with soak := s.cnt.soak + 1, macros := s.cnt.macros + 2 }
        status := { finished .ok .success s.status with engState := .success }
        wordIndex := 0, outcome := t.outcome, eng := t.eng, env := s.drew.env } ∧
      ∀ j, t.outcomeAt j =
        if j = 0 then { s.outcomeAt 0 with code := .setSoak, soakPulses := 1 } else s.outcomeAt j
    let pulsedWord (t : State) : Prop :=
      t.otp = { s.otp with mem := t.otp.mem } ∧ t.word p = s.word p ||| (d &&& s.answer.bits) ∧
      ∀ a, a / 8 ≠ p → t.otp.mem.read a = s.otp.mem.read a
    let pulsedSlot (sl : Nat) (t : State) : Prop :=
      t.otp = { s.otp with slots := t.otp.slots } ∧
      ∀ r' c' sl', t.slotAt r' c' sl' =
        if r' = r ∧ c' = c ∧ sl' = sl then
          { s.slotAt r c sl with
            remaining := (s.slotAt r c sl).remaining - 1
            writable := decide ((s.slotAt r c sl).remaining ≠ 1)
            committed := (s.slotAt r c sl).committed || ((bufAt s 0).getLsbD 0 && s.answer.took) }
        else s.slotAt r' c' sl'
    ((s.info r).attemptLimited = false →
      (∃ t, exec (.soakProgram r) s = .next t ∧ t = begun t ∧ t.eng.slot = s.eng.slot ∧ pulsedWord t) ∧
      (s.poisoned p = false → s.answer.status = .ready → (s.word p ||| (d &&& s.answer.bits)) &&& d = d →
        ∃ t, execSteps (.soakProgram r) 3 s = .next t ∧ ended t ∧ pulsedWord t)) ∧
    (∀ sl, (s.info r).attemptLimited = true → s.select r c = some sl →
      (∃ t, exec (.soakProgram r) s = .next t ∧ t = begun t ∧ t.eng.slot = sl ∧ pulsedSlot sl t) ∧
      (s.rowPoisoned r c = false → s.answer.status = .ready →
        (s.cellValue r c || !(bufAt s 0).getLsbD 0 || s.answer.took) = true →
        ∃ t, execSteps (.soakProgram r) 3 s = .next t ∧ ended t ∧ pulsedSlot sl t))

/-- 44_program_engine.md R195, R183: SOAK_PROGRAM issues no pulse when soak is not available (VerificationFailed), and none
when there is no retry or no selectable slot (WriteExhausted). -/
def Obligations.SoakProgramWithoutAPulse : Prop :=
  ∀ (r : Region) (s : State), ReadyToProgram s (.soakProgram r) →
    let avail := soakAvailable s.cfg s.variant r s.addr.toNat
    let canSoak := 0 < s.soak.retries.toNat ∧ ((s.info r).attemptLimited = true → s.select r s.addr.toNat ≠ none)
    (avail = false ∨ ¬ canSoak) →
    ∃ t, exec (.soakProgram r) s = .next t ∧
      t = { s with
        status := { s.status with
          err := if avail then .writeExhausted else .verificationFailed
          result := .failure, busy := false, engState := .failure }
        wordIndex := 0, outcome := t.outcome, eng := t.eng } ∧
      ∀ j, t.outcomeAt j =
        if j = 0 then { s.outcomeAt 0 with code := if avail then .failedExhausted else .failedVerify }
        else s.outcomeAt j

/-- 44_program_engine.md R183, R187, R189, R196, R197, R199, 45_facade.md R225: WRITE or PROGRAM_WITH_SOAK_FALLBACK on a
poison-free word whose pulses report READY. When the normal pulse's verify matches (so also when the bits were set before), the
command ends SET_NORMAL with OK after one normal pulse, one read and no soak pulse. When it does not, soak is available with a
retry, and the first soak pulse sets the bits still missing, the command ends SET_SOAK with OK in the fifth step, after one
normal pulse, one soak pulse and two reads. -/
def Obligations.GoodNormalPulseNeedsNoSoak : Prop :=
  ∀ (r : Region) (i : Instr) (s : State), i = .write r ∨ i = .programWithSoakFallback r → ReadyToProgram s i →
    (s.info r).attemptLimited = false →
    let p := (s.info r).base + s.addr.toNat
    let d := bufAt s 0 &&& wordMask s.cfg
    let x := s.word p ||| (d &&& s.answer.bits)
    s.poisoned p = false → s.answer.status = .ready →
    (x &&& d = d → ∃ s₁ s₂ t, exec i s = .next s₁ ∧ exec i s₁ = .next s₂ ∧ exec i s₂ = .next t ∧
      t.word p = s.word p ||| d ∧ (∀ a, a / 8 ≠ p → t.otp.mem.read a = s.otp.mem.read a) ∧
      (∀ j, t.outcomeAt j =
        if j = 0 then { s.outcomeAt 0 with code := .setNormal, normalPulse := true } else s.outcomeAt j) ∧
      t = { s with
        otp := { s.otp with mem := t.otp.mem }
        cnt := { s.cnt with normal := s.cnt.normal + 1, macros := s.cnt.macros + 2 }
        status := { finished .ok .success s.status with engState := .success }
        wordIndex := 0, outcome := t.outcome, eng := t.eng, env := s.drew.env }) ∧
    (x &&& d ≠ d → soakAvailable s.cfg s.variant r s.addr.toNat = true → 0 < (soakSource i s).retries.toNat →
      (s.answerAt 1).status = .ready → (x ||| (d &&& (s.answerAt 1).bits)) &&& d = d →
      ∃ t, execSteps i 5 s = .next t ∧
        t.word p = s.word p ||| d ∧ (∀ a, a / 8 ≠ p → t.otp.mem.read a = s.otp.mem.read a) ∧
        (∀ j, t.outcomeAt j = if j = 0 then ⟨.setSoak, 1, true⟩ else s.outcomeAt j) ∧
        t = { s with
          otp := { s.otp with mem := t.otp.mem }
          cnt := ⟨s.cnt.normal + 1, s.cnt.soak + 1, s.cnt.macros + 4⟩
          status := { finished .ok .success s.status with engState := .success }
          wordIndex := 0, outcome := t.outcome, eng := t.eng, env := s.drew.drew.env })

/-- 44_program_engine.md R186, R188, R189, R197, 20_memory.md R63: WRITE or PROGRAM_WITH_SOAK_FALLBACK to a cell with no poisoned
slot whose target is met by the first verify: the cell was set before, the target is 0, or the normal pulse sets the selected
slot. With a READY pulse it ends SET_NORMAL with no soak pulse and no attempt consumed; it issues one normal pulse if a slot is
selectable and none otherwise. When the cell was set before, no persistent state changes (the model follows R197 and
90_conflicts.md C14 also where another slot than the set one is selected: log 26). -/
def Obligations.AlreadySetCellCostsNoAttempt : Prop :=
  ∀ (r : Region) (i : Instr) (s : State), i = .write r ∨ i = .programWithSoakFallback r → ReadyToProgram s i →
    (s.info r).attemptLimited = true → s.rowPoisoned r s.addr.toNat = false →
    let c := s.addr.toNat
    let bit := (bufAt s 0).getLsbD 0
    let pulsed := (s.select r c).isSome
    (s.cellValue r c || !bit || (pulsed && s.answer.took)) = true → (pulsed = true → s.answer.status = .ready) →
    ∃ t, execSteps i (if pulsed then 3 else 2) s = .next t ∧
      (∀ r' c' sl', t.slotAt r' c' sl' =
        if r' = r ∧ c' = c ∧ s.select r c = some sl' ∧ s.cellValue r c = false then
          { s.slotAt r c sl' with committed := bit && s.answer.took }
        else s.slotAt r' c' sl') ∧
      (s.cellValue r c = true → ∀ r' c', t.row r' c' = s.row r' c') ∧
      (∀ j, t.outcomeAt j =
        if j = 0 then { s.outcomeAt 0 with
          code := .setNormal, normalPulse := (s.outcomeAt 0).normalPulse || pulsed } else s.outcomeAt j) ∧
      t = { s with
        otp := { s.otp with slots := t.otp.slots }
        cnt := { s.cnt with
          normal := s.cnt.normal + (if pulsed then 1 else 0), macros := s.cnt.macros + (if pulsed then 2 else 1) }
        status := { finished .ok .success s.status with engState := .success }
        wordIndex := 0, outcome := t.outcome, eng := t.eng, env := if pulsed then s.drew.env else s.env }

/-- 44_program_engine.md R198: a WRITE or PROGRAM_WITH_SOAK_FALLBACK to a word whose pulses all report READY and never set a
requested bit that was unset issues one normal pulse and exactly `max_retries` soak pulses, ends with WriteExhausted and leaves
every word as it was. -/
def Obligations.AlwaysFailingWordIsExhausted : Prop :=
  ∀ (r : Region) (i : Instr) (s : State), i = .write r ∨ i = .programWithSoakFallback r → ReadyToProgram s i →
    (s.info r).attemptLimited = false → soakAvailable s.cfg s.variant r s.addr.toNat = true →
    let p := (s.info r).base + s.addr.toNat
    let d := bufAt s 0 &&& wordMask s.cfg
    let N := (soakSource i s).retries.toNat
    s.poisoned p = false → s.word p &&& d ≠ d →
    (∀ j ≤ N, (s.answerAt j).status = .ready ∧ s.word p ||| (d &&& (s.answerAt j).bits) = s.word p) →
    ∃ t, execSteps i (2 * (N + 1) + 1) s = .next t ∧
      t.status = { finished .writeExhausted .failure s.status with engState := .failure } ∧
      t.cnt = ⟨s.cnt.normal + 1, s.cnt.soak + BitVec.ofNat 64 N, s.cnt.macros + BitVec.ofNat 64 (2 * (N + 1))⟩ ∧
      t.outcomeAt 0 = ⟨.failedExhausted, if N = 0 then (s.outcomeAt 0).soakPulses else BitVec.ofNat 16 N, true⟩ ∧
      (∀ q, t.word q = s.word q) ∧ t.otp = { s.otp with mem := t.otp.mem }

/-- 44_program_engine.md R198, R186: the same for a cell whose first selectable slot has at least `N = max_retries` attempts
left: that slot loses exactly `N` attempts, and no other slot changes. -/
def Obligations.AlwaysFailingCellLosesExactlyNAttempts : Prop :=
  ∀ (r : Region) (i : Instr) (s : State) (sl : Nat), i = .write r ∨ i = .programWithSoakFallback r →
    ReadyToProgram s i → (s.info r).attemptLimited = true → soakAvailable s.cfg s.variant r s.addr.toNat = true →
    let c := s.addr.toNat
    let N := (soakSource i s).retries.toNat
    s.select r c = some sl → N ≤ (s.slotAt r c sl).remaining → s.rowPoisoned r c = false → s.cellValue r c = false →
    (bufAt s 0).getLsbD 0 = true → (∀ j ≤ N, (s.answerAt j).status = .ready ∧ (s.answerAt j).took = false) →
    ∃ t, execSteps i (2 * (N + 1) + 1) s = .next t ∧
      t.status = { finished .writeExhausted .failure s.status with engState := .failure } ∧
      t.cnt = ⟨s.cnt.normal + 1, s.cnt.soak + BitVec.ofNat 64 N, s.cnt.macros + BitVec.ofNat 64 (2 * (N + 1))⟩ ∧
      (t.slotAt r c sl).remaining = (s.slotAt r c sl).remaining - N ∧
      (∀ r' c' sl', ¬ (r' = r ∧ c' = c ∧ sl' = sl) → t.slotAt r' c' sl' = s.slotAt r' c' sl') ∧
      t.otp = { s.otp with slots := t.otp.slots }

/-- 44_program_engine.md R188, R191, R192, 45_facade.md R226: WRITE_REGION of `n ≥ 1` poison-free units whose pulses all report
READY and set every requested bit takes `2 n + 1` steps, programs every unit from the offset on, records SET_NORMAL for every
unit, and ends OK and SUCCESS, under either policy. The units are words, or cells with a selectable slot each, of which no
attempt is consumed and no set cell changed (log 26). -/
def Obligations.WriteRegionProgramsEveryUnit : Prop :=
  ∀ (r : Region) (pol : Policy) (s : State), ReadyToProgram s (.writeRegion r pol) → 1 ≤ s.len.toNat →
    let n := s.len.toNat
    let c := s.addr.toNat
    let p := (s.info r).base + c
    let d (j : Nat) : Reg := bufAt s j &&& wordMask s.cfg
    let done (t : State) : Prop :=
      execSteps (.writeRegion r pol) (2 * n + 1) s = .next t ∧
      (∀ j, t.outcomeAt j =
        if j < n then { s.outcomeAt j with code := .setNormal, normalPulse := true } else s.outcomeAt j) ∧
      t = { s with
        otp := t.otp
        cnt := { s.cnt with normal := s.cnt.normal + s.len, macros := s.cnt.macros + 2 * s.len }
        status := { finished .ok .success s.status with engState := .success }
        wordIndex := s.len - 1, outcome := t.outcome, eng := t.eng, env := t.env }
    ((s.info r).attemptLimited = false → (∀ j < n, s.poisoned (p + j) = false) →
      (∀ j < n, (s.answerAt j).status = .ready ∧ d j &&& (s.answerAt j).bits = d j) →
      ∃ t, done t ∧ t.otp = { s.otp with mem := t.otp.mem } ∧
        (∀ j < n, t.word (p + j) = s.word (p + j) ||| d j) ∧
        ∀ q, (∀ j < n, q ≠ p + j) → t.word q = s.word q) ∧
    ((s.info r).attemptLimited = true →
      (∀ j < n, s.rowPoisoned r (c + j) = false ∧ (s.select r (c + j)).isSome = true) →
      (∀ j < n, (s.answerAt j).status = .ready ∧ ((bufAt s j).getLsbD 0 = true → (s.answerAt j).took = true)) →
      ∃ t, done t ∧ t.otp = { s.otp with slots := t.otp.slots } ∧
        ∀ r' c' sl', t.slotAt r' c' sl' =
          if r' = r ∧ c ≤ c' ∧ c' < c + n ∧ s.select r c' = some sl' ∧ s.cellValue r c' = false then
            { s.slotAt r c' sl' with committed := (bufAt s (c' - c)).getLsbD 0 }
          else s.slotAt r' c' sl')

/-- 10_state.md R43, 44_program_engine.md R183, R185, R187, R191, R192, R193: a pulse that reported TIMEOUT or FAULT ends the
command in the next step, under either policy and for every engine command, with Timeout or HardwareFault, without a further
macro call. That step first records the pulse in OUTCOME (and, for a soak pulse, in ENG.k); RESULT is SUCCESS, FAILURE or
PARTIAL_FAILURE by the units that succeeded. -/
def Obligations.BadPulseStatusAborts : Prop :=
  ∀ (i : Instr) (s : State) (st : PulseStatus), isProgram i = true → st ≠ .ready →
    let u := s.wordIndex.toNat
    let code := if st = .timeout then OutcomeCode.abortedTimeout else .abortedFault
    let status : Status := { s.status with
      err := if st = .timeout then .timeout else .hardwareFault
      result :=
        if s.eng.nsucc = s.eng.count then .success else if s.eng.nsucc = 0 then .failure else .partialFailure
      busy := false, engState := .failure }
    (s.phase = .normalPulsed st → ∃ t, exec i s = .next t ∧
      (∀ j, t.outcomeAt j =
        if j = u then { s.outcomeAt j with code := code, normalPulse := true } else s.outcomeAt j) ∧
      t = { s with status := status, outcome := t.outcome, phase := .start }) ∧
    (s.phase = .soakPulsed st → ∃ t, exec i s = .next t ∧
      (∀ j, t.outcomeAt j =
        if j = u then { s.outcomeAt j with code := code, soakPulses := BitVec.ofNat 16 (min (s.eng.k + 1) 0xFFFF) }
        else s.outcomeAt j) ∧
      t = { s with
        status := status, outcome := t.outcome, eng := { s.eng with k := s.eng.k + 1 }, phase := .start })

/-- 44_program_engine.md R181, R183, R187, R188, R189, R191, R192: how a unit ends after its verify or re-verify read, and what
follows in the same step. A match ends SET_NORMAL or SET_SOAK; a mismatch ends FAILED_VERIFY where soak is not available, and
FAILED_EXHAUSTED where no further soak pulse can be issued. After a failure under fail-fast, and after the last unit, the
command ends with the first failure's error and RESULT SUCCESS, FAILURE or PARTIAL_FAILURE by the units that succeeded.
Otherwise the step goes on to the next unit: the normal pulse of a word or of a cell's first selectable slot (which changes no
set, poison-free cell: log 26), or the read-back of a cell with none. -/
def Obligations.UnitFailureFollowsThePolicy : Prop :=
  ∀ (i : Instr) (s : State) (rb : Reg) (code : OutcomeCode), isProgram i = true → s.eng.op = some i →
    s.eng.count ≤ s.cfg.bufWords → s.cfg.bufWords ≤ 256 →
    let u := s.wordIndex.toNat
    let r := s.eng.region
    let canSoak : Prop := s.eng.k < s.eng.soak.retries.toNat ∧
      ((unitInfo s).attemptLimited = true → s.select r (s.eng.off + u) ≠ none)
    (s.phase = .verifyRead rb ∧
        (unitMatches rb s = true ∧ code = .setNormal ∨
          unitMatches rb s = false ∧ unitAvail s = false ∧ code = .failedVerify ∨
          unitMatches rb s = false ∧ unitAvail s = true ∧ ¬ canSoak ∧ code = .failedExhausted) ∨
      s.phase = .reverifyRead rb ∧
        (unitMatches rb s = true ∧ code = .setSoak ∨
          unitMatches rb s = false ∧ ¬ canSoak ∧ code = .failedExhausted)) →
    let ok : Prop := code = .setNormal ∨ code = .setSoak
    let nsucc := if code = .setNormal ∨ code = .setSoak then s.eng.nsucc + 1 else s.eng.nsucc
    let first :=
      if code = .setNormal ∨ code = .setSoak ∨ s.eng.firstErr ≠ .ok then s.eng.firstErr
      else if code = .failedVerify then .verificationFailed else .writeExhausted
    let closed (t : State) : Prop :=
      ∀ j, t.outcomeAt j = if j = u then { s.outcomeAt j with code := code } else s.outcomeAt j
    (¬ ok ∧ s.eng.policy = .failFast ∨ s.eng.count ≤ u + 1 → ∃ t, exec i s = .next t ∧ closed t ∧
      t = { s with
        status := { s.status with
          err := first
          result := if nsucc = s.eng.count then .success else if nsucc = 0 then .failure else .partialFailure
          busy := false
          engState := if code = .setNormal ∨ code = .setSoak then .success else .failure }
        outcome := t.outcome, eng := { s.eng with nsucc := nsucc, firstErr := first }, phase := .start }) ∧
    (startsNormal i = true → ok ∨ s.eng.policy = .continueOnError → u + 1 < s.eng.count → s.macroUnlocked = true →
      let o := s.eng.off + (u + 1)
      let p := (unitInfo s).base + o
      let eng : Eng := { s.eng with nsucc := nsucc, firstErr := first, k := 0 }
      ((unitInfo s).attemptLimited = false → p < s.cfg.arrayWords → ∃ t, exec i s = .next t ∧ closed t ∧
        t.word p = s.word p ||| (bufAt s (u + 1) &&& wordMask s.cfg &&& s.answer.bits) ∧
        (∀ a, a / 8 ≠ p → t.otp.mem.read a = s.otp.mem.read a) ∧
        t = { s with
          otp := { s.otp with mem := t.otp.mem }
          cnt := { s.cnt with normal := s.cnt.normal + 1, macros := s.cnt.macros + 1 }
          status := { s.status with engState := .normalProgram }
          wordIndex := BitVec.ofNat 64 (u + 1), outcome := t.outcome, eng := eng
          phase := .normalPulsed s.answer.status, env := s.drew.env }) ∧
      (∀ sl, (unitInfo s).attemptLimited = true → s.select r o = some sl → ∃ t, exec i s = .next t ∧ closed t ∧
        (∀ r' c' sl', t.slotAt r' c' sl' =
          if r' = r ∧ c' = o ∧ sl' = sl then
            { s.slotAt r o sl with
              committed := (s.slotAt r o sl).committed ||
                ((bufAt s (u + 1)).getLsbD 0 && !(s.cellValue r o && !s.rowPoisoned r o) && s.answer.took) }
          else s.slotAt r' c' sl') ∧
        t = { s with
          otp := { s.otp with slots := t.otp.slots }
          cnt := { s.cnt with normal := s.cnt.normal + 1, macros := s.cnt.macros + 1 }
          status := { s.status with engState := .normalProgram }
          wordIndex := BitVec.ofNat 64 (u + 1), outcome := t.outcome, eng := { eng with slot := sl }
          phase := .normalPulsed s.answer.status, env := s.drew.env }) ∧
      ((unitInfo s).attemptLimited = true → s.select r o = none → ∃ t x, exec i s = .next t ∧ closed t ∧
        (s.rowPoisoned r o = false → x = (if s.cellValue r o then 1 else 0) ∧ t.env = s.env) ∧
        t = { s with
          cnt := { s.cnt with macros := s.cnt.macros + 1 }
          status := { s.status with engState := .verify }
          wordIndex := BitVec.ofNat 64 (u + 1), outcome := t.outcome, eng := eng
          phase := .verifyRead x, env := t.env }))

/-- 20_memory.md R67: a WRITE to a region that is not attempt-limited takes `BUF[0][W-1:0]`, and to an attempt-limited region
`BUF[0][0]`; the other bits of BUF[0] change nothing that the step does to the device or reports. -/
def Obligations.WriteIgnoresTheUnusedDataBits : Prop :=
  ∀ (r : Region) (s t : State) (x y : Reg),
    x &&& (if (s.info r).attemptLimited then 1 else wordMask s.cfg)
      = y &&& (if (s.info r).attemptLimited then 1 else wordMask s.cfg) →
    exec (.write r) ({ s with phase := .start }.setBuf 0 x) = .next t →
    ∃ u, exec (.write r) ({ s with phase := .start }.setBuf 0 y) = .next u ∧ u = { t with buf := u.buf }

/-- 45_facade.md R227: a command that its first step ends with an error of a local check has made no macro call and changes
only STATUS (and the hidden latches ENG). -/
def Obligations.RefusalsHaveNoSideEffects : Prop :=
  ∀ (i : Instr) (s t : State), s.phase = .start → s.status.busy = true → exec i s = .next t →
    t.status.busy = false → isLocalError t.status.err = true →
    t = { s with eng := t.eng, status := finished t.status.err .failure s.status }

/-- 10_state.md R44, R49: STATUS.ERR and STATUS.RESULT are written by no step of a command but the one that ends it (that
acceptance, a host step, clears them is log 28), and no command
writes OVERRUN, CMD_LATCH or an operand register ADDR or LEN. -/
def Obligations.ErrorsAreReportedOnlyAtTheEnd : Prop :=
  ∀ (i : Instr) (s t : State), exec i s = .next t →
    t.status.overrun = s.status.overrun ∧ t.cmdLatch = s.cmdLatch ∧ t.addr = s.addr ∧ t.len = s.len ∧ t.cfg = s.cfg ∧
    ((t.status.busy = false ∧ t.phase = .start) ∨
      (t.status.busy = s.status.busy ∧ t.status.err = s.status.err ∧ t.status.result = s.status.result))

/-! ### The out-of-band agent -/

/-- 20_memory.md R72: the out-of-band agent's steps. In a session, unless OOB_DURING_SESSION, none happens; otherwise each
changes the one persistent item it names, and never volatile state. -/
def Obligations.OutOfBandStepsChangeOneItem : Prop :=
  ∀ s : State,
    (∀ act, s.session = .active → s.cfg.oobDuringSession = false → outOfBand act s = s) ∧
    (s.session = .idle ∨ s.cfg.oobDuringSession = true →
      (∀ p x, p < s.cfg.arrayWords → ∃ t, outOfBand (.setBits p x) s = t ∧
        t = { s with otp := { s.otp with mem := t.otp.mem } } ∧
        ∀ q, t.word q = if q = p then s.word q ||| (x &&& wordMask s.cfg) else s.word q) ∧
      (∀ r, ∃ t, outOfBand (.protect r) s = t ∧ t = { s with otp := { s.otp with physProt := t.otp.physProt } } ∧
        ∀ r', protBit t.otp.physProt r' =
          (protBit s.otp.physProt r' || (decide (r' = r) && (regionInfo s.cfg s.cfg.chipId r).protectable))) ∧
      outOfBand .lockAll s = { s with otp := { s.otp with physLock := true } } ∧
      (∀ r c sl y, slotExists s r c sl = true → sl < (s.row r c).length →
        ∃ t₁ t₂ t₃, outOfBand (.commit r c sl) s = t₁ ∧ outOfBand (.lower r c sl y) s = t₂ ∧
          outOfBand (.retire r c sl) s = t₃ ∧
          t₁ = { s with otp := { s.otp with slots := t₁.otp.slots } } ∧
          t₂ = { s with otp := { s.otp with slots := t₂.otp.slots } } ∧
          t₃ = { s with otp := { s.otp with slots := t₃.otp.slots } } ∧
          t₁.slotAt r c sl = { s.slotAt r c sl with committed := true } ∧
          (y < (s.slotAt r c sl).remaining → t₂.slotAt r c sl =
            { s.slotAt r c sl with remaining := y, writable := (s.slotAt r c sl).writable && decide (y ≠ 0) }) ∧
          t₃.slotAt r c sl = { s.slotAt r c sl with writable := false } ∧
          (∀ r' c' sl', ¬ (r' = r ∧ c' = c ∧ sl' = sl) →
            t₁.slotAt r' c' sl' = s.slotAt r' c' sl' ∧ t₂.slotAt r' c' sl' = s.slotAt r' c' sl' ∧
            t₃.slotAt r' c' sl' = s.slotAt r' c' sl')))

/-! ### The whole machine -/

/-- 20_memory.md R78: every step of every agent preserves the monotonic laws of the persistent state. -/
def Obligations.EveryStepPreservesTheMonotonicLaws : Prop :=
  ∀ s t : State, step s = .next t → PersistentGrows s t

/-- The state after reset, with the model's choices of log 1, log 9 and log 10, satisfies the invariant (20_memory.md R66,
R78; 10_state.md R48). -/
def Obligations.ResetSatisfiesTheInvariant : Prop := State.reset.Inv

/-- Every step of every agent keeps the invariant: the canonical forms, words inside the array and inside `W` bits, the shape
and bounds of the counter array, SNAP never ahead of the device, MACRO_UNLOCKED exactly where R31 says, and an engine that
stays inside its region, its buffers and its retry bound (20_memory.md R77, R78; 10_state.md R23 to R31;
44_program_engine.md R180, R185). -/
def Obligations.EveryStepKeepsTheInvariant : Prop :=
  ∀ s t : State, s.Inv → step s = .next t → t.Inv

/-- The controller never stops: from every state of the invariant a step answers a next state, so no access leaves the array
(20_memory.md R78), no programming primitive is issued while the macro is locked (10_state.md R31), and no stopping
error exists (60_exceptions.md R240, R244). -/
def Obligations.TheMachineNeverStops : Prop :=
  ∀ s : State, s.Inv → ∃ t, step s = .next t

/-- 44_program_engine.md R200, 70_reset_and_hazards.md R288: whatever the macro answers, a command that is left alone ends.
It takes at most `1 + max_retries` pulses and as many reads, one step each, for each of its `n` units, and five steps more: `n`
and `max_retries` are the latched ENG.n and ENG.cfg once the command has begun, and before that its unit count and the
SoakConfig it will latch. So every command ends within a number of steps that depends on BUF_WORDS alone. A word that is no
command ends in one step. -/
def Obligations.EveryCommandTerminates : Prop :=
  ∀ s : State, s.Inv → s.status.busy = true → s.env.inbox = [] →
    (∀ i, decode s.cmdLatch = .ok i →
      let units := if s.phase = .start then unitCount i s else s.eng.count
      let retries := if s.phase = .start then (soakSource i s).retries.toNat else s.eng.soak.retries.toNat
      ∃ n ≤ units * ((1 + retries) + (1 + retries)) + 5, n ≤ 2 * s.cfg.bufWords * 65536 + 5 ∧
        ∃ t, Sys2Proof.core.run n s = .next t ∧ t.status.busy = false) ∧
    ((∀ i, decode s.cmdLatch ≠ .ok i) → ∃ t, Sys2Proof.core.run 1 s = .next t ∧ t.status.busy = false)
end

