-- ==== Sys2Proof/Laws/State.lean ====
section
/-! SUPPORT. What each named update leaves in each field of the state: one lemma per field per update, each true by
definition, so that no later proof unfolds a record update. -/

namespace Sys2Proof.Machine

/-- Two states with the same fields are the same. -/
theorem state_ext {s t : State} (h0 : s.cfg = t.cfg)  (h1 : s.otp = t.otp)  (h2 : s.session = t.session)  (h3 : s.snap = t.snap)  (h4 : s.macroUnlocked = t.macroUnlocked)  (h5 : s.variant = t.variant)  (h6 : s.cmdLatch = t.cmdLatch)  (h7 : s.status = t.status)  (h8 : s.addr = t.addr)  (h9 : s.len = t.len)  (h10 : s.soak = t.soak)  (h11 : s.qresult = t.qresult)  (h12 : s.cnt = t.cnt)  (h13 : s.wordIndex = t.wordIndex)  (h14 : s.buf = t.buf)  (h15 : s.outcome = t.outcome)  (h16 : s.eng = t.eng)  (h17 : s.phase = t.phase)  (h18 : s.env = t.env) : s = t := by
  rcases s with ⟨⟩; rcases t with ⟨⟩; simp only at h0 h1 h2 h3 h4 h5 h6 h7 h8 h9 h10 h11 h12 h13 h14 h15 h16 h17 h18
  subst h0 h1 h2 h3 h4 h5 h6 h7 h8 h9 h10 h11 h12 h13 h14 h15 h16 h17 h18; rfl

variable (s : State)

@[simp] theorem State.orWord_cfg (p : Nat) (x : Reg) : (s.orWord p x).cfg = s.cfg := rfl
@[simp] theorem State.orWord_otp (p : Nat) (x : Reg) : (s.orWord p x).otp = { s.otp with mem := Memory.orWord s.otp.mem p x } := rfl
@[simp] theorem State.orWord_session (p : Nat) (x : Reg) : (s.orWord p x).session = s.session := rfl
@[simp] theorem State.orWord_snap (p : Nat) (x : Reg) : (s.orWord p x).snap = s.snap := rfl
@[simp] theorem State.orWord_macroUnlocked (p : Nat) (x : Reg) : (s.orWord p x).macroUnlocked = s.macroUnlocked := rfl
@[simp] theorem State.orWord_variant (p : Nat) (x : Reg) : (s.orWord p x).variant = s.variant := rfl
@[simp] theorem State.orWord_cmdLatch (p : Nat) (x : Reg) : (s.orWord p x).cmdLatch = s.cmdLatch := rfl
@[simp] theorem State.orWord_status (p : Nat) (x : Reg) : (s.orWord p x).status = s.status := rfl
@[simp] theorem State.orWord_addr (p : Nat) (x : Reg) : (s.orWord p x).addr = s.addr := rfl
@[simp] theorem State.orWord_len (p : Nat) (x : Reg) : (s.orWord p x).len = s.len := rfl
@[simp] theorem State.orWord_soak (p : Nat) (x : Reg) : (s.orWord p x).soak = s.soak := rfl
@[simp] theorem State.orWord_qresult (p : Nat) (x : Reg) : (s.orWord p x).qresult = s.qresult := rfl
@[simp] theorem State.orWord_cnt (p : Nat) (x : Reg) : (s.orWord p x).cnt = s.cnt := rfl
@[simp] theorem State.orWord_wordIndex (p : Nat) (x : Reg) : (s.orWord p x).wordIndex = s.wordIndex := rfl
@[simp] theorem State.orWord_buf (p : Nat) (x : Reg) : (s.orWord p x).buf = s.buf := rfl
@[simp] theorem State.orWord_outcome (p : Nat) (x : Reg) : (s.orWord p x).outcome = s.outcome := rfl
@[simp] theorem State.orWord_eng (p : Nat) (x : Reg) : (s.orWord p x).eng = s.eng := rfl
@[simp] theorem State.orWord_phase (p : Nat) (x : Reg) : (s.orWord p x).phase = s.phase := rfl
@[simp] theorem State.orWord_env (p : Nat) (x : Reg) : (s.orWord p x).env = s.env := rfl

@[simp] theorem State.poisonWord_cfg (p : Nat) : (s.poisonWord p).cfg = s.cfg := rfl
@[simp] theorem State.poisonWord_otp (p : Nat) : (s.poisonWord p).otp = { s.otp with poison := sparseSet false s.otp.poison p true } := rfl
@[simp] theorem State.poisonWord_session (p : Nat) : (s.poisonWord p).session = s.session := rfl
@[simp] theorem State.poisonWord_snap (p : Nat) : (s.poisonWord p).snap = s.snap := rfl
@[simp] theorem State.poisonWord_macroUnlocked (p : Nat) : (s.poisonWord p).macroUnlocked = s.macroUnlocked := rfl
@[simp] theorem State.poisonWord_variant (p : Nat) : (s.poisonWord p).variant = s.variant := rfl
@[simp] theorem State.poisonWord_cmdLatch (p : Nat) : (s.poisonWord p).cmdLatch = s.cmdLatch := rfl
@[simp] theorem State.poisonWord_status (p : Nat) : (s.poisonWord p).status = s.status := rfl
@[simp] theorem State.poisonWord_addr (p : Nat) : (s.poisonWord p).addr = s.addr := rfl
@[simp] theorem State.poisonWord_len (p : Nat) : (s.poisonWord p).len = s.len := rfl
@[simp] theorem State.poisonWord_soak (p : Nat) : (s.poisonWord p).soak = s.soak := rfl
@[simp] theorem State.poisonWord_qresult (p : Nat) : (s.poisonWord p).qresult = s.qresult := rfl
@[simp] theorem State.poisonWord_cnt (p : Nat) : (s.poisonWord p).cnt = s.cnt := rfl
@[simp] theorem State.poisonWord_wordIndex (p : Nat) : (s.poisonWord p).wordIndex = s.wordIndex := rfl
@[simp] theorem State.poisonWord_buf (p : Nat) : (s.poisonWord p).buf = s.buf := rfl
@[simp] theorem State.poisonWord_outcome (p : Nat) : (s.poisonWord p).outcome = s.outcome := rfl
@[simp] theorem State.poisonWord_eng (p : Nat) : (s.poisonWord p).eng = s.eng := rfl
@[simp] theorem State.poisonWord_phase (p : Nat) : (s.poisonWord p).phase = s.phase := rfl
@[simp] theorem State.poisonWord_env (p : Nat) : (s.poisonWord p).env = s.env := rfl

@[simp] theorem State.modifySlot_cfg (r : Region) (c sl : Nat) (f : Slot → Slot) : (s.modifySlot r c sl f).cfg = s.cfg := rfl
@[simp] theorem State.modifySlot_otp (r : Region) (c sl : Nat) (f : Slot → Slot) : (s.modifySlot r c sl f).otp = { s.otp with slots := sparseSet (factoryRow s.cfg) s.otp.slots (rowKey r c) ((s.row r c).set sl (f (s.slotAt r c sl))) } := rfl
@[simp] theorem State.modifySlot_session (r : Region) (c sl : Nat) (f : Slot → Slot) : (s.modifySlot r c sl f).session = s.session := rfl
@[simp] theorem State.modifySlot_snap (r : Region) (c sl : Nat) (f : Slot → Slot) : (s.modifySlot r c sl f).snap = s.snap := rfl
@[simp] theorem State.modifySlot_macroUnlocked (r : Region) (c sl : Nat) (f : Slot → Slot) : (s.modifySlot r c sl f).macroUnlocked = s.macroUnlocked := rfl
@[simp] theorem State.modifySlot_variant (r : Region) (c sl : Nat) (f : Slot → Slot) : (s.modifySlot r c sl f).variant = s.variant := rfl
@[simp] theorem State.modifySlot_cmdLatch (r : Region) (c sl : Nat) (f : Slot → Slot) : (s.modifySlot r c sl f).cmdLatch = s.cmdLatch := rfl
@[simp] theorem State.modifySlot_status (r : Region) (c sl : Nat) (f : Slot → Slot) : (s.modifySlot r c sl f).status = s.status := rfl
@[simp] theorem State.modifySlot_addr (r : Region) (c sl : Nat) (f : Slot → Slot) : (s.modifySlot r c sl f).addr = s.addr := rfl
@[simp] theorem State.modifySlot_len (r : Region) (c sl : Nat) (f : Slot → Slot) : (s.modifySlot r c sl f).len = s.len := rfl
@[simp] theorem State.modifySlot_soak (r : Region) (c sl : Nat) (f : Slot → Slot) : (s.modifySlot r c sl f).soak = s.soak := rfl
@[simp] theorem State.modifySlot_qresult (r : Region) (c sl : Nat) (f : Slot → Slot) : (s.modifySlot r c sl f).qresult = s.qresult := rfl
@[simp] theorem State.modifySlot_cnt (r : Region) (c sl : Nat) (f : Slot → Slot) : (s.modifySlot r c sl f).cnt = s.cnt := rfl
@[simp] theorem State.modifySlot_wordIndex (r : Region) (c sl : Nat) (f : Slot → Slot) : (s.modifySlot r c sl f).wordIndex = s.wordIndex := rfl
@[simp] theorem State.modifySlot_buf (r : Region) (c sl : Nat) (f : Slot → Slot) : (s.modifySlot r c sl f).buf = s.buf := rfl
@[simp] theorem State.modifySlot_outcome (r : Region) (c sl : Nat) (f : Slot → Slot) : (s.modifySlot r c sl f).outcome = s.outcome := rfl
@[simp] theorem State.modifySlot_eng (r : Region) (c sl : Nat) (f : Slot → Slot) : (s.modifySlot r c sl f).eng = s.eng := rfl
@[simp] theorem State.modifySlot_phase (r : Region) (c sl : Nat) (f : Slot → Slot) : (s.modifySlot r c sl f).phase = s.phase := rfl
@[simp] theorem State.modifySlot_env (r : Region) (c sl : Nat) (f : Slot → Slot) : (s.modifySlot r c sl f).env = s.env := rfl

@[simp] theorem State.recordAttempt_cfg (r : Region) (c sl : Nat) : (s.recordAttempt r c sl).cfg = s.cfg := rfl
@[simp] theorem State.recordAttempt_otp (r : Region) (c sl : Nat) : (s.recordAttempt r c sl).otp = (s.modifySlot r c sl Slot.attempted).otp := rfl
@[simp] theorem State.recordAttempt_session (r : Region) (c sl : Nat) : (s.recordAttempt r c sl).session = s.session := rfl
@[simp] theorem State.recordAttempt_snap (r : Region) (c sl : Nat) : (s.recordAttempt r c sl).snap = s.snap := rfl
@[simp] theorem State.recordAttempt_macroUnlocked (r : Region) (c sl : Nat) : (s.recordAttempt r c sl).macroUnlocked = s.macroUnlocked := rfl
@[simp] theorem State.recordAttempt_variant (r : Region) (c sl : Nat) : (s.recordAttempt r c sl).variant = s.variant := rfl
@[simp] theorem State.recordAttempt_cmdLatch (r : Region) (c sl : Nat) : (s.recordAttempt r c sl).cmdLatch = s.cmdLatch := rfl
@[simp] theorem State.recordAttempt_status (r : Region) (c sl : Nat) : (s.recordAttempt r c sl).status = s.status := rfl
@[simp] theorem State.recordAttempt_addr (r : Region) (c sl : Nat) : (s.recordAttempt r c sl).addr = s.addr := rfl
@[simp] theorem State.recordAttempt_len (r : Region) (c sl : Nat) : (s.recordAttempt r c sl).len = s.len := rfl
@[simp] theorem State.recordAttempt_soak (r : Region) (c sl : Nat) : (s.recordAttempt r c sl).soak = s.soak := rfl
@[simp] theorem State.recordAttempt_qresult (r : Region) (c sl : Nat) : (s.recordAttempt r c sl).qresult = s.qresult := rfl
@[simp] theorem State.recordAttempt_cnt (r : Region) (c sl : Nat) : (s.recordAttempt r c sl).cnt = s.cnt := rfl
@[simp] theorem State.recordAttempt_wordIndex (r : Region) (c sl : Nat) : (s.recordAttempt r c sl).wordIndex = s.wordIndex := rfl
@[simp] theorem State.recordAttempt_buf (r : Region) (c sl : Nat) : (s.recordAttempt r c sl).buf = s.buf := rfl
@[simp] theorem State.recordAttempt_outcome (r : Region) (c sl : Nat) : (s.recordAttempt r c sl).outcome = s.outcome := rfl
@[simp] theorem State.recordAttempt_eng (r : Region) (c sl : Nat) : (s.recordAttempt r c sl).eng = s.eng := rfl
@[simp] theorem State.recordAttempt_phase (r : Region) (c sl : Nat) : (s.recordAttempt r c sl).phase = s.phase := rfl
@[simp] theorem State.recordAttempt_env (r : Region) (c sl : Nat) : (s.recordAttempt r c sl).env = s.env := rfl

@[simp] theorem State.protectDevice_cfg (r : Region) (b : Bool) : (s.protectDevice r b).cfg = s.cfg := rfl
@[simp] theorem State.protectDevice_otp (r : Region) (b : Bool) : (s.protectDevice r b).otp = { s.otp with physProt := s.otp.physProt ||| (if b then regionBit r &&& protectMask s.cfg s.cfg.chipId else 0) } := rfl
@[simp] theorem State.protectDevice_session (r : Region) (b : Bool) : (s.protectDevice r b).session = s.session := rfl
@[simp] theorem State.protectDevice_snap (r : Region) (b : Bool) : (s.protectDevice r b).snap = s.snap := rfl
@[simp] theorem State.protectDevice_macroUnlocked (r : Region) (b : Bool) : (s.protectDevice r b).macroUnlocked = s.macroUnlocked := rfl
@[simp] theorem State.protectDevice_variant (r : Region) (b : Bool) : (s.protectDevice r b).variant = s.variant := rfl
@[simp] theorem State.protectDevice_cmdLatch (r : Region) (b : Bool) : (s.protectDevice r b).cmdLatch = s.cmdLatch := rfl
@[simp] theorem State.protectDevice_status (r : Region) (b : Bool) : (s.protectDevice r b).status = s.status := rfl
@[simp] theorem State.protectDevice_addr (r : Region) (b : Bool) : (s.protectDevice r b).addr = s.addr := rfl
@[simp] theorem State.protectDevice_len (r : Region) (b : Bool) : (s.protectDevice r b).len = s.len := rfl
@[simp] theorem State.protectDevice_soak (r : Region) (b : Bool) : (s.protectDevice r b).soak = s.soak := rfl
@[simp] theorem State.protectDevice_qresult (r : Region) (b : Bool) : (s.protectDevice r b).qresult = s.qresult := rfl
@[simp] theorem State.protectDevice_cnt (r : Region) (b : Bool) : (s.protectDevice r b).cnt = s.cnt := rfl
@[simp] theorem State.protectDevice_wordIndex (r : Region) (b : Bool) : (s.protectDevice r b).wordIndex = s.wordIndex := rfl
@[simp] theorem State.protectDevice_buf (r : Region) (b : Bool) : (s.protectDevice r b).buf = s.buf := rfl
@[simp] theorem State.protectDevice_outcome (r : Region) (b : Bool) : (s.protectDevice r b).outcome = s.outcome := rfl
@[simp] theorem State.protectDevice_eng (r : Region) (b : Bool) : (s.protectDevice r b).eng = s.eng := rfl
@[simp] theorem State.protectDevice_phase (r : Region) (b : Bool) : (s.protectDevice r b).phase = s.phase := rfl
@[simp] theorem State.protectDevice_env (r : Region) (b : Bool) : (s.protectDevice r b).env = s.env := rfl

@[simp] theorem State.lockDevice_cfg (b : Bool) : (s.lockDevice b).cfg = s.cfg := rfl
@[simp] theorem State.lockDevice_otp (b : Bool) : (s.lockDevice b).otp = { s.otp with physLock := s.otp.physLock || b } := rfl
@[simp] theorem State.lockDevice_session (b : Bool) : (s.lockDevice b).session = s.session := rfl
@[simp] theorem State.lockDevice_snap (b : Bool) : (s.lockDevice b).snap = s.snap := rfl
@[simp] theorem State.lockDevice_macroUnlocked (b : Bool) : (s.lockDevice b).macroUnlocked = s.macroUnlocked := rfl
@[simp] theorem State.lockDevice_variant (b : Bool) : (s.lockDevice b).variant = s.variant := rfl
@[simp] theorem State.lockDevice_cmdLatch (b : Bool) : (s.lockDevice b).cmdLatch = s.cmdLatch := rfl
@[simp] theorem State.lockDevice_status (b : Bool) : (s.lockDevice b).status = s.status := rfl
@[simp] theorem State.lockDevice_addr (b : Bool) : (s.lockDevice b).addr = s.addr := rfl
@[simp] theorem State.lockDevice_len (b : Bool) : (s.lockDevice b).len = s.len := rfl
@[simp] theorem State.lockDevice_soak (b : Bool) : (s.lockDevice b).soak = s.soak := rfl
@[simp] theorem State.lockDevice_qresult (b : Bool) : (s.lockDevice b).qresult = s.qresult := rfl
@[simp] theorem State.lockDevice_cnt (b : Bool) : (s.lockDevice b).cnt = s.cnt := rfl
@[simp] theorem State.lockDevice_wordIndex (b : Bool) : (s.lockDevice b).wordIndex = s.wordIndex := rfl
@[simp] theorem State.lockDevice_buf (b : Bool) : (s.lockDevice b).buf = s.buf := rfl
@[simp] theorem State.lockDevice_outcome (b : Bool) : (s.lockDevice b).outcome = s.outcome := rfl
@[simp] theorem State.lockDevice_eng (b : Bool) : (s.lockDevice b).eng = s.eng := rfl
@[simp] theorem State.lockDevice_phase (b : Bool) : (s.lockDevice b).phase = s.phase := rfl
@[simp] theorem State.lockDevice_env (b : Bool) : (s.lockDevice b).env = s.env := rfl

@[simp] theorem State.drew_cfg : (s.drew).cfg = s.cfg := rfl
@[simp] theorem State.drew_otp : (s.drew).otp = s.otp := rfl
@[simp] theorem State.drew_session : (s.drew).session = s.session := rfl
@[simp] theorem State.drew_snap : (s.drew).snap = s.snap := rfl
@[simp] theorem State.drew_macroUnlocked : (s.drew).macroUnlocked = s.macroUnlocked := rfl
@[simp] theorem State.drew_variant : (s.drew).variant = s.variant := rfl
@[simp] theorem State.drew_cmdLatch : (s.drew).cmdLatch = s.cmdLatch := rfl
@[simp] theorem State.drew_status : (s.drew).status = s.status := rfl
@[simp] theorem State.drew_addr : (s.drew).addr = s.addr := rfl
@[simp] theorem State.drew_len : (s.drew).len = s.len := rfl
@[simp] theorem State.drew_soak : (s.drew).soak = s.soak := rfl
@[simp] theorem State.drew_qresult : (s.drew).qresult = s.qresult := rfl
@[simp] theorem State.drew_cnt : (s.drew).cnt = s.cnt := rfl
@[simp] theorem State.drew_wordIndex : (s.drew).wordIndex = s.wordIndex := rfl
@[simp] theorem State.drew_buf : (s.drew).buf = s.buf := rfl
@[simp] theorem State.drew_outcome : (s.drew).outcome = s.outcome := rfl
@[simp] theorem State.drew_eng : (s.drew).eng = s.eng := rfl
@[simp] theorem State.drew_phase : (s.drew).phase = s.phase := rfl
@[simp] theorem State.drew_env : (s.drew).env = { s.env with oracle := s.env.oracle.tail, draws := s.env.draws + 1 } := rfl

@[simp] theorem State.countMacro_cfg : (s.countMacro).cfg = s.cfg := rfl
@[simp] theorem State.countMacro_otp : (s.countMacro).otp = s.otp := rfl
@[simp] theorem State.countMacro_session : (s.countMacro).session = s.session := rfl
@[simp] theorem State.countMacro_snap : (s.countMacro).snap = s.snap := rfl
@[simp] theorem State.countMacro_macroUnlocked : (s.countMacro).macroUnlocked = s.macroUnlocked := rfl
@[simp] theorem State.countMacro_variant : (s.countMacro).variant = s.variant := rfl
@[simp] theorem State.countMacro_cmdLatch : (s.countMacro).cmdLatch = s.cmdLatch := rfl
@[simp] theorem State.countMacro_status : (s.countMacro).status = s.status := rfl
@[simp] theorem State.countMacro_addr : (s.countMacro).addr = s.addr := rfl
@[simp] theorem State.countMacro_len : (s.countMacro).len = s.len := rfl
@[simp] theorem State.countMacro_soak : (s.countMacro).soak = s.soak := rfl
@[simp] theorem State.countMacro_qresult : (s.countMacro).qresult = s.qresult := rfl
@[simp] theorem State.countMacro_cnt : (s.countMacro).cnt = { s.cnt with macros := s.cnt.macros + 1 } := rfl
@[simp] theorem State.countMacro_wordIndex : (s.countMacro).wordIndex = s.wordIndex := rfl
@[simp] theorem State.countMacro_buf : (s.countMacro).buf = s.buf := rfl
@[simp] theorem State.countMacro_outcome : (s.countMacro).outcome = s.outcome := rfl
@[simp] theorem State.countMacro_eng : (s.countMacro).eng = s.eng := rfl
@[simp] theorem State.countMacro_phase : (s.countMacro).phase = s.phase := rfl
@[simp] theorem State.countMacro_env : (s.countMacro).env = s.env := rfl

@[simp] theorem State.atPhase_cfg (p : Phase) : (s.atPhase p).cfg = s.cfg := rfl
@[simp] theorem State.atPhase_otp (p : Phase) : (s.atPhase p).otp = s.otp := rfl
@[simp] theorem State.atPhase_session (p : Phase) : (s.atPhase p).session = s.session := rfl
@[simp] theorem State.atPhase_snap (p : Phase) : (s.atPhase p).snap = s.snap := rfl
@[simp] theorem State.atPhase_macroUnlocked (p : Phase) : (s.atPhase p).macroUnlocked = s.macroUnlocked := rfl
@[simp] theorem State.atPhase_variant (p : Phase) : (s.atPhase p).variant = s.variant := rfl
@[simp] theorem State.atPhase_cmdLatch (p : Phase) : (s.atPhase p).cmdLatch = s.cmdLatch := rfl
@[simp] theorem State.atPhase_status (p : Phase) : (s.atPhase p).status = s.status := rfl
@[simp] theorem State.atPhase_addr (p : Phase) : (s.atPhase p).addr = s.addr := rfl
@[simp] theorem State.atPhase_len (p : Phase) : (s.atPhase p).len = s.len := rfl
@[simp] theorem State.atPhase_soak (p : Phase) : (s.atPhase p).soak = s.soak := rfl
@[simp] theorem State.atPhase_qresult (p : Phase) : (s.atPhase p).qresult = s.qresult := rfl
@[simp] theorem State.atPhase_cnt (p : Phase) : (s.atPhase p).cnt = s.cnt := rfl
@[simp] theorem State.atPhase_wordIndex (p : Phase) : (s.atPhase p).wordIndex = s.wordIndex := rfl
@[simp] theorem State.atPhase_buf (p : Phase) : (s.atPhase p).buf = s.buf := rfl
@[simp] theorem State.atPhase_outcome (p : Phase) : (s.atPhase p).outcome = s.outcome := rfl
@[simp] theorem State.atPhase_eng (p : Phase) : (s.atPhase p).eng = s.eng := rfl
@[simp] theorem State.atPhase_phase (p : Phase) : (s.atPhase p).phase = p := rfl
@[simp] theorem State.atPhase_env (p : Phase) : (s.atPhase p).env = s.env := rfl

@[simp] theorem State.setEng_cfg (e : EngState) : (s.setEng e).cfg = s.cfg := rfl
@[simp] theorem State.setEng_otp (e : EngState) : (s.setEng e).otp = s.otp := rfl
@[simp] theorem State.setEng_session (e : EngState) : (s.setEng e).session = s.session := rfl
@[simp] theorem State.setEng_snap (e : EngState) : (s.setEng e).snap = s.snap := rfl
@[simp] theorem State.setEng_macroUnlocked (e : EngState) : (s.setEng e).macroUnlocked = s.macroUnlocked := rfl
@[simp] theorem State.setEng_variant (e : EngState) : (s.setEng e).variant = s.variant := rfl
@[simp] theorem State.setEng_cmdLatch (e : EngState) : (s.setEng e).cmdLatch = s.cmdLatch := rfl
@[simp] theorem State.setEng_status (e : EngState) : (s.setEng e).status = { s.status with engState := e } := rfl
@[simp] theorem State.setEng_addr (e : EngState) : (s.setEng e).addr = s.addr := rfl
@[simp] theorem State.setEng_len (e : EngState) : (s.setEng e).len = s.len := rfl
@[simp] theorem State.setEng_soak (e : EngState) : (s.setEng e).soak = s.soak := rfl
@[simp] theorem State.setEng_qresult (e : EngState) : (s.setEng e).qresult = s.qresult := rfl
@[simp] theorem State.setEng_cnt (e : EngState) : (s.setEng e).cnt = s.cnt := rfl
@[simp] theorem State.setEng_wordIndex (e : EngState) : (s.setEng e).wordIndex = s.wordIndex := rfl
@[simp] theorem State.setEng_buf (e : EngState) : (s.setEng e).buf = s.buf := rfl
@[simp] theorem State.setEng_outcome (e : EngState) : (s.setEng e).outcome = s.outcome := rfl
@[simp] theorem State.setEng_eng (e : EngState) : (s.setEng e).eng = s.eng := rfl
@[simp] theorem State.setEng_phase (e : EngState) : (s.setEng e).phase = s.phase := rfl
@[simp] theorem State.setEng_env (e : EngState) : (s.setEng e).env = s.env := rfl

@[simp] theorem State.setQresult_cfg (v : Reg) : (s.setQresult v).cfg = s.cfg := rfl
@[simp] theorem State.setQresult_otp (v : Reg) : (s.setQresult v).otp = s.otp := rfl
@[simp] theorem State.setQresult_session (v : Reg) : (s.setQresult v).session = s.session := rfl
@[simp] theorem State.setQresult_snap (v : Reg) : (s.setQresult v).snap = s.snap := rfl
@[simp] theorem State.setQresult_macroUnlocked (v : Reg) : (s.setQresult v).macroUnlocked = s.macroUnlocked := rfl
@[simp] theorem State.setQresult_variant (v : Reg) : (s.setQresult v).variant = s.variant := rfl
@[simp] theorem State.setQresult_cmdLatch (v : Reg) : (s.setQresult v).cmdLatch = s.cmdLatch := rfl
@[simp] theorem State.setQresult_status (v : Reg) : (s.setQresult v).status = s.status := rfl
@[simp] theorem State.setQresult_addr (v : Reg) : (s.setQresult v).addr = s.addr := rfl
@[simp] theorem State.setQresult_len (v : Reg) : (s.setQresult v).len = s.len := rfl
@[simp] theorem State.setQresult_soak (v : Reg) : (s.setQresult v).soak = s.soak := rfl
@[simp] theorem State.setQresult_qresult (v : Reg) : (s.setQresult v).qresult = v := rfl
@[simp] theorem State.setQresult_cnt (v : Reg) : (s.setQresult v).cnt = s.cnt := rfl
@[simp] theorem State.setQresult_wordIndex (v : Reg) : (s.setQresult v).wordIndex = s.wordIndex := rfl
@[simp] theorem State.setQresult_buf (v : Reg) : (s.setQresult v).buf = s.buf := rfl
@[simp] theorem State.setQresult_outcome (v : Reg) : (s.setQresult v).outcome = s.outcome := rfl
@[simp] theorem State.setQresult_eng (v : Reg) : (s.setQresult v).eng = s.eng := rfl
@[simp] theorem State.setQresult_phase (v : Reg) : (s.setQresult v).phase = s.phase := rfl
@[simp] theorem State.setQresult_env (v : Reg) : (s.setQresult v).env = s.env := rfl

@[simp] theorem State.setBuf_cfg (i : Nat) (v : Reg) : (s.setBuf i v).cfg = s.cfg := rfl
@[simp] theorem State.setBuf_otp (i : Nat) (v : Reg) : (s.setBuf i v).otp = s.otp := rfl
@[simp] theorem State.setBuf_session (i : Nat) (v : Reg) : (s.setBuf i v).session = s.session := rfl
@[simp] theorem State.setBuf_snap (i : Nat) (v : Reg) : (s.setBuf i v).snap = s.snap := rfl
@[simp] theorem State.setBuf_macroUnlocked (i : Nat) (v : Reg) : (s.setBuf i v).macroUnlocked = s.macroUnlocked := rfl
@[simp] theorem State.setBuf_variant (i : Nat) (v : Reg) : (s.setBuf i v).variant = s.variant := rfl
@[simp] theorem State.setBuf_cmdLatch (i : Nat) (v : Reg) : (s.setBuf i v).cmdLatch = s.cmdLatch := rfl
@[simp] theorem State.setBuf_status (i : Nat) (v : Reg) : (s.setBuf i v).status = s.status := rfl
@[simp] theorem State.setBuf_addr (i : Nat) (v : Reg) : (s.setBuf i v).addr = s.addr := rfl
@[simp] theorem State.setBuf_len (i : Nat) (v : Reg) : (s.setBuf i v).len = s.len := rfl
@[simp] theorem State.setBuf_soak (i : Nat) (v : Reg) : (s.setBuf i v).soak = s.soak := rfl
@[simp] theorem State.setBuf_qresult (i : Nat) (v : Reg) : (s.setBuf i v).qresult = s.qresult := rfl
@[simp] theorem State.setBuf_cnt (i : Nat) (v : Reg) : (s.setBuf i v).cnt = s.cnt := rfl
@[simp] theorem State.setBuf_wordIndex (i : Nat) (v : Reg) : (s.setBuf i v).wordIndex = s.wordIndex := rfl
@[simp] theorem State.setBuf_buf (i : Nat) (v : Reg) : (s.setBuf i v).buf = sparseSet 0 s.buf i v := rfl
@[simp] theorem State.setBuf_outcome (i : Nat) (v : Reg) : (s.setBuf i v).outcome = s.outcome := rfl
@[simp] theorem State.setBuf_eng (i : Nat) (v : Reg) : (s.setBuf i v).eng = s.eng := rfl
@[simp] theorem State.setBuf_phase (i : Nat) (v : Reg) : (s.setBuf i v).phase = s.phase := rfl
@[simp] theorem State.setBuf_env (i : Nat) (v : Reg) : (s.setBuf i v).env = s.env := rfl

@[simp] theorem State.modifyOutcome_cfg (i : Nat) (f : OutcomeReg → OutcomeReg) : (s.modifyOutcome i f).cfg = s.cfg := rfl
@[simp] theorem State.modifyOutcome_otp (i : Nat) (f : OutcomeReg → OutcomeReg) : (s.modifyOutcome i f).otp = s.otp := rfl
@[simp] theorem State.modifyOutcome_session (i : Nat) (f : OutcomeReg → OutcomeReg) : (s.modifyOutcome i f).session = s.session := rfl
@[simp] theorem State.modifyOutcome_snap (i : Nat) (f : OutcomeReg → OutcomeReg) : (s.modifyOutcome i f).snap = s.snap := rfl
@[simp] theorem State.modifyOutcome_macroUnlocked (i : Nat) (f : OutcomeReg → OutcomeReg) : (s.modifyOutcome i f).macroUnlocked = s.macroUnlocked := rfl
@[simp] theorem State.modifyOutcome_variant (i : Nat) (f : OutcomeReg → OutcomeReg) : (s.modifyOutcome i f).variant = s.variant := rfl
@[simp] theorem State.modifyOutcome_cmdLatch (i : Nat) (f : OutcomeReg → OutcomeReg) : (s.modifyOutcome i f).cmdLatch = s.cmdLatch := rfl
@[simp] theorem State.modifyOutcome_status (i : Nat) (f : OutcomeReg → OutcomeReg) : (s.modifyOutcome i f).status = s.status := rfl
@[simp] theorem State.modifyOutcome_addr (i : Nat) (f : OutcomeReg → OutcomeReg) : (s.modifyOutcome i f).addr = s.addr := rfl
@[simp] theorem State.modifyOutcome_len (i : Nat) (f : OutcomeReg → OutcomeReg) : (s.modifyOutcome i f).len = s.len := rfl
@[simp] theorem State.modifyOutcome_soak (i : Nat) (f : OutcomeReg → OutcomeReg) : (s.modifyOutcome i f).soak = s.soak := rfl
@[simp] theorem State.modifyOutcome_qresult (i : Nat) (f : OutcomeReg → OutcomeReg) : (s.modifyOutcome i f).qresult = s.qresult := rfl
@[simp] theorem State.modifyOutcome_cnt (i : Nat) (f : OutcomeReg → OutcomeReg) : (s.modifyOutcome i f).cnt = s.cnt := rfl
@[simp] theorem State.modifyOutcome_wordIndex (i : Nat) (f : OutcomeReg → OutcomeReg) : (s.modifyOutcome i f).wordIndex = s.wordIndex := rfl
@[simp] theorem State.modifyOutcome_buf (i : Nat) (f : OutcomeReg → OutcomeReg) : (s.modifyOutcome i f).buf = s.buf := rfl
@[simp] theorem State.modifyOutcome_outcome (i : Nat) (f : OutcomeReg → OutcomeReg) : (s.modifyOutcome i f).outcome = sparseSet outcomeClear s.outcome i (f (s.outcomeAt i)) := rfl
@[simp] theorem State.modifyOutcome_eng (i : Nat) (f : OutcomeReg → OutcomeReg) : (s.modifyOutcome i f).eng = s.eng := rfl
@[simp] theorem State.modifyOutcome_phase (i : Nat) (f : OutcomeReg → OutcomeReg) : (s.modifyOutcome i f).phase = s.phase := rfl
@[simp] theorem State.modifyOutcome_env (i : Nat) (f : OutcomeReg → OutcomeReg) : (s.modifyOutcome i f).env = s.env := rfl

@[simp] theorem State.setWordIndex_cfg (i : Nat) : (s.setWordIndex i).cfg = s.cfg := rfl
@[simp] theorem State.setWordIndex_otp (i : Nat) : (s.setWordIndex i).otp = s.otp := rfl
@[simp] theorem State.setWordIndex_session (i : Nat) : (s.setWordIndex i).session = s.session := rfl
@[simp] theorem State.setWordIndex_snap (i : Nat) : (s.setWordIndex i).snap = s.snap := rfl
@[simp] theorem State.setWordIndex_macroUnlocked (i : Nat) : (s.setWordIndex i).macroUnlocked = s.macroUnlocked := rfl
@[simp] theorem State.setWordIndex_variant (i : Nat) : (s.setWordIndex i).variant = s.variant := rfl
@[simp] theorem State.setWordIndex_cmdLatch (i : Nat) : (s.setWordIndex i).cmdLatch = s.cmdLatch := rfl
@[simp] theorem State.setWordIndex_status (i : Nat) : (s.setWordIndex i).status = s.status := rfl
@[simp] theorem State.setWordIndex_addr (i : Nat) : (s.setWordIndex i).addr = s.addr := rfl
@[simp] theorem State.setWordIndex_len (i : Nat) : (s.setWordIndex i).len = s.len := rfl
@[simp] theorem State.setWordIndex_soak (i : Nat) : (s.setWordIndex i).soak = s.soak := rfl
@[simp] theorem State.setWordIndex_qresult (i : Nat) : (s.setWordIndex i).qresult = s.qresult := rfl
@[simp] theorem State.setWordIndex_cnt (i : Nat) : (s.setWordIndex i).cnt = s.cnt := rfl
@[simp] theorem State.setWordIndex_wordIndex (i : Nat) : (s.setWordIndex i).wordIndex = BitVec.ofNat 64 i := rfl
@[simp] theorem State.setWordIndex_buf (i : Nat) : (s.setWordIndex i).buf = s.buf := rfl
@[simp] theorem State.setWordIndex_outcome (i : Nat) : (s.setWordIndex i).outcome = s.outcome := rfl
@[simp] theorem State.setWordIndex_eng (i : Nat) : (s.setWordIndex i).eng = s.eng := rfl
@[simp] theorem State.setWordIndex_phase (i : Nat) : (s.setWordIndex i).phase = s.phase := rfl
@[simp] theorem State.setWordIndex_env (i : Nat) : (s.setWordIndex i).env = s.env := rfl

@[simp] theorem State.snapLock_cfg : (s.snapLock).cfg = s.cfg := rfl
@[simp] theorem State.snapLock_otp : (s.snapLock).otp = s.otp := rfl
@[simp] theorem State.snapLock_session : (s.snapLock).session = s.session := rfl
@[simp] theorem State.snapLock_snap : (s.snapLock).snap = { s.snap with lock := true } := rfl
@[simp] theorem State.snapLock_macroUnlocked : (s.snapLock).macroUnlocked = s.macroUnlocked := rfl
@[simp] theorem State.snapLock_variant : (s.snapLock).variant = s.variant := rfl
@[simp] theorem State.snapLock_cmdLatch : (s.snapLock).cmdLatch = s.cmdLatch := rfl
@[simp] theorem State.snapLock_status : (s.snapLock).status = s.status := rfl
@[simp] theorem State.snapLock_addr : (s.snapLock).addr = s.addr := rfl
@[simp] theorem State.snapLock_len : (s.snapLock).len = s.len := rfl
@[simp] theorem State.snapLock_soak : (s.snapLock).soak = s.soak := rfl
@[simp] theorem State.snapLock_qresult : (s.snapLock).qresult = s.qresult := rfl
@[simp] theorem State.snapLock_cnt : (s.snapLock).cnt = s.cnt := rfl
@[simp] theorem State.snapLock_wordIndex : (s.snapLock).wordIndex = s.wordIndex := rfl
@[simp] theorem State.snapLock_buf : (s.snapLock).buf = s.buf := rfl
@[simp] theorem State.snapLock_outcome : (s.snapLock).outcome = s.outcome := rfl
@[simp] theorem State.snapLock_eng : (s.snapLock).eng = s.eng := rfl
@[simp] theorem State.snapLock_phase : (s.snapLock).phase = s.phase := rfl
@[simp] theorem State.snapLock_env : (s.snapLock).env = s.env := rfl

@[simp] theorem State.snapProtect_cfg (r : Region) : (s.snapProtect r).cfg = s.cfg := rfl
@[simp] theorem State.snapProtect_otp (r : Region) : (s.snapProtect r).otp = s.otp := rfl
@[simp] theorem State.snapProtect_session (r : Region) : (s.snapProtect r).session = s.session := rfl
@[simp] theorem State.snapProtect_snap (r : Region) : (s.snapProtect r).snap = { s.snap with prot := s.snap.prot ||| regionBit r } := rfl
@[simp] theorem State.snapProtect_macroUnlocked (r : Region) : (s.snapProtect r).macroUnlocked = s.macroUnlocked := rfl
@[simp] theorem State.snapProtect_variant (r : Region) : (s.snapProtect r).variant = s.variant := rfl
@[simp] theorem State.snapProtect_cmdLatch (r : Region) : (s.snapProtect r).cmdLatch = s.cmdLatch := rfl
@[simp] theorem State.snapProtect_status (r : Region) : (s.snapProtect r).status = s.status := rfl
@[simp] theorem State.snapProtect_addr (r : Region) : (s.snapProtect r).addr = s.addr := rfl
@[simp] theorem State.snapProtect_len (r : Region) : (s.snapProtect r).len = s.len := rfl
@[simp] theorem State.snapProtect_soak (r : Region) : (s.snapProtect r).soak = s.soak := rfl
@[simp] theorem State.snapProtect_qresult (r : Region) : (s.snapProtect r).qresult = s.qresult := rfl
@[simp] theorem State.snapProtect_cnt (r : Region) : (s.snapProtect r).cnt = s.cnt := rfl
@[simp] theorem State.snapProtect_wordIndex (r : Region) : (s.snapProtect r).wordIndex = s.wordIndex := rfl
@[simp] theorem State.snapProtect_buf (r : Region) : (s.snapProtect r).buf = s.buf := rfl
@[simp] theorem State.snapProtect_outcome (r : Region) : (s.snapProtect r).outcome = s.outcome := rfl
@[simp] theorem State.snapProtect_eng (r : Region) : (s.snapProtect r).eng = s.eng := rfl
@[simp] theorem State.snapProtect_phase (r : Region) : (s.snapProtect r).phase = s.phase := rfl
@[simp] theorem State.snapProtect_env (r : Region) : (s.snapProtect r).env = s.env := rfl

@[simp] theorem finish_cfg (e : ErrCode) (a : Aggregate) : (finish e a s).cfg = s.cfg := rfl
@[simp] theorem finish_otp (e : ErrCode) (a : Aggregate) : (finish e a s).otp = s.otp := rfl
@[simp] theorem finish_session (e : ErrCode) (a : Aggregate) : (finish e a s).session = s.session := rfl
@[simp] theorem finish_snap (e : ErrCode) (a : Aggregate) : (finish e a s).snap = s.snap := rfl
@[simp] theorem finish_macroUnlocked (e : ErrCode) (a : Aggregate) : (finish e a s).macroUnlocked = s.macroUnlocked := rfl
@[simp] theorem finish_variant (e : ErrCode) (a : Aggregate) : (finish e a s).variant = s.variant := rfl
@[simp] theorem finish_cmdLatch (e : ErrCode) (a : Aggregate) : (finish e a s).cmdLatch = s.cmdLatch := rfl
@[simp] theorem finish_status (e : ErrCode) (a : Aggregate) : (finish e a s).status = { s.status with err := e, result := a, busy := false } := rfl
@[simp] theorem finish_addr (e : ErrCode) (a : Aggregate) : (finish e a s).addr = s.addr := rfl
@[simp] theorem finish_len (e : ErrCode) (a : Aggregate) : (finish e a s).len = s.len := rfl
@[simp] theorem finish_soak (e : ErrCode) (a : Aggregate) : (finish e a s).soak = s.soak := rfl
@[simp] theorem finish_qresult (e : ErrCode) (a : Aggregate) : (finish e a s).qresult = s.qresult := rfl
@[simp] theorem finish_cnt (e : ErrCode) (a : Aggregate) : (finish e a s).cnt = s.cnt := rfl
@[simp] theorem finish_wordIndex (e : ErrCode) (a : Aggregate) : (finish e a s).wordIndex = s.wordIndex := rfl
@[simp] theorem finish_buf (e : ErrCode) (a : Aggregate) : (finish e a s).buf = s.buf := rfl
@[simp] theorem finish_outcome (e : ErrCode) (a : Aggregate) : (finish e a s).outcome = s.outcome := rfl
@[simp] theorem finish_eng (e : ErrCode) (a : Aggregate) : (finish e a s).eng = s.eng := rfl
@[simp] theorem finish_phase (e : ErrCode) (a : Aggregate) : (finish e a s).phase = .start := rfl
@[simp] theorem finish_env (e : ErrCode) (a : Aggregate) : (finish e a s).env = s.env := rfl

@[simp] theorem raise_cfg (e : ErrCode) : (raise e s).cfg = s.cfg := rfl
@[simp] theorem raise_otp (e : ErrCode) : (raise e s).otp = s.otp := rfl
@[simp] theorem raise_session (e : ErrCode) : (raise e s).session = s.session := rfl
@[simp] theorem raise_snap (e : ErrCode) : (raise e s).snap = s.snap := rfl
@[simp] theorem raise_macroUnlocked (e : ErrCode) : (raise e s).macroUnlocked = s.macroUnlocked := rfl
@[simp] theorem raise_variant (e : ErrCode) : (raise e s).variant = s.variant := rfl
@[simp] theorem raise_cmdLatch (e : ErrCode) : (raise e s).cmdLatch = s.cmdLatch := rfl
@[simp] theorem raise_status (e : ErrCode) : (raise e s).status = { s.status with err := e, result := .failure, busy := false } := rfl
@[simp] theorem raise_addr (e : ErrCode) : (raise e s).addr = s.addr := rfl
@[simp] theorem raise_len (e : ErrCode) : (raise e s).len = s.len := rfl
@[simp] theorem raise_soak (e : ErrCode) : (raise e s).soak = s.soak := rfl
@[simp] theorem raise_qresult (e : ErrCode) : (raise e s).qresult = s.qresult := rfl
@[simp] theorem raise_cnt (e : ErrCode) : (raise e s).cnt = s.cnt := rfl
@[simp] theorem raise_wordIndex (e : ErrCode) : (raise e s).wordIndex = s.wordIndex := rfl
@[simp] theorem raise_buf (e : ErrCode) : (raise e s).buf = s.buf := rfl
@[simp] theorem raise_outcome (e : ErrCode) : (raise e s).outcome = s.outcome := rfl
@[simp] theorem raise_eng (e : ErrCode) : (raise e s).eng = s.eng := rfl
@[simp] theorem raise_phase (e : ErrCode) : (raise e s).phase = .start := rfl
@[simp] theorem raise_env (e : ErrCode) : (raise e s).env = s.env := rfl

@[simp] theorem macroUnlock_cfg (w : Nat) : (macroUnlock w s).cfg = s.cfg := rfl
@[simp] theorem macroUnlock_otp (w : Nat) : (macroUnlock w s).otp = s.otp := rfl
@[simp] theorem macroUnlock_session (w : Nat) : (macroUnlock w s).session = s.session := rfl
@[simp] theorem macroUnlock_snap (w : Nat) : (macroUnlock w s).snap = s.snap := rfl
@[simp] theorem macroUnlock_macroUnlocked (w : Nat) : (macroUnlock w s).macroUnlocked = true := rfl
@[simp] theorem macroUnlock_variant (w : Nat) : (macroUnlock w s).variant = s.variant := rfl
@[simp] theorem macroUnlock_cmdLatch (w : Nat) : (macroUnlock w s).cmdLatch = s.cmdLatch := rfl
@[simp] theorem macroUnlock_status (w : Nat) : (macroUnlock w s).status = s.status := rfl
@[simp] theorem macroUnlock_addr (w : Nat) : (macroUnlock w s).addr = s.addr := rfl
@[simp] theorem macroUnlock_len (w : Nat) : (macroUnlock w s).len = s.len := rfl
@[simp] theorem macroUnlock_soak (w : Nat) : (macroUnlock w s).soak = s.soak := rfl
@[simp] theorem macroUnlock_qresult (w : Nat) : (macroUnlock w s).qresult = s.qresult := rfl
@[simp] theorem macroUnlock_cnt (w : Nat) : (macroUnlock w s).cnt = { s.cnt with macros := s.cnt.macros + 1 } := rfl
@[simp] theorem macroUnlock_wordIndex (w : Nat) : (macroUnlock w s).wordIndex = s.wordIndex := rfl
@[simp] theorem macroUnlock_buf (w : Nat) : (macroUnlock w s).buf = s.buf := rfl
@[simp] theorem macroUnlock_outcome (w : Nat) : (macroUnlock w s).outcome = s.outcome := rfl
@[simp] theorem macroUnlock_eng (w : Nat) : (macroUnlock w s).eng = s.eng := rfl
@[simp] theorem macroUnlock_phase (w : Nat) : (macroUnlock w s).phase = s.phase := rfl
@[simp] theorem macroUnlock_env (w : Nat) : (macroUnlock w s).env = s.env := rfl

@[simp] theorem macroRelock_cfg : (macroRelock s).cfg = s.cfg := rfl
@[simp] theorem macroRelock_otp : (macroRelock s).otp = s.otp := rfl
@[simp] theorem macroRelock_session : (macroRelock s).session = s.session := rfl
@[simp] theorem macroRelock_snap : (macroRelock s).snap = s.snap := rfl
@[simp] theorem macroRelock_macroUnlocked : (macroRelock s).macroUnlocked = false := rfl
@[simp] theorem macroRelock_variant : (macroRelock s).variant = s.variant := rfl
@[simp] theorem macroRelock_cmdLatch : (macroRelock s).cmdLatch = s.cmdLatch := rfl
@[simp] theorem macroRelock_status : (macroRelock s).status = s.status := rfl
@[simp] theorem macroRelock_addr : (macroRelock s).addr = s.addr := rfl
@[simp] theorem macroRelock_len : (macroRelock s).len = s.len := rfl
@[simp] theorem macroRelock_soak : (macroRelock s).soak = s.soak := rfl
@[simp] theorem macroRelock_qresult : (macroRelock s).qresult = s.qresult := rfl
@[simp] theorem macroRelock_cnt : (macroRelock s).cnt = { s.cnt with macros := s.cnt.macros + 1 } := rfl
@[simp] theorem macroRelock_wordIndex : (macroRelock s).wordIndex = s.wordIndex := rfl
@[simp] theorem macroRelock_buf : (macroRelock s).buf = s.buf := rfl
@[simp] theorem macroRelock_outcome : (macroRelock s).outcome = s.outcome := rfl
@[simp] theorem macroRelock_eng : (macroRelock s).eng = s.eng := rfl
@[simp] theorem macroRelock_phase : (macroRelock s).phase = s.phase := rfl
@[simp] theorem macroRelock_env : (macroRelock s).env = s.env := rfl

@[simp] theorem openSession_cfg (vid : Reg) (pp : BitVec 4) (pl : Bool) : (openSession vid pp pl s).cfg = s.cfg := rfl
@[simp] theorem openSession_otp (vid : Reg) (pp : BitVec 4) (pl : Bool) : (openSession vid pp pl s).otp = s.otp := rfl
@[simp] theorem openSession_session (vid : Reg) (pp : BitVec 4) (pl : Bool) : (openSession vid pp pl s).session = .active := rfl
@[simp] theorem openSession_snap (vid : Reg) (pp : BitVec 4) (pl : Bool) : (openSession vid pp pl s).snap = ⟨pp, pl, true⟩ := rfl
@[simp] theorem openSession_macroUnlocked (vid : Reg) (pp : BitVec 4) (pl : Bool) : (openSession vid pp pl s).macroUnlocked = s.macroUnlocked := rfl
@[simp] theorem openSession_variant (vid : Reg) (pp : BitVec 4) (pl : Bool) : (openSession vid pp pl s).variant = vid := rfl
@[simp] theorem openSession_cmdLatch (vid : Reg) (pp : BitVec 4) (pl : Bool) : (openSession vid pp pl s).cmdLatch = s.cmdLatch := rfl
@[simp] theorem openSession_status (vid : Reg) (pp : BitVec 4) (pl : Bool) : (openSession vid pp pl s).status = { s.status with err := .ok, result := .success, busy := false } := rfl
@[simp] theorem openSession_addr (vid : Reg) (pp : BitVec 4) (pl : Bool) : (openSession vid pp pl s).addr = s.addr := rfl
@[simp] theorem openSession_len (vid : Reg) (pp : BitVec 4) (pl : Bool) : (openSession vid pp pl s).len = s.len := rfl
@[simp] theorem openSession_soak (vid : Reg) (pp : BitVec 4) (pl : Bool) : (openSession vid pp pl s).soak = defaultSoak s.cfg vid := rfl
@[simp] theorem openSession_qresult (vid : Reg) (pp : BitVec 4) (pl : Bool) : (openSession vid pp pl s).qresult = s.qresult := rfl
@[simp] theorem openSession_cnt (vid : Reg) (pp : BitVec 4) (pl : Bool) : (openSession vid pp pl s).cnt = s.cnt := rfl
@[simp] theorem openSession_wordIndex (vid : Reg) (pp : BitVec 4) (pl : Bool) : (openSession vid pp pl s).wordIndex = s.wordIndex := rfl
@[simp] theorem openSession_buf (vid : Reg) (pp : BitVec 4) (pl : Bool) : (openSession vid pp pl s).buf = s.buf := rfl
@[simp] theorem openSession_outcome (vid : Reg) (pp : BitVec 4) (pl : Bool) : (openSession vid pp pl s).outcome = s.outcome := rfl
@[simp] theorem openSession_eng (vid : Reg) (pp : BitVec 4) (pl : Bool) : (openSession vid pp pl s).eng = s.eng := rfl
@[simp] theorem openSession_phase (vid : Reg) (pp : BitVec 4) (pl : Bool) : (openSession vid pp pl s).phase = .start := rfl
@[simp] theorem openSession_env (vid : Reg) (pp : BitVec 4) (pl : Bool) : (openSession vid pp pl s).env = s.env := rfl

@[simp] theorem closeSession_cfg : (closeSession s).cfg = s.cfg := rfl
@[simp] theorem closeSession_otp : (closeSession s).otp = s.otp := rfl
@[simp] theorem closeSession_session : (closeSession s).session = .idle := rfl
@[simp] theorem closeSession_snap : (closeSession s).snap = Snap.clear := rfl
@[simp] theorem closeSession_macroUnlocked : (closeSession s).macroUnlocked = s.macroUnlocked := rfl
@[simp] theorem closeSession_variant : (closeSession s).variant = s.variant := rfl
@[simp] theorem closeSession_cmdLatch : (closeSession s).cmdLatch = s.cmdLatch := rfl
@[simp] theorem closeSession_status : (closeSession s).status = { s.status with err := .ok, result := .success, busy := false } := rfl
@[simp] theorem closeSession_addr : (closeSession s).addr = s.addr := rfl
@[simp] theorem closeSession_len : (closeSession s).len = s.len := rfl
@[simp] theorem closeSession_soak : (closeSession s).soak = s.soak := rfl
@[simp] theorem closeSession_qresult : (closeSession s).qresult = s.qresult := rfl
@[simp] theorem closeSession_cnt : (closeSession s).cnt = s.cnt := rfl
@[simp] theorem closeSession_wordIndex : (closeSession s).wordIndex = s.wordIndex := rfl
@[simp] theorem closeSession_buf : (closeSession s).buf = s.buf := rfl
@[simp] theorem closeSession_outcome : (closeSession s).outcome = s.outcome := rfl
@[simp] theorem closeSession_eng : (closeSession s).eng = s.eng := rfl
@[simp] theorem closeSession_phase : (closeSession s).phase = .start := rfl
@[simp] theorem closeSession_env : (closeSession s).env = s.env := rfl

@[simp] theorem latchCommand_cfg (i : Instr) (n : Nat) : (latchCommand i n s).cfg = s.cfg := rfl
@[simp] theorem latchCommand_otp (i : Instr) (n : Nat) : (latchCommand i n s).otp = s.otp := rfl
@[simp] theorem latchCommand_session (i : Instr) (n : Nat) : (latchCommand i n s).session = s.session := rfl
@[simp] theorem latchCommand_snap (i : Instr) (n : Nat) : (latchCommand i n s).snap = s.snap := rfl
@[simp] theorem latchCommand_macroUnlocked (i : Instr) (n : Nat) : (latchCommand i n s).macroUnlocked = s.macroUnlocked := rfl
@[simp] theorem latchCommand_variant (i : Instr) (n : Nat) : (latchCommand i n s).variant = s.variant := rfl
@[simp] theorem latchCommand_cmdLatch (i : Instr) (n : Nat) : (latchCommand i n s).cmdLatch = s.cmdLatch := rfl
@[simp] theorem latchCommand_status (i : Instr) (n : Nat) : (latchCommand i n s).status = s.status := rfl
@[simp] theorem latchCommand_addr (i : Instr) (n : Nat) : (latchCommand i n s).addr = s.addr := rfl
@[simp] theorem latchCommand_len (i : Instr) (n : Nat) : (latchCommand i n s).len = s.len := rfl
@[simp] theorem latchCommand_soak (i : Instr) (n : Nat) : (latchCommand i n s).soak = s.soak := rfl
@[simp] theorem latchCommand_qresult (i : Instr) (n : Nat) : (latchCommand i n s).qresult = s.qresult := rfl
@[simp] theorem latchCommand_cnt (i : Instr) (n : Nat) : (latchCommand i n s).cnt = s.cnt := rfl
@[simp] theorem latchCommand_wordIndex (i : Instr) (n : Nat) : (latchCommand i n s).wordIndex = s.wordIndex := rfl
@[simp] theorem latchCommand_buf (i : Instr) (n : Nat) : (latchCommand i n s).buf = s.buf := rfl
@[simp] theorem latchCommand_outcome (i : Instr) (n : Nat) : (latchCommand i n s).outcome = s.outcome := rfl
@[simp] theorem latchCommand_eng (i : Instr) (n : Nat) : (latchCommand i n s).eng = { s.eng with op := some i, region := regionField i, off := s.addr.toNat, count := n, policy := policyField i } := rfl
@[simp] theorem latchCommand_phase (i : Instr) (n : Nat) : (latchCommand i n s).phase = s.phase := rfl
@[simp] theorem latchCommand_env (i : Instr) (n : Nat) : (latchCommand i n s).env = s.env := rfl

@[simp] theorem openUnit_cfg (i : Nat) : (openUnit i s).cfg = s.cfg := rfl
@[simp] theorem openUnit_otp (i : Nat) : (openUnit i s).otp = s.otp := rfl
@[simp] theorem openUnit_session (i : Nat) : (openUnit i s).session = s.session := rfl
@[simp] theorem openUnit_snap (i : Nat) : (openUnit i s).snap = s.snap := rfl
@[simp] theorem openUnit_macroUnlocked (i : Nat) : (openUnit i s).macroUnlocked = s.macroUnlocked := rfl
@[simp] theorem openUnit_variant (i : Nat) : (openUnit i s).variant = s.variant := rfl
@[simp] theorem openUnit_cmdLatch (i : Nat) : (openUnit i s).cmdLatch = s.cmdLatch := rfl
@[simp] theorem openUnit_status (i : Nat) : (openUnit i s).status = { s.status with engState := .init } := rfl
@[simp] theorem openUnit_addr (i : Nat) : (openUnit i s).addr = s.addr := rfl
@[simp] theorem openUnit_len (i : Nat) : (openUnit i s).len = s.len := rfl
@[simp] theorem openUnit_soak (i : Nat) : (openUnit i s).soak = s.soak := rfl
@[simp] theorem openUnit_qresult (i : Nat) : (openUnit i s).qresult = s.qresult := rfl
@[simp] theorem openUnit_cnt (i : Nat) : (openUnit i s).cnt = s.cnt := rfl
@[simp] theorem openUnit_wordIndex (i : Nat) : (openUnit i s).wordIndex = BitVec.ofNat 64 i := rfl
@[simp] theorem openUnit_buf (i : Nat) : (openUnit i s).buf = s.buf := rfl
@[simp] theorem openUnit_outcome (i : Nat) : (openUnit i s).outcome = s.outcome := rfl
@[simp] theorem openUnit_eng (i : Nat) : (openUnit i s).eng = { s.eng with k := 0 } := rfl
@[simp] theorem openUnit_phase (i : Nat) : (openUnit i s).phase = s.phase := rfl
@[simp] theorem openUnit_env (i : Nat) : (openUnit i s).env = s.env := rfl

@[simp] theorem noteNormalPulse_cfg : (noteNormalPulse s).cfg = s.cfg := rfl
@[simp] theorem noteNormalPulse_otp : (noteNormalPulse s).otp = s.otp := rfl
@[simp] theorem noteNormalPulse_session : (noteNormalPulse s).session = s.session := rfl
@[simp] theorem noteNormalPulse_snap : (noteNormalPulse s).snap = s.snap := rfl
@[simp] theorem noteNormalPulse_macroUnlocked : (noteNormalPulse s).macroUnlocked = s.macroUnlocked := rfl
@[simp] theorem noteNormalPulse_variant : (noteNormalPulse s).variant = s.variant := rfl
@[simp] theorem noteNormalPulse_cmdLatch : (noteNormalPulse s).cmdLatch = s.cmdLatch := rfl
@[simp] theorem noteNormalPulse_status : (noteNormalPulse s).status = s.status := rfl
@[simp] theorem noteNormalPulse_addr : (noteNormalPulse s).addr = s.addr := rfl
@[simp] theorem noteNormalPulse_len : (noteNormalPulse s).len = s.len := rfl
@[simp] theorem noteNormalPulse_soak : (noteNormalPulse s).soak = s.soak := rfl
@[simp] theorem noteNormalPulse_qresult : (noteNormalPulse s).qresult = s.qresult := rfl
@[simp] theorem noteNormalPulse_cnt : (noteNormalPulse s).cnt = s.cnt := rfl
@[simp] theorem noteNormalPulse_wordIndex : (noteNormalPulse s).wordIndex = s.wordIndex := rfl
@[simp] theorem noteNormalPulse_buf : (noteNormalPulse s).buf = s.buf := rfl
@[simp] theorem noteNormalPulse_outcome : (noteNormalPulse s).outcome = (s.modifyOutcome s.wordIndex.toNat (fun o => { o with normalPulse := true })).outcome := rfl
@[simp] theorem noteNormalPulse_eng : (noteNormalPulse s).eng = s.eng := rfl
@[simp] theorem noteNormalPulse_phase : (noteNormalPulse s).phase = s.phase := rfl
@[simp] theorem noteNormalPulse_env : (noteNormalPulse s).env = s.env := rfl

@[simp] theorem noteSoakPulse_cfg : (noteSoakPulse s).cfg = s.cfg := rfl
@[simp] theorem noteSoakPulse_otp : (noteSoakPulse s).otp = s.otp := rfl
@[simp] theorem noteSoakPulse_session : (noteSoakPulse s).session = s.session := rfl
@[simp] theorem noteSoakPulse_snap : (noteSoakPulse s).snap = s.snap := rfl
@[simp] theorem noteSoakPulse_macroUnlocked : (noteSoakPulse s).macroUnlocked = s.macroUnlocked := rfl
@[simp] theorem noteSoakPulse_variant : (noteSoakPulse s).variant = s.variant := rfl
@[simp] theorem noteSoakPulse_cmdLatch : (noteSoakPulse s).cmdLatch = s.cmdLatch := rfl
@[simp] theorem noteSoakPulse_status : (noteSoakPulse s).status = s.status := rfl
@[simp] theorem noteSoakPulse_addr : (noteSoakPulse s).addr = s.addr := rfl
@[simp] theorem noteSoakPulse_len : (noteSoakPulse s).len = s.len := rfl
@[simp] theorem noteSoakPulse_soak : (noteSoakPulse s).soak = s.soak := rfl
@[simp] theorem noteSoakPulse_qresult : (noteSoakPulse s).qresult = s.qresult := rfl
@[simp] theorem noteSoakPulse_cnt : (noteSoakPulse s).cnt = s.cnt := rfl
@[simp] theorem noteSoakPulse_wordIndex : (noteSoakPulse s).wordIndex = s.wordIndex := rfl
@[simp] theorem noteSoakPulse_buf : (noteSoakPulse s).buf = s.buf := rfl
@[simp] theorem noteSoakPulse_outcome : (noteSoakPulse s).outcome = (s.modifyOutcome s.wordIndex.toNat (fun o => { o with soakPulses := soakPulseBits (s.eng.k + 1) })).outcome := rfl
@[simp] theorem noteSoakPulse_eng : (noteSoakPulse s).eng = { s.eng with k := s.eng.k + 1 } := rfl
@[simp] theorem noteSoakPulse_phase : (noteSoakPulse s).phase = s.phase := rfl
@[simp] theorem noteSoakPulse_env : (noteSoakPulse s).env = s.env := rfl

@[simp] theorem endUnit_cfg (c : OutcomeCode) : (endUnit c s).cfg = s.cfg := rfl
@[simp] theorem endUnit_otp (c : OutcomeCode) : (endUnit c s).otp = s.otp := rfl
@[simp] theorem endUnit_session (c : OutcomeCode) : (endUnit c s).session = s.session := rfl
@[simp] theorem endUnit_snap (c : OutcomeCode) : (endUnit c s).snap = s.snap := rfl
@[simp] theorem endUnit_macroUnlocked (c : OutcomeCode) : (endUnit c s).macroUnlocked = s.macroUnlocked := rfl
@[simp] theorem endUnit_variant (c : OutcomeCode) : (endUnit c s).variant = s.variant := rfl
@[simp] theorem endUnit_cmdLatch (c : OutcomeCode) : (endUnit c s).cmdLatch = s.cmdLatch := rfl
@[simp] theorem endUnit_status (c : OutcomeCode) : (endUnit c s).status = { s.status with engState := if unitSucceeded c then .success else .failure } := rfl
@[simp] theorem endUnit_addr (c : OutcomeCode) : (endUnit c s).addr = s.addr := rfl
@[simp] theorem endUnit_len (c : OutcomeCode) : (endUnit c s).len = s.len := rfl
@[simp] theorem endUnit_soak (c : OutcomeCode) : (endUnit c s).soak = s.soak := rfl
@[simp] theorem endUnit_qresult (c : OutcomeCode) : (endUnit c s).qresult = s.qresult := rfl
@[simp] theorem endUnit_cnt (c : OutcomeCode) : (endUnit c s).cnt = s.cnt := rfl
@[simp] theorem endUnit_wordIndex (c : OutcomeCode) : (endUnit c s).wordIndex = s.wordIndex := rfl
@[simp] theorem endUnit_buf (c : OutcomeCode) : (endUnit c s).buf = s.buf := rfl
@[simp] theorem endUnit_outcome (c : OutcomeCode) : (endUnit c s).outcome = (s.modifyOutcome s.wordIndex.toNat (fun o => { o with code := c })).outcome := rfl
@[simp] theorem endUnit_eng (c : OutcomeCode) : (endUnit c s).eng = s.eng := rfl
@[simp] theorem endUnit_phase (c : OutcomeCode) : (endUnit c s).phase = s.phase := rfl
@[simp] theorem endUnit_env (c : OutcomeCode) : (endUnit c s).env = s.env := rfl

@[simp] theorem finishProgram_cfg : (finishProgram s).cfg = s.cfg := rfl
@[simp] theorem finishProgram_otp : (finishProgram s).otp = s.otp := rfl
@[simp] theorem finishProgram_session : (finishProgram s).session = s.session := rfl
@[simp] theorem finishProgram_snap : (finishProgram s).snap = s.snap := rfl
@[simp] theorem finishProgram_macroUnlocked : (finishProgram s).macroUnlocked = s.macroUnlocked := rfl
@[simp] theorem finishProgram_variant : (finishProgram s).variant = s.variant := rfl
@[simp] theorem finishProgram_cmdLatch : (finishProgram s).cmdLatch = s.cmdLatch := rfl
@[simp] theorem finishProgram_status : (finishProgram s).status = { s.status with err := s.eng.firstErr, result := aggregate s.eng.nsucc s.eng.count, busy := false } := rfl
@[simp] theorem finishProgram_addr : (finishProgram s).addr = s.addr := rfl
@[simp] theorem finishProgram_len : (finishProgram s).len = s.len := rfl
@[simp] theorem finishProgram_soak : (finishProgram s).soak = s.soak := rfl
@[simp] theorem finishProgram_qresult : (finishProgram s).qresult = s.qresult := rfl
@[simp] theorem finishProgram_cnt : (finishProgram s).cnt = s.cnt := rfl
@[simp] theorem finishProgram_wordIndex : (finishProgram s).wordIndex = s.wordIndex := rfl
@[simp] theorem finishProgram_buf : (finishProgram s).buf = s.buf := rfl
@[simp] theorem finishProgram_outcome : (finishProgram s).outcome = s.outcome := rfl
@[simp] theorem finishProgram_eng : (finishProgram s).eng = s.eng := rfl
@[simp] theorem finishProgram_phase : (finishProgram s).phase = .start := rfl
@[simp] theorem finishProgram_env : (finishProgram s).env = s.env := rfl

@[simp] theorem abortUnit_cfg (c : OutcomeCode) : (abortUnit c s).cfg = s.cfg := rfl
@[simp] theorem abortUnit_otp (c : OutcomeCode) : (abortUnit c s).otp = s.otp := rfl
@[simp] theorem abortUnit_session (c : OutcomeCode) : (abortUnit c s).session = s.session := rfl
@[simp] theorem abortUnit_snap (c : OutcomeCode) : (abortUnit c s).snap = s.snap := rfl
@[simp] theorem abortUnit_macroUnlocked (c : OutcomeCode) : (abortUnit c s).macroUnlocked = s.macroUnlocked := rfl
@[simp] theorem abortUnit_variant (c : OutcomeCode) : (abortUnit c s).variant = s.variant := rfl
@[simp] theorem abortUnit_cmdLatch (c : OutcomeCode) : (abortUnit c s).cmdLatch = s.cmdLatch := rfl
@[simp] theorem abortUnit_status (c : OutcomeCode) : (abortUnit c s).status = { s.status with engState := if unitSucceeded c then .success else .failure, err := unitError c, result := aggregate s.eng.nsucc s.eng.count, busy := false } := rfl
@[simp] theorem abortUnit_addr (c : OutcomeCode) : (abortUnit c s).addr = s.addr := rfl
@[simp] theorem abortUnit_len (c : OutcomeCode) : (abortUnit c s).len = s.len := rfl
@[simp] theorem abortUnit_soak (c : OutcomeCode) : (abortUnit c s).soak = s.soak := rfl
@[simp] theorem abortUnit_qresult (c : OutcomeCode) : (abortUnit c s).qresult = s.qresult := rfl
@[simp] theorem abortUnit_cnt (c : OutcomeCode) : (abortUnit c s).cnt = s.cnt := rfl
@[simp] theorem abortUnit_wordIndex (c : OutcomeCode) : (abortUnit c s).wordIndex = s.wordIndex := rfl
@[simp] theorem abortUnit_buf (c : OutcomeCode) : (abortUnit c s).buf = s.buf := rfl
@[simp] theorem abortUnit_outcome (c : OutcomeCode) : (abortUnit c s).outcome = (s.modifyOutcome s.wordIndex.toNat (fun o => { o with code := c })).outcome := rfl
@[simp] theorem abortUnit_eng (c : OutcomeCode) : (abortUnit c s).eng = s.eng := rfl
@[simp] theorem abortUnit_phase (c : OutcomeCode) : (abortUnit c s).phase = .start := rfl
@[simp] theorem abortUnit_env (c : OutcomeCode) : (abortUnit c s).env = s.env := rfl

@[simp] theorem hardReset_cfg : (hardReset s).cfg = s.cfg := rfl
@[simp] theorem hardReset_otp : (hardReset s).otp = s.otp := rfl
@[simp] theorem hardReset_session : (hardReset s).session = .idle := rfl
@[simp] theorem hardReset_snap : (hardReset s).snap = Snap.clear := rfl
@[simp] theorem hardReset_macroUnlocked : (hardReset s).macroUnlocked = false := rfl
@[simp] theorem hardReset_variant : (hardReset s).variant = 0 := rfl
@[simp] theorem hardReset_cmdLatch : (hardReset s).cmdLatch = 0 := rfl
@[simp] theorem hardReset_status : (hardReset s).status = Status.clear := rfl
@[simp] theorem hardReset_addr : (hardReset s).addr = 0 := rfl
@[simp] theorem hardReset_len : (hardReset s).len = 0 := rfl
@[simp] theorem hardReset_soak : (hardReset s).soak = ⟨0, 0, 0⟩ := rfl
@[simp] theorem hardReset_qresult : (hardReset s).qresult = 0 := rfl
@[simp] theorem hardReset_cnt : (hardReset s).cnt = ⟨0, 0, 0⟩ := rfl
@[simp] theorem hardReset_wordIndex : (hardReset s).wordIndex = 0 := rfl
@[simp] theorem hardReset_buf : (hardReset s).buf = [] := rfl
@[simp] theorem hardReset_outcome : (hardReset s).outcome = [] := rfl
@[simp] theorem hardReset_eng : (hardReset s).eng = Eng.clear := rfl
@[simp] theorem hardReset_phase : (hardReset s).phase = .start := rfl
@[simp] theorem hardReset_env : (hardReset s).env = s.env := rfl

@[simp] theorem accept_cfg (v : Reg) : (accept v s).cfg = s.cfg := rfl
@[simp] theorem accept_otp (v : Reg) : (accept v s).otp = s.otp := rfl
@[simp] theorem accept_session (v : Reg) : (accept v s).session = s.session := rfl
@[simp] theorem accept_snap (v : Reg) : (accept v s).snap = s.snap := rfl
@[simp] theorem accept_macroUnlocked (v : Reg) : (accept v s).macroUnlocked = s.macroUnlocked := rfl
@[simp] theorem accept_variant (v : Reg) : (accept v s).variant = s.variant := rfl
@[simp] theorem accept_cmdLatch (v : Reg) : (accept v s).cmdLatch = v := rfl
@[simp] theorem accept_status (v : Reg) : (accept v s).status = ⟨true, false, .ok, .success, .init⟩ := rfl
@[simp] theorem accept_addr (v : Reg) : (accept v s).addr = s.addr := rfl
@[simp] theorem accept_len (v : Reg) : (accept v s).len = s.len := rfl
@[simp] theorem accept_soak (v : Reg) : (accept v s).soak = s.soak := rfl
@[simp] theorem accept_qresult (v : Reg) : (accept v s).qresult = 0 := rfl
@[simp] theorem accept_cnt (v : Reg) : (accept v s).cnt = s.cnt := rfl
@[simp] theorem accept_wordIndex (v : Reg) : (accept v s).wordIndex = 0 := rfl
@[simp] theorem accept_buf (v : Reg) : (accept v s).buf = s.buf := rfl
@[simp] theorem accept_outcome (v : Reg) : (accept v s).outcome = [] := rfl
@[simp] theorem accept_eng (v : Reg) : (accept v s).eng = s.eng := rfl
@[simp] theorem accept_phase (v : Reg) : (accept v s).phase = .start := rfl
@[simp] theorem accept_env (v : Reg) : (accept v s).env = s.env := rfl

@[simp] theorem State.countPulse_cfg (tm : Timing) : (s.countPulse tm).cfg = s.cfg := by cases tm <;> rfl
@[simp] theorem State.countPulse_otp (tm : Timing) : (s.countPulse tm).otp = s.otp := by cases tm <;> rfl
@[simp] theorem State.countPulse_session (tm : Timing) : (s.countPulse tm).session = s.session := by cases tm <;> rfl
@[simp] theorem State.countPulse_snap (tm : Timing) : (s.countPulse tm).snap = s.snap := by cases tm <;> rfl
@[simp] theorem State.countPulse_macroUnlocked (tm : Timing) : (s.countPulse tm).macroUnlocked = s.macroUnlocked := by cases tm <;> rfl
@[simp] theorem State.countPulse_variant (tm : Timing) : (s.countPulse tm).variant = s.variant := by cases tm <;> rfl
@[simp] theorem State.countPulse_cmdLatch (tm : Timing) : (s.countPulse tm).cmdLatch = s.cmdLatch := by cases tm <;> rfl
@[simp] theorem State.countPulse_status (tm : Timing) : (s.countPulse tm).status = s.status := by cases tm <;> rfl
@[simp] theorem State.countPulse_addr (tm : Timing) : (s.countPulse tm).addr = s.addr := by cases tm <;> rfl
@[simp] theorem State.countPulse_len (tm : Timing) : (s.countPulse tm).len = s.len := by cases tm <;> rfl
@[simp] theorem State.countPulse_soak (tm : Timing) : (s.countPulse tm).soak = s.soak := by cases tm <;> rfl
@[simp] theorem State.countPulse_qresult (tm : Timing) : (s.countPulse tm).qresult = s.qresult := by cases tm <;> rfl
@[simp] theorem State.countPulse_wordIndex (tm : Timing) : (s.countPulse tm).wordIndex = s.wordIndex := by cases tm <;> rfl
@[simp] theorem State.countPulse_buf (tm : Timing) : (s.countPulse tm).buf = s.buf := by cases tm <;> rfl
@[simp] theorem State.countPulse_outcome (tm : Timing) : (s.countPulse tm).outcome = s.outcome := by cases tm <;> rfl
@[simp] theorem State.countPulse_eng (tm : Timing) : (s.countPulse tm).eng = s.eng := by cases tm <;> rfl
@[simp] theorem State.countPulse_phase (tm : Timing) : (s.countPulse tm).phase = s.phase := by cases tm <;> rfl
@[simp] theorem State.countPulse_env (tm : Timing) : (s.countPulse tm).env = s.env := by cases tm <;> rfl
@[simp] theorem State.countPulse_cnt_normal : (s.countPulse .normal).cnt = { s.cnt with normal := s.cnt.normal + 1 } := rfl
@[simp] theorem State.countPulse_cnt_soak (d : BitVec 32) : (s.countPulse (.soak d)).cnt = { s.cnt with soak := s.cnt.soak + 1 } := rfl
@[simp] theorem State.countPulse_cnt_macros (tm : Timing) : (s.countPulse tm).cnt.macros = s.cnt.macros := by cases tm <;> rfl

theorem macroPulse_fst_eq (p : Nat) (x : Reg) (tm : Timing) (mg : BitVec 16) : (macroPulse p x tm mg s).1 = s.answer.status := rfl
@[simp] theorem macroPulse_snd_cfg (p : Nat) (x : Reg) (tm : Timing) (mg : BitVec 16) : (macroPulse p x tm mg s).2.cfg = s.cfg := by cases tm <;> rfl
@[simp] theorem macroPulse_snd_otp (p : Nat) (x : Reg) (tm : Timing) (mg : BitVec 16) : (macroPulse p x tm mg s).2.otp = { s.otp with mem := Memory.orWord s.otp.mem p (x &&& s.answer.bits) } := by cases tm <;> rfl
@[simp] theorem macroPulse_snd_session (p : Nat) (x : Reg) (tm : Timing) (mg : BitVec 16) : (macroPulse p x tm mg s).2.session = s.session := by cases tm <;> rfl
@[simp] theorem macroPulse_snd_snap (p : Nat) (x : Reg) (tm : Timing) (mg : BitVec 16) : (macroPulse p x tm mg s).2.snap = s.snap := by cases tm <;> rfl
@[simp] theorem macroPulse_snd_macroUnlocked (p : Nat) (x : Reg) (tm : Timing) (mg : BitVec 16) : (macroPulse p x tm mg s).2.macroUnlocked = s.macroUnlocked := by cases tm <;> rfl
@[simp] theorem macroPulse_snd_variant (p : Nat) (x : Reg) (tm : Timing) (mg : BitVec 16) : (macroPulse p x tm mg s).2.variant = s.variant := by cases tm <;> rfl
@[simp] theorem macroPulse_snd_cmdLatch (p : Nat) (x : Reg) (tm : Timing) (mg : BitVec 16) : (macroPulse p x tm mg s).2.cmdLatch = s.cmdLatch := by cases tm <;> rfl
@[simp] theorem macroPulse_snd_status (p : Nat) (x : Reg) (tm : Timing) (mg : BitVec 16) : (macroPulse p x tm mg s).2.status = s.status := by cases tm <;> rfl
@[simp] theorem macroPulse_snd_addr (p : Nat) (x : Reg) (tm : Timing) (mg : BitVec 16) : (macroPulse p x tm mg s).2.addr = s.addr := by cases tm <;> rfl
@[simp] theorem macroPulse_snd_len (p : Nat) (x : Reg) (tm : Timing) (mg : BitVec 16) : (macroPulse p x tm mg s).2.len = s.len := by cases tm <;> rfl
@[simp] theorem macroPulse_snd_soak (p : Nat) (x : Reg) (tm : Timing) (mg : BitVec 16) : (macroPulse p x tm mg s).2.soak = s.soak := by cases tm <;> rfl
@[simp] theorem macroPulse_snd_qresult (p : Nat) (x : Reg) (tm : Timing) (mg : BitVec 16) : (macroPulse p x tm mg s).2.qresult = s.qresult := by cases tm <;> rfl
@[simp] theorem macroPulse_snd_cnt (p : Nat) (x : Reg) (tm : Timing) (mg : BitVec 16) : (macroPulse p x tm mg s).2.cnt = (s.countMacro.countPulse tm).cnt := by cases tm <;> rfl
@[simp] theorem macroPulse_snd_wordIndex (p : Nat) (x : Reg) (tm : Timing) (mg : BitVec 16) : (macroPulse p x tm mg s).2.wordIndex = s.wordIndex := by cases tm <;> rfl
@[simp] theorem macroPulse_snd_buf (p : Nat) (x : Reg) (tm : Timing) (mg : BitVec 16) : (macroPulse p x tm mg s).2.buf = s.buf := by cases tm <;> rfl
@[simp] theorem macroPulse_snd_outcome (p : Nat) (x : Reg) (tm : Timing) (mg : BitVec 16) : (macroPulse p x tm mg s).2.outcome = s.outcome := by cases tm <;> rfl
@[simp] theorem macroPulse_snd_eng (p : Nat) (x : Reg) (tm : Timing) (mg : BitVec 16) : (macroPulse p x tm mg s).2.eng = s.eng := by cases tm <;> rfl
@[simp] theorem macroPulse_snd_phase (p : Nat) (x : Reg) (tm : Timing) (mg : BitVec 16) : (macroPulse p x tm mg s).2.phase = s.phase := by cases tm <;> rfl
@[simp] theorem macroPulse_snd_env (p : Nat) (x : Reg) (tm : Timing) (mg : BitVec 16) : (macroPulse p x tm mg s).2.env = s.drew.env := by cases tm <;> rfl

theorem macroPulseSlot_fst_eq (r : Region) (c sl : Nat) (b : Bool) (tm : Timing) (mg : BitVec 16) : (macroPulseSlot r c sl b tm mg s).1 = s.answer.status := rfl
@[simp] theorem macroPulseSlot_snd_cfg (r : Region) (c sl : Nat) (b : Bool) (tm : Timing) (mg : BitVec 16) : (macroPulseSlot r c sl b tm mg s).2.cfg = s.cfg := by cases tm <;> rfl
@[simp] theorem macroPulseSlot_snd_otp (r : Region) (c sl : Nat) (b : Bool) (tm : Timing) (mg : BitVec 16) : (macroPulseSlot r c sl b tm mg s).2.otp = (s.modifySlot r c sl (Slot.commit (b && s.answer.took))).otp := by cases tm <;> rfl
@[simp] theorem macroPulseSlot_snd_session (r : Region) (c sl : Nat) (b : Bool) (tm : Timing) (mg : BitVec 16) : (macroPulseSlot r c sl b tm mg s).2.session = s.session := by cases tm <;> rfl
@[simp] theorem macroPulseSlot_snd_snap (r : Region) (c sl : Nat) (b : Bool) (tm : Timing) (mg : BitVec 16) : (macroPulseSlot r c sl b tm mg s).2.snap = s.snap := by cases tm <;> rfl
@[simp] theorem macroPulseSlot_snd_macroUnlocked (r : Region) (c sl : Nat) (b : Bool) (tm : Timing) (mg : BitVec 16) : (macroPulseSlot r c sl b tm mg s).2.macroUnlocked = s.macroUnlocked := by cases tm <;> rfl
@[simp] theorem macroPulseSlot_snd_variant (r : Region) (c sl : Nat) (b : Bool) (tm : Timing) (mg : BitVec 16) : (macroPulseSlot r c sl b tm mg s).2.variant = s.variant := by cases tm <;> rfl
@[simp] theorem macroPulseSlot_snd_cmdLatch (r : Region) (c sl : Nat) (b : Bool) (tm : Timing) (mg : BitVec 16) : (macroPulseSlot r c sl b tm mg s).2.cmdLatch = s.cmdLatch := by cases tm <;> rfl
@[simp] theorem macroPulseSlot_snd_status (r : Region) (c sl : Nat) (b : Bool) (tm : Timing) (mg : BitVec 16) : (macroPulseSlot r c sl b tm mg s).2.status = s.status := by cases tm <;> rfl
@[simp] theorem macroPulseSlot_snd_addr (r : Region) (c sl : Nat) (b : Bool) (tm : Timing) (mg : BitVec 16) : (macroPulseSlot r c sl b tm mg s).2.addr = s.addr := by cases tm <;> rfl
@[simp] theorem macroPulseSlot_snd_len (r : Region) (c sl : Nat) (b : Bool) (tm : Timing) (mg : BitVec 16) : (macroPulseSlot r c sl b tm mg s).2.len = s.len := by cases tm <;> rfl
@[simp] theorem macroPulseSlot_snd_soak (r : Region) (c sl : Nat) (b : Bool) (tm : Timing) (mg : BitVec 16) : (macroPulseSlot r c sl b tm mg s).2.soak = s.soak := by cases tm <;> rfl
@[simp] theorem macroPulseSlot_snd_qresult (r : Region) (c sl : Nat) (b : Bool) (tm : Timing) (mg : BitVec 16) : (macroPulseSlot r c sl b tm mg s).2.qresult = s.qresult := by cases tm <;> rfl
@[simp] theorem macroPulseSlot_snd_cnt (r : Region) (c sl : Nat) (b : Bool) (tm : Timing) (mg : BitVec 16) : (macroPulseSlot r c sl b tm mg s).2.cnt = (s.countMacro.countPulse tm).cnt := by cases tm <;> rfl
@[simp] theorem macroPulseSlot_snd_wordIndex (r : Region) (c sl : Nat) (b : Bool) (tm : Timing) (mg : BitVec 16) : (macroPulseSlot r c sl b tm mg s).2.wordIndex = s.wordIndex := by cases tm <;> rfl
@[simp] theorem macroPulseSlot_snd_buf (r : Region) (c sl : Nat) (b : Bool) (tm : Timing) (mg : BitVec 16) : (macroPulseSlot r c sl b tm mg s).2.buf = s.buf := by cases tm <;> rfl
@[simp] theorem macroPulseSlot_snd_outcome (r : Region) (c sl : Nat) (b : Bool) (tm : Timing) (mg : BitVec 16) : (macroPulseSlot r c sl b tm mg s).2.outcome = s.outcome := by cases tm <;> rfl
@[simp] theorem macroPulseSlot_snd_eng (r : Region) (c sl : Nat) (b : Bool) (tm : Timing) (mg : BitVec 16) : (macroPulseSlot r c sl b tm mg s).2.eng = s.eng := by cases tm <;> rfl
@[simp] theorem macroPulseSlot_snd_phase (r : Region) (c sl : Nat) (b : Bool) (tm : Timing) (mg : BitVec 16) : (macroPulseSlot r c sl b tm mg s).2.phase = s.phase := by cases tm <;> rfl
@[simp] theorem macroPulseSlot_snd_env (r : Region) (c sl : Nat) (b : Bool) (tm : Timing) (mg : BitVec 16) : (macroPulseSlot r c sl b tm mg s).2.env = s.drew.env := by cases tm <;> rfl

theorem macroProtect_fst_eq (r : Region) : (macroProtect r s).1 = s.answer.ok := rfl
@[simp] theorem macroProtect_snd_cfg (r : Region) : (macroProtect r s).2.cfg = s.cfg := by rfl
@[simp] theorem macroProtect_snd_otp (r : Region) : (macroProtect r s).2.otp = (s.protectDevice r (s.answer.ok || s.answer.took)).otp := by rfl
@[simp] theorem macroProtect_snd_session (r : Region) : (macroProtect r s).2.session = s.session := by rfl
@[simp] theorem macroProtect_snd_snap (r : Region) : (macroProtect r s).2.snap = s.snap := by rfl
@[simp] theorem macroProtect_snd_macroUnlocked (r : Region) : (macroProtect r s).2.macroUnlocked = s.macroUnlocked := by rfl
@[simp] theorem macroProtect_snd_variant (r : Region) : (macroProtect r s).2.variant = s.variant := by rfl
@[simp] theorem macroProtect_snd_cmdLatch (r : Region) : (macroProtect r s).2.cmdLatch = s.cmdLatch := by rfl
@[simp] theorem macroProtect_snd_status (r : Region) : (macroProtect r s).2.status = s.status := by rfl
@[simp] theorem macroProtect_snd_addr (r : Region) : (macroProtect r s).2.addr = s.addr := by rfl
@[simp] theorem macroProtect_snd_len (r : Region) : (macroProtect r s).2.len = s.len := by rfl
@[simp] theorem macroProtect_snd_soak (r : Region) : (macroProtect r s).2.soak = s.soak := by rfl
@[simp] theorem macroProtect_snd_qresult (r : Region) : (macroProtect r s).2.qresult = s.qresult := by rfl
@[simp] theorem macroProtect_snd_cnt (r : Region) : (macroProtect r s).2.cnt = { s.cnt with macros := s.cnt.macros + 1 } := by rfl
@[simp] theorem macroProtect_snd_wordIndex (r : Region) : (macroProtect r s).2.wordIndex = s.wordIndex := by rfl
@[simp] theorem macroProtect_snd_buf (r : Region) : (macroProtect r s).2.buf = s.buf := by rfl
@[simp] theorem macroProtect_snd_outcome (r : Region) : (macroProtect r s).2.outcome = s.outcome := by rfl
@[simp] theorem macroProtect_snd_eng (r : Region) : (macroProtect r s).2.eng = s.eng := by rfl
@[simp] theorem macroProtect_snd_phase (r : Region) : (macroProtect r s).2.phase = s.phase := by rfl
@[simp] theorem macroProtect_snd_env (r : Region) : (macroProtect r s).2.env = s.drew.env := by rfl

theorem macroLockAll_fst_eq : (macroLockAll s).1 = s.answer.ok := rfl
@[simp] theorem macroLockAll_snd_cfg : (macroLockAll s).2.cfg = s.cfg := by rfl
@[simp] theorem macroLockAll_snd_otp : (macroLockAll s).2.otp = (s.lockDevice (s.answer.ok || s.answer.took)).otp := by rfl
@[simp] theorem macroLockAll_snd_session : (macroLockAll s).2.session = s.session := by rfl
@[simp] theorem macroLockAll_snd_snap : (macroLockAll s).2.snap = s.snap := by rfl
@[simp] theorem macroLockAll_snd_macroUnlocked : (macroLockAll s).2.macroUnlocked = s.macroUnlocked := by rfl
@[simp] theorem macroLockAll_snd_variant : (macroLockAll s).2.variant = s.variant := by rfl
@[simp] theorem macroLockAll_snd_cmdLatch : (macroLockAll s).2.cmdLatch = s.cmdLatch := by rfl
@[simp] theorem macroLockAll_snd_status : (macroLockAll s).2.status = s.status := by rfl
@[simp] theorem macroLockAll_snd_addr : (macroLockAll s).2.addr = s.addr := by rfl
@[simp] theorem macroLockAll_snd_len : (macroLockAll s).2.len = s.len := by rfl
@[simp] theorem macroLockAll_snd_soak : (macroLockAll s).2.soak = s.soak := by rfl
@[simp] theorem macroLockAll_snd_qresult : (macroLockAll s).2.qresult = s.qresult := by rfl
@[simp] theorem macroLockAll_snd_cnt : (macroLockAll s).2.cnt = { s.cnt with macros := s.cnt.macros + 1 } := by rfl
@[simp] theorem macroLockAll_snd_wordIndex : (macroLockAll s).2.wordIndex = s.wordIndex := by rfl
@[simp] theorem macroLockAll_snd_buf : (macroLockAll s).2.buf = s.buf := by rfl
@[simp] theorem macroLockAll_snd_outcome : (macroLockAll s).2.outcome = s.outcome := by rfl
@[simp] theorem macroLockAll_snd_eng : (macroLockAll s).2.eng = s.eng := by rfl
@[simp] theorem macroLockAll_snd_phase : (macroLockAll s).2.phase = s.phase := by rfl
@[simp] theorem macroLockAll_snd_env : (macroLockAll s).2.env = s.drew.env := by rfl

@[simp] theorem macroRead_snd_cfg (p : Nat) : (macroRead p s).2.cfg = s.cfg := by unfold macroRead; split <;> rfl
@[simp] theorem macroRead_snd_otp (p : Nat) : (macroRead p s).2.otp = s.otp := by unfold macroRead; split <;> rfl
@[simp] theorem macroRead_snd_session (p : Nat) : (macroRead p s).2.session = s.session := by unfold macroRead; split <;> rfl
@[simp] theorem macroRead_snd_snap (p : Nat) : (macroRead p s).2.snap = s.snap := by unfold macroRead; split <;> rfl
@[simp] theorem macroRead_snd_macroUnlocked (p : Nat) : (macroRead p s).2.macroUnlocked = s.macroUnlocked := by unfold macroRead; split <;> rfl
@[simp] theorem macroRead_snd_variant (p : Nat) : (macroRead p s).2.variant = s.variant := by unfold macroRead; split <;> rfl
@[simp] theorem macroRead_snd_cmdLatch (p : Nat) : (macroRead p s).2.cmdLatch = s.cmdLatch := by unfold macroRead; split <;> rfl
@[simp] theorem macroRead_snd_status (p : Nat) : (macroRead p s).2.status = s.status := by unfold macroRead; split <;> rfl
@[simp] theorem macroRead_snd_addr (p : Nat) : (macroRead p s).2.addr = s.addr := by unfold macroRead; split <;> rfl
@[simp] theorem macroRead_snd_len (p : Nat) : (macroRead p s).2.len = s.len := by unfold macroRead; split <;> rfl
@[simp] theorem macroRead_snd_soak (p : Nat) : (macroRead p s).2.soak = s.soak := by unfold macroRead; split <;> rfl
@[simp] theorem macroRead_snd_qresult (p : Nat) : (macroRead p s).2.qresult = s.qresult := by unfold macroRead; split <;> rfl
@[simp] theorem macroRead_snd_cnt (p : Nat) : (macroRead p s).2.cnt = { s.cnt with macros := s.cnt.macros + 1 } := by unfold macroRead; split <;> rfl
@[simp] theorem macroRead_snd_wordIndex (p : Nat) : (macroRead p s).2.wordIndex = s.wordIndex := by unfold macroRead; split <;> rfl
@[simp] theorem macroRead_snd_buf (p : Nat) : (macroRead p s).2.buf = s.buf := by unfold macroRead; split <;> rfl
@[simp] theorem macroRead_snd_outcome (p : Nat) : (macroRead p s).2.outcome = s.outcome := by unfold macroRead; split <;> rfl
@[simp] theorem macroRead_snd_eng (p : Nat) : (macroRead p s).2.eng = s.eng := by unfold macroRead; split <;> rfl
@[simp] theorem macroRead_snd_phase (p : Nat) : (macroRead p s).2.phase = s.phase := by unfold macroRead; split <;> rfl
@[simp] theorem macroRead_snd_env (p : Nat) : (macroRead p s).2.env = if s.poisoned p then s.drew.env else s.env := by unfold macroRead; split <;> rfl

@[simp] theorem macroReadCell_snd_cfg (r : Region) (c : Nat) : (macroReadCell r c s).2.cfg = s.cfg := by unfold macroReadCell; dsimp only; split <;> rfl
@[simp] theorem macroReadCell_snd_otp (r : Region) (c : Nat) : (macroReadCell r c s).2.otp = s.otp := by unfold macroReadCell; dsimp only; split <;> rfl
@[simp] theorem macroReadCell_snd_session (r : Region) (c : Nat) : (macroReadCell r c s).2.session = s.session := by unfold macroReadCell; dsimp only; split <;> rfl
@[simp] theorem macroReadCell_snd_snap (r : Region) (c : Nat) : (macroReadCell r c s).2.snap = s.snap := by unfold macroReadCell; dsimp only; split <;> rfl
@[simp] theorem macroReadCell_snd_macroUnlocked (r : Region) (c : Nat) : (macroReadCell r c s).2.macroUnlocked = s.macroUnlocked := by unfold macroReadCell; dsimp only; split <;> rfl
@[simp] theorem macroReadCell_snd_variant (r : Region) (c : Nat) : (macroReadCell r c s).2.variant = s.variant := by unfold macroReadCell; dsimp only; split <;> rfl
@[simp] theorem macroReadCell_snd_cmdLatch (r : Region) (c : Nat) : (macroReadCell r c s).2.cmdLatch = s.cmdLatch := by unfold macroReadCell; dsimp only; split <;> rfl
@[simp] theorem macroReadCell_snd_status (r : Region) (c : Nat) : (macroReadCell r c s).2.status = s.status := by unfold macroReadCell; dsimp only; split <;> rfl
@[simp] theorem macroReadCell_snd_addr (r : Region) (c : Nat) : (macroReadCell r c s).2.addr = s.addr := by unfold macroReadCell; dsimp only; split <;> rfl
@[simp] theorem macroReadCell_snd_len (r : Region) (c : Nat) : (macroReadCell r c s).2.len = s.len := by unfold macroReadCell; dsimp only; split <;> rfl
@[simp] theorem macroReadCell_snd_soak (r : Region) (c : Nat) : (macroReadCell r c s).2.soak = s.soak := by unfold macroReadCell; dsimp only; split <;> rfl
@[simp] theorem macroReadCell_snd_qresult (r : Region) (c : Nat) : (macroReadCell r c s).2.qresult = s.qresult := by unfold macroReadCell; dsimp only; split <;> rfl
@[simp] theorem macroReadCell_snd_cnt (r : Region) (c : Nat) : (macroReadCell r c s).2.cnt = { s.cnt with macros := s.cnt.macros + 1 } := by unfold macroReadCell; dsimp only; split <;> rfl
@[simp] theorem macroReadCell_snd_wordIndex (r : Region) (c : Nat) : (macroReadCell r c s).2.wordIndex = s.wordIndex := by unfold macroReadCell; dsimp only; split <;> rfl
@[simp] theorem macroReadCell_snd_buf (r : Region) (c : Nat) : (macroReadCell r c s).2.buf = s.buf := by unfold macroReadCell; dsimp only; split <;> rfl
@[simp] theorem macroReadCell_snd_outcome (r : Region) (c : Nat) : (macroReadCell r c s).2.outcome = s.outcome := by unfold macroReadCell; dsimp only; split <;> rfl
@[simp] theorem macroReadCell_snd_eng (r : Region) (c : Nat) : (macroReadCell r c s).2.eng = s.eng := by unfold macroReadCell; dsimp only; split <;> rfl
@[simp] theorem macroReadCell_snd_phase (r : Region) (c : Nat) : (macroReadCell r c s).2.phase = s.phase := by unfold macroReadCell; dsimp only; split <;> rfl
@[simp] theorem macroReadCell_snd_env (r : Region) (c : Nat) : (macroReadCell r c s).2.env = if s.rowPoisoned r c then s.drew.env else s.env := by unfold macroReadCell; dsimp only; split <;> rfl

@[simp] theorem slotBit_snd_cfg (r : Region) (c sl : Nat) : (slotBit r c sl s).2.cfg = s.cfg := by unfold slotBit; split <;> rfl
@[simp] theorem slotBit_snd_otp (r : Region) (c sl : Nat) : (slotBit r c sl s).2.otp = s.otp := by unfold slotBit; split <;> rfl
@[simp] theorem slotBit_snd_session (r : Region) (c sl : Nat) : (slotBit r c sl s).2.session = s.session := by unfold slotBit; split <;> rfl
@[simp] theorem slotBit_snd_snap (r : Region) (c sl : Nat) : (slotBit r c sl s).2.snap = s.snap := by unfold slotBit; split <;> rfl
@[simp] theorem slotBit_snd_macroUnlocked (r : Region) (c sl : Nat) : (slotBit r c sl s).2.macroUnlocked = s.macroUnlocked := by unfold slotBit; split <;> rfl
@[simp] theorem slotBit_snd_variant (r : Region) (c sl : Nat) : (slotBit r c sl s).2.variant = s.variant := by unfold slotBit; split <;> rfl
@[simp] theorem slotBit_snd_cmdLatch (r : Region) (c sl : Nat) : (slotBit r c sl s).2.cmdLatch = s.cmdLatch := by unfold slotBit; split <;> rfl
@[simp] theorem slotBit_snd_status (r : Region) (c sl : Nat) : (slotBit r c sl s).2.status = s.status := by unfold slotBit; split <;> rfl
@[simp] theorem slotBit_snd_addr (r : Region) (c sl : Nat) : (slotBit r c sl s).2.addr = s.addr := by unfold slotBit; split <;> rfl
@[simp] theorem slotBit_snd_len (r : Region) (c sl : Nat) : (slotBit r c sl s).2.len = s.len := by unfold slotBit; split <;> rfl
@[simp] theorem slotBit_snd_soak (r : Region) (c sl : Nat) : (slotBit r c sl s).2.soak = s.soak := by unfold slotBit; split <;> rfl
@[simp] theorem slotBit_snd_qresult (r : Region) (c sl : Nat) : (slotBit r c sl s).2.qresult = s.qresult := by unfold slotBit; split <;> rfl
@[simp] theorem slotBit_snd_cnt (r : Region) (c sl : Nat) : (slotBit r c sl s).2.cnt = s.cnt := by unfold slotBit; split <;> rfl
@[simp] theorem slotBit_snd_wordIndex (r : Region) (c sl : Nat) : (slotBit r c sl s).2.wordIndex = s.wordIndex := by unfold slotBit; split <;> rfl
@[simp] theorem slotBit_snd_buf (r : Region) (c sl : Nat) : (slotBit r c sl s).2.buf = s.buf := by unfold slotBit; split <;> rfl
@[simp] theorem slotBit_snd_outcome (r : Region) (c sl : Nat) : (slotBit r c sl s).2.outcome = s.outcome := by unfold slotBit; split <;> rfl
@[simp] theorem slotBit_snd_eng (r : Region) (c sl : Nat) : (slotBit r c sl s).2.eng = s.eng := by unfold slotBit; split <;> rfl
@[simp] theorem slotBit_snd_phase (r : Region) (c sl : Nat) : (slotBit r c sl s).2.phase = s.phase := by unfold slotBit; split <;> rfl
@[simp] theorem slotBit_snd_env (r : Region) (c sl : Nat) : (slotBit r c sl s).2.env = if (s.slotAt r c sl).poisoned then s.drew.env else s.env := by unfold slotBit; split <;> rfl

end Sys2Proof.Machine
end

