-- ==== Sys2Proof/Laws/Flags.lean ====
section
/-! SUPPORT. The registers that hold flags and codes, bit by bit (10_state.md R36, R40 to R42), and the map of the port. -/

namespace Sys2Proof.Machine

/-- STATUS, bit by bit (R36). -/
theorem statusWord_getLsbD (active : Bool) (st : Status) (i : Nat) : (statusWord active st).getLsbD i =
    if i < 1 then (BitVec.ofBool st.busy).getLsbD i else if i < 2 then (BitVec.ofBool active).getLsbD (i - 1)
    else if i < 3 then (BitVec.ofBool st.overrun).getLsbD (i - 2) else if i < 4 then false
    else if i < 8 then (errBits st.err).getLsbD (i - 4) else if i < 10 then (resultBits st.result).getLsbD (i - 8)
    else if i < 12 then false else if i < 16 then (engBits st.engState).getLsbD (i - 12) else false := by
  unfold statusWord
  change @BitVec.getLsbD (48 + 4 + 2 + 2 + 4 + 1 + 1 + 1 + 1) _ i = _
  simp only [BitVec.getLsbD_append, BitVec.getLsbD_zero]
  rcases Nat.lt_or_ge i 16 with h | h
  · interval_cases i <;> rfl
  · simp (disch := omega) only [if_neg]

/-- PROT with a valid snapshot, bit by bit (R41). -/
theorem protWord_getLsbD {p : Snap} (hv : p.valid = true) (i : Nat) : (protWord p).getLsbD i =
    if i < 4 then p.prot.getLsbD i else if i < 8 then false else if i < 9 then (BitVec.ofBool p.lock).getLsbD (i - 8)
    else if i < 15 then false else decide (i = 15) := by
  unfold protWord
  rw [if_pos hv]
  change @BitVec.getLsbD (48 + 1 + 6 + 1 + 4 + 4) _ i = _
  simp only [BitVec.getLsbD_append, BitVec.getLsbD_zero]
  rcases Nat.lt_or_ge i 16 with h | h
  · interval_cases i <;> rfl
  · simp (disch := omega) only [if_neg]
    simp; omega

/-- PROT without a valid snapshot (R41). -/
theorem protWord_invalid {p : Snap} (hv : p.valid = false) : protWord p = 0 := by simp [protWord, hv]

/-- `OUTCOME[i]`, bit by bit (R42). -/
theorem outcomeWord_getLsbD (o : OutcomeReg) (i : Nat) : (outcomeWord o).getLsbD i =
    if i < 4 then (outcomeBits o.code).getLsbD i else if i < 8 then false
    else if i < 24 then o.soakPulses.getLsbD (i - 8) else if i < 25 then (BitVec.ofBool o.normalPulse).getLsbD (i - 24)
    else false := by
  unfold outcomeWord
  change @BitVec.getLsbD (39 + 1 + 16 + 4 + 4) _ i = _
  simp only [BitVec.getLsbD_append, BitVec.getLsbD_zero]
  rcases Nat.lt_or_ge i 25 with h | h
  · interval_cases i <;> rfl
  · simp (disch := omega) only [if_neg]

/-- QRESULT of READ_SLOT, bit by bit (R40). -/
theorem slotWord_getLsbD (n : Nat) (w c : Bool) (i : Nat) : (slotWord n w c).getLsbD i =
    if i < 32 then (BitVec.ofNat 32 n).getLsbD i else if i < 33 then (BitVec.ofBool w).getLsbD (i - 32)
    else if i < 34 then (BitVec.ofBool c).getLsbD (i - 33) else false := by
  unfold slotWord
  change @BitVec.getLsbD (30 + 1 + 1 + 32) _ i = _
  simp only [BitVec.getLsbD_append, BitVec.getLsbD_zero]
  rcases Nat.lt_or_ge i 34 with h | h
  · interval_cases i <;> rfl
  · simp (disch := omega) only [if_neg]

theorem boolWord_eq (b : Bool) : boolWord b = if b then 1 else 0 := by cases b <;> rfl

/-! ### Protection fields -/

theorem protBit_or (a b : BitVec 4) (r : Region) : protBit (a ||| b) r = (protBit a r || protBit b r) := by
  simp [protBit]

theorem protBit_and (a b : BitVec 4) (r : Region) : protBit (a &&& b) r = (protBit a r && protBit b r) := by
  simp [protBit]

@[simp] theorem protBit_zero (r : Region) : protBit 0#4 r = false := by simp [protBit]

theorem protBit_regionBit (r r' : Region) : protBit (regionBit r) r' = decide (r' = r) := by
  cases r <;> cases r' <;> rfl

/-- The wired bits of PHYS_PROT are those of the protectable regions (R25). -/
theorem protBit_protectMask (c : Config) (v : Reg) (r : Region) :
    protBit (protectMask c v) r = (regionInfo c v r).protectable := by
  have h (b : Bool) (q : Region) : protBit (if b = true then regionBit q else 0) r = (b && decide (r = q)) := by
    cases b <;> simp [protBit_regionBit]
  simp only [protectMask, protBit_or, h]
  cases r <;> simp

/-- A four-bit protection field is its four bits. -/
theorem prot_ext {a b : BitVec 4} (h : ∀ r, protBit a r = protBit b r) : a = b := by
  apply BitVec.eq_of_getLsbD_eq
  intro i hi
  have h0 := h .bulkData
  have h1 := h .configuration
  have h2 := h .strap
  have h3 := h .security
  interval_cases i <;> assumption

/-- The indices of BUF (R34). -/
theorem portReg_buf (c : Config) (i : Nat) (hi : i < c.bufWords) (h : c.bufWords ≤ 256) :
    portReg c (BitVec.ofNat 12 (0x100 + i)) = .buf i := by
  generalize hx : BitVec.ofNat 12 (0x100 + i) = x
  have e : x.toNat = 0x100 + i := by subst hx; simp; omega
  unfold portReg
  split <;> (rename_i hh; try (rw [e] at hh)) <;> first | (exfalso; omega) | skip
  rw [e, if_pos (by omega), Nat.add_sub_cancel_left]

end Sys2Proof.Machine
end

