-- ==== Sys2Proof/Laws/Config.lean ====
section
/-! SUPPORT. What a legal configuration gives (20_memory.md R66), and `resolve` case by case (40_region_map.md R120). -/

namespace Sys2Proof.Machine

theorem legal_sizes {c : Config} (h : c.legal = true) :
    1 ≤ c.arrayWords ∧ 1 ≤ c.numSlots ∧ c.numSlots ≤ 255 ∧ 1 ≤ c.attemptBits ∧ c.attemptBits ≤ 32 ∧
      c.initAttempts < 2 ^ c.attemptBits ∧ 1 ≤ c.bufWords ∧ c.bufWords ≤ 256 := by
  simp only [Config.legal, Config.legalSizes, Bool.and_eq_true, decide_eq_true_eq] at h
  tauto

theorem variantOf_mem {c : Config} {v : Reg} {u : Variant} (h : variantOf c v = some u) : u ∈ c.variants :=
  List.mem_of_find?_eq_some h

theorem legal_variant {c : Config} (h : c.legal = true) {u : Variant} (hu : u ∈ c.variants) :
    u.legal c.arrayWords = true := by
  simp only [Config.legal, Bool.and_eq_true, List.all_eq_true] at h
  exact h.2 u hu

theorem knownVariant_of_capacity {c : Config} {v : Reg} {r : Region} (h : 0 < (regionInfo c v r).capacity) :
    knownVariant c v = true := by
  unfold knownVariant
  cases hv : variantOf c v with
  | some u => rfl
  | none => simp [regionInfo, hv, absentRegion] at h

/-- R66: a unit range of a region that is not attempt-limited lies in the array. -/
theorem legal_inside {c : Config} (h : c.legal = true) (v : Reg) (r : Region)
    (hl : (regionInfo c v r).attemptLimited = false) :
    (regionInfo c v r).base + (regionInfo c v r).capacity ≤ c.arrayWords := by
  unfold regionInfo at hl ⊢
  cases hv : variantOf c v with
  | none => simp [absentRegion]
  | some u =>
    have hu := legal_variant h (variantOf_mem hv)
    simp only [Variant.legal, Variant.regions, Bool.and_eq_true, List.all_cons, RegionInfo.insideArray,
      Bool.or_eq_true, decide_eq_true_eq] at hu
    simp only [hv] at hl
    cases r <;> simp_all

/-- R66: every alignment is at least 1. -/
theorem legal_alignment {c : Config} (h : c.legal = true) (v : Reg) (r : Region) :
    1 ≤ (regionInfo c v r).alignment := by
  unfold regionInfo
  cases hv : variantOf c v with
  | none => simp [absentRegion]
  | some u =>
    have hu := legal_variant h (variantOf_mem hv)
    simp only [Variant.legal, Variant.regions, Bool.and_eq_true, List.all_cons, decide_eq_true_eq] at hu
    cases r <;> simp_all

theorem resolve_ok {info : RegionInfo} {o n : Nat} (h : resolve info o n = .ok) :
    o < info.capacity ∧ o % info.alignment = 0 ∧ o + n ≤ info.capacity := by
  unfold resolve at h
  split at h <;> [cases h; split at h <;> [cases h; split at h <;> [cases h; skip]]]
  omega

theorem resolve_of_inside {info : RegionInfo} {o n : Nat} (h1 : o < info.capacity) (h2 : o % info.alignment = 0)
    (h3 : o + n ≤ info.capacity) : resolve info o n = .ok := by
  unfold resolve
  rw [if_neg (by omega), if_neg (by omega), if_neg (by omega)]

end Sys2Proof.Machine
end

