-- ==== Sys2Proof/Laws/Sparse.lean ====
section
/-! SUPPORT. The laws of sparse lists: reading after setting, and the canonical form. -/

namespace Sys2Proof.Machine

variable {β : Type} {d : β}

@[simp] theorem sparseGet_nil (k : Nat) : sparseGet d [] k = d := rfl

theorem sparseGet_filter_self (m : List (Nat × β)) (k : Nat) :
    sparseGet d (m.filter (fun e => e.1 != k)) k = d := by
  induction m with
  | nil => rfl
  | cons e m ih =>
    obtain ⟨j, v⟩ := e
    by_cases h : j = k <;> simp_all [sparseGet]

theorem sparseGet_filter_ne (m : List (Nat × β)) {k i : Nat} (h : i ≠ k) :
    sparseGet d (m.filter (fun e => e.1 != k)) i = sparseGet d m i := by
  induction m with
  | nil => rfl
  | cons e m ih =>
    obtain ⟨j, v⟩ := e
    by_cases hj : j = k
    · have : ¬ j = i := by omega
      simp_all [sparseGet]
    · simp [hj, sparseGet, ih]

theorem sparseGet_insert_ne (m : List (Nat × β)) {k i : Nat} (v : β) (h : i ≠ k) :
    sparseGet d (sparseInsert k v m) i = sparseGet d m i := by
  induction m with
  | nil => simp [sparseInsert, sparseGet, Ne.symm h]
  | cons e m ih =>
    obtain ⟨j, w⟩ := e
    unfold sparseInsert
    split <;> simp [sparseGet, Ne.symm h, ih]

theorem sparseGet_insert_filter (m : List (Nat × β)) (k : Nat) (v : β) :
    sparseGet d (sparseInsert k v (m.filter (fun e => e.1 != k))) k = v := by
  induction m with
  | nil => simp [sparseInsert, sparseGet]
  | cons e m ih =>
    obtain ⟨j, w⟩ := e
    by_cases h : j = k
    · simpa [h] using ih
    · have hj : ((j, w) :: m).filter (fun e => e.1 != k) = (j, w) :: m.filter (fun e => e.1 != k) := by simp [h]
      rw [hj]
      unfold sparseInsert
      split <;> simp [sparseGet, h, ih]

variable [DecidableEq β]

/-- Reading the key that was set. -/
@[simp] theorem sparseGet_set_self (m : List (Nat × β)) (k : Nat) (v : β) : sparseGet d (sparseSet d m k v) k = v := by
  unfold sparseSet
  split
  · rename_i h; rw [h]; exact sparseGet_filter_self m k
  · exact sparseGet_insert_filter m k v

/-- Every other key reads as before. -/
theorem sparseGet_set_ne (m : List (Nat × β)) {k i : Nat} (v : β) (h : i ≠ k) :
    sparseGet d (sparseSet d m k v) i = sparseGet d m i := by
  unfold sparseSet
  split
  · exact sparseGet_filter_ne m h
  · rw [sparseGet_insert_ne _ v h]; exact sparseGet_filter_ne m h

/-- Reading after setting, both cases at once. -/
theorem sparseGet_set (m : List (Nat × β)) (k i : Nat) (v : β) :
    sparseGet d (sparseSet d m k v) i = if i = k then v else sparseGet d m i := by
  by_cases h : i = k
  · subst h; simp
  · rw [sparseGet_set_ne m v h, if_neg h]

theorem sparseWf_filter (m : List (Nat × β)) (k : Nat) (h : sparseWf d m = true) :
    sparseWf d (m.filter (fun e => e.1 != k)) = true := by
  induction m with
  | nil => rfl
  | cons e m ih =>
    obtain ⟨j, v⟩ := e
    simp only [sparseWf, Bool.and_eq_true, decide_eq_true_eq, List.all_eq_true] at h
    obtain ⟨⟨hv, hall⟩, hm⟩ := h
    by_cases hj : j = k
    · simpa [hj] using ih hm
    · have hf : ((j, v) :: m).filter (fun e => e.1 != k) = (j, v) :: m.filter (fun e => e.1 != k) := by simp [hj]
      rw [hf]
      simp only [sparseWf, Bool.and_eq_true, decide_eq_true_eq, List.all_eq_true]
      exact ⟨⟨hv, fun e he => hall e (List.mem_of_mem_filter he)⟩, ih hm⟩

omit [DecidableEq β] in
theorem mem_sparseInsert {m : List (Nat × β)} {k : Nat} {v : β} {e : Nat × β} (h : e ∈ sparseInsert k v m) :
    e = (k, v) ∨ e ∈ m := by
  induction m with
  | nil => simpa [sparseInsert] using h
  | cons x m ih =>
    obtain ⟨j, w⟩ := x
    unfold sparseInsert at h
    split at h
    · simpa using h
    · rcases List.mem_cons.1 h with h | h
      · exact .inr (by simp [h])
      · rcases ih h with h | h
        · exact .inl h
        · exact .inr (List.mem_cons_of_mem _ h)

theorem sparseWf_insert (m : List (Nat × β)) (k : Nat) (v : β) (hv : v ≠ d) (hk : ∀ e ∈ m, e.1 ≠ k)
    (h : sparseWf d m = true) : sparseWf d (sparseInsert k v m) = true := by
  induction m with
  | nil => simp [sparseInsert, sparseWf, hv]
  | cons x m ih =>
    obtain ⟨j, w⟩ := x
    have h' := h
    simp only [sparseWf, Bool.and_eq_true, decide_eq_true_eq, List.all_eq_true] at h
    obtain ⟨⟨hw, hall⟩, hm⟩ := h
    unfold sparseInsert
    split
    · rename_i hlt
      simp only [sparseWf, Bool.and_eq_true, decide_eq_true_eq, List.all_eq_true, List.mem_cons, forall_eq_or_imp]
      exact ⟨⟨hv, hlt, fun e he => Nat.lt_trans hlt (hall e he)⟩, ⟨hw, hall⟩, hm⟩
    · rename_i hlt
      have hjk : j ≠ k := hk (j, w) (by simp)
      simp only [sparseWf, Bool.and_eq_true, decide_eq_true_eq, List.all_eq_true]
      refine ⟨⟨hw, fun e he => ?_⟩, ih (fun e he => hk e (List.mem_cons_of_mem _ he)) hm⟩
      rcases mem_sparseInsert he with rfl | he
      · show j < k; omega
      · exact hall e he

/-- Setting keeps the canonical form. -/
theorem sparseWf_set (m : List (Nat × β)) (k : Nat) (v : β) (h : sparseWf d m = true) :
    sparseWf d (sparseSet d m k v) = true := by
  unfold sparseSet
  split
  · exact sparseWf_filter m k h
  · rename_i hv
    refine sparseWf_insert _ k v hv (fun e he => ?_) (sparseWf_filter m k h)
    simpa using (List.mem_filter.1 he).2

end Sys2Proof.Machine
end

