-- ==== Sys2Proof/Laws/Memory.lean ====
section
/-! SUPPORT. The laws of the array, its poison bits, the counter array, BUF and OUTCOME: what each reads as after each
update, and the canonical form. -/

namespace Sys2Proof.Machine

/-! ### The array -/

theorem Memory.read_write (m : Memory) (a i : Nat) (b : Byte) :
    (m.write a b).read i = if i = a then b else m.read i := sparseGet_set m a i b

theorem Memory.wf_write (m : Memory) (a : Nat) (b : Byte) (h : m.wf = true) : (m.write a b).wf = true :=
  sparseWf_set m a b h

theorem Memory.read_orLane (p : Nat) (x : Reg) (m : Memory) (j a : Nat) :
    (Memory.orLane p x m j).read a = if a = 8 * p + j then m.read a ||| laneOf x j else m.read a := by
  unfold Memory.orLane
  rw [Memory.read_write]
  split
  · rename_i h; rw [h]
  · rfl

/-- A byte after a pulse on word `p`: the lanes of `p` gain the bits of `x`, every other byte is unchanged. -/
theorem Memory.read_orWord (m : Memory) (p : Nat) (x : Reg) (a : Nat) :
    (m.orWord p x).read a = if a / 8 = p then m.read a ||| laneOf x (a % 8) else m.read a := by
  have key : ∀ (js : List Nat) (m : Memory), js.Nodup → (∀ j ∈ js, j < 8) →
      (js.foldl (Memory.orLane p x) m).read a =
        if a / 8 = p ∧ a % 8 ∈ js then m.read a ||| laneOf x (a % 8) else m.read a := by
    intro js
    induction js with
    | nil => intro m _ _; simp
    | cons j js ih =>
      intro m hn hlt
      obtain ⟨hj, hn⟩ := List.nodup_cons.1 hn
      have hj8 := hlt j (by simp)
      rw [List.foldl_cons, ih _ hn (fun i hi => hlt i (List.mem_cons_of_mem _ hi)), Memory.read_orLane]
      by_cases ha : a = 8 * p + j
      · have h1 : a / 8 = p := by omega
        have h2 : a % 8 = j := by omega
        rw [if_neg (by rintro ⟨_, h⟩; exact hj (h2 ▸ h)), if_pos ha, if_pos ⟨h1, by simp [h2]⟩, h2]
      · have h3 : ¬ (a / 8 = p ∧ a % 8 = j) := by omega
        by_cases h4 : a / 8 = p ∧ a % 8 ∈ js
        · simp [h4, ha]
        · have h5 : ¬ (a / 8 = p ∧ a % 8 ∈ j :: js) := by
            rintro ⟨h6, h7⟩
            rcases List.mem_cons.1 h7 with h8 | h8
            · exact h3 ⟨h6, h8⟩
            · exact h4 ⟨h6, h8⟩
          rw [if_neg h4, if_neg h5, if_neg ha]
  have hmem : a % 8 ∈ [0, 1, 2, 3, 4, 5, 6, 7] := by
    have : a % 8 < 8 := Nat.mod_lt _ (by omega)
    simp only [List.mem_cons, List.not_mem_nil, or_false]; omega
  unfold Memory.orWord
  rw [key [0, 1, 2, 3, 4, 5, 6, 7] m (by decide) (by decide)]
  simp [hmem]

theorem Memory.wf_orWord (m : Memory) (p : Nat) (x : Reg) (h : m.wf = true) : (m.orWord p x).wf = true := by
  have key : ∀ (js : List Nat) (m : Memory), m.wf = true → (js.foldl (Memory.orLane p x) m).wf = true := by
    intro js
    induction js with
    | nil => exact fun m h => h
    | cons j js ih => exact fun m h => ih _ (Memory.wf_write m _ _ h)
  exact key _ m h

theorem lanes_join (x : Reg) :
    (laneOf x 7 ++ laneOf x 6 ++ laneOf x 5 ++ laneOf x 4 ++ laneOf x 3 ++ laneOf x 2 ++ laneOf x 1 ++ laneOf x 0
      : BitVec 64) = x := by
  apply BitVec.eq_of_getLsbD_eq
  intro i hi
  simp only [BitVec.getLsbD_append, laneOf, BitVec.getLsbD_extractLsb']
  split <;> [skip; split <;> [skip; split <;> [skip; split <;> [skip; split <;> [skip; split <;> [skip; split]]]]]]
  all_goals (rw [decide_eq_true (by omega), Bool.true_and]; congr 1; omega)

theorem or_lanes (a7 a6 a5 a4 a3 a2 a1 a0 b7 b6 b5 b4 b3 b2 b1 b0 : Byte) :
    (a7 ++ a6 ++ a5 ++ a4 ++ a3 ++ a2 ++ a1 ++ a0 : BitVec 64) ||| (b7 ++ b6 ++ b5 ++ b4 ++ b3 ++ b2 ++ b1 ++ b0 : BitVec 64)
      = ((a7 ||| b7) ++ (a6 ||| b6) ++ (a5 ||| b5) ++ (a4 ||| b4) ++ (a3 ||| b3) ++ (a2 ||| b2) ++ (a1 ||| b1)
        ++ (a0 ||| b0) : BitVec 64) := by
  simp only [← BitVec.or_append]

/-- A word after a pulse (R63): word `p` gains the bits of `x`, every other word is unchanged. -/
theorem Memory.word_orWord (m : Memory) (p q : Nat) (x : Reg) :
    (m.orWord p x).word q = if q = p then m.word q ||| x else m.word q := by
  unfold Memory.word
  by_cases h : q = p
  · subst h
    have h7 : (8 * q + 7) / 8 = q := by omega
    have h6 : (8 * q + 6) / 8 = q := by omega
    have h5 : (8 * q + 5) / 8 = q := by omega
    have h4 : (8 * q + 4) / 8 = q := by omega
    have h3 : (8 * q + 3) / 8 = q := by omega
    have h2 : (8 * q + 2) / 8 = q := by omega
    have h1 : (8 * q + 1) / 8 = q := by omega
    have h0 : (8 * q) / 8 = q := by omega
    have g7 : (8 * q + 7) % 8 = 7 := by omega
    have g6 : (8 * q + 6) % 8 = 6 := by omega
    have g5 : (8 * q + 5) % 8 = 5 := by omega
    have g4 : (8 * q + 4) % 8 = 4 := by omega
    have g3 : (8 * q + 3) % 8 = 3 := by omega
    have g2 : (8 * q + 2) % 8 = 2 := by omega
    have g1 : (8 * q + 1) % 8 = 1 := by omega
    have g0 : (8 * q) % 8 = 0 := by omega
    simp only [Memory.read_orWord, h0, h1, h2, h3, h4, h5, h6, h7, g0, g1, g2, g3, g4, g5, g6, g7, if_true]
    exact ((congrArg (_ ||| ·) (lanes_join x)).symm.trans (or_lanes ..)).symm
  · have h7 : ¬ (8 * q + 7) / 8 = p := by omega
    have h6 : ¬ (8 * q + 6) / 8 = p := by omega
    have h5 : ¬ (8 * q + 5) / 8 = p := by omega
    have h4 : ¬ (8 * q + 4) / 8 = p := by omega
    have h3 : ¬ (8 * q + 3) / 8 = p := by omega
    have h2 : ¬ (8 * q + 2) / 8 = p := by omega
    have h1 : ¬ (8 * q + 1) / 8 = p := by omega
    have h0 : ¬ (8 * q) / 8 = p := by omega
    simp only [Memory.read_orWord, h0, h1, h2, h3, h4, h5, h6, h7, if_false, h]

/-! ### Views of equal parts -/

theorem word_congr {s t : State} (h : t.otp.mem = s.otp.mem) (p : Nat) : t.word p = s.word p := by
  simp only [State.word, h]

theorem poisoned_congr {s t : State} (h : t.otp.poison = s.otp.poison) (p : Nat) : t.poisoned p = s.poisoned p := by
  simp only [State.poisoned, h]

theorem row_congr {s t : State} (h : t.otp.slots = s.otp.slots) (hc : t.cfg = s.cfg) (r : Region) (c : Nat) :
    t.row r c = s.row r c := by
  simp only [State.row, h, hc]

theorem slotAt_congr {s t : State} (h : t.otp.slots = s.otp.slots) (hc : t.cfg = s.cfg) (r : Region) (c sl : Nat) :
    t.slotAt r c sl = s.slotAt r c sl := by
  simp only [State.slotAt, row_congr h hc, hc]

theorem select_congr {s t : State} (h : t.otp.slots = s.otp.slots) (hc : t.cfg = s.cfg) (r : Region) (c : Nat) :
    t.select r c = s.select r c := by
  simp only [State.select, row_congr h hc]

theorem bufAt_congr {s t : State} (h : t.buf = s.buf) (i : Nat) : bufAt t i = bufAt s i := by simp only [bufAt, h]

theorem outcomeAt_congr {s t : State} (h : t.outcome = s.outcome) (i : Nat) : t.outcomeAt i = s.outcomeAt i := by
  simp only [State.outcomeAt, h]

theorem answer_congr {s t : State} (h : t.env = s.env) : t.answer = s.answer := by simp only [State.answer, h]

variable (s : State)

@[simp] theorem State.word_orWord_self (p : Nat) (x : Reg) : (s.orWord p x).word p = s.word p ||| x := by
  simp [State.word, Memory.word_orWord]

theorem State.word_orWord (p q : Nat) (x : Reg) :
    (s.orWord p x).word q = if q = p then s.word q ||| x else s.word q := Memory.word_orWord s.otp.mem p q x

/-! ### Poison bits -/

theorem State.poisoned_poisonWord (p q : Nat) :
    (s.poisonWord p).poisoned q = if q = p then true else s.poisoned q := sparseGet_set _ p q true

/-! ### The counter array -/

theorem rowKey_inj {r r' : Region} {c c' : Nat} : rowKey r c = rowKey r' c' ↔ r = r' ∧ c = c' := by
  unfold rowKey
  constructor
  · intro h
    have h1 := (regionCode r).isLt
    have h2 := (regionCode r').isLt
    have hc : c = c' := by omega
    have hr : (regionCode r).toNat = (regionCode r').toNat := by omega
    refine ⟨?_, hc⟩
    cases r <;> cases r' <;> first | rfl | (exact absurd hr (by decide))
  · rintro ⟨rfl, rfl⟩; rfl

theorem State.row_modifySlot (r : Region) (c sl : Nat) (f : Slot → Slot) (r' : Region) (c' : Nat) :
    (s.modifySlot r c sl f).row r' c' =
      if r' = r ∧ c' = c then (s.row r c).set sl (f (s.slotAt r c sl)) else s.row r' c' := by
  unfold State.row
  simp only [State.modifySlot_cfg, State.modifySlot_otp, sparseGet_set, rowKey_inj]
  rfl

/-- `SLOT` after an update of one slot. A slot index beyond the row changes nothing. -/
theorem State.slotAt_modifySlot (r : Region) (c sl : Nat) (f : Slot → Slot) (r' : Region) (c' sl' : Nat) :
    (s.modifySlot r c sl f).slotAt r' c' sl' =
      if (r' = r ∧ c' = c) ∧ sl' = sl ∧ sl < (s.row r c).length then f (s.slotAt r c sl) else s.slotAt r' c' sl' := by
  unfold State.slotAt
  rw [State.row_modifySlot, State.modifySlot_cfg]
  by_cases h : r' = r ∧ c' = c
  · obtain ⟨rfl, rfl⟩ := h
    simp only [and_self, if_true, true_and, List.getD_eq_getElem?_getD, List.getElem?_set, State.slotAt]
    by_cases h1 : sl = sl'
    · subst h1
      by_cases h2 : sl < (s.row r' c').length
      · simp [h2]
      · simp [h2]
    · simp [h1, Ne.symm h1]
  · simp [h]

/-! ### BUF and OUTCOME -/

theorem bufAt_setBuf (i j : Nat) (v : Reg) : bufAt (s.setBuf i v) j = if j = i then v else bufAt s j :=
  sparseGet_set _ i j v

theorem State.outcomeAt_modifyOutcome (i j : Nat) (f : OutcomeReg → OutcomeReg) :
    (s.modifyOutcome i f).outcomeAt j = if j = i then f (s.outcomeAt i) else s.outcomeAt j :=
  sparseGet_set _ i j _

end Sys2Proof.Machine
end

