-- ==== Sys2Proof/Laws/Plans.lean ====
section
/-! SUPPORT. One controller step as its plan: `exec` runs it, a reset interrupts it. -/

namespace Sys2Proof.Machine

/-- `exec` is the run of the command's plan. -/
theorem exec_eq_planOf (i : Instr) (s : State) : exec i s = (planOf i s).run := by cases i <;> rfl

/-- `execSteps` unfolded at the front. -/
theorem execSteps_succ {i : Instr} {n : Nat} {s t : State} (h : exec i s = .next t) :
    execSteps i (n + 1) s = execSteps i n t := by simp [execSteps, h]

theorem run_done (s : State) : (Plan.done s).run = .next s := rfl

theorem needUnlocked_true {s : State} (h : s.macroUnlocked = true) (o : Host.Outcome State Fault Refusal) :
    needUnlocked s o = o := by simp [needUnlocked, h]

theorem needUnlocked_next {s t : State} {o : Host.Outcome State Fault Refusal} (h : needUnlocked s o = .next t) :
    s.macroUnlocked = true ∧ o = .next t := by
  unfold needUnlocked at h
  split at h
  · exact ⟨‹_›, h⟩
  · cases h

/-- The step of a pulse on a word that is inside the array, with the macro unlocked. -/
theorem run_pulse {p : Nat} {t : Reg} {tm : Timing} {mg : BitVec 16} {s : State} {k : PulseStatus → State → State}
    (hu : s.macroUnlocked = true) (hp : p < s.cfg.arrayWords) :
    (Plan.pulse p t tm mg s k).run = .next (k (macroPulse p t tm mg s).1 (macroPulse p t tm mg s).2) := by
  simp [Plan.run, needUnlocked, hu, hp]

/-- The step of a pulse on a slot, with the macro unlocked. -/
theorem run_pulseSlot {r : Region} {c sl : Nat} {b : Bool} {tm : Timing} {mg : BitVec 16} {s : State}
    {k : PulseStatus → State → State} (hu : s.macroUnlocked = true) :
    (Plan.pulseSlot r c sl b tm mg s k).run =
      .next (k (macroPulseSlot r c sl b tm mg s).1 (macroPulseSlot r c sl b tm mg s).2) := by
  simp [Plan.run, needUnlocked, hu]

/-- Say once what a step of a plan can do: if it answers a next state, then one of these. -/
theorem run_cases {pl : Plan} {t : State} (h : pl.run = .next t) :
    (pl = .done t) ∨
    (∃ p x tm mg s k, pl = .pulse p x tm mg s k ∧ s.macroUnlocked = true ∧ p < s.cfg.arrayWords ∧
      t = k (macroPulse p x tm mg s).1 (macroPulse p x tm mg s).2) ∨
    (∃ r c sl b tm mg s k, pl = .pulseSlot r c sl b tm mg s k ∧ s.macroUnlocked = true ∧
      t = k (macroPulseSlot r c sl b tm mg s).1 (macroPulseSlot r c sl b tm mg s).2) ∨
    (∃ r s k, pl = .protect r s k ∧ s.macroUnlocked = true ∧ t = k (macroProtect r s).1 (macroProtect r s).2) ∨
    (∃ s k, pl = .lockAll s k ∧ s.macroUnlocked = true ∧ t = k (macroLockAll s).1 (macroLockAll s).2) := by
  cases pl with
  | done s => exact .inl (by simpa [Plan.run] using h)
  | stop f => cases h
  | pulse p x tm mg s k =>
    obtain ⟨hu, h⟩ := needUnlocked_next h
    split at h
    · exact .inr (.inl ⟨p, x, tm, mg, s, k, rfl, hu, ‹_›, by simpa using h.symm⟩)
    · cases h
  | pulseSlot r c sl b tm mg s k =>
    obtain ⟨hu, h⟩ := needUnlocked_next h
    exact .inr (.inr (.inl ⟨r, c, sl, b, tm, mg, s, k, rfl, hu, by simpa using h.symm⟩))
  | protect r s k =>
    obtain ⟨hu, h⟩ := needUnlocked_next h
    exact .inr (.inr (.inr (.inl ⟨r, s, k, rfl, hu, by simpa using h.symm⟩)))
  | lockAll s k =>
    obtain ⟨hu, h⟩ := needUnlocked_next h
    exact .inr (.inr (.inr (.inr ⟨s, k, rfl, hu, by simpa using h.symm⟩)))

end Sys2Proof.Machine
end

