-- ==== Sys2Proof/Laws/Commands.lean ====
section
/-! SUPPORT. The steps of the commands outside the engine, place by place: what each does when it is taken. -/

namespace Sys2Proof.Machine

/-! ### Ending a command -/

/-- `finish` in the step that starts the command changes STATUS only (R44). -/
theorem finish_of_start {s : State} (hp : s.phase = .start) (e : ErrCode) (a : Aggregate) :
    finish e a s = { s with status := finished e a s.status } := by
  rcases s with ⟨⟩
  simp only at hp
  subst hp
  rfl

theorem raise_of_start {s : State} (hp : s.phase = .start) (e : ErrCode) :
    raise e s = { s with status := finished e .failure s.status } := finish_of_start hp e _

/-! ### BEGIN_SESSION and END_SESSION (R130, R131) -/

theorem begin_unlocks {s : State} (hp : s.phase = .start) (hi : s.session = .idle) :
    exec .beginSession s = .next ((macroUnlock Config.password s).atPhase .beginUnlocked) := by
  simp [exec, execBeginSession, planBeginSession, hp, hi, Plan.run]

theorem begin_active {s : State} (hp : s.phase = .start) (hi : s.session = .active) :
    exec .beginSession s = .next (raise .alreadyActive s) := by
  simp [exec, execBeginSession, planBeginSession, hp, hi, Plan.run]

theorem begin_readsId {s : State} (hp : s.phase = .beginUnlocked) :
    exec .beginSession s = .next (s.countMacro.atPhase (.beginIdRead s.cfg.chipId)) := by
  simp [exec, execBeginSession, planBeginSession, hp, Plan.run, macroReadId]

theorem begin_readsProt {s : State} {vid : Reg} (hp : s.phase = .beginIdRead vid)
    (hk : knownVariant s.cfg vid = true) :
    exec .beginSession s = .next (s.countMacro.atPhase (.beginProtRead vid s.deviceProt s.otp.physLock)) := by
  simp [exec, execBeginSession, planBeginSession, hp, hk, Plan.run, macroReadProt]

theorem begin_relocks {s : State} {vid : Reg} (hp : s.phase = .beginIdRead vid)
    (hk : knownVariant s.cfg vid = false) :
    exec .beginSession s = .next ((macroRelock s).atPhase .beginRelocked) := by
  simp [exec, execBeginSession, planBeginSession, hp, hk, Plan.run]

theorem begin_opens {s : State} {vid : Reg} {pp : BitVec 4} {pl : Bool} (hp : s.phase = .beginProtRead vid pp pl) :
    exec .beginSession s = .next (openSession vid pp pl s) := by
  simp [exec, execBeginSession, planBeginSession, hp, Plan.run]

theorem begin_fails {s : State} (hp : s.phase = .beginRelocked) :
    exec .beginSession s = .next (finish .hardwareFault .failure s) := by
  simp [exec, execBeginSession, planBeginSession, hp, Plan.run]

theorem end_relocks {s : State} (hp : s.phase = .start) :
    exec .endSession s = .next ((macroRelock s).atPhase .endRelocked) := by
  simp [exec, execEndSession, planEndSession, hp, Plan.run]

theorem end_closes {s : State} (hp : s.phase = .endRelocked) : exec .endSession s = .next (closeSession s) := by
  simp [exec, execEndSession, planEndSession, hp, Plan.run]

/-! ### LOCK and ENABLE_REGION_PROTECTION (R140, R142) -/

theorem lock_asks {s : State} (hp : s.phase = .start) (hi : s.session = .active) (hl : s.snap.lock = false)
    (hu : s.macroUnlocked = true) :
    exec .lock s = .next ((macroLockAll s).2.atPhase (.lockAnswered (macroLockAll s).1)) := by
  simp [exec, execLock, planLock, hp, hi, hl, Plan.run, needUnlocked, hu]

theorem lock_ends {s : State} {ok : Bool} (hp : s.phase = .lockAnswered ok) :
    exec .lock s = .next (if ok then finish .ok .success s.snapLock else finish .hardwareFault .failure s) := by
  cases ok <;> simp [exec, execLock, planLock, hp, Plan.run]

theorem protect_asks {s : State} {r : Region} (hp : s.phase = .start) (hi : s.session = .active)
    (hr : (s.info r).protectable = true) (hl : s.snap.lock = false) (hb : protBit s.snap.prot r = false)
    (hu : s.macroUnlocked = true) :
    exec (.enableRegionProtection r) s =
      .next ((macroProtect r s).2.atPhase (.protectAnswered (macroProtect r s).1)) := by
  simp [exec, execEnableRegionProtection, planEnableRegionProtection, hp, hi, hr, hl, hb, Plan.run, needUnlocked, hu]

theorem protect_ends {s : State} {r : Region} {ok : Bool} (hp : s.phase = .protectAnswered ok) :
    exec (.enableRegionProtection r) s =
      .next (if ok then finish .ok .success (s.snapProtect r) else finish .hardwareFault .failure s) := by
  cases ok <;> simp [exec, execEnableRegionProtection, planEnableRegionProtection, hp, Plan.run]

/-! ### Reads (R222 to R224) -/

/-- What a word reads as (R64). -/
theorem macroRead_fst (p : Nat) (s : State) :
    (macroRead p s).1 = if s.poisoned p then s.answer.bits &&& wordMask s.cfg else s.word p := by
  unfold macroRead
  split <;> rfl

/-- A read of a word inside the array (R64). -/
theorem readUnit_word {v : Reg} {r : Region} {o : Nat} {s : State} {k : Reg → State → State}
    (hl : (regionInfo s.cfg v r).attemptLimited = false) (hp : (regionInfo s.cfg v r).base + o < s.cfg.arrayWords) :
    readUnit v r o s k = .done (k (macroRead ((regionInfo s.cfg v r).base + o) s).1
      (macroRead ((regionInfo s.cfg v r).base + o) s).2) := by
  simp [readUnit, hl, hp]

/-- A read of a cell (R64). -/
theorem readUnit_cell {v : Reg} {r : Region} {o : Nat} {s : State} {k : Reg → State → State}
    (hl : (regionInfo s.cfg v r).attemptLimited = true) :
    readUnit v r o s k = .done (k (macroReadCell r o s).1 (macroReadCell r o s).2) := by
  simp [readUnit, hl]

/-- The step of a read of one word into `BUF[i]` (R223, R224). -/
theorem readIntoBuf_word {r : Region} {v : Reg} {i p : Nat} {s : State}
    (hl : (regionInfo s.cfg v r).attemptLimited = false) (he : (regionInfo s.cfg v r).base + (s.eng.off + i) = p)
    (hp : p < s.cfg.arrayWords) :
    readIntoBuf r v i s = .done (((macroRead p s).2.setBuf i (macroRead p s).1).atPhase (.unitRead v)) := by
  subst he
  simp [readIntoBuf, readUnit_word hl hp]

/-- The step of a read of one cell into `BUF[i]` (R223, R224). -/
theorem readIntoBuf_cell {r : Region} {v : Reg} {i c : Nat} {s : State}
    (hl : (regionInfo s.cfg v r).attemptLimited = true) (he : s.eng.off + i = c) :
    readIntoBuf r v i s = .done (((macroReadCell r c s).2.setBuf i (macroReadCell r c s).1).atPhase (.unitRead v)) := by
  subst he
  simp [readIntoBuf, readUnit_cell hl]

/-- READ in a session, past its checks, is the read of its unit (R223). -/
theorem read_starts {r : Region} {s : State} (hp : s.phase = .start) (hi : s.session = .active)
    (h1 : s.addr.toNat < (s.info r).capacity) (h2 : s.addr.toNat % (s.info r).alignment = 0) :
    exec (.read r) s = (readIntoBuf r s.variant 0 (latchCommand (.read r) 1 s)).run := by
  have := resolve_of_inside h1 h2 (n := 1) (by omega)
  simp only [State.info] at this
  simp [exec, execRead, planRead, hp, readChecks, hi, readResolved, this]

theorem read_ends {r : Region} {v : Reg} {s : State} (hp : s.phase = .unitRead v) :
    exec (.read r) s = .next (finish .ok .success s) := by
  simp [exec, execRead, planRead, hp, Plan.run]

/-- READ while Idle, on the session-less path (R222). -/
theorem read_readsId {r : Region} {s : State} (hp : s.phase = .start) (hi : s.session = .idle)
    (hw : s.cfg.readWithoutSession = true) :
    exec (.read r) s = .next ((latchCommand (.read r) 1 s).countMacro.atPhase (.readIdRead s.cfg.chipId)) := by
  simp [exec, execRead, planRead, hp, readChecks, hi, hw, Plan.run, macroReadId]

theorem read_readsProt {r : Region} {s : State} {vid : Reg} (hp : s.phase = .readIdRead vid)
    (hk : knownVariant s.cfg vid = true) :
    exec (.read r) s = .next (s.countMacro.atPhase (.readProtRead vid s.deviceProt)) := by
  simp [exec, execRead, planRead, hp, readChecksId, hk, Plan.run, macroReadProt]

theorem read_unknown {r : Region} {s : State} {vid : Reg} (hp : s.phase = .readIdRead vid)
    (hk : knownVariant s.cfg vid = false) :
    exec (.read r) s = .next (finish .hardwareFault .failure s) := by
  simp [exec, execRead, planRead, hp, readChecksId, hk, Plan.run]

theorem read_protected {r : Region} {s : State} {vid : Reg} {pp : BitVec 4} (hp : s.phase = .readProtRead vid pp)
    (hb : protBit pp r = true) : exec (.read r) s = .next (finish .noSession .failure s) := by
  simp [exec, execRead, planRead, hp, readChecksProt, hb, Plan.run]

theorem read_unprotected {r : Region} {s : State} {vid : Reg} {pp : BitVec 4} (hp : s.phase = .readProtRead vid pp)
    (hb : protBit pp r = false) (hr : resolve (regionInfo s.cfg vid r) s.eng.off s.eng.count = .ok) :
    exec (.read r) s = (readIntoBuf r vid 0 s).run := by
  simp [exec, execRead, planRead, hp, readChecksProt, hb, readResolved, hr]

theorem slotBits_of_clean {draw : BitVec 256} {xs : List Slot} {j : Nat} (h : xs.any (·.poisoned) = false) :
    slotBits draw j xs = xs.map (·.committed) := by
  induction xs generalizing j with
  | nil => rfl
  | cons x xs ih =>
    simp only [List.any_cons, Bool.or_eq_false_iff] at h
    simp [slotBits, h.1, ih h.2]

/-- A cell with no poisoned slot reads its logical value (R28, R64). -/
theorem macroReadCell_clean {r : Region} {c : Nat} {s : State} (h : s.rowPoisoned r c = false) :
    macroReadCell r c s = (if s.cellValue r c then 1 else 0, s.countMacro) := by
  simp only [macroReadCell, slotBits_of_clean (by exact h), h, boolWord_eq, List.any_map, State.cellValue]
  simp

/-- A cell reads 0 or 1. -/
theorem macroReadCell_bit (r : Region) (c : Nat) (s : State) : (macroReadCell r c s).1 = 0 ∨ (macroReadCell r c s).1 = 1 := by
  simp only [macroReadCell, boolWord_eq]
  split <;> simp

end Sys2Proof.Machine
end

