-- ==== Sys2Proof/Laws/Engine.lean ====
section
/-! SUPPORT. The engine's steps (44_program_engine.md): how an engine command starts and goes on, and what each place of a
unit does. -/

namespace Sys2Proof.Machine

/-- An engine command that starts, past the LEN check of WRITE_REGION, is `write_checks` and `program_op` (R194, R225,
R226). -/
theorem program_starts {i : Instr} {s : State} (hi : isProgram i = true) (hp : s.phase = .start)
    (hn : unitCount i s ≤ s.cfg.bufWords ∨ ∀ r p, i ≠ .writeRegion r p) :
    exec i s = (programCommand i (unitCount i s) (soakSource i s) s).run := by
  cases i <;> simp only [isProgram, Bool.false_eq_true] at hi
  case write r => simp only [exec, execWrite, planWrite, hp, unitCount, soakSource]
  case soakProgram r => simp only [exec, execSoakProgram, planSoakProgram, hp, unitCount, soakSource, callerSoak]
  case programWithSoakFallback r =>
    simp only [exec, execProgramWithSoakFallback, planProgramWithSoakFallback, hp, unitCount, soakSource, callerSoak]
  case writeRegion r p =>
    have hn' : ¬ s.cfg.bufWords < s.len.toNat := by
      rcases hn with hn | hn
      · exact Nat.not_lt.mpr hn
      · exact absurd rfl (hn r p)
    simp only [exec, execWriteRegion, planWriteRegion, hp, countOperand, gt_iff_lt, hn', if_false, unitCount, soakSource]

/-- The place is one of the engine's. -/
def inEngine : Phase → Bool
  | .normalPulsed _ | .verifyRead _ | .soakPulsed _ | .reverifyRead _ => true
  | _ => false

/-- An engine command that goes on, goes on in the engine. -/
theorem program_resumes {i : Instr} {s : State} (hi : isProgram i = true) (hp : s.phase ≠ .start) :
    exec i s = (engineResume s).run := by
  cases i <;> simp only [isProgram, Bool.false_eq_true] at hi
  case write r => simp only [exec, execWrite]; unfold planWrite; split <;> trivial
  case soakProgram r => simp only [exec, execSoakProgram]; unfold planSoakProgram; split <;> trivial
  case programWithSoakFallback r =>
    simp only [exec, execProgramWithSoakFallback]; unfold planProgramWithSoakFallback; split <;> trivial
  case writeRegion r p => simp only [exec, execWriteRegion]; unfold planWriteRegion; split <;> trivial

theorem after_normal {i : Instr} {s : State} {st : PulseStatus} (hi : isProgram i = true)
    (hp : s.phase = .normalPulsed st) : exec i s = (afterPulse st .verify .verifyRead (noteNormalPulse s)).run := by
  rw [program_resumes hi (by simp [hp])]
  simp only [engineResume, hp]

theorem after_verify {i : Instr} {s : State} {rb : Reg} (hi : isProgram i = true) (hp : s.phase = .verifyRead rb) :
    exec i s = (afterVerify rb s).run := by
  rw [program_resumes hi (by simp [hp])]
  simp only [engineResume, hp]

theorem after_soak {i : Instr} {s : State} {st : PulseStatus} (hi : isProgram i = true)
    (hp : s.phase = .soakPulsed st) : exec i s = (afterPulse st .reverify .reverifyRead (noteSoakPulse s)).run := by
  rw [program_resumes hi (by simp [hp])]
  simp only [engineResume, hp]

theorem after_reverify {i : Instr} {s : State} {rb : Reg} (hi : isProgram i = true)
    (hp : s.phase = .reverifyRead rb) : exec i s = (afterReverify rb s).run := by
  rw [program_resumes hi (by simp [hp])]
  simp only [engineResume, hp]

/-- The checks of an engine command that is ready pass. -/
theorem writeChecks_ready {i : Instr} {s : State} (h : ReadyToProgram s i) :
    writeChecks (regionField i) (offsetOperand s) (unitCount i s) s = .ok := by
  unfold writeChecks
  rw [if_neg (by rw [h.active]; decide), if_neg (by rw [h.notLocked]; decide), if_neg (by rw [h.notProtected]; decide)]
  exact resolve_of_inside h.inside h.aligned h.fits

/-- The state in which a ready engine command enters the loop of `program_op`, with ENG latched but for `ENG.k`. -/
theorem program_enters {i : Instr} {s : State} (hi : isProgram i = true) (h : ReadyToProgram s i) :
    exec i s = (runUnits (unitCount i s) { s with eng := { engAt i s with k := s.eng.k } }).run := by
  rw [program_starts hi h.start (.inl h.count), programCommand, writeChecks_ready h]
  rfl

/-- The first unit of a ready engine command with at least one unit. -/
theorem program_first {i : Instr} {s : State} (hi : isProgram i = true) (h : ReadyToProgram s i)
    (hn : 1 ≤ unitCount i s) :
    exec i s = (startUnit (closeWith (runUnits (unitCount i s - 1)))
      { s with eng := engAt i s, wordIndex := 0, status := { s.status with engState := .init } }).run := by
  rw [program_enters hi h]
  obtain ⟨m, hm⟩ : ∃ m, unitCount i s = m + 1 := ⟨unitCount i s - 1, by omega⟩
  rw [hm, Nat.add_sub_cancel]
  simp only [runUnits]
  have : (engAt i s).count - (m + 1) = 0 := by simp only [engAt, hm]; omega
  simp only [this]
  rfl

theorem startsNormal_isProgram {i : Instr} (h : startsNormal i = true) : isProgram i = true := by
  cases i <;> simp_all [startsNormal, isProgram]

/-- A unit of kind STD begins with the normal pulse. -/
theorem startUnit_normal {i : Instr} {s : State} (close : OutcomeCode → State → Plan) (h : startsNormal i = true)
    (ho : s.eng.op = some i) : startUnit close s = normalPulse s := by
  have : soakOnly s = false := by cases i <;> simp_all [soakOnly, startsNormal]
  simp [startUnit, this]

/-- A unit of kind SOAK_ONLY begins with the soak pulse where soak is available, and ends there otherwise. -/
theorem startUnit_soak {r : Region} {s : State} (close : OutcomeCode → State → Plan)
    (ho : s.eng.op = some (.soakProgram r)) :
    startUnit close s = if unitAvail s then soakPulse (close .failedExhausted s) s else close .failedVerify s := by
  have : soakOnly s = true := by simp [soakOnly, ho]
  simp [startUnit, this]

/-- A word of a unit lies in the array (R78). -/
theorem unit_inside {s : State} (hc : s.cfg.legal = true) (hl : (unitInfo s).attemptLimited = false)
    (hu : unitOff s < (unitInfo s).capacity) : (unitInfo s).base + unitOff s < s.cfg.arrayWords := by
  have := legal_inside hc s.variant s.eng.region hl
  simp only [unitInfo, State.info] at hu ⊢
  omega

/-! ### Pulses and read-backs -/

/-- The normal pulse on a word (R187). -/
theorem normalPulse_word {s : State} {p : Nat} (hl : (unitInfo s).attemptLimited = false)
    (hp : (unitInfo s).base + unitOff s = p) (hin : p < s.cfg.arrayWords) (hu : s.macroUnlocked = true) :
    (normalPulse s).run = .next ((((s.setEng .normalProgram).drew.countMacro.countPulse .normal).orWord p
      (unitTarget s &&& s.answer.bits)).atPhase (.normalPulsed s.answer.status)) := by
  have : normalPulse s = .pulse p (unitTarget s) .normal s.eng.soak.margin (s.setEng .normalProgram)
      (fun st u => u.atPhase (.normalPulsed st)) := by
    subst hp
    unfold normalPulse
    exact if_neg (ne_true_of_eq_false hl)
  rw [this, run_pulse (by simpa using hu) (by simpa using hin)]
  rfl

/-- What the normal pulse requests of a cell (R188, R197). -/
theorem normalRequest_cell {s : State} (hl : (unitInfo s).attemptLimited = true) :
    normalRequest s = ((bufAt s (unitIndex s)).getLsbD 0 && !s.cellSet s.eng.region (unitOff s)) := by
  simp [normalRequest, unitTarget, targetOf, hl]

/-- A set, poison-free cell is asked for nothing, so its normal pulse changes no slot (R197). -/
theorem normalRequest_set {s : State} (h : s.cellSet s.eng.region (unitOff s) = true) : normalRequest s = false := by
  simp [normalRequest, h]

/-- The normal pulse on a cell with a selectable slot (R188, R186). -/
theorem normalPulse_cell {s : State} {sl : Nat} (hl : (unitInfo s).attemptLimited = true)
    (hs : s.select s.eng.region (unitOff s) = some sl) (hu : s.macroUnlocked = true) :
    (normalPulse s).run = .next (((({ s.setEng .normalProgram with eng := { s.eng with slot := sl } }).drew.countMacro.countPulse
      .normal).modifySlot s.eng.region (unitOff s) sl
        (Slot.commit (normalRequest s && s.answer.took))).atPhase (.normalPulsed s.answer.status)) := by
  have : normalPulse s = .pulseSlot s.eng.region (unitOff s) sl (normalRequest s) .normal s.eng.soak.margin
      { s.setEng .normalProgram with eng := { s.eng with slot := sl } } (fun st u => u.atPhase (.normalPulsed st)) := by
    unfold normalPulse
    refine (if_pos hl).trans ?_
    have hs' : (s.setEng .normalProgram).select s.eng.region (unitOff s) = some sl := hs
    simp only [State.setEng_eng]
    rw [show unitOff (s.setEng .normalProgram) = unitOff s from rfl, hs']
    rfl
  rw [this, run_pulseSlot (by simpa using hu)]
  rfl

/-- A cell with no selectable slot is read back without a pulse (R186, R188). -/
theorem normalPulse_none {s : State} (hl : (unitInfo s).attemptLimited = true)
    (hs : s.select s.eng.region (unitOff s) = none) :
    normalPulse s = readBack .verify .verifyRead (s.setEng .normalProgram) := by
  unfold normalPulse
  refine (if_pos hl).trans ?_
  have hs' : (s.setEng .normalProgram).select s.eng.region (unitOff s) = none := hs
  simp only [State.setEng_eng]
  rw [show unitOff (s.setEng .normalProgram) = unitOff s from rfl, hs']

/-- A soak pulse on a word (R187). -/
theorem soakPulse_word {s : State} {p : Nat} {ex : Plan} (hk : s.eng.k < s.eng.soak.retries.toNat)
    (hl : (unitInfo s).attemptLimited = false) (hp : (unitInfo s).base + unitOff s = p) (hin : p < s.cfg.arrayWords)
    (hu : s.macroUnlocked = true) :
    (soakPulse ex s).run = .next ((((s.setEng .soakProgram).drew.countMacro.countPulse (.soak s.eng.soak.pulse)).orWord p
      (unitTarget s &&& s.answer.bits)).atPhase (.soakPulsed s.answer.status)) := by
  have : soakPulse ex s = .pulse p (unitTarget s) (.soak s.eng.soak.pulse) s.eng.soak.margin (s.setEng .soakProgram)
      (fun st u => u.atPhase (.soakPulsed st)) := by
    subst hp
    unfold soakPulse
    exact (if_pos hk).trans (if_neg (ne_true_of_eq_false hl))
  rw [this, run_pulse (by simpa using hu) (by simpa using hin)]
  rfl

/-- A soak pulse on a cell's first selectable slot, which consumes an attempt (R186, R188). -/
theorem soakPulse_cell {s : State} {sl : Nat} {ex : Plan} (hk : s.eng.k < s.eng.soak.retries.toNat)
    (hl : (unitInfo s).attemptLimited = true) (hs : s.select s.eng.region (unitOff s) = some sl)
    (hu : s.macroUnlocked = true) :
    (soakPulse ex s).run = .next ((((({ s.setEng .soakProgram with eng := { s.eng with slot := sl } }).drew.countMacro.countPulse
          (.soak s.eng.soak.pulse)).modifySlot s.eng.region (unitOff s) sl
            (Slot.commit ((unitTarget s).getLsbD 0 && s.answer.took))).recordAttempt s.eng.region (unitOff s) sl).atPhase
              (.soakPulsed s.answer.status)) := by
  have : soakPulse ex s = .pulseSlot s.eng.region (unitOff s) sl ((unitTarget s).getLsbD 0)
      (.soak s.eng.soak.pulse) s.eng.soak.margin { s.setEng .soakProgram with eng := { s.eng with slot := sl } }
      (fun st u => (u.recordAttempt s.eng.region (unitOff s) sl).atPhase (.soakPulsed st)) := by
    unfold soakPulse
    refine (if_pos hk).trans ((if_pos hl).trans ?_)
    rw [hs]
    rfl
  rw [this, run_pulseSlot (by simpa using hu)]
  rfl

/-- No soak pulse: no retry is left, or no slot is selectable (R183). -/
theorem soakPulse_exhausted {s : State} {ex : Plan}
    (h : s.eng.soak.retries.toNat ≤ s.eng.k ∨
      ((unitInfo s).attemptLimited = true ∧ s.select s.eng.region (unitOff s) = none)) : soakPulse ex s = ex := by
  unfold soakPulse
  by_cases hk : s.eng.k < s.eng.soak.retries.toNat
  · obtain ⟨hl, hs⟩ := h.resolve_left (by omega)
    refine (if_pos hk).trans ((if_pos hl).trans ?_)
    rw [hs]
  · exact if_neg hk

/-- The read-back of a word (R187). -/
theorem readBack_word {s : State} {p : Nat} {e : EngState} {at_ : Reg → Phase}
    (hl : (unitInfo s).attemptLimited = false) (hp : (unitInfo s).base + unitOff s = p) (hin : p < s.cfg.arrayWords) :
    readBack e at_ s = .done ((macroRead p (s.setEng e)).2.atPhase (at_ (macroRead p (s.setEng e)).1)) := by
  subst hp
  unfold readBack
  exact readUnit_word (s := s.setEng e) hl hin

/-- The read-back of a cell (R188). -/
theorem readBack_cell {s : State} {e : EngState} {at_ : Reg → Phase} (hl : (unitInfo s).attemptLimited = true) :
    readBack e at_ s = .done ((macroReadCell s.eng.region (unitOff s) (s.setEng e)).2.atPhase
      (at_ (macroReadCell s.eng.region (unitOff s) (s.setEng e)).1)) := by
  unfold readBack
  exact readUnit_cell (s := s.setEng e) hl

/-- A pulse that did not report READY ends the command in the next step (R187, R193). -/
theorem afterPulse_bad {s : State} {st : PulseStatus} {e : EngState} {at_ : Reg → Phase} (h : st ≠ .ready) :
    afterPulse st e at_ s = .done (abortUnit (abortCode st) s) := by
  cases st <;> first | rfl | exact absurd rfl h

end Sys2Proof.Machine
end

