-- ==== Sys2Proof/Laws/Calls.lean ====
section
/-! SUPPORT. The state in which a step makes its interruptible call (70_reset_and_hazards.md R274): nothing but the engine's
own registers has changed since the step began. -/

namespace Sys2Proof.Machine

/-- The engine's bookkeeping between two states of one step: only ENGINE_STATE, WORD_INDEX, OUTCOME and ENG may differ. -/
structure Kept (s t : State) : Prop where
  cfg : t.cfg = s.cfg
  otp : t.otp = s.otp
  session : t.session = s.session
  snap : t.snap = s.snap
  macroUnlocked : t.macroUnlocked = s.macroUnlocked
  variant : t.variant = s.variant
  cmdLatch : t.cmdLatch = s.cmdLatch
  busy : t.status.busy = s.status.busy
  overrun : t.status.overrun = s.status.overrun
  err : t.status.err = s.status.err
  result : t.status.result = s.status.result
  addr : t.addr = s.addr
  len : t.len = s.len
  soak : t.soak = s.soak
  qresult : t.qresult = s.qresult
  cnt : t.cnt = s.cnt
  buf : t.buf = s.buf
  env : t.env = s.env

theorem Kept.refl (s : State) : Kept s s := by constructor <;> rfl

theorem Kept.trans {s t u : State} (h : Kept s t) (g : Kept t u) : Kept s u := by
  constructor
  · exact g.cfg.trans h.cfg
  · exact g.otp.trans h.otp
  · exact g.session.trans h.session
  · exact g.snap.trans h.snap
  · exact g.macroUnlocked.trans h.macroUnlocked
  · exact g.variant.trans h.variant
  · exact g.cmdLatch.trans h.cmdLatch
  · exact g.busy.trans h.busy
  · exact g.overrun.trans h.overrun
  · exact g.err.trans h.err
  · exact g.result.trans h.result
  · exact g.addr.trans h.addr
  · exact g.len.trans h.len
  · exact g.soak.trans h.soak
  · exact g.qresult.trans h.qresult
  · exact g.cnt.trans h.cnt
  · exact g.buf.trans h.buf
  · exact g.env.trans h.env

theorem kept_setEng (s : State) (e : EngState) : Kept s (s.setEng e) := by constructor <;> rfl
theorem kept_openUnit (i : Nat) (s : State) : Kept s (openUnit i s) := by constructor <;> rfl
theorem kept_endUnit (c : OutcomeCode) (s : State) : Kept s (endUnit c s) := by constructor <;> rfl
theorem kept_latchCommand (i : Instr) (n : Nat) (s : State) : Kept s (latchCommand i n s) := by constructor <;> rfl
theorem kept_eng (s : State) (g : Eng) : Kept s { s with eng := g } := by constructor <;> rfl
theorem kept_noteNormalPulse (s : State) : Kept s (noteNormalPulse s) := by constructor <;> rfl
theorem kept_noteSoakPulse (s : State) : Kept s (noteSoakPulse s) := by constructor <;> rfl
theorem kept_setWordIndex (i : Nat) (s : State) : Kept s (s.setWordIndex i) := by constructor <;> rfl

/-- The state in which a plan makes its interruptible call, if it makes one. -/
def Plan.callState : Plan → Option State
  | .done _ | .stop _ => none
  | .pulse _ _ _ _ s _ | .pulseSlot _ _ _ _ _ _ s _ | .protect _ s _ | .lockAll s _ => some s

/-- If the plan makes an interruptible call, it makes it in a state that `s` is kept in. -/
structure CallsFrom (s : State) (pl : Plan) : Prop where
  kept : ∀ u, pl.callState = some u → Kept s u

theorem CallsFrom.done (s t : State) : CallsFrom s (.done t) := ⟨fun _ h => nomatch h⟩

theorem CallsFrom.stop (s : State) (f : Fault) : CallsFrom s (.stop f) := ⟨fun _ h => nomatch h⟩

theorem CallsFrom.of_kept {s t : State} {pl : Plan} (h : Kept s t) (g : CallsFrom t pl) : CallsFrom s pl :=
  ⟨fun u hu => h.trans (g.kept u hu)⟩

theorem callsFrom_readUnit (w : State) (v : Reg) (r : Region) (o : Nat) (s : State) (k : Reg → State → State) :
    CallsFrom w (readUnit v r o s k) := by
  simp only [readUnit]
  split
  · exact .done ..
  · split
    · exact .done ..
    · exact .stop ..

theorem callsFrom_readBack (w : State) (e : EngState) (at_ : Reg → Phase) (s : State) :
    CallsFrom w (readBack e at_ s) := by
  unfold readBack
  exact callsFrom_readUnit ..

theorem callsFrom_normalPulse (s : State) : CallsFrom s (normalPulse s) := by
  simp only [normalPulse]
  split
  · split
    · refine ⟨fun u h => ?_⟩
      cases h
      constructor <;> rfl
    · exact callsFrom_readBack ..
  · refine ⟨fun u h => ?_⟩
    cases h
    exact kept_setEng ..

theorem callsFrom_soakPulse {w s : State} {ex : Plan} (hk : Kept w s) (h : CallsFrom w ex) :
    CallsFrom w (soakPulse ex s) := by
  simp only [soakPulse]
  split
  · split
    · split
      · refine ⟨fun u h => ?_⟩
        cases h
        exact hk.trans (by constructor <;> rfl)
      · exact h
    · refine ⟨fun u h => ?_⟩
      cases h
      exact hk.trans (kept_setEng ..)
  · exact h

theorem callsFrom_closeWith {next : State → Plan} (hn : ∀ t, CallsFrom t (next t)) (c : OutcomeCode) (s : State) :
    CallsFrom s (closeWith next c s) := by
  simp only [closeWith]
  split
  · exact .of_kept ((kept_endUnit c s).trans (kept_eng _ _)) (hn _)
  · split
    · exact .done ..
    · exact .of_kept ((kept_endUnit c s).trans (kept_eng _ _)) (hn _)

theorem callsFrom_startUnit {close : OutcomeCode → State → Plan} (hc : ∀ c t, CallsFrom t (close c t)) (s : State) :
    CallsFrom s (startUnit close s) := by
  simp only [startUnit]
  split
  · split
    · exact callsFrom_soakPulse (Kept.refl _) (hc _ _)
    · exact hc _ _
  · exact callsFrom_normalPulse s

theorem callsFrom_runUnits (rem : Nat) (s : State) : CallsFrom s (runUnits rem s) := by
  induction rem generalizing s with
  | zero => exact .done ..
  | succ n ih =>
    exact .of_kept (kept_openUnit _ _) (callsFrom_startUnit (fun c t => callsFrom_closeWith ih c t) _)

theorem callsFrom_closeUnit (c : OutcomeCode) (s : State) : CallsFrom s (closeUnit c s) :=
  callsFrom_closeWith (callsFrom_runUnits _) c s

theorem callsFrom_engineResume (s : State) : CallsFrom s (engineResume s) := by
  unfold engineResume
  split
  · unfold afterPulse
    split
    · exact callsFrom_readBack ..
    · exact .done ..
  · unfold afterVerify
    split
    · exact callsFrom_closeUnit ..
    · split
      · exact .of_kept (kept_setEng s _) (callsFrom_soakPulse (Kept.refl _) (callsFrom_closeUnit ..))
      · exact callsFrom_closeUnit ..
  · unfold afterPulse
    split
    · exact callsFrom_readBack ..
    · exact .done ..
  · unfold afterReverify
    split
    · exact callsFrom_closeUnit ..
    · exact callsFrom_soakPulse (kept_setEng ..) (callsFrom_closeUnit ..)
  · exact .stop ..

theorem callsFrom_programCommand (i : Instr) (n : Nat) (c : SoakConfig) (s : State) :
    CallsFrom s (programCommand i n c s) := by
  unfold programCommand
  split
  · exact .of_kept ((kept_latchCommand i n s).trans (kept_eng _ _)) (callsFrom_runUnits _ _)
  · exact .done ..

theorem callsFrom_trackerQuery {r : Region} {s : State} {q : Nat → Plan} (h : ∀ c, CallsFrom s (q c)) :
    CallsFrom s (trackerQuery r s q) := by
  unfold trackerQuery
  split
  · split
    · exact h _
    · exact .done ..
  · exact .stop ..

theorem callsFrom_readResolved (w : State) (r : Region) (v : Reg) {transfer : Reg → State → Plan} (s : State)
    (h : CallsFrom w (transfer v s)) : CallsFrom w (readResolved r v transfer s) := by
  unfold readResolved
  split
  · exact h
  · exact .done ..

theorem callsFrom_readChecks (w : State) (r : Region) {transfer : Reg → State → Plan} (s : State)
    (h : ∀ v s, CallsFrom w (transfer v s)) : CallsFrom w (readChecks r transfer s) := by
  unfold readChecks
  split
  · exact callsFrom_readResolved _ _ _ _ (h _ _)
  · split <;> exact .done ..

theorem callsFrom_readChecksId (w : State) (v : Reg) (s : State) : CallsFrom w (readChecksId v s) := by
  unfold readChecksId
  split <;> exact .done ..

theorem callsFrom_readChecksProt (w : State) (r : Region) (v : Reg) (pp : BitVec 4) {transfer : Reg → State → Plan}
    (s : State) (h : ∀ v s, CallsFrom w (transfer v s)) : CallsFrom w (readChecksProt r v pp transfer s) := by
  unfold readChecksProt
  split
  · exact .done ..
  · exact callsFrom_readResolved _ _ _ _ (h _ _)

theorem callsFrom_readRegionUnit (w : State) (r : Region) (i : Nat) (v : Reg) (s : State) :
    CallsFrom w (readRegionUnit r i v s) := by
  unfold readRegionUnit
  split
  · exact callsFrom_readUnit ..
  · exact .done ..

/-- Every command makes its interruptible call, if it makes one in a step, in a state that the step has changed only by the
engine's bookkeeping. -/
theorem callsFrom_planOf (i : Instr) (s : State) : CallsFrom s (planOf i s) := by
  cases i with
  | beginSession =>
    show CallsFrom s (planBeginSession s)
    cases hp : s.phase <;> simp only [planBeginSession, hp] <;> first | exact .done .. | exact .stop .. | skip
    all_goals split <;> exact .done ..
  | endSession =>
    simp only [planOf, planEndSession]
    split
    · exact .done ..
    · exact .done ..
    · exact .stop ..
  | read r =>
    simp only [planOf, planRead]
    split
    · exact callsFrom_readChecks _ _ _ fun _ _ => callsFrom_readUnit ..
    · exact callsFrom_readChecksId ..
    · exact callsFrom_readChecksProt _ _ _ _ _ fun _ _ => callsFrom_readUnit ..
    · exact .done ..
    · exact .stop ..
  | readRegion r =>
    simp only [planOf, planReadRegion]
    split
    · split
      · exact .done ..
      · exact callsFrom_readChecks _ _ _ fun _ _ => callsFrom_readRegionUnit ..
    · exact callsFrom_readChecksId ..
    · exact callsFrom_readChecksProt _ _ _ _ _ fun _ _ => callsFrom_readRegionUnit ..
    · exact callsFrom_readRegionUnit ..
    · exact .stop ..
  | write r =>
    simp only [planOf, planWrite]
    split
    · exact callsFrom_programCommand ..
    · exact callsFrom_engineResume s
  | writeRegion r p =>
    simp only [planOf, planWriteRegion]
    split
    · split
      · exact .done ..
      · exact callsFrom_programCommand ..
    · exact callsFrom_engineResume s
  | soakProgram r =>
    simp only [planOf, planSoakProgram]
    split
    · exact callsFrom_programCommand ..
    · exact callsFrom_engineResume s
  | programWithSoakFallback r =>
    simp only [planOf, planProgramWithSoakFallback]
    split
    · exact callsFrom_programCommand ..
    · exact callsFrom_engineResume s
  | lock =>
    simp only [planOf, planLock]
    split
    · split
      · exact .done ..
      · split
        · exact .done ..
        · exact ⟨fun u h => by cases h; exact .refl s⟩
    · split <;> exact .done ..
    · exact .stop ..
  | isLocked =>
    simp only [planOf, planIsLocked]
    split
    · split <;> exact .done ..
    · exact .stop ..
  | enableRegionProtection r =>
    simp only [planOf, planEnableRegionProtection]
    split
    · split
      · exact .done ..
      · split
        · exact .done ..
        · split
          · exact .done ..
          · split
            · exact .done ..
            · exact ⟨fun u h => by cases h; exact .refl s⟩
    · split <;> exact .done ..
    · exact .stop ..
  | isRegionProtected r =>
    simp only [planOf, planIsRegionProtected]
    split
    · split <;> exact .done ..
    · exact .stop ..
  | selectNextWritable r => exact callsFrom_trackerQuery fun _ => .done ..
  | isWritable r => exact callsFrom_trackerQuery fun _ => .done ..
  | readSlot r =>
    simp only [planOf, planReadSlot]
    refine callsFrom_trackerQuery fun c => ?_
    split <;> exact .done ..

end Sys2Proof.Machine
end

