-- ==== Sys2Proof/Laws/Device.lean ====
section
/-! SUPPORT. What each operation does to the persistent state as a whole: it only grows (20_memory.md R78), and it keeps its
form (`DeviceOk`). -/

namespace Sys2Proof.Machine

/-! ### The monotonic laws -/

theorem SlotGrows.refl (x : Slot) : SlotGrows x x := ⟨id, id, id, Nat.le_refl _⟩

theorem SlotGrows.trans {x y z : Slot} (h : SlotGrows x y) (g : SlotGrows y z) : SlotGrows x z :=
  ⟨g.committed ∘ h.committed, g.poisoned ∘ h.poisoned, h.writable ∘ g.writable, g.remaining.trans h.remaining⟩

theorem slotGrows_attempted (x : Slot) : SlotGrows x x.attempted := by
  constructor <;> simp [Slot.attempted]
  intro h _
  exact h

theorem slotGrows_commit (b : Bool) (x : Slot) : SlotGrows x (x.commit b) := by
  constructor <;> simp +contextual [Slot.commit]

theorem slotGrows_poison (x : Slot) : SlotGrows x x.poison := by constructor <;> simp [Slot.poison]

theorem slotGrows_lower (y : Nat) (x : Slot) : SlotGrows x (x.lower y) := by
  unfold Slot.lower
  split
  · constructor <;> simp
    · intro h _
      exact h
    · omega
  · exact .refl x

theorem slotGrows_retire (x : Slot) : SlotGrows x { x with writable := false } := by constructor <;> simp

theorem PersistentGrows.of_eq {s t : State} (h : t.otp = s.otp) (hc : t.cfg = s.cfg) : PersistentGrows s t where
  cfg := hc
  array p := by simp [State.word, h]
  poison p := by simp [State.poisoned, h]
  prot := by simp [h]
  lock := by simp [h]
  slots r c sl := by rw [slotAt_congr (by rw [h]) hc]; exact .refl _

theorem PersistentGrows.refl (s : State) : PersistentGrows s s := .of_eq rfl rfl

theorem and_le_trans {n : Nat} {a b c : BitVec n} (h : a &&& b = a) (g : b &&& c = b) : a &&& c = a := by
  rw [← h, BitVec.and_assoc, g]

theorem and_le_or {n : Nat} (a b : BitVec n) : a &&& (a ||| b) = a := by
  ext i hi
  simp
  cases a[i] <;> simp

theorem PersistentGrows.trans {s t u : State} (h : PersistentGrows s t) (g : PersistentGrows t u) :
    PersistentGrows s u where
  cfg := g.cfg.trans h.cfg
  array p := and_le_trans (h.array p) (g.array p)
  poison p := g.poison p ∘ h.poison p
  prot := and_le_trans h.prot g.prot
  lock := g.lock ∘ h.lock
  slots r c sl := (h.slots r c sl).trans (g.slots r c sl)

theorem grows_orWord (s : State) (p : Nat) (x : Reg) : PersistentGrows s (s.orWord p x) where
  cfg := rfl
  array q := by
    rw [State.word_orWord]
    split
    · exact and_le_or _ _
    · exact BitVec.and_self
  poison _ := id
  prot := BitVec.and_self
  lock := id
  slots _ _ _ := .refl _

theorem grows_poisonWord (s : State) (p : Nat) : PersistentGrows s (s.poisonWord p) where
  cfg := rfl
  array _ := BitVec.and_self
  poison q h := by
    rw [State.poisoned_poisonWord]
    split
    · rfl
    · exact h
  prot := BitVec.and_self
  lock := id
  slots _ _ _ := .refl _

theorem grows_modifySlot (s : State) (r : Region) (c sl : Nat) {f : Slot → Slot} (hf : ∀ x, SlotGrows x (f x)) :
    PersistentGrows s (s.modifySlot r c sl f) where
  cfg := rfl
  array _ := BitVec.and_self
  poison _ := id
  prot := BitVec.and_self
  lock := id
  slots r' c' sl' := by
    rw [State.slotAt_modifySlot]
    split
    · rename_i h
      obtain ⟨⟨rfl, rfl⟩, rfl, _⟩ := h
      exact hf _
    · exact .refl _

theorem grows_protectDevice (s : State) (r : Region) (b : Bool) : PersistentGrows s (s.protectDevice r b) where
  cfg := rfl
  array _ := BitVec.and_self
  poison _ := id
  prot := and_le_or _ _
  lock := id
  slots _ _ _ := .refl _

theorem grows_lockDevice (s : State) (b : Bool) : PersistentGrows s (s.lockDevice b) where
  cfg := rfl
  array _ := BitVec.and_self
  poison _ := id
  prot := BitVec.and_self
  lock h := by simp [h]
  slots _ _ _ := .refl _

theorem grows_macroPulse (p : Nat) (x : Reg) (tm : Timing) (mg : BitVec 16) (s : State) :
    PersistentGrows s (macroPulse p x tm mg s).2 :=
  (PersistentGrows.of_eq (by simp) (by simp)).trans (grows_orWord _ _ _)

theorem grows_macroPulseSlot (r : Region) (c sl : Nat) (b : Bool) (tm : Timing) (mg : BitVec 16) (s : State) :
    PersistentGrows s (macroPulseSlot r c sl b tm mg s).2 :=
  (PersistentGrows.of_eq (by simp) (by simp)).trans (grows_modifySlot _ _ _ _ (slotGrows_commit _))

theorem grows_macroProtect (r : Region) (s : State) : PersistentGrows s (macroProtect r s).2 :=
  (PersistentGrows.of_eq (by simp) (by simp)).trans (grows_protectDevice _ _ _)

theorem grows_macroLockAll (s : State) : PersistentGrows s (macroLockAll s).2 :=
  (PersistentGrows.of_eq (by simp) (by simp)).trans (grows_lockDevice _ _)

theorem grows_recordAttempt (s : State) (r : Region) (c sl : Nat) : PersistentGrows s (s.recordAttempt r c sl) :=
  grows_modifySlot _ _ _ _ slotGrows_attempted

theorem grows_oobEffect (act : OobAct) (s : State) : PersistentGrows s (oobEffect s act) := by
  cases act <;> simp only [oobEffect]
  case setBits p x => split <;> [exact grows_orWord _ _ _; exact .refl s]
  case protect r => exact grows_protectDevice _ _ _
  case lockAll => exact grows_lockDevice _ _
  case commit r c sl => split <;> [exact grows_modifySlot _ _ _ _ (slotGrows_commit _); exact .refl s]
  case lower r c sl y => split <;> [exact grows_modifySlot _ _ _ _ (slotGrows_lower _); exact .refl s]
  case retire r c sl => split <;> [exact grows_modifySlot _ _ _ _ slotGrows_retire; exact .refl s]

/-! ### The form of the persistent state -/

theorem DeviceOk.congr {s t : State} (d : DeviceOk s) (h : t.otp = s.otp) (hc : t.cfg = s.cfg) : DeviceOk t := by
  have hw : ∀ p, t.word p = s.word p := word_congr (by rw [h])
  have hr : ∀ r c, t.row r c = s.row r c := row_congr (by rw [h]) hc
  constructor
  · rw [h]; exact d.memWf
  · rw [h]; exact d.poisonWf
  · rw [h, hc]; exact d.slotsWf
  · simpa only [hw, hc] using d.wordsInside
  · simpa only [hw, hc] using d.wordsFit
  · simpa only [hr, hc] using d.rowLength
  · simpa only [hr, hc] using d.slotCount
  · simpa only [hr] using d.slotWritable
  · rw [h, hc]; exact d.protWired

theorem deviceOk_orWord {s : State} (d : DeviceOk s) {p : Nat} {x : Reg} (hp : p < s.cfg.arrayWords)
    (hx : x &&& wordMask s.cfg = x) : DeviceOk (s.orWord p x) where
  memWf := Memory.wf_orWord _ _ _ d.memWf
  poisonWf := d.poisonWf
  slotsWf := d.slotsWf
  wordsInside q hq := by
    have hq : s.cfg.arrayWords ≤ q := hq
    rw [State.word_orWord, if_neg (by omega)]
    exact d.wordsInside q hq
  wordsFit q := by
    rw [State.word_orWord]
    split
    · have h : (s.word q ||| x) &&& wordMask s.cfg = (s.word q &&& wordMask s.cfg) ||| (x &&& wordMask s.cfg) := by
        ext i hi
        simp [Bool.and_or_distrib_right]
      exact h.trans (by rw [d.wordsFit, hx])
    · exact d.wordsFit q
  rowLength := d.rowLength
  slotCount := d.slotCount
  slotWritable := d.slotWritable
  protWired := d.protWired

theorem deviceOk_poisonWord {s : State} (d : DeviceOk s) (p : Nat) : DeviceOk (s.poisonWord p) where
  memWf := d.memWf
  poisonWf := sparseWf_set (d := false) _ p true d.poisonWf
  slotsWf := d.slotsWf
  wordsInside := d.wordsInside
  wordsFit := d.wordsFit
  rowLength := d.rowLength
  slotCount := d.slotCount
  slotWritable := d.slotWritable
  protWired := d.protWired

theorem deviceOk_modifySlot {s : State} (d : DeviceOk s) (r : Region) (c sl : Nat) {f : Slot → Slot}
    (h1 : ∀ x, (f x).remaining ≤ x.remaining)
    (h2 : ∀ x : Slot, (x.writable = true → 0 < x.remaining) → (f x).writable = true → 0 < (f x).remaining) :
    DeviceOk (s.modifySlot r c sl f) := by
  have hmem : ∀ x ∈ (s.row r c).set sl (f (s.slotAt r c sl)),
      x ∈ s.row r c ∨ (x = f (s.slotAt r c sl) ∧ s.slotAt r c sl ∈ s.row r c) := by
    intro x hx
    by_cases hsl : sl < (s.row r c).length
    · rcases List.mem_or_eq_of_mem_set hx with h | h
      · exact .inl h
      · refine .inr ⟨h, ?_⟩
        simp only [State.slotAt, List.getD_eq_getElem _ _ hsl]
        exact List.getElem_mem _
    · rw [List.set_eq_of_length_le (by omega)] at hx
      exact .inl hx
  constructor
  · exact d.memWf
  · exact d.poisonWf
  · exact sparseWf_set _ _ _ d.slotsWf
  · exact d.wordsInside
  · exact d.wordsFit
  · intro r' c'
    rw [State.row_modifySlot]
    split
    · rw [List.length_set]; exact d.rowLength r c
    · exact d.rowLength r' c'
  · intro r' c' x hx
    rw [State.row_modifySlot] at hx
    split at hx
    · rcases hmem x hx with h | ⟨rfl, h⟩
      · exact d.slotCount r c x h
      · exact (h1 _).trans (d.slotCount r c _ h)
    · exact d.slotCount r' c' x hx
  · intro r' c' x hx
    rw [State.row_modifySlot] at hx
    split at hx
    · rcases hmem x hx with h | ⟨rfl, h⟩
      · exact d.slotWritable r c x h
      · exact h2 _ (d.slotWritable r c _ h)
    · exact d.slotWritable r' c' x hx
  · exact d.protWired

theorem deviceOk_commit {s : State} (d : DeviceOk s) (r : Region) (c sl : Nat) (b : Bool) :
    DeviceOk (s.modifySlot r c sl (Slot.commit b)) :=
  deviceOk_modifySlot d r c sl (fun _ => Nat.le_refl _) (fun _ h => h)

theorem deviceOk_poisonSlot {s : State} (d : DeviceOk s) (r : Region) (c sl : Nat) :
    DeviceOk (s.modifySlot r c sl Slot.poison) :=
  deviceOk_modifySlot d r c sl (fun _ => Nat.le_refl _) (fun _ h => h)

theorem deviceOk_recordAttempt {s : State} (d : DeviceOk s) (r : Region) (c sl : Nat) :
    DeviceOk (s.recordAttempt r c sl) := by
  refine deviceOk_modifySlot d r c sl (fun x => Nat.sub_le _ _) (fun x _ => ?_)
  simp only [Slot.attempted, Bool.and_eq_true, decide_eq_true_eq]
  omega

theorem deviceOk_protectDevice {s : State} (d : DeviceOk s) (r : Region) (b : Bool) :
    DeviceOk (s.protectDevice r b) := by
  refine { d with protWired := ?_ }
  have hd := d.protWired
  apply prot_ext
  intro q
  have hq := congrArg (protBit · q) hd
  simp only [protBit_and] at hq
  have hz : ∀ q, protBit (0 : BitVec 4) q = false := protBit_zero
  cases b <;> simp only [State.protectDevice_otp, State.protectDevice_cfg, protBit_and, protBit_or, hz, if_true,
    Bool.false_eq_true, if_false] <;> revert hq <;> cases protBit s.otp.physProt q <;>
    cases protBit (protectMask s.cfg s.cfg.chipId) q <;> simp

theorem deviceOk_lockDevice {s : State} (d : DeviceOk s) (b : Bool) : DeviceOk (s.lockDevice b) :=
  { d with }

theorem deviceOk_macroPulse {s : State} (d : DeviceOk s) {p : Nat} {x : Reg} (tm : Timing) (mg : BitVec 16)
    (hp : p < s.cfg.arrayWords) (hx : x &&& wordMask s.cfg = x) : DeviceOk (macroPulse p x tm mg s).2 := by
  refine deviceOk_orWord (s := (s.drew.countMacro.countPulse tm)) (d.congr (by simp) (by simp)) (by simpa using hp) ?_
  have h : x &&& s.answer.bits &&& wordMask s.cfg = x &&& wordMask s.cfg &&& s.answer.bits := by
    rw [BitVec.and_assoc, BitVec.and_assoc, BitVec.and_comm s.answer.bits]
  simp only [State.countPulse_cfg, State.countMacro_cfg, State.drew_cfg]
  rw [h, hx]

theorem deviceOk_macroPulseSlot {s : State} (d : DeviceOk s) (r : Region) (c sl : Nat) (b : Bool) (tm : Timing)
    (mg : BitVec 16) : DeviceOk (macroPulseSlot r c sl b tm mg s).2 :=
  deviceOk_commit (s := (s.drew.countMacro.countPulse tm)) (d.congr (by simp) (by simp)) r c sl _

theorem deviceOk_macroProtect {s : State} (d : DeviceOk s) (r : Region) : DeviceOk (macroProtect r s).2 :=
  deviceOk_protectDevice (s := s.drew.countMacro) (d.congr (by simp) (by simp)) r _

theorem deviceOk_macroLockAll {s : State} (d : DeviceOk s) : DeviceOk (macroLockAll s).2 :=
  deviceOk_lockDevice (s := s.drew.countMacro) (d.congr (by simp) (by simp)) _

theorem deviceOk_oobEffect {s : State} (d : DeviceOk s) (act : OobAct) : DeviceOk (oobEffect s act) := by
  cases act <;> simp only [oobEffect]
  case setBits p x =>
    split
    · exact deviceOk_orWord d ‹_› (by rw [BitVec.and_assoc, BitVec.and_self])
    · exact d
  case protect r => exact deviceOk_protectDevice d _ _
  case lockAll => exact deviceOk_lockDevice d _
  case commit r c sl =>
    split
    · exact deviceOk_commit d _ _ _ _
    · exact d
  case lower r c sl y =>
    split
    · refine deviceOk_modifySlot d r c sl (fun x => (slotGrows_lower y x).remaining) (fun x h => ?_)
      unfold Slot.lower
      split
      · simp only [Bool.and_eq_true, decide_eq_true_eq]
        omega
      · exact h
    · exact d
  case retire r c sl =>
    split
    · exact deviceOk_modifySlot d r c sl (fun x => Nat.le_refl _) (fun x _ h => by cases h)
    · exact d

/-- The target of a unit fits its word. -/
theorem targetOf_fits (c : Config) {info : RegionInfo} (hl : info.attemptLimited = false) (x : Reg) :
    targetOf c info x &&& wordMask c = targetOf c info x := by
  simp only [targetOf, hl, Bool.false_eq_true, if_false]
  rw [BitVec.and_assoc, BitVec.and_self]

end Sys2Proof.Machine
end

