-- ==== Sys2Proof/Laws/Loop.lean ====
section
/-! SUPPORT. Where the loop of `program_op` can leave a step (44_program_engine.md R183, R191): at the end of the command, or
at the first pulse of a later unit. -/

namespace Sys2Proof.Machine

/-- The loop's bookkeeping between two places of one step: `Kept`, and the latches of the command are the same. Under `P`,
OUTCOME has changed at indices of the command's units only. -/
structure Looped (P : Prop) (s t : State) : Prop where
  kept : Kept s t
  op : t.eng.op = s.eng.op
  region : t.eng.region = s.eng.region
  off : t.eng.off = s.eng.off
  count : t.eng.count = s.eng.count
  policy : t.eng.policy = s.eng.policy
  soak : t.eng.soak = s.eng.soak
  wf : sparseWf outcomeClear s.outcome = true → sparseWf outcomeClear t.outcome = true
  outside : P → ∀ i, s.eng.count ≤ i → t.outcomeAt i = s.outcomeAt i

theorem Looped.refl (P : Prop) (s : State) : Looped P s s := ⟨.refl s, rfl, rfl, rfl, rfl, rfl, rfl, id, fun _ _ _ => rfl⟩

theorem Looped.trans {P Q : Prop} {s t u : State} (h : Looped P s t) (g : Looped Q t u) (hq : P → Q) : Looped P s u where
  kept := h.kept.trans g.kept
  op := g.op.trans h.op
  region := g.region.trans h.region
  off := g.off.trans h.off
  count := g.count.trans h.count
  policy := g.policy.trans h.policy
  soak := g.soak.trans h.soak
  wf := g.wf ∘ h.wf
  outside p i hi := (g.outside (hq p) i (by rw [h.count]; exact hi)).trans (h.outside p i hi)

theorem looped_openUnit (P : Prop) (i : Nat) (s : State) : Looped P s (openUnit i s) :=
  ⟨kept_openUnit i s, rfl, rfl, rfl, rfl, rfl, rfl, id, fun _ _ _ => rfl⟩

theorem looped_setEng (P : Prop) (s : State) (e : EngState) : Looped P s (s.setEng e) :=
  ⟨kept_setEng s e, rfl, rfl, rfl, rfl, rfl, rfl, id, fun _ _ _ => rfl⟩

/-- The bookkeeping of a normal pulse writes the unit's own outcome and no other. -/
theorem looped_noteNormalPulse (P : Prop) (s : State) (hp : P → unitIndex s < s.eng.count) :
    Looped P s (noteNormalPulse s) where
  kept := kept_noteNormalPulse s
  op := rfl
  region := rfl
  off := rfl
  count := rfl
  policy := rfl
  soak := rfl
  wf h := sparseWf_set _ _ _ h
  outside p i hi := by
    have := hp p
    refine (State.outcomeAt_modifyOutcome s (unitIndex s) i (fun o => { o with normalPulse := true })).trans ?_
    rw [if_neg (by omega)]

/-- The bookkeeping of a soak pulse counts it in `ENG.k` and writes the unit's own outcome and no other. -/
theorem looped_noteSoakPulse (P : Prop) (s : State) (hp : P → unitIndex s < s.eng.count) :
    Looped P s (noteSoakPulse s) where
  kept := kept_noteSoakPulse s
  op := rfl
  region := rfl
  off := rfl
  count := rfl
  policy := rfl
  soak := rfl
  wf h := sparseWf_set _ _ _ h
  outside p i hi := by
    have := hp p
    refine (State.outcomeAt_modifyOutcome s (unitIndex s) i
      (fun o => { o with soakPulses := soakPulseBits (s.eng.k + 1) })).trans ?_
    rw [if_neg (by omega)]

/-- A unit that ends writes its own outcome and no other. -/
theorem looped_endUnit (P : Prop) (c : OutcomeCode) (s : State) (hp : P → unitIndex s < s.eng.count)
    {n : Nat} {e : ErrCode} :
    Looped P s { endUnit c s with eng := { s.eng with nsucc := n, firstErr := e } } where
  kept := (kept_endUnit c s).trans (kept_eng _ _)
  op := rfl
  region := rfl
  off := rfl
  count := rfl
  policy := rfl
  soak := rfl
  wf h := sparseWf_set _ _ _ h
  outside p i hi := by
    have := hp p
    refine (State.outcomeAt_modifyOutcome s (unitIndex s) i (fun o => { o with code := c })).trans ?_
    rw [if_neg (by omega)]

/-- A soak pulse can be issued in `s` (`can_soak`, R183). -/
def canSoak (s : State) : Prop :=
  s.eng.k < s.eng.soak.retries.toNat ∧
    ((unitInfo s).attemptLimited = true → ∃ sl, s.select s.eng.region (unitOff s) = some sl)

/-- What the loop can come to from `s`, at units from `lo` on, with at most one success more than units passed. -/
inductive LoopEnd (P : Prop) (s : State) (lo nb : Nat) : Plan → Prop
  | finish (t : State) (h : Looped P s t) : LoopEnd P s lo nb (.done (finishProgram t))
  | normal (t : State) (j : Nat) (h : Looped P s t) (kind : soakOnly t = false) (index : t.wordIndex = BitVec.ofNat 64 j)
      (low : lo ≤ j) (high : j < s.eng.count) (fresh : t.eng.k = 0) (succ : s.eng.nsucc ≤ nb → t.eng.nsucc ≤ j) :
      LoopEnd P s lo nb (normalPulse t)
  | soak (t : State) (j : Nat) (ex : Plan) (h : Looped P s t) (kind : soakOnly t = true)
      (index : t.wordIndex = BitVec.ofNat 64 j) (low : lo ≤ j) (high : j < s.eng.count) (fresh : t.eng.k = 0)
      (succ : s.eng.nsucc ≤ nb → t.eng.nsucc ≤ j) (can : canSoak t) : LoopEnd P s lo nb (soakPulse ex t)

theorem LoopEnd.lift {P Q : Prop} {s t : State} {lo lo' nb nb' : Nat} {pl : Plan} (h : Looped P s t) (hq : P → Q)
    (hlo : lo ≤ lo') (hn : s.eng.nsucc ≤ nb → t.eng.nsucc ≤ nb') (g : LoopEnd Q t lo' nb' pl) : LoopEnd P s lo nb pl := by
  cases g with
  | finish u hu => exact .finish u (h.trans hu hq)
  | normal u j hu k i l g f sc =>
    exact .normal u j (h.trans hu hq) k i (hlo.trans l) (by rw [← h.count]; exact g) f (fun x => sc (hn x))
  | soak u j ex hu k i l g f sc c =>
    exact .soak u j ex (h.trans hu hq) k i (hlo.trans l) (by rw [← h.count]; exact g) f (fun x => sc (hn x)) c

/-- `soakPulse` issues its pulse, or is what it is given for no pulse. -/
theorem soakPulse_or (ex : Plan) (s : State) : canSoak s ∨ soakPulse ex s = ex := by
  by_cases hk : s.eng.k < s.eng.soak.retries.toNat
  · cases hl : (unitInfo s).attemptLimited with
    | false => exact .inl ⟨hk, fun h => by rw [hl] at h; cases h⟩
    | true =>
      cases hs : s.select s.eng.region (unitOff s) with
      | none => exact .inr (soakPulse_exhausted (.inr ⟨hl, hs⟩))
      | some sl => exact .inl ⟨hk, fun _ => ⟨sl, hs⟩⟩
  · exact .inr (soakPulse_exhausted (.inl (by omega)))

theorem closeWith_end {P Q : Prop} {next : State → Plan} {code : OutcomeCode} {s : State} {lo nb nb' : Nat}
    (hp : P → unitIndex s < s.eng.count) (hq : P → Q) (hn : s.eng.nsucc ≤ nb → s.eng.nsucc + 1 ≤ nb')
    (g : ∀ t, Looped P s t → LoopEnd Q t lo nb' (next t)) : LoopEnd P s lo nb (closeWith next code s) := by
  simp only [closeWith]
  split
  · have h := looped_endUnit P code s hp (n := s.eng.nsucc + 1) (e := s.eng.firstErr)
    exact .lift h hq (Nat.le_refl _) hn (g _ h)
  · have h := looped_endUnit P code s hp (n := s.eng.nsucc)
      (e := if s.eng.firstErr = .ok then unitError code else s.eng.firstErr)
    split
    · exact .finish _ h
    · exact .lift h hq (Nat.le_refl _) (fun x => (Nat.le_succ _).trans (hn x)) (g _ h)

/-- Where the loop leaves the step, with `rem` units to go. -/
theorem runUnits_end (rem : Nat) (s : State) (hr : rem ≤ s.eng.count) :
    LoopEnd (s.eng.count < 2 ^ 64) s (s.eng.count - rem) (s.eng.count - rem) (runUnits rem s) := by
  induction rem generalizing s with
  | zero => exact .finish s (.refl _ s)
  | succ n ih =>
    have hj : s.eng.count - (n + 1) < s.eng.count := by omega
    have ho := looped_openUnit (s.eng.count < 2 ^ 64) (s.eng.count - (n + 1)) s
    have hc (code : OutcomeCode) : LoopEnd (s.eng.count < 2 ^ 64) s (s.eng.count - (n + 1)) (s.eng.count - (n + 1))
        (closeWith (runUnits n) code (openUnit (s.eng.count - (n + 1)) s)) := by
      refine .lift ho id (Nat.le_refl _) (nb' := s.eng.count - (n + 1)) id ?_
      refine closeWith_end (Q := s.eng.count < 2 ^ 64) (nb' := s.eng.count - n) (fun p => ?_) id
        (fun h => by omega) (fun t ht => ?_)
      · show (BitVec.ofNat 64 (s.eng.count - (n + 1))).toNat < s.eng.count
        rw [BitVec.toNat_ofNat, Nat.mod_eq_of_lt (by omega)]
        exact hj
      · have hcount : t.eng.count = s.eng.count := ht.count
        have := ih t (by rw [hcount]; omega)
        rw [hcount] at this
        exact .lift (.refl _ t) id (by omega) id this
    simp only [runUnits, startUnit]
    split
    · rename_i hs
      split
      · rcases soakPulse_or (closeWith (runUnits n) .failedExhausted (openUnit (s.eng.count - (n + 1)) s))
          (openUnit (s.eng.count - (n + 1)) s) with h | h
        · exact .soak _ _ _ ho hs rfl (Nat.le_refl _) hj rfl id h
        · rw [h]; exact hc _
      · exact hc _
    · rename_i hs
      exact .normal _ _ ho (by simpa using hs) rfl (Nat.le_refl _) hj rfl id

/-- Where the step leaves the loop when the current unit ends. -/
theorem closeUnit_end (code : OutcomeCode) (s : State) :
    LoopEnd (s.eng.count < 2 ^ 64 ∧ unitIndex s < s.eng.count) s (unitIndex s + 1) (unitIndex s) (closeUnit code s) := by
  unfold closeUnit
  by_cases hu : unitIndex s + 1 ≤ s.eng.count
  · refine closeWith_end (Q := s.eng.count < 2 ^ 64) (nb' := unitIndex s + 1) (fun h => h.2) (fun h => h.1)
      (fun h => by omega) (fun t ht => ?_)
    have hcount := ht.count
    have := runUnits_end (s.eng.count - (unitIndex s + 1)) t (by rw [hcount]; omega)
    rw [hcount, Nat.sub_sub_self hu] at this
    exact this
  · have h0 : s.eng.count - (unitIndex s + 1) = 0 := by omega
    rw [h0]
    exact closeWith_end (Q := True) (nb' := unitIndex s + 1) (fun h => h.2) (fun _ => trivial) (fun h => by omega)
      (fun t _ => .finish t (.refl _ t))

/-- The state in which `program_op` enters its loop (R33, R190, R191). -/
def loopStart (i : Instr) (n : Nat) (c : SoakConfig) (s : State) : State :=
  { s with eng := ⟨some i, regionField i, s.addr.toNat, n, policyField i, c, s.eng.k, 0, .ok, s.eng.slot⟩ }

theorem kept_loopStart (i : Instr) (n : Nat) (c : SoakConfig) (s : State) : Kept s (loopStart i n c s) := by
  constructor <;> rfl

theorem programOp_eq (i : Instr) (n : Nat) (c : SoakConfig) (s : State) :
    programOp i n c s = runUnits n (loopStart i n c s) := rfl

/-- Where the first step of an engine command leaves `program_op` (R191). -/
theorem programOp_end (i : Instr) (n : Nat) (c : SoakConfig) (s : State) :
    LoopEnd (n < 2 ^ 64) (loopStart i n c s) 0 0 (programOp i n c s) := by
  have h := runUnits_end n (loopStart i n c s) (Nat.le_refl n)
  have hc : (loopStart i n c s).eng.count = n := rfl
  rw [hc, Nat.sub_self] at h
  exact h

end Sys2Proof.Machine
end

