-- ==== Sys2Proof/Tests/Slice0.lean ====
section
/-! SUPPORT. The model's own tests: words written out from spec/30_encoding.md, ill-formed terms, single steps whose
results are those of spec/95_test_vectors.md, and for every statement with hypotheses a state that meets them. -/

namespace Sys2Proof.Tests

open Sys2Proof Sys2Proof.Machine

/-! ### Small states -/

/-- A session on the factory device, as 95_test_vectors.md S1 leaves it (without its counts). -/
def sess : State :=
  { State.reset with
    session := .active, snap := ⟨0, false, true⟩, macroUnlocked := true, variant := 1, soak := ⟨100, 3, 0⟩ }

/-- `s` with offset `o`, length `n`, BUF[0] = `d` and the macro's next answers `l`. -/
def put (o n : Nat) (d : Reg) (l : List Answer) (s : State) : State :=
  { s with
    addr := BitVec.ofNat 64 o, len := BitVec.ofNat 64 n, buf := if d = 0 then [] else [(0, d)]
    env := { s.env with oracle := l } }

/-- `s` with moves waiting. -/
def moves (l : List Event) (s : State) : State := { s with env := { s.env with inbox := l } }

/-- `s` with the word `w` accepted. -/
def latched (w : Reg) (s : State) : State := { s with cmdLatch := w, status := { s.status with busy := true } }

/-- A pulse's answer: mask `m` and a status. A slot's bit takes when the mask is not 0. -/
def pulse (m : Reg) (st : PulseStatus) : Answer := ⟨m, 0, st, false, decide (m ≠ 0)⟩

/-- An answer to a protect or lock call. -/
def reply (ok took : Bool) : Answer := ⟨0, 0, .ready, ok, took⟩

/-- The step answers a next state of which `f` holds. -/
def after (o : Host.Outcome State Fault Refusal) (f : State → Bool) : Bool :=
  match o with
  | .next t => f t
  | .fault _ => false
  | .refused _ => false

/-- The word's decoding, refusals forgotten. -/
def decoded (w : Reg) : Option Instr :=
  match decode w with
  | .ok i => some i
  | .error _ => none

/-- The word's refusal. -/
def refusal (w : Reg) : Option Reject :=
  match decode w with
  | .ok _ => none
  | .error e => some e

/-- A command word from its fields, most significant first: 53 reserved bits, POLICY, REGION, OPCODE (R91). -/
def word (pol : BitVec 1) (reg : BitVec 2) (op : BitVec 8) : Reg := (0#53 ++ pol ++ reg ++ op : BitVec 64)

/-! ### Decoding: every constructor, from the bit fields of R91 to R94 -/

theorem test_decode_beginSession : decoded (word 0 0b00 0b00000001) = some .beginSession := by decide
theorem test_decode_endSession : decoded (word 0 0b00 0b00000010) = some .endSession := by decide
theorem test_decode_read : decoded (word 0 0b10 0b00000011) = some (.read .strap) := by decide
theorem test_decode_write : decoded (word 0 0b11 0b00000100) = some (.write .security) := by decide
theorem test_decode_readRegion : decoded (word 0 0b01 0b00000101) = some (.readRegion .configuration) := by decide
theorem test_decode_writeRegion :
    decoded (word 1 0b01 0b00000110) = some (.writeRegion .configuration .failFast) ∧
    decoded (word 0 0b11 0b00000110) = some (.writeRegion .security .continueOnError) := by decide
theorem test_decode_lock : decoded (word 0 0b00 0b00000111) = some .lock := by decide
theorem test_decode_isLocked : decoded (word 0 0b00 0b00001000) = some .isLocked := by decide
theorem test_decode_enableRegionProtection :
    decoded (word 0 0b10 0b00001001) = some (.enableRegionProtection .strap) := by decide
theorem test_decode_isRegionProtected :
    decoded (word 0 0b11 0b00001010) = some (.isRegionProtected .security) := by decide
theorem test_decode_soakProgram : decoded (word 0 0b01 0b00001011) = some (.soakProgram .configuration) := by decide
theorem test_decode_programWithSoakFallback :
    decoded (word 0 0b10 0b00001100) = some (.programWithSoakFallback .strap) := by decide
theorem test_decode_selectNextWritable :
    decoded (word 0 0b10 0b00001101) = some (.selectNextWritable .strap) := by decide
theorem test_decode_isWritable : decoded (word 0 0b00 0b00001110) = some (.isWritable .bulkData) := by decide
theorem test_decode_readSlot : decoded (word 0 0b11 0b00001111) = some (.readSlot .security) := by decide

/-- R102: the table's numbering of the bits, with fewer bits than the word has. -/
theorem test_decodeTableWord :
    decodeTableWord 16 0x506 = some (.writeRegion .configuration .failFast) ∧ decodeTableWord 64 0x800 = none := by decide

/-! ### Ill-formed terms: each check refuses one -/

/-- R97's four checks, and their order where two fail. 95_test_vectors.md 2.1. -/
theorem test_illegal_words :
    refusal 0x800 = some .reservedBits ∧ refusal 0x8000000000000004 = some .reservedBits ∧
    refusal 0x0 = some .reservedOpcode ∧ refusal 0x10 = some .reservedOpcode ∧ refusal 0xFF = some .reservedOpcode ∧
    refusal 0x107 = some .strayRegion ∧ refusal 0x301 = some .strayRegion ∧ refusal 0x404 = some .strayPolicy ∧
    refusal 0x800 = some .reservedBits ∧ refusal 0x501 = some .strayRegion := by decide

/-- The same words are of no row of the table. -/
theorem test_illegal_words_have_no_row :
    ([0x0, 0x10, 0xFF, 0x107, 0x301, 0x404, 0x800, 0x8000000000000004] : List Reg).all (fun w => !legalWord w) = true := by
  decide

theorem test_ref_is_legal : Config.ref.legal = true := by decide
theorem test_illegal_numSlots : ({ Config.ref with numSlots := 256 } : Config).legal = false := by decide
theorem test_illegal_no_slots : ({ Config.ref with numSlots := 0 } : Config).legal = false := by decide
theorem test_illegal_bufWords : ({ Config.ref with bufWords := 257 } : Config).legal = false := by decide
theorem test_illegal_no_bufWords : ({ Config.ref with bufWords := 0 } : Config).legal = false := by decide
theorem test_illegal_attemptBits : ({ Config.ref with attemptBits := 33 } : Config).legal = false := by decide
theorem test_illegal_no_attemptBits :
    ({ Config.ref with attemptBits := 0, initAttempts := 0 } : Config).legal = false := by decide
theorem test_illegal_initAttempts : ({ Config.ref with initAttempts := 256 } : Config).legal = false := by decide
theorem test_illegal_arrayWords :
    ({ Config.ref with arrayWords := 0, variants := [] } : Config).legalSizes = false := by decide
theorem test_illegal_no_variants : ({ Config.ref with variants := [] } : Config).legal = false := by decide
theorem test_illegal_same_ident :
    ({ Config.ref with variants := Config.ref.variants ++ Config.ref.variants } : Config).legal = false := by decide

/-- A configuration like `REF` but for its one variant's Configuration row. -/
def withConfiguration (info : RegionInfo) : Config :=
  { Config.ref with variants := Config.ref.variants.map (fun v => { v with configuration := info }) }

theorem test_illegal_alignment :
    (withConfiguration ⟨2048, 64, 0, true, false, true, []⟩).legal = false := by decide
theorem test_illegal_outside_array :
    (withConfiguration ⟨4090, 7, 1, true, false, true, []⟩).legal = false ∧
    (withConfiguration ⟨4090, 6, 1, true, false, true, []⟩).legal = true := by decide
theorem test_illegal_overlap :
    (withConfiguration ⟨2047, 64, 1, true, false, true, []⟩).legal = false ∧
    (withConfiguration ⟨2100, 13, 1, true, false, true, []⟩).legal = false ∧
    (withConfiguration ⟨2047, 0, 1, true, false, true, []⟩).legal = true := by decide

theorem test_illegal_configuration_refused :
    (match step { State.reset with cfg := { Config.ref with numSlots := 0 } } with
      | .refused .illegalConfiguration => true
      | _ => false) = true := by decide

/-! ### State and memory -/

theorem test_reset_memory_wf : Memory.wf State.reset.otp.mem = true := by decide

/-- A store keeps the canonical form, and clearing nothing lists nothing. -/
theorem test_orWord_canonical :
    (State.reset.orWord 5 0xF0).otp.mem = [(40, 0xF0)] ∧ (State.reset.orWord 5 0).otp.mem = [] ∧
    ((State.reset.orWord 5 0xF0).orWord 4 0x1234).word 4 = 0x1234 := by decide

/-- A step from a fetched word: the row's word runs next. -/
theorem test_fetch_runs : after (step (State.reset.withFetchWord 16 0x01)) (fun t =>
    decide (t.phase = .beginUnlocked) && t.macroUnlocked && decide (t.cnt.macros = 1)) = true := by decide

/-! ### Single steps, from 95_test_vectors.md -/

/-- S1, first step: MacroUnlock. -/
theorem test_beginSession_unlocks : after (exec .beginSession State.reset) (fun t =>
    t.macroUnlocked && decide (t.cnt.macros = 1) && decide (t.session = .idle)) = true := by decide

/-- S6, last step: the snapshot of a locked device with Configuration protected. -/
theorem test_beginSession_opens :
    after (exec .beginSession { State.reset with phase := .beginProtRead 1 2 true, macroUnlocked := true }) (fun t =>
      decide (readReg t .status = 0x2) && decide (readReg t .prot = 0x8102) && decide (readReg t .soakPulse = 100)
        && decide (readReg t .defRetries = 3) && decide (readReg t .variant = 1)) = true := by decide

/-- S3, last step: VARIANT is kept. -/
theorem test_endSession : after (exec .endSession { sess with phase := .endRelocked, macroUnlocked := false }) (fun t =>
    decide (readReg t .status = 0x0) && decide (readReg t .prot = 0) && decide (readReg t .variant = 1)) = true := by decide

/-- Table 2.1's last row, and P14's error for it: IS_LOCKED. -/
theorem test_isLocked :
    after (exec .isLocked { sess with snap := ⟨0, true, true⟩ }) (fun t =>
      decide (readReg t .status = 0x2) && decide (readReg t .qresult = 1)) = true ∧
    after (exec .isLocked State.reset) (fun t => decide (readReg t .status = 0x260)) = true := by decide

/-- P3: a failed lock whose draw took. -/
theorem test_lock_fault :
    after (exec .lock (put 0 0 0 [reply false true] sess)) (fun t =>
      t.otp.physLock && decide (t.cnt.macros = 1) && decide (t.phase = .lockAnswered false)) = true ∧
    after (exec .lock { sess with phase := .lockAnswered false }) (fun t =>
      decide (readReg t .status = 0x2B2) && decide (readReg t .prot = 0x8000)) = true := by decide

/-- P4 and P6. -/
theorem test_enableRegionProtection :
    after (exec (.enableRegionProtection .configuration) { sess with phase := .protectAnswered true }) (fun t =>
      decide (readReg t .status = 0x2) && decide (readReg t .prot = 0x8002)) = true ∧
    after (exec (.enableRegionProtection .bulkData) sess) (fun t => decide (readReg t .status = 0x2C2)) = true := by decide

/-- X8 and P9. -/
theorem test_isRegionProtected :
    after (exec (.isRegionProtected .configuration) { sess with snap := ⟨2, false, true⟩ }) (fun t =>
      decide (readReg t .qresult = 1)) = true ∧
    after (exec (.isRegionProtected .bulkData) { sess with snap := ⟨2, false, true⟩ }) (fun t =>
      decide (readReg t .qresult = 0) && decide (readReg t .status = 0x2)) = true := by decide

/-- T1, T5, T6. -/
theorem test_selectNextWritable :
    after (exec (.selectNextWritable .strap) (put 3 0 0 [] sess)) (fun t => decide (readReg t .qresult = 0x100)) = true ∧
    after (exec (.selectNextWritable .strap) (put 16 0 0 [] sess)) (fun t => decide (readReg t .status = 0x212)) = true ∧
    after (exec (.selectNextWritable .bulkData) sess) (fun t => decide (readReg t .status = 0x2C2)) = true := by decide

/-- X7's start: slots 0 to 5 exhausted, slot 6 with one attempt. -/
def x7 : State :=
  { sess with otp := { sess.otp with
      slots := [(rowKey .strap 3, List.replicate 6 ⟨0, false, false, false⟩ ++ [⟨1, true, false, false⟩])] } }

/-- X7. -/
theorem test_select_last_slot :
    after (exec (.selectNextWritable .strap) (put 3 0 0 [] x7)) (fun t => decide (readReg t .qresult = 0x106)) = true ∧
    after (exec (.isWritable .strap) (put 3 0 0 [] x7)) (fun t => decide (readReg t .qresult = 1)) = true := by decide

/-- T2 and T8. -/
theorem test_isWritable :
    after (exec (.isWritable .strap) (put 3 0 0 [] sess)) (fun t => decide (readReg t .qresult = 1)) = true ∧
    after (exec (.isWritable .strap) (put 3 0 0 [] (x7.modifySlot .strap 3 6 Slot.attempted))) (fun t =>
      decide (readReg t .qresult = 0)) = true := by decide

/-- T3 and T4. -/
theorem test_readSlot :
    after (exec (.readSlot .strap) (put 3 0 0 [] sess)) (fun t => decide (readReg t .qresult = 0x100000004)) = true ∧
    after (exec (.readSlot .strap) (put 3 7 0 [] sess)) (fun t => decide (readReg t .status = 0x212)) = true := by decide

/-- A READ of ARRAY[7] = 0xABC: the word in BUF[0], one macro call. -/
theorem test_read : after (exec (.read .bulkData) (put 7 0 0 [] (sess.orWord 7 0xABC))) (fun t =>
    decide (readReg t (.buf 0) = 0xABC) && decide (t.cnt = ⟨0, 0, 1⟩)) = true := by decide

/-- A READ of a poisoned word delivers a draw cut to `W` bits (R64). -/
theorem test_read_poisoned :
    after (exec (.read .bulkData) (put 7 0 0 [pulse 0x123456789A .ready] (sess.poisonWord 7))) (fun t =>
      decide (readReg t (.buf 0) = 0x3456789A) && decide (t.env.oracle = [])) = true := by decide

/-- X1, and the second word of a region read. -/
theorem test_readRegion :
    after (exec (.readRegion .configuration) (put 60 5 0 [] sess)) (fun t =>
      decide (readReg t .status = 0x232) && decide (t.cnt = ⟨0, 0, 0⟩)) = true ∧
    after (exec (.readRegion .configuration) { put 60 4 0 [] (sess.orWord 2109 0x77) with
      phase := .unitRead 1, eng := { Eng.clear with off := 60, count := 4, region := .configuration } }) (fun t =>
      decide (readReg t (.buf 1) = 0x77) && decide (t.wordIndex = 1)) = true := by decide

/-- E9, first step, at W = 32 with E16's word: the unused bit 32 is ignored. The step ends with the pulse (R43), so OUTCOME is
still clear. -/
theorem test_write_pulse :
    after (exec (.write .bulkData) (put 5 0 0x1000000F0 [pulse 0x30 .ready] sess)) (fun t =>
      decide (t.word 5 = 0x30) && decide (t.status.engState = .normalProgram) && decide (t.cnt = ⟨1, 0, 1⟩)
        && decide (readReg t (.outcome 0) = 0)) = true := by decide

/-- E2, step 3: a mismatch goes on to a soak pulse, with NEEDS_SOAK passed within the step, which ends with the pulse. -/
theorem test_write_soaks :
    after (exec (.write .bulkData) { put 5 0 0xF0 [pulse 0xC0 .ready] (sess.orWord 5 0x30) with
      phase := .verifyRead 0x30
      eng := ⟨some (.write .bulkData), .bulkData, 5, 1, .continueOnError, ⟨100, 3, 0⟩, 0, 0, .ok, 0⟩ }) (fun t =>
      decide (t.word 5 = 0xF0) && decide (t.status.engState = .soakProgram) && decide (t.cnt = ⟨0, 1, 1⟩)
        && decide ((t.outcomeAt 0).soakPulses = 0)) = true := by decide +kernel

/-- P10 and P11: the order of the write checks. -/
theorem test_writeRegion :
    after (exec (.writeRegion .configuration .continueOnError) (put 100 1 0 [] { sess with snap := ⟨2, false, true⟩ }))
      (fun t => decide (readReg t .status = 0x242)) = true ∧
    after (exec (.writeRegion .configuration .continueOnError) (put 100 1 0 [] { sess with snap := ⟨2, true, true⟩ }))
      (fun t => decide (readReg t .status = 0x252)) = true := by decide

/-- M3's last step: a TIMEOUT on unit 1 with a success on record. -/
theorem test_writeRegion_abort :
    after (exec (.writeRegion .bulkData .continueOnError) { put 5 2 0 [] sess with
      phase := .normalPulsed .timeout, wordIndex := 1
      eng := ⟨some (.writeRegion .bulkData .continueOnError), .bulkData, 5, 2, .continueOnError, ⟨100, 3, 0⟩, 0, 1, .ok, 0⟩ })
      (fun t => decide (readReg t .status = 0x81A2) && decide (readReg t (.outcome 1) = 0x1000005)) = true := by decide

/-- E13 and E14. -/
theorem test_soakProgram_no_pulse :
    after (exec (.soakProgram .bulkData) { put 5 0 1 [] sess with soak := ⟨100, 0, 0⟩ }) (fun t =>
      decide (readReg t .status = 0x8282) && decide (readReg t (.outcome 0) = 0x3) && decide (t.cnt = ⟨0, 0, 0⟩)) = true ∧
    after (exec (.soakProgram .security) (put 0 0 1 [] sess)) (fun t =>
      decide (readReg t .status = 0x8292) && decide (readReg t (.outcome 0) = 0x4)) = true := by decide

/-- A soak pulse on a cell consumes an attempt, also when it faults (R160). -/
theorem test_soakProgram_attempt :
    after (exec (.soakProgram .strap) (put 3 0 1 [pulse 1 .fault] sess)) (fun t =>
      decide (t.slotAt .strap 3 0 = ⟨3, true, true, false⟩) && decide (t.cnt = ⟨0, 1, 1⟩)) = true := by decide

/-- A1 and C14, first step: a normal pulse on slot 0 consumes no attempt; it sets the slot of an unset cell, and changes
nothing of a cell that is set through slot 2. -/
theorem test_programWithSoakFallback :
    after (exec (.programWithSoakFallback .strap) (put 3 0 1 [pulse 1 .ready] sess)) (fun t =>
      decide (t.slotAt .strap 3 0 = ⟨4, true, true, false⟩) && decide (t.cnt = ⟨1, 0, 1⟩)) = true ∧
    (let s := put 3 0 1 [pulse 1 .ready] (sess.modifySlot .strap 3 2 (Slot.commit true));
      after (exec (.programWithSoakFallback .strap) s) (fun t =>
        decide (t.otp = s.otp) && decide (t.cnt = ⟨1, 0, 1⟩) && decide (t.eng.slot = 0)) = true) := by decide

/-- E10's last step: no retry left ends with WriteExhausted. -/
theorem test_programWithSoakFallback_exhausted :
    after (exec (.programWithSoakFallback .bulkData) { put 5 0 1 [] sess with
      phase := .verifyRead 0
      eng := ⟨some (.programWithSoakFallback .bulkData), .bulkData, 5, 1, .continueOnError, ⟨50, 0, 0⟩, 0, 0, .ok, 0⟩ })
      (fun t => decide (readReg t .status = 0x8282) && decide ((t.outcomeAt 0).code = .failedExhausted)) = true := by decide

/-- A reset between steps keeps the device, and one during a soak pulse on a cell poisons the slot and consumes the attempt
(R270, R274). -/
theorem test_reset_moves :
    after (step (moves [.reset] (sess.orWord 5 0xF0))) (fun t =>
      decide (t.word 5 = 0xF0) && decide (t.session = .idle) && decide (t.variant = 0)) = true ∧
    after (deliver (latched 0x20B (put 3 0 1 [pulse 1 .ready] sess)) .resetDuringStep) (fun t =>
      decide (t.slotAt .strap 3 0 = ⟨3, true, true, true⟩) && decide (t.status = Status.clear)) = true := by decide

/-- The out-of-band agent waits while a session is active (R72). -/
theorem test_out_of_band :
    after (step (moves [.outOfBand (.setBits 9 0x1)] State.reset)) (fun t => decide (t.word 9 = 1)) = true ∧
    after (step (moves [.outOfBand (.setBits 9 0x1)] sess)) (fun t => decide (t.word 9 = 0)) = true := by decide

/-! ### Witnesses: for every statement with hypotheses, a state and operands that meet them together -/

/-- 95_test_vectors.md 2.2: `resolve` where its clauses meet. -/
theorem test_resolve_boundaries :
    let row (r : Region) := regionInfo Config.ref 1 r
    resolve (row .bulkData) 2047 1 = .ok ∧ resolve (row .bulkData) 2048 1 = .invalidAddress ∧
    resolve (row .bulkData) 1 2048 = .boundaryError ∧ resolve (row .configuration) 60 4 = .ok ∧
    resolve (row .configuration) 60 5 = .boundaryError ∧ resolve (row .configuration) 63 0 = .ok ∧
    resolve (row .configuration) 64 0 = .invalidAddress ∧ resolve (row .security) 31 1 = .alignmentError ∧
    resolve (row .security) 33 1 = .invalidAddress ∧ resolve (row .security) 30 3 = .boundaryError ∧
    resolve (row .security) 29 8 = .alignmentError ∧ resolve (row .strap) 15 1 = .ok := by decide

theorem test_meets_IllegalWordsEndWithIllegalCommand :
    let s := latched 0x107 sess
    s.cfg.legal = true ∧ s.env.inbox = [] ∧ s.status.busy = true ∧ decode s.cmdLatch = .error .strayRegion := by
  refine ⟨by decide, rfl, rfl, by decide⟩

theorem test_meets_StepRunsTheDecodedCommand :
    let s := latched 0x203 sess
    let u := moves [.controller] s
    s.cfg.legal = true ∧ s.status.busy = true ∧ decode s.cmdLatch = .ok (.read .strap) ∧ s.env.inbox = [] ∧
    u.cfg.legal = true ∧ u.status.busy = true ∧ decode u.cmdLatch = .ok (.read .strap) ∧
      u.env.inbox = .controller :: [] := by
  refine ⟨by decide, rfl, by decide, rfl, by decide, rfl, by decide, rfl⟩

theorem test_meets_WrittenCommandRunsNext :
    let s := moves [.hostWrite 0 0x8] sess
    s.cfg.legal = true ∧ s.status.busy = false ∧ decode 0x8 = .ok .isLocked ∧ s.env.inbox = [.hostWrite 0 0x8] := by
  refine ⟨by decide, rfl, by decide, rfl⟩

theorem test_meets_AcceptanceClearsTheResults : sess.status.busy = false := rfl

theorem test_meets_BusyWritesOnlySetOverrun :
    let s := moves [.hostWrite 0x100 7, .controller] (latched 0x4 sess)
    s.cfg.legal = true ∧ s.status.busy = true ∧ s.env.inbox = .hostWrite 0x100 7 :: [.controller] := by
  refine ⟨by decide, rfl, rfl⟩

/-- With BUF_WORDS = 8: the last read-only index below the gaps, the first index after each bank, and the gap's ends. -/
theorem test_meets_ReservedAndReadOnlyIgnoreWrites :
    sess.cfg.bufWords ≤ 256 ∧ sess.status.busy = false ∧
    (∀ n ∈ [0x001, 0x007, 0x010, 0x011, 0x0FF, 0x108, 0x1FF, 0x200, 0x207, 0x208, 0xFFF],
      n ≠ 0 ∧ ¬ ((0x002 ≤ n ∧ n ≤ 0x006) ∨ (0x100 ≤ n ∧ n < 0x100 + sess.cfg.bufWords))) ∧
    (∀ n ∈ [0x011, 0x0FF, 0x108, 0x1FF, 0x208, 0xFFF],
      ¬ (n ≤ 0x010 ∨ (0x100 ≤ n ∧ n < 0x100 + sess.cfg.bufWords)
        ∨ (0x200 ≤ n ∧ n < 0x200 + sess.cfg.bufWords))) := by decide

theorem test_meets_OperandRegistersHoldWhatIsWritten :
    sess.status.busy = false ∧ sess.cfg.bufWords ≤ 256 ∧ 0 < sess.cfg.bufWords ∧ 7 < sess.cfg.bufWords ∧
    (0x006 : PortIndex) = BitVec.ofNat 12 (2 + (4 : Fin 5)) := by decide

/-- A known variant, and none. -/
theorem test_meets_HostReadsHaveNoSideEffect :
    (let s := moves [.hostRead 0x001] (latched 0x4 sess);
      s.cfg.legal = true ∧ s.env.inbox = .hostRead 0x001 :: []) ∧
    sess.cfg.bufWords ≤ 256 ∧ 7 < sess.cfg.bufWords ∧ (∃ u, variantOf sess.cfg sess.variant = some u) ∧
    variantOf State.reset.cfg State.reset.variant = none :=
  ⟨⟨by decide, rfl⟩, by decide, by decide, ⟨_, rfl⟩, rfl⟩

theorem test_meets_FlagRegistersReadTheirFields :
    State.reset.snap.valid = false ∧ sess.snap.valid = true ∧ sess.cfg.bufWords ≤ 256 ∧ 7 < sess.cfg.bufWords := by decide

theorem test_meets_ResetSetsVolatileKeepsPersistent :
    let s := moves [.reset] (latched 0x4 sess)
    s.cfg.legal = true ∧ s.env.inbox = .reset :: [] := ⟨by decide, rfl⟩

/-- A configuration whose one variant has the identifier 0. -/
def zeroVariant : Config := { Config.ref with variants := Config.ref.variants.map (fun v => { v with ident := 0 }) }

theorem test_meets_RegistersReadZeroAfterReset :
    knownVariant sess.cfg 0 = false ∧ ∃ u, variantOf zeroVariant 0 = some u ∧ u.soak.pulse = 100 :=
  ⟨by decide, _, rfl, rfl⟩

theorem test_meets_InterruptedPulsePoisonsTheWord :
    let s := latched 0x4 (put 2047 0 0xF0 [] sess)
    s.status.busy = true ∧ decode s.cmdLatch = .ok (.write .bulkData) ∧
    ∃ t tm mg u k, planOf (.write .bulkData) s = .pulse 2047 t tm mg u k ∧ u.macroUnlocked = true ∧
      2047 < u.cfg.arrayWords :=
  ⟨rfl, by decide, _, _, _, _, _, rfl, rfl, by decide⟩

/-- Both kinds of pulse: a normal one on a slot with attempts left, and a soak one on a slot's last attempt. -/
theorem test_meets_InterruptedPulsePoisonsTheSlot :
    (let s := latched 0x204 (put 3 0 1 [] sess);
      s.status.busy = true ∧ decode s.cmdLatch = .ok (.write .strap) ∧
      ∃ b mg u k, planOf (.write .strap) s = .pulseSlot .strap 3 0 b .normal mg u k ∧ u.macroUnlocked = true ∧
        0 < (s.row .strap 3).length) ∧
    (let s := latched 0x20B (put 3 0 1 [] x7);
      s.status.busy = true ∧ decode s.cmdLatch = .ok (.soakProgram .strap) ∧
      ∃ b mg u k, planOf (.soakProgram .strap) s = .pulseSlot .strap 3 6 b (.soak 100) mg u k ∧ u.macroUnlocked = true ∧
        6 < (s.row .strap 3).length) :=
  ⟨⟨rfl, by decide, _, _, _, _, rfl, rfl, by decide⟩, ⟨rfl, by decide, _, _, _, _, rfl, rfl, by decide⟩⟩

theorem test_meets_InterruptedProtectOrLockMayTakeEffect :
    (let s := latched 0x7 sess;
      s.status.busy = true ∧ decode s.cmdLatch = .ok .lock ∧ s.macroUnlocked = true ∧
      ∃ k, planOf .lock s = .lockAll s k) ∧
    (let s := latched 0x109 sess;
      s.status.busy = true ∧ decode s.cmdLatch = .ok (.enableRegionProtection .configuration) ∧
      s.macroUnlocked = true ∧
      ∃ k, planOf (.enableRegionProtection .configuration) s = .protect .configuration s k) :=
  ⟨⟨rfl, by decide, rfl, _, rfl⟩, ⟨rfl, by decide, rfl, _, rfl⟩⟩

/-- A device whose identifier is not in VARIANTS (95_test_vectors.md S5). -/
def unknownChip : State := { State.reset with cfg := { Config.ref with chipId := 2 } }

theorem test_meets_BeginSessionOpensASession :
    State.reset.phase = .start ∧ State.reset.session = .idle ∧
    knownVariant State.reset.cfg State.reset.cfg.chipId = true := ⟨rfl, rfl, by decide⟩

theorem test_meets_BeginSessionRefusals :
    (sess.phase = .start ∧ sess.session = .active) ∧
    (unknownChip.phase = .start ∧ unknownChip.session = .idle ∧ knownVariant unknownChip.cfg unknownChip.cfg.chipId = false) :=
  ⟨⟨rfl, rfl⟩, ⟨rfl, rfl, by decide⟩⟩

theorem test_meets_EndSessionAlwaysRelocks : sess.phase = .start ∧ State.reset.phase = .start := ⟨rfl, rfl⟩

theorem test_meets_OnlySessionCommandsChangeTheSession :
    (∃ t, exec .endSession { sess with phase := .endRelocked } = .next t ∧ t.session ≠ sess.session) ∧
    ∃ t, exec .beginSession { State.reset with phase := .beginProtRead 1 0 false } = .next t ∧
      t.session ≠ State.reset.session := ⟨⟨_, rfl, by decide⟩, ⟨_, rfl, by decide⟩⟩

/-- With LEN = BUF_WORDS, the largest that reaches the session check. -/
theorem test_meets_CommandsNeedASession :
    let s := put 0 8 0 [] State.reset
    let i := Instr.readRegion .bulkData
    s.phase = .start ∧ s.session = .idle ∧ i ≠ .beginSession ∧ i ≠ .endSession ∧
    (∀ r, i = .read r ∨ i = .readRegion r → s.cfg.readWithoutSession = false) ∧
    (∀ r p, i = .readRegion r ∨ i = .writeRegion r p → s.len.toNat ≤ s.cfg.bufWords) :=
  ⟨rfl, rfl, by decide, by decide, fun _ _ => rfl, fun _ _ _ => by decide⟩

theorem test_meets_LockSetsTheLock :
    (sess.phase = .start ∧ sess.session = .active ∧ sess.macroUnlocked = true ∧ sess.snap.lock = false) ∧
    (let s := { sess with snap := ⟨0, true, true⟩ };
      s.phase = .start ∧ s.session = .active ∧ s.snap.lock = true) := ⟨⟨rfl, rfl, rfl, rfl⟩, ⟨rfl, rfl, rfl⟩⟩

theorem test_meets_ProtectionQueriesAnswerTheSnapshot : sess.phase = .start ∧ sess.session = .active := ⟨rfl, rfl⟩

theorem test_meets_EnableProtectionSetsTheRegionsFlag :
    sess.phase = .start ∧ sess.session = .active ∧ sess.macroUnlocked = true ∧ sess.variant = sess.cfg.chipId ∧
    (sess.info .strap).protectable = true ∧ sess.snap.lock = false ∧ protBit sess.snap.prot .strap = false := by decide

theorem test_meets_EnableProtectionChecksInOrder :
    (sess.phase = .start ∧ sess.session = .active ∧ (sess.info .bulkData).protectable = false) ∧
    (let s := { sess with snap := ⟨2, true, true⟩ };
      s.phase = .start ∧ s.session = .active ∧ (s.info .strap).protectable = true ∧ s.snap.lock = true) ∧
    (let s := { sess with snap := ⟨2, false, true⟩ };
      s.phase = .start ∧ s.session = .active ∧ (s.info .configuration).protectable = true ∧ s.snap.lock = false ∧
      protBit s.snap.prot .configuration = true) := by decide

theorem test_meets_SelectAnswersTheFirstWritableSlot :
    let s := put 15 0 0 [] sess
    let u := put 3 0 0 [] x7
    (s.phase = .start ∧ s.session = .active ∧ s.cfg.numSlots ≤ 255 ∧ (s.info .strap).attemptLimited = true ∧
      s.addr.toNat < (s.info .strap).capacity ∧ (s.row .strap s.addr.toNat).length = s.cfg.numSlots ∧
      0 < (s.slotAt .strap s.addr.toNat 0).remaining ∧ (s.slotAt .strap s.addr.toNat 0).writable = true) ∧
    (u.phase = .start ∧ u.session = .active ∧ (u.info .strap).attemptLimited = true ∧
      u.addr.toNat < (u.info .strap).capacity ∧ (u.row .strap u.addr.toNat).length = u.cfg.numSlots ∧
      6 < u.cfg.numSlots ∧ 0 < (u.slotAt .strap u.addr.toNat 6).remaining ∧
      (u.slotAt .strap u.addr.toNat 6).writable = true ∧
      ∀ j < 6, ¬ (0 < (u.slotAt .strap u.addr.toNat j).remaining ∧
        (u.slotAt .strap u.addr.toNat j).writable = true)) ∧
    (let e := put 3 0 0 [] (x7.modifySlot .strap 3 6 Slot.attempted);
      (e.row .strap 3).length = e.cfg.numSlots ∧
      ∀ j < e.cfg.numSlots, ¬ (0 < (e.slotAt .strap e.addr.toNat j).remaining ∧
        (e.slotAt .strap e.addr.toNat j).writable = true)) := by decide

theorem test_meets_IsWritableAnswersWhetherASlotRemains :
    let s := put 15 0 0 [] sess
    s.phase = .start ∧ s.session = .active ∧ (s.info .strap).attemptLimited = true ∧
    s.addr.toNat < (s.info .strap).capacity ∧ (s.row .strap s.addr.toNat).length = s.cfg.numSlots := by decide

/-- The last slot of the last cell. -/
theorem test_meets_ReadSlotShowsTheSlot :
    let s := put 15 6 0 [] sess
    s.phase = .start ∧ s.session = .active ∧ (s.info .strap).attemptLimited = true ∧
    s.addr.toNat < (s.info .strap).capacity ∧ s.len.toNat < s.cfg.numSlots := by decide

theorem test_meets_TrackerChecksInOrder :
    let s := put 16 0 0 [] sess
    let u := put 15 7 0 [] sess
    s.phase = .start ∧ s.session = .active ∧ (s.info .bulkData).attemptLimited = false ∧
    (s.info .strap).attemptLimited = true ∧ (s.info .strap).capacity ≤ s.addr.toNat ∧
    u.phase = .start ∧ u.session = .active ∧ u.addr.toNat < (u.info .strap).capacity ∧
      u.cfg.numSlots ≤ u.len.toNat := by decide

theorem test_meets_ReadDeliversTheWord :
    let s := put 2047 0 0 [] sess
    s.phase = .start ∧ s.session = .active ∧ s.cfg.legal = true ∧ (s.info .bulkData).attemptLimited = false ∧
    s.addr.toNat < (s.info .bulkData).capacity ∧ s.addr.toNat % (s.info .bulkData).alignment = 0 := by decide

theorem test_meets_ReadDeliversTheCellsValue :
    let s := put 15 0 0 [] sess
    s.phase = .start ∧ s.session = .active ∧ (s.info .strap).attemptLimited = true ∧
    s.addr.toNat < (s.info .strap).capacity ∧ s.addr.toNat % (s.info .strap).alignment = 0 ∧
    s.rowPoisoned .strap s.addr.toNat = false := by decide

/-- The last words of the region, up to its end, with no word poisoned. -/
theorem test_meets_ReadRegionFillsTheBuffers :
    let s := put 2040 8 0 [] sess
    s.phase = .start ∧ s.session = .active ∧ s.cfg.legal = true ∧
    s.len.toNat ≤ s.cfg.bufWords ∧ s.addr.toNat < (s.info .bulkData).capacity ∧
    s.addr.toNat % (s.info .bulkData).alignment = 0 ∧ s.addr.toNat + s.len.toNat ≤ (s.info .bulkData).capacity ∧
    1 ≤ s.len.toNat ∧ (s.info .bulkData).attemptLimited = false ∧ ∀ j < s.len.toNat, s.poisoned (s.addr.toNat + j) = false :=
  ⟨rfl, rfl, by decide, by decide, by decide, by decide, by decide, by decide, by decide, fun _ _ => rfl⟩

/-- The last eight cells of an attempt-limited region. -/
theorem test_meets_ReadRegionFillsTheBuffers_cells :
    let s := put 8 8 0 [] x7
    s.phase = .start ∧ s.session = .active ∧ s.cfg.legal = true ∧ s.len.toNat ≤ s.cfg.bufWords ∧
    s.addr.toNat < (s.info .strap).capacity ∧ s.addr.toNat % (s.info .strap).alignment = 0 ∧
    s.addr.toNat + s.len.toNat ≤ (s.info .strap).capacity ∧ (s.info .strap).attemptLimited = true ∧
    ∀ j < s.len.toNat, s.rowPoisoned .strap (s.addr.toNat + j) = false := by decide

/-- Idle under READ_WITHOUT_SESSION. -/
def openReads (s : State) : State := { s with cfg := { s.cfg with readWithoutSession := true } }

theorem test_meets_SessionlessReadPath :
    (let s := openReads unknownChip;
      s.phase = .start ∧ s.session = .idle ∧ s.cfg.legal = true ∧ s.cfg.readWithoutSession = true ∧
      s.len.toNat ≤ s.cfg.bufWords ∧ knownVariant s.cfg s.cfg.chipId = false) ∧
    (let s := openReads { State.reset with otp := { Otp.factory with physProt := 2 } };
      s.phase = .start ∧ s.session = .idle ∧ s.cfg.legal = true ∧ s.cfg.readWithoutSession = true ∧
      knownVariant s.cfg s.cfg.chipId = true ∧ protBit s.deviceProt .configuration = true) ∧
    (let s := openReads (put 60 5 0 [] State.reset);
      let info := regionInfo s.cfg s.cfg.chipId .configuration;
      knownVariant s.cfg s.cfg.chipId = true ∧ protBit s.deviceProt .configuration = false ∧
      s.len.toNat ≤ s.cfg.bufWords ∧
      resolve info s.addr.toNat (unitCount (.readRegion .configuration) s) = .boundaryError ∧
      resolve info s.addr.toNat (unitCount (.read .configuration) s) = .ok ∧ info.attemptLimited = false ∧
      s.poisoned (info.base + s.addr.toNat) = false) ∧
    (let s := openReads (put 8 8 0 [] State.reset);
      let info := regionInfo s.cfg s.cfg.chipId .strap;
      knownVariant s.cfg s.cfg.chipId = true ∧ protBit s.deviceProt .strap = false ∧ s.len.toNat ≤ s.cfg.bufWords ∧
      resolve info s.addr.toNat (unitCount (.readRegion .strap) s) = .ok ∧ info.attemptLimited = true ∧
      ∀ j < unitCount (.readRegion .strap) s, s.rowPoisoned .strap (s.addr.toNat + j) = false) := by decide

theorem test_meets_ReadChecksInOrder :
    (let s := put 0 9 0 [] State.reset;
      s.phase = .start ∧ s.cfg.bufWords < s.len.toNat) ∧
    (let s := put 57 8 0 [] sess;
      s.phase = .start ∧ s.session = .active ∧ s.len.toNat ≤ s.cfg.bufWords ∧
      resolve (s.info .configuration) s.addr.toNat (unitCount (.readRegion .configuration) s) = .boundaryError) := by decide

theorem test_meets_EmptyTransfersSucceed :
    let s := put 63 0 0 [] sess
    s.phase = .start ∧ s.session = .active ∧ s.len = 0 ∧ s.snap.lock = false ∧
    protBit s.snap.prot .configuration = false ∧ s.addr.toNat < (s.info .configuration).capacity ∧
    s.addr.toNat % (s.info .configuration).alignment = 0 := by decide

theorem test_meets_WriteChecksInOrder :
    let i := Instr.writeRegion .configuration .failFast
    isProgram i = true ∧
    (let s := put 0 9 0 [] sess;
      s.phase = .start ∧ s.cfg.bufWords < s.len.toNat) ∧
    (let s := put 57 8 0 [] State.reset;
      s.phase = .start ∧ s.len.toNat ≤ s.cfg.bufWords ∧ s.session = .idle) ∧
    (let s := put 57 8 0 [] { sess with snap := ⟨2, true, true⟩ };
      s.len.toNat ≤ s.cfg.bufWords ∧ s.session = .active ∧ s.snap.lock = true) ∧
    (let s := put 57 8 0 [] { sess with snap := ⟨2, false, true⟩ };
      s.len.toNat ≤ s.cfg.bufWords ∧ s.session = .active ∧ s.snap.lock = false ∧
      protBit s.snap.prot (regionField i) = true) ∧
    (let s := put 57 8 0 [] sess;
      s.len.toNat ≤ s.cfg.bufWords ∧ s.session = .active ∧ s.snap.lock = false ∧
      protBit s.snap.prot (regionField i) = false ∧
      resolve (s.info (regionField i)) s.addr.toNat (unitCount i s) = .boundaryError) := by decide

theorem test_meets_NormalPulseOnAWord :
    let i := Instr.writeRegion .bulkData .failFast
    let s := put 2040 8 0xF0 [] sess
    startsNormal i = true ∧ ReadyToProgram s i ∧ 1 ≤ unitCount i s ∧
    (s.info (regionField i)).attemptLimited = false :=
  ⟨rfl, by constructor <;> decide, by decide, by decide⟩

/-- A selectable slot, and none. -/
theorem test_meets_NormalPulseOnACell :
    let i := Instr.programWithSoakFallback .strap
    let s := put 15 0 1 [] sess
    let u := put 3 0 1 [] (x7.modifySlot .strap 3 6 Slot.attempted)
    startsNormal i = true ∧ 1 ≤ unitCount i s ∧
    (ReadyToProgram s i ∧ (s.info (regionField i)).attemptLimited = true ∧ s.select .strap 15 = some 0) ∧
    (ReadyToProgram u i ∧ (u.info (regionField i)).attemptLimited = true ∧ u.select .strap 3 = none ∧
      u.rowPoisoned .strap 3 = false) :=
  ⟨rfl, by decide, ⟨by constructor <;> decide, by decide, by decide⟩,
    ⟨by constructor <;> decide, by decide, by decide, by decide⟩⟩

/-- A pulse that sets the last word of a region (E12), and one on a slot's last attempt. -/
theorem test_meets_SoakProgramBeginsWithASoakPulse :
    (let s := put 2047 0 1 [pulse 1 .ready] sess;
      let d := bufAt s 0 &&& wordMask s.cfg;
      ReadyToProgram s (.soakProgram .bulkData) ∧ soakAvailable s.cfg s.variant .bulkData s.addr.toNat = true ∧
      0 < s.soak.retries.toNat ∧ (s.info .bulkData).attemptLimited = false ∧ s.poisoned 2047 = false ∧
      s.answer.status = .ready ∧ (s.word 2047 ||| (d &&& s.answer.bits)) &&& d = d) ∧
    (let s := put 3 0 1 [pulse 1 .ready] x7;
      ReadyToProgram s (.soakProgram .strap) ∧ soakAvailable s.cfg s.variant .strap s.addr.toNat = true ∧
      0 < s.soak.retries.toNat ∧ (s.info .strap).attemptLimited = true ∧ s.select .strap s.addr.toNat = some 6 ∧
      s.rowPoisoned .strap s.addr.toNat = false ∧ s.answer.status = .ready ∧ s.answer.took = true) :=
  ⟨⟨by constructor <;> decide, by decide, by decide, by decide, by decide, by decide, by decide⟩,
    ⟨by constructor <;> decide, by decide, by decide, by decide, by decide, by decide, by decide, by decide⟩⟩

/-- No soak; no retry; no slot. -/
theorem test_meets_SoakProgramWithoutAPulse :
    (let s := put 30 0 1 [] sess;
      ReadyToProgram s (.soakProgram .security) ∧ soakAvailable s.cfg s.variant .security s.addr.toNat = false) ∧
    (let s := put 5 0 1 [] { sess with soak := ⟨100, 0, 0⟩ };
      ReadyToProgram s (.soakProgram .bulkData) ∧ ¬ 0 < s.soak.retries.toNat) ∧
    (let s := put 3 0 1 [] (x7.modifySlot .strap 3 6 Slot.attempted);
      ReadyToProgram s (.soakProgram .strap) ∧ (s.info .strap).attemptLimited = true ∧
      s.select .strap s.addr.toNat = none) :=
  ⟨⟨by constructor <;> decide, by decide⟩, ⟨by constructor <;> decide, by decide⟩,
    ⟨by constructor <;> decide, by decide, by decide⟩⟩

/-- X6's word, and E2. -/
theorem test_meets_GoodNormalPulseNeedsNoSoak :
    (let s := put 2047 0 0xF0 [pulse 0xF0 .ready] sess;
      let d := bufAt s 0 &&& wordMask s.cfg;
      ReadyToProgram s (.write .bulkData) ∧ (s.info .bulkData).attemptLimited = false ∧ s.poisoned 2047 = false ∧
      s.answer.status = .ready ∧ (s.word 2047 ||| (d &&& s.answer.bits)) &&& d = d) ∧
    (let s := put 5 0 0xF0 [pulse 0x30 .ready, pulse 0xC0 .ready] sess;
      let d := bufAt s 0 &&& wordMask s.cfg;
      let x := s.word 5 ||| (d &&& s.answer.bits);
      ReadyToProgram s (.write .bulkData) ∧ (s.info .bulkData).attemptLimited = false ∧ s.poisoned 5 = false ∧
      s.answer.status = .ready ∧ x &&& d ≠ d ∧ soakAvailable s.cfg s.variant .bulkData s.addr.toNat = true ∧
      0 < (soakSource (.write .bulkData) s).retries.toNat ∧ (s.answerAt 1).status = .ready ∧
      (x ||| (d &&& (s.answerAt 1).bits)) &&& d = d) :=
  ⟨⟨by constructor <;> decide, by decide, by decide, by decide, by decide⟩,
    ⟨by constructor <;> decide, by decide, by decide, by decide, by decide, by decide, by decide, by decide, by decide⟩⟩

/-- A1; a cell set through slot 2 while slot 0 is selected and its draw takes; A6's set cell whose slots are all used; A5's target 0. -/
theorem test_meets_AlreadySetCellCostsNoAttempt :
    (let s := put 3 0 1 [pulse 1 .ready] sess;
      ReadyToProgram s (.write .strap) ∧ (s.info .strap).attemptLimited = true ∧
      s.rowPoisoned .strap s.addr.toNat = false ∧ s.cellValue .strap s.addr.toNat = false ∧ s.answer.status = .ready ∧
      (s.select .strap s.addr.toNat).isSome = true ∧ s.answer.took = true) ∧
    (let s := put 15 0 1 [pulse 1 .ready] (sess.modifySlot .strap 15 2 (Slot.commit true));
      ReadyToProgram s (.write .strap) ∧ (s.info .strap).attemptLimited = true ∧
      s.rowPoisoned .strap s.addr.toNat = false ∧ s.cellValue .strap s.addr.toNat = true ∧ s.answer.status = .ready ∧
      (s.select .strap s.addr.toNat).isSome = true) ∧
    (let s := put 3 0 1 [] ((x7.modifySlot .strap 3 6 Slot.attempted).modifySlot .strap 3 6 (Slot.commit true));
      ReadyToProgram s (.write .strap) ∧ (s.info .strap).attemptLimited = true ∧
      s.rowPoisoned .strap s.addr.toNat = false ∧ s.cellValue .strap s.addr.toNat = true ∧
      (s.select .strap s.addr.toNat).isSome = false) ∧
    (bufAt (put 3 0 2 [] sess) 0).getLsbD 0 = false :=
  ⟨⟨by constructor <;> decide, by decide, by decide, by decide, by decide, by decide, by decide⟩,
    ⟨by constructor <;> decide, by decide, by decide, by decide, by decide, by decide⟩,
    ⟨by constructor <;> decide, by decide, by decide, by decide, by decide⟩, by decide⟩

/-- E3's four draws: three retries, none of which sets a bit. -/
theorem test_meets_AlwaysFailingWordIsExhausted :
    let s := put 5 0 0xF0 (List.replicate 4 (pulse 0 .ready)) sess
    let i := Instr.write .bulkData
    let d := bufAt s 0 &&& wordMask s.cfg
    ReadyToProgram s i ∧ (s.info .bulkData).attemptLimited = false ∧
    soakAvailable s.cfg s.variant .bulkData s.addr.toNat = true ∧ (soakSource i s).retries.toNat = 3 ∧
    s.poisoned 5 = false ∧ s.word 5 &&& d ≠ d ∧
    (∀ j ≤ 3, (s.answerAt j).status = .ready ∧ s.word 5 ||| (d &&& (s.answerAt j).bits) = s.word 5) :=
  ⟨by constructor <;> decide, by decide, by decide, by decide, by decide, by decide, by decide⟩

/-- X4: three retries on a slot with four attempts left. -/
theorem test_meets_AlwaysFailingCellLosesExactlyNAttempts :
    let s := put 3 0 1 (List.replicate 4 (pulse 0 .ready)) sess
    let i := Instr.programWithSoakFallback .strap
    ReadyToProgram s i ∧ (s.info .strap).attemptLimited = true ∧
    soakAvailable s.cfg s.variant .strap s.addr.toNat = true ∧ (soakSource i s).retries.toNat = 3 ∧
    s.select .strap 3 = some 0 ∧ 3 ≤ (s.slotAt .strap 3 0).remaining ∧ s.rowPoisoned .strap 3 = false ∧
    s.cellValue .strap 3 = false ∧ (bufAt s 0).getLsbD 0 = true ∧
    (∀ j ≤ 3, (s.answerAt j).status = .ready ∧ (s.answerAt j).took = false) :=
  ⟨by constructor <;> decide, by decide, by decide, by decide, by decide, by decide, by decide, by decide, by decide,
    by decide⟩

/-- The last eight words of a region, and the last eight cells of another. -/
theorem test_meets_WriteRegionProgramsEveryUnit :
    (let s := put 2040 8 0xF0 (List.replicate 8 (pulse 0xF0 .ready)) sess;
      ReadyToProgram s (.writeRegion .bulkData .continueOnError) ∧ 1 ≤ s.len.toNat ∧
      (s.info .bulkData).attemptLimited = false ∧ (∀ j < s.len.toNat, s.poisoned (2040 + j) = false) ∧
      (∀ j < s.len.toNat, (s.answerAt j).status = .ready ∧
        bufAt s j &&& wordMask s.cfg &&& (s.answerAt j).bits = bufAt s j &&& wordMask s.cfg)) ∧
    (let s := put 8 8 1 (List.replicate 8 (pulse 1 .ready)) x7;
      ReadyToProgram s (.writeRegion .strap .failFast) ∧ 1 ≤ s.len.toNat ∧ (s.info .strap).attemptLimited = true ∧
      (∀ j < s.len.toNat, s.rowPoisoned .strap (8 + j) = false ∧ (s.select .strap (8 + j)).isSome = true) ∧
      (∀ j < s.len.toNat, (s.answerAt j).status = .ready ∧
        ((bufAt s j).getLsbD 0 = true → (s.answerAt j).took = true))) :=
  ⟨⟨by constructor <;> decide, by decide, by decide, by decide, by decide⟩,
    ⟨by constructor <;> decide, by decide, by decide, by decide, by decide⟩⟩

theorem test_meets_BadPulseStatusAborts :
    isProgram (.soakProgram .strap) = true ∧ PulseStatus.timeout ≠ .ready ∧ PulseStatus.fault ≠ .ready ∧
    { sess with phase := .soakPulsed .timeout }.phase = .soakPulsed .timeout ∧
    { sess with phase := .normalPulsed .fault }.phase = .normalPulsed .fault := by decide

/-- A two-unit WRITE_REGION of region `r` at the place `ph` of its unit `u`, after `k` of three soak pulses. -/
def unitAt (r : Region) (pol : Policy) (u k : Nat) (ph : Phase) (s : State) : State :=
  { put 2 2 0 [] s with
    buf := [(0, 1), (1, 1)], phase := ph, wordIndex := BitVec.ofNat 64 u
    eng := ⟨some (.writeRegion r pol), r, 2, 2, pol, ⟨100, 3, 0⟩, k, 0, .ok, 0⟩ }

/-- Premises of every case but the unit's end. -/
def atUnitEnd (i : Instr) (s : State) : Bool :=
  isProgram i && decide (s.eng.op = some i) && decide (s.eng.count ≤ s.cfg.bufWords) && decide (s.cfg.bufWords ≤ 256)

/-- SET_NORMAL on the last unit; FAILED_VERIFY under fail-fast; FAILED_EXHAUSTED (M1, M2) with no retry left; SET_SOAK; and
what follows on a word, on a cell with a slot and on a cell with none. -/
theorem test_meets_UnitFailureFollowsThePolicy :
    (let s := unitAt .bulkData .failFast 1 0 (.verifyRead 1) sess;
      atUnitEnd (.writeRegion .bulkData .failFast) s = true ∧ unitMatches 1 s = true ∧ s.eng.count ≤ s.wordIndex.toNat + 1) ∧
    (let s := unitAt .security .failFast 0 0 (.verifyRead 0) sess;
      atUnitEnd (.writeRegion .security .failFast) s = true ∧ unitMatches 0 s = false ∧ unitAvail s = false) ∧
    (let s := unitAt .bulkData .continueOnError 0 3 (.reverifyRead 0) sess;
      atUnitEnd (.writeRegion .bulkData .continueOnError) s = true ∧ unitMatches 0 s = false ∧
      ¬ s.eng.k < s.eng.soak.retries.toNat ∧ s.wordIndex.toNat + 1 < s.eng.count ∧ s.macroUnlocked = true ∧
      (unitInfo s).attemptLimited = false ∧
      (unitInfo s).base + (s.eng.off + (s.wordIndex.toNat + 1)) < s.cfg.arrayWords) ∧
    (let s := unitAt .strap .continueOnError 0 1 (.reverifyRead 1) sess;
      atUnitEnd (.writeRegion .strap .continueOnError) s = true ∧ unitMatches 1 s = true ∧
      (unitInfo s).attemptLimited = true ∧ s.select .strap 3 = some 0) ∧
    (let s := unitAt .strap .failFast 0 0 (.verifyRead 1) (x7.modifySlot .strap 3 6 Slot.attempted);
      atUnitEnd (.writeRegion .strap .failFast) s = true ∧ unitMatches 1 s = true ∧ s.select .strap 3 = none ∧
      s.rowPoisoned .strap 3 = false) ∧
    (let s := unitAt .strap .failFast 1 0 (.verifyRead 0) (x7.modifySlot .strap 3 6 Slot.attempted);
      unitMatches 0 s = false ∧ unitAvail s = true ∧ (unitInfo s).attemptLimited = true ∧
      s.select .strap (s.eng.off + s.wordIndex.toNat) = none) := by decide

/-- Two values of BUF[0] that differ above bit 31 only, for a word; and above bit 0, for a cell. -/
theorem test_meets_WriteIgnoresTheUnusedDataBits :
    let mask (r : Region) : Reg := if (sess.info r).attemptLimited then 1 else wordMask sess.cfg
    (0x1000000F0 &&& mask .bulkData = 0xF0 &&& mask .bulkData ∧
      ∃ t, exec (.write .bulkData) ({ sess with phase := .start }.setBuf 0 0x1000000F0) = .next t) ∧
    (3 &&& mask .strap = 1 &&& mask .strap ∧
      ∃ t, exec (.write .strap) ({ sess with phase := .start }.setBuf 0 3) = .next t) :=
  ⟨⟨by decide, _, rfl⟩, ⟨by decide, _, rfl⟩⟩

theorem test_meets_RefusalsHaveNoSideEffects :
    let s := latched 0x4 (put 2048 0 0 [] sess)
    s.phase = .start ∧ s.status.busy = true ∧
    ∃ t, exec (.write .bulkData) s = .next t ∧ t.status.busy = false ∧ isLocalError t.status.err = true :=
  ⟨rfl, rfl, _, rfl, by decide, by decide⟩

/-- A step that ends its command, and one that does not. -/
theorem test_meets_ErrorsAreReportedOnlyAtTheEnd :
    (∃ t, exec .isLocked (latched 0x8 sess) = .next t ∧ t.status.busy = false) ∧
    ∃ t, exec .endSession (latched 0x2 sess) = .next t ∧ t.status.busy = true := ⟨⟨_, rfl, rfl⟩, ⟨_, rfl, rfl⟩⟩

/-- The last word and the last slot of the last cell; `.remaining` lowered to 0 and to one less. -/
theorem test_meets_OutOfBandStepsChangeOneItem :
    (sess.session = .active ∧ sess.cfg.oobDuringSession = false) ∧
    (let s := State.reset;
      s.session = .idle ∧ 4095 < s.cfg.arrayWords ∧ slotExists s .strap 15 6 = true ∧ 6 < (s.row .strap 15).length ∧
      0 < (s.slotAt .strap 15 6).remaining ∧ 3 < (s.slotAt .strap 15 6).remaining) := by decide

theorem test_meets_EveryStepPreservesTheMonotonicLaws :
    ∃ t, step (latched 0x4 (put 5 0 0xF0 [pulse 0xF0 .ready] sess)) = .next t ∧ t.word 5 = 0xF0 := ⟨_, rfl, by decide⟩

/-! ### A state in the middle of a command that satisfies the invariant -/

/-- A protected and locked device in a session; READ_REGION is running on it, after its first unit. -/
def reading : State :=
  { latched 0x105 (put 60 4 0 [] sess) with
    otp := { Otp.factory with physProt := 2, physLock := true }, snap := ⟨2, true, true⟩
    phase := .unitRead 1, eng := ⟨some (.readRegion .configuration), .configuration, 60, 4, .continueOnError,
      ⟨0, 0, 0⟩, 0, 0, .ok, 0⟩ }

/-- WRITE_REGION is running, after the normal pulse of its second unit. -/
def programming : State :=
  { latched 0x6 (put 2046 2 0xF0 [] sess) with
    phase := .normalPulsed .ready, wordIndex := 1
    eng := ⟨some (.writeRegion .bulkData .continueOnError), .bulkData, 2046, 2, .continueOnError, ⟨100, 3, 0⟩,
      0, 1, .ok, 0⟩ }

theorem word_of_no_memory (p : Nat) : Memory.word [] p = 0 := by simp [Memory.word, Memory.read, sparseGet]

theorem deviceOk_of_nothing_programmed (s : State) (hc : s.cfg = Config.ref) (hm : s.otp.mem = [])
    (hp : s.otp.poison = []) (hs : s.otp.slots = []) (hw : s.otp.physProt &&& protectMask Config.ref 1 = s.otp.physProt) :
    DeviceOk s := by
  have hrow (r : Region) (c : Nat) : s.row r c = factoryRow Config.ref := by simp [State.row, hs, hc]
  have hword (p : Nat) : s.word p = 0 := by rw [State.word, hm, word_of_no_memory]
  refine ⟨by rw [hm]; rfl, by rw [hp]; rfl, by rw [hs]; rfl, fun p _ => hword p, fun p => by simp [hword],
    fun r c => by rw [hrow, hc]; rfl, fun r c x hx => ?_, fun r c x hx => ?_, by rw [hc]; exact hw⟩
  · rw [hrow, factoryRow] at hx; rw [List.eq_of_mem_replicate hx, hc]; decide
  · rw [hrow, factoryRow] at hx; rw [List.eq_of_mem_replicate hx]; decide

theorem test_meets_reading_invariant : reading.Inv := by
  refine ⟨by decide, deviceOk_of_nothing_programmed _ rfl rfl rfl rfl (by decide), ⟨rfl, rfl, fun _ _ => rfl, fun _ _ => rfl⟩,
    ⟨rfl, (fun h => nomatch h), by decide, fun _ => rfl, fun _ => by decide, rfl⟩,
    ⟨⟨.configuration, .inr ⟨rfl, by decide⟩, rfl, by decide⟩, rfl, by decide, by decide⟩, fun h => nomatch h⟩

theorem test_meets_programming_invariant : programming.Inv := by
  refine ⟨by decide, deviceOk_of_nothing_programmed _ rfl rfl rfl rfl (by decide), ⟨rfl, rfl, fun i h => ?_, fun _ _ => rfl⟩,
    ⟨rfl, (fun h => nomatch h), by decide, (fun h => nomatch h), fun _ => by decide, rfl⟩,
    ⟨.writeRegion .bulkData .continueOnError, ⟨⟨rfl, by decide⟩, rfl, rfl, rfl, rfl, rfl, by decide, by decide, by decide,
      by decide, by decide, by decide⟩, rfl⟩, fun h => nomatch h⟩
  have : i ≠ 0 := fun e => by subst e; exact absurd h (by decide)
  simp [programming, latched, put, bufAt, sparseGet, Ne.symm this]

/-- ProtectionIsOneWay's premises, with every flag it speaks of set. -/
theorem test_meets_ProtectionIsOneWay :
    reading.Inv ∧ (∃ t, step reading = .next t ∧ t.snap.valid = true) ∧ protBit reading.otp.physProt .configuration = true ∧
    reading.otp.physLock = true ∧ reading.snap.valid = true ∧ protBit reading.snap.prot .configuration = true ∧
    reading.snap.lock = true :=
  ⟨test_meets_reading_invariant, ⟨_, rfl, rfl⟩, by decide, rfl, rfl, by decide, rfl⟩

theorem test_meets_EveryStepKeepsTheInvariant : programming.Inv ∧ ∃ t, step programming = .next t :=
  ⟨test_meets_programming_invariant, _, rfl⟩

/-- A word that is no command, accepted. -/
def illegal : State := latched 0x10 State.reset

theorem test_meets_illegal_invariant : illegal.Inv := by
  refine ⟨by decide, deviceOk_of_nothing_programmed _ rfl rfl rfl rfl (by decide),
    ⟨rfl, rfl, fun _ _ => rfl, fun _ _ => rfl⟩,
    ⟨rfl, fun _ => rfl, by decide, (fun h => nomatch h), (fun h => nomatch h), rfl⟩, trivial, fun _ => rfl⟩

theorem test_meets_EveryCommandTerminates :
    (programming.Inv ∧ programming.status.busy = true ∧ programming.env.inbox = [] ∧
      decode programming.cmdLatch = .ok (.writeRegion .bulkData .continueOnError)) ∧
    (illegal.Inv ∧ illegal.status.busy = true ∧ illegal.env.inbox = [] ∧ ∀ i, decode illegal.cmdLatch ≠ .ok i) :=
  ⟨⟨test_meets_programming_invariant, rfl, rfl, by decide⟩, ⟨test_meets_illegal_invariant, rfl, rfl, fun _ h => nomatch h⟩⟩

end Sys2Proof.Tests
end

section
/-! The moves of a step and the host port (10_state.md R34 to R47): which register an index names, what a write to it stores,
and the fields of the flag registers. -/

namespace Sys2Proof.Machine

/-! ### The next move -/

/-- With no other agent's move waiting, a step is the controller's turn. -/
theorem step_of_inbox_nil {s : State} (hc : s.cfg.legal = true) (h : s.env.inbox = []) : step s = controllerTurn s := by
  simp only [step, hc, if_true, nextMove, h]

/-- A waiting move is the step, on the state without it. -/
theorem step_of_inbox_cons {s : State} {e : Event} {es : List Event} (hc : s.cfg.legal = true)
    (h : s.env.inbox = e :: es) : step s = deliver { s with env := { s.env with inbox := es } } e := by
  simp only [step, hc, if_true, nextMove, h]

/-- The controller's turn while a command runs is `exec` of the latched word's command (R43, R97). -/
theorem controllerTurn_of_running {s : State} {i : Instr} (h : running s i) : controllerTurn s = exec i s := by
  obtain ⟨hb, hd⟩ := h
  simp only [controllerTurn, hb, if_true, commandStep, hd]

/-- Settles O5: a step takes the next move, which is the controller's turn, and that turn is `exec`. -/
theorem stepRunsTheDecodedCommand : Obligations.StepRunsTheDecodedCommand := by
  intro s i hc hb hd
  constructor
  · intro h
    rw [step_of_inbox_nil hc h, controllerTurn_of_running ⟨hb, hd⟩]
  · intro es h
    rw [step_of_inbox_cons hc h]
    exact controllerTurn_of_running ⟨hb, hd⟩

/-! ### Host writes -/

theorem hostWrite_of_busy {s : State} (h : s.status.busy = true) (idx : PortIndex) (v : Reg) :
    hostWrite idx v s = { s with status := { s.status with overrun := true } } := if_pos h

theorem hostWrite_of_idle {s : State} (h : s.status.busy = false) (idx : PortIndex) (v : Reg) :
    hostWrite idx v s = writeReg s v (portReg s.cfg idx) := if_neg (ne_true_of_eq_false h)

/-- Settles O8: the write is the step's move, and `hostWrite` of a busy state sets OVERRUN alone. -/
theorem busyWritesOnlySetOverrun : Obligations.BusyWritesOnlySetOverrun := by
  intro s idx v es hc hb h
  rw [step_of_inbox_cons hc h]
  exact congrArg Host.Outcome.next (hostWrite_of_busy (s := { s with env := { s.env with inbox := es } }) hb idx v)

/-! ### The register map -/

/-- The registers that a host write can change: CMD, the operands and BUF (R35, R37, R38, R42). -/
def PortReg.hostWritable : PortReg → Bool
  | .cmd | .addr | .len | .soakPulse | .soakRetries | .soakMargin | .buf _ => true
  | _ => false

theorem writeReg_of_not_hostWritable {p : PortReg} (h : p.hostWritable = false) (s : State) (v : Reg) :
    writeReg s v p = s := by
  cases p <;> first | rfl | cases h

/-- The indices of the registers that a host write can change (R34). -/
theorem portReg_hostWritable {c : Config} {idx : PortIndex} (h : (portReg c idx).hostWritable = true) :
    idx.toNat = 0 ∨ (0x002 ≤ idx.toNat ∧ idx.toNat ≤ 0x006) ∨
      (0x100 ≤ idx.toNat ∧ idx.toNat < 0x100 + c.bufWords) := by
  unfold portReg at h
  split at h
  case h_18 =>
    split at h
    · exact .inr (.inr ‹_›)
    · split at h <;> cases h
  all_goals first | omega | cases h

/-- An index outside R34's map is reserved (R47). -/
theorem portReg_of_unlisted {c : Config} {idx : PortIndex} (h1 : ¬ idx.toNat ≤ 0x010)
    (h2 : ¬ (0x100 ≤ idx.toNat ∧ idx.toNat < 0x100 + c.bufWords))
    (h3 : ¬ (0x200 ≤ idx.toNat ∧ idx.toNat < 0x200 + c.bufWords)) : portReg c idx = .reserved := by
  unfold portReg
  split
  case h_18 => rw [if_neg h2, if_neg h3]
  all_goals omega

/-- Settles O9: a write that changes something has a writable index, and an unlisted index is reserved. -/
theorem reservedAndReadOnlyIgnoreWrites : Obligations.ReservedAndReadOnlyIgnoreWrites := by
  intro s idx v _ n operand listed
  constructor
  · intro hb h0 hop
    rw [hostWrite_of_idle hb]
    refine writeReg_of_not_hostWritable (Bool.eq_false_iff.mpr fun hw => ?_) s v
    rcases portReg_hostWritable hw with h | h
    · exact h0 h
    · exact hop h
  · intro h
    obtain ⟨h1, h2⟩ := not_or.mp h
    obtain ⟨h2, h3⟩ := not_or.mp h2
    rw [portReg_of_unlisted h1 h2 h3]
    rfl

/-- The indices of OUTCOME (R34). -/
theorem portReg_outcome (c : Config) (i : Nat) (hi : i < c.bufWords) (h : c.bufWords ≤ 256) :
    portReg c (BitVec.ofNat 12 (0x200 + i)) = .outcome i := by
  have hn : (BitVec.ofNat 12 (0x200 + i)).toNat = 0x200 + i := by
    rw [BitVec.toNat_ofNat]
    omega
  unfold portReg
  split
  case h_18 => rw [hn, if_neg (by omega), if_pos (by omega), Nat.add_sub_cancel_left]
  all_goals omega

/-! ### Operand registers -/

/-- A register that stores the low `k` bits reads back those bits. -/
theorem setWidth_low_eq_and (v : Reg) (k : Nat) :
    (v.setWidth k).setWidth 64 = v &&& BitVec.ofNat 64 (2 ^ k - 1) := by
  apply BitVec.eq_of_getLsbD_eq
  intro i hi
  simp only [BitVec.getLsbD_setWidth, BitVec.getLsbD_and, BitVec.getLsbD_ofNat, Nat.testBit_two_pow_sub_one, hi,
    decide_true, Bool.true_and, Bool.and_comm]

/-- Settles O10: each index names its operand, whose write stores the bits it has. -/
theorem operandRegistersHoldWhatIsWritten : Obligations.OperandRegistersHoldWhatIsWritten := by
  intro s v hb hbuf
  have h32 : v.extractLsb' 0 32 = v.setWidth 32 := (BitVec.setWidth_eq_extractLsb' (by omega)).symm
  have h16 : v.extractLsb' 0 16 = v.setWidth 16 := (BitVec.setWidth_eq_extractLsb' (by omega)).symm
  simp only [hostWrite_of_idle hb, h32, h16]
  refine ⟨rfl, rfl, rfl, rfl, rfl, fun i hi => ?_, fun k idx hidx => ?_⟩
  · rw [portReg_buf s.cfg i hi hbuf]
    exact ⟨_, rfl, rfl, fun j => bufAt_setBuf s i j v⟩
  · subst hidx
    fin_cases k
    · rfl
    · rfl
    · exact setWidth_low_eq_and v 32
    · exact setWidth_low_eq_and v 16
    · exact setWidth_low_eq_and v 16

/-! ### Flag registers -/

/-- A field of a register, bit by bit. -/
theorem extractLsb'_eq_of_bits {n k len : Nat} {w : BitVec n} {x : BitVec len}
    (h : ∀ i < len, w.getLsbD (k + i) = x.getLsbD i) : w.extractLsb' k len = x := by
  apply BitVec.eq_of_getLsbD_eq
  intro i hi
  rw [BitVec.getLsbD_extractLsb', decide_eq_true hi, Bool.true_and, h i hi]

/-- The bits from `k` on read 0. -/
theorem ushiftRight_eq_zero_of_bits {n k : Nat} {w : BitVec n} (h : ∀ i, w.getLsbD (k + i) = false) : w >>> k = 0 := by
  apply BitVec.eq_of_getLsbD_eq
  intro i _
  rw [BitVec.getLsbD_ushiftRight, h i]
  simp

/-- The fields of STATUS and its reserved bits (R36). -/
theorem statusWord_fields (active : Bool) (st : Status) :
    let w := statusWord active st
    w.getLsbD 0 = st.busy ∧ w.getLsbD 1 = active ∧ w.getLsbD 2 = st.overrun ∧ w.getLsbD 3 = false ∧
      w.extractLsb' 4 4 = errBits st.err ∧ w.extractLsb' 8 2 = resultBits st.result ∧ w.extractLsb' 10 2 = 0 ∧
      w.extractLsb' 12 4 = engBits st.engState ∧ w >>> 16 = 0 := by
  refine ⟨?_, ?_, ?_, ?_, extractLsb'_eq_of_bits fun i hi => ?_, extractLsb'_eq_of_bits fun i hi => ?_,
    extractLsb'_eq_of_bits fun i hi => ?_, extractLsb'_eq_of_bits fun i hi => ?_,
    ushiftRight_eq_zero_of_bits fun i => ?_⟩
  all_goals rw [statusWord_getLsbD]
  all_goals simp (disch := omega) [if_neg, if_pos]

/-- The fields of PROT with a valid snapshot, and its reserved bits (R41). -/
theorem protWord_fields {p : Snap} (hv : p.valid = true) :
    let w := protWord p
    w.extractLsb' 0 4 = p.prot ∧ w.extractLsb' 4 4 = 0 ∧ w.getLsbD 8 = p.lock ∧ w.extractLsb' 9 6 = 0 ∧
      w.getLsbD 15 = true ∧ w >>> 16 = 0 := by
  refine ⟨extractLsb'_eq_of_bits fun i hi => ?_, extractLsb'_eq_of_bits fun i hi => ?_, ?_,
    extractLsb'_eq_of_bits fun i hi => ?_, ?_, ushiftRight_eq_zero_of_bits fun i => ?_⟩
  all_goals rw [protWord_getLsbD hv]
  all_goals simp (disch := omega) [if_neg, if_pos, decide_eq_false]

/-- The fields of `OUTCOME[i]` and its reserved bits (R42). -/
theorem outcomeWord_fields (o : OutcomeReg) :
    let w := outcomeWord o
    w.extractLsb' 0 4 = outcomeBits o.code ∧ w.extractLsb' 4 4 = 0 ∧ w.extractLsb' 8 16 = o.soakPulses ∧
      w.getLsbD 24 = o.normalPulse ∧ w >>> 25 = 0 := by
  refine ⟨extractLsb'_eq_of_bits fun i hi => ?_, extractLsb'_eq_of_bits fun i hi => ?_,
    extractLsb'_eq_of_bits fun i hi => ?_, ?_, ushiftRight_eq_zero_of_bits fun i => ?_⟩
  all_goals rw [outcomeWord_getLsbD]
  all_goals simp (disch := omega) [if_neg, if_pos]

/-- Settles O12: each index names its flag register, whose fields are those of its word. -/
theorem flagRegistersReadTheirFields : Obligations.FlagRegistersReadTheirFields := by
  refine ⟨fun s => ⟨statusWord_fields _ _, ⟨protWord_invalid, protWord_fields⟩, fun hbuf i hi => ?_⟩, ?_⟩
  · rw [portReg_outcome s.cfg i hi hbuf]
    exact outcomeWord_fields _
  · decide

end Sys2Proof.Machine
end

section
/-! What a step of a command can do to the registers that only its end writes (10_state.md R29, R44, R49): it goes on with
all of them kept, or it ends in `finish`. The session commands' last steps are the two exceptions. -/

namespace Sys2Proof.Machine

/-! ### What every place of a command keeps -/

/-- The registers that no place of a command writes before its end are the same: the parameters, the session, CMD_LATCH, ADDR,
LEN and STATUS but for ENGINE_STATE. -/
structure Quiet (s t : State) : Prop where
  cfg : t.cfg = s.cfg
  session : t.session = s.session
  cmdLatch : t.cmdLatch = s.cmdLatch
  addr : t.addr = s.addr
  len : t.len = s.len
  busy : t.status.busy = s.status.busy
  overrun : t.status.overrun = s.status.overrun
  err : t.status.err = s.status.err
  result : t.status.result = s.status.result

theorem Quiet.refl (s : State) : Quiet s s := by constructor <;> rfl

theorem Quiet.trans {s t u : State} (h : Quiet s t) (g : Quiet t u) : Quiet s u where
  cfg := g.cfg.trans h.cfg
  session := g.session.trans h.session
  cmdLatch := g.cmdLatch.trans h.cmdLatch
  addr := g.addr.trans h.addr
  len := g.len.trans h.len
  busy := g.busy.trans h.busy
  overrun := g.overrun.trans h.overrun
  err := g.err.trans h.err
  result := g.result.trans h.result

theorem Kept.quiet {s t : State} (h : Kept s t) : Quiet s t :=
  ⟨h.cfg, h.session, h.cmdLatch, h.addr, h.len, h.busy, h.overrun, h.err, h.result⟩

theorem quiet_atPhase (s : State) (p : Phase) : Quiet s (s.atPhase p) := by constructor <;> rfl
theorem quiet_setBuf (s : State) (i : Nat) (v : Reg) : Quiet s (s.setBuf i v) := by constructor <;> rfl
theorem quiet_setQresult (s : State) (v : Reg) : Quiet s (s.setQresult v) := by constructor <;> rfl
theorem quiet_snapLock (s : State) : Quiet s s.snapLock := by constructor <;> rfl
theorem quiet_snapProtect (s : State) (r : Region) : Quiet s (s.snapProtect r) := by constructor <;> rfl
theorem quiet_recordAttempt (s : State) (r : Region) (c sl : Nat) : Quiet s (s.recordAttempt r c sl) := by
  constructor <;> rfl

/-! ### The calls to the OTP (20_memory.md R62 to R65) -/

theorem quiet_countMacro (s : State) : Quiet s s.countMacro := by constructor <;> rfl
theorem quiet_macroUnlock (w : Nat) (s : State) : Quiet s (macroUnlock w s) := by constructor <;> rfl
theorem quiet_macroRelock (s : State) : Quiet s (macroRelock s) := by constructor <;> rfl
theorem quiet_macroPulse (p : Nat) (x : Reg) (tm : Timing) (mg : BitVec 16) (s : State) :
    Quiet s (macroPulse p x tm mg s).2 := by constructor <;> simp
theorem quiet_macroPulseSlot (r : Region) (c sl : Nat) (b : Bool) (tm : Timing) (mg : BitVec 16) (s : State) :
    Quiet s (macroPulseSlot r c sl b tm mg s).2 := by constructor <;> simp
theorem quiet_macroRead (p : Nat) (s : State) : Quiet s (macroRead p s).2 := by constructor <;> simp
theorem quiet_macroReadCell (r : Region) (c : Nat) (s : State) : Quiet s (macroReadCell r c s).2 := by
  constructor <;> simp
theorem quiet_slotBit (r : Region) (c sl : Nat) (s : State) : Quiet s (slotBit r c sl s).2 := by constructor <;> simp
theorem quiet_macroProtect (r : Region) (s : State) : Quiet s (macroProtect r s).2 := by constructor <;> simp
theorem quiet_macroLockAll (s : State) : Quiet s (macroLockAll s).2 := by constructor <;> simp

/-! ### A step goes on or ends -/

/-- What a step from `s` comes to: the command goes on, or it ends in `finish` (R44). -/
inductive StepsTo (s : State) : State → Prop
  | goesOn (t : State) (h : Quiet s t) : StepsTo s t
  | ends (t : State) (e : ErrCode) (a : Aggregate) (h : Quiet s t) : StepsTo s (finish e a t)

theorem StepsTo.of_quiet {s t u : State} (h : Quiet s t) (g : StepsTo t u) : StepsTo s u := by
  cases g with
  | goesOn u g => exact .goesOn u (h.trans g)
  | ends u e a g => exact .ends u e a (h.trans g)

theorem StepsTo.session {s t : State} (h : StepsTo s t) : t.session = s.session := by
  cases h with
  | goesOn t h => exact h.session
  | ends t e a h => exact h.session

/-- Every step of the plan goes on or ends. -/
structure Leads (s : State) (pl : Plan) : Prop where
  stepsTo : ∀ t, pl.run = .next t → StepsTo s t

theorem Leads.of_quiet {s t : State} {pl : Plan} (h : Quiet s t) (g : Leads t pl) : Leads s pl :=
  ⟨fun u hu => (g.stepsTo u hu).of_quiet h⟩

theorem Leads.stop (s : State) (f : Fault) : Leads s (.stop f) := ⟨fun _ h => nomatch h⟩

theorem Leads.done {s t : State} (h : StepsTo s t) : Leads s (.done t) := by
  refine ⟨fun u hu => ?_⟩
  cases hu
  exact h

theorem Leads.goesOn {s t : State} (h : Quiet s t) : Leads s (.done t) := .done (.goesOn t h)

theorem Leads.ends {s t : State} {e : ErrCode} {a : Aggregate} (h : Quiet s t) : Leads s (.done (finish e a t)) :=
  .done (.ends t e a h)

theorem Leads.raised (s : State) (e : ErrCode) : Leads s (.done (raise e s)) := .ends (.refl s)

theorem Leads.pulse {s u : State} {p : Nat} {x : Reg} {tm : Timing} {mg : BitVec 16} {k : PulseStatus → State → State}
    (h : Quiet s u) (hk : ∀ st v, Quiet v (k st v)) : Leads s (.pulse p x tm mg u k) := by
  refine ⟨fun t ht => ?_⟩
  obtain ⟨-, ht⟩ := needUnlocked_next ht
  split at ht <;> cases ht
  exact .goesOn _ ((h.trans (quiet_macroPulse ..)).trans (hk _ _))

theorem Leads.pulseSlot {s u : State} {r : Region} {c sl : Nat} {b : Bool} {tm : Timing} {mg : BitVec 16}
    {k : PulseStatus → State → State} (h : Quiet s u) (hk : ∀ st v, Quiet v (k st v)) :
    Leads s (.pulseSlot r c sl b tm mg u k) := by
  refine ⟨fun t ht => ?_⟩
  obtain ⟨-, ht⟩ := needUnlocked_next ht
  cases ht
  exact .goesOn _ ((h.trans (quiet_macroPulseSlot ..)).trans (hk _ _))

theorem Leads.protect {s : State} {r : Region} {k : Bool → State → State} (hk : ∀ ok v, Quiet v (k ok v)) :
    Leads s (.protect r s k) := by
  refine ⟨fun t ht => ?_⟩
  obtain ⟨-, ht⟩ := needUnlocked_next ht
  cases ht
  exact .goesOn _ ((quiet_macroProtect ..).trans (hk _ _))

theorem Leads.lockAll {s : State} {k : Bool → State → State} (hk : ∀ ok v, Quiet v (k ok v)) :
    Leads s (.lockAll s k) := by
  refine ⟨fun t ht => ?_⟩
  obtain ⟨-, ht⟩ := needUnlocked_next ht
  cases ht
  exact .goesOn _ ((quiet_macroLockAll ..).trans (hk _ _))

/-! ### The engine -/

theorem leads_readUnit (v : Reg) (r : Region) (o : Nat) (s : State) {k : Reg → State → State}
    (hk : ∀ x u, Quiet u (k x u)) : Leads s (readUnit v r o s k) := by
  simp only [readUnit]
  split
  · exact .goesOn ((quiet_macroReadCell ..).trans (hk _ _))
  · split
    · exact .goesOn ((quiet_macroRead ..).trans (hk _ _))
    · exact .stop ..

theorem leads_readBack (e : EngState) (at_ : Reg → Phase) (s : State) : Leads s (readBack e at_ s) := by
  unfold readBack
  exact .of_quiet (kept_setEng s e).quiet (leads_readUnit _ _ _ _ fun _ u => quiet_atPhase u _)

theorem leads_normalPulse (s : State) : Leads s (normalPulse s) := by
  have he := (kept_setEng s .normalProgram).quiet
  simp only [normalPulse]
  split
  · split
    · exact .pulseSlot (he.trans (kept_eng _ _).quiet) fun _ u => quiet_atPhase u _
    · exact .of_quiet he (leads_readBack ..)
  · exact .pulse he fun _ u => quiet_atPhase u _

theorem leads_soakPulse {w s : State} {ex : Plan} (hs : Quiet w s) (h : Leads w ex) : Leads w (soakPulse ex s) := by
  have he := hs.trans (kept_setEng s .soakProgram).quiet
  simp only [soakPulse]
  split
  · split
    · split
      · exact .pulseSlot (he.trans (kept_eng _ _).quiet) fun _ u =>
          (quiet_recordAttempt u _ _ _).trans (quiet_atPhase _ _)
      · exact h
    · exact .pulse he fun _ u => quiet_atPhase u _
  · exact h

theorem leads_closeWith {next : State → Plan} (hn : ∀ t, Leads t (next t)) (c : OutcomeCode) (s : State) :
    Leads s (closeWith next c s) := by
  have he (g : Eng) : Quiet s { endUnit c s with eng := g } := ((kept_endUnit c s).trans (kept_eng _ g)).quiet
  simp only [closeWith]
  split
  · exact .of_quiet (he _) (hn _)
  · split
    · exact .ends (he _)
    · exact .of_quiet (he _) (hn _)

theorem leads_startUnit {close : OutcomeCode → State → Plan} (hc : ∀ c t, Leads t (close c t)) (s : State) :
    Leads s (startUnit close s) := by
  simp only [startUnit]
  split
  · split
    · exact leads_soakPulse (.refl s) (hc _ _)
    · exact hc _ _
  · exact leads_normalPulse s

theorem leads_runUnits (rem : Nat) (s : State) : Leads s (runUnits rem s) := by
  induction rem generalizing s with
  | zero => exact .ends (.refl s)
  | succ n ih => exact .of_quiet (kept_openUnit _ _).quiet (leads_startUnit (fun c t => leads_closeWith ih c t) _)

theorem leads_closeUnit (c : OutcomeCode) (s : State) : Leads s (closeUnit c s) :=
  leads_closeWith (leads_runUnits _) c s

theorem leads_afterPulse (st : PulseStatus) (e : EngState) (at_ : Reg → Phase) (s : State) :
    Leads s (afterPulse st e at_ s) := by
  unfold afterPulse
  split
  · exact leads_readBack ..
  · exact .ends (kept_endUnit ..).quiet

theorem leads_afterVerify (rb : Reg) (s : State) : Leads s (afterVerify rb s) := by
  unfold afterVerify
  split
  · exact leads_closeUnit ..
  · split
    · exact .of_quiet (kept_setEng s _).quiet (leads_soakPulse (.refl _) (leads_closeUnit ..))
    · exact leads_closeUnit ..

theorem leads_afterReverify (rb : Reg) (s : State) : Leads s (afterReverify rb s) := by
  unfold afterReverify
  split
  · exact leads_closeUnit ..
  · exact leads_soakPulse (kept_setEng s .retrySoak).quiet (leads_closeUnit ..)

theorem leads_engineResume (s : State) : Leads s (engineResume s) := by
  unfold engineResume
  split
  · exact .of_quiet (kept_noteNormalPulse s).quiet (leads_afterPulse ..)
  · exact leads_afterVerify ..
  · exact .of_quiet (kept_noteSoakPulse s).quiet (leads_afterPulse ..)
  · exact leads_afterReverify ..
  · exact .stop ..

theorem leads_programCommand (i : Instr) (n : Nat) (c : SoakConfig) (s : State) :
    Leads s (programCommand i n c s) := by
  unfold programCommand
  split
  · rw [programOp_eq]
    exact .of_quiet (kept_loopStart i n c s).quiet (leads_runUnits _ _)
  · exact .raised ..

/-! ### Reads and queries -/

theorem leads_readIntoBuf (r : Region) (v : Reg) (i : Nat) (s : State) : Leads s (readIntoBuf r v i s) :=
  leads_readUnit _ _ _ _ fun x u => (quiet_setBuf u i x).trans (quiet_atPhase _ _)

theorem leads_readRegionUnit (r : Region) (i : Nat) (v : Reg) (s : State) : Leads s (readRegionUnit r i v s) := by
  unfold readRegionUnit
  split
  · exact .of_quiet (kept_setWordIndex i s).quiet (leads_readIntoBuf ..)
  · exact .ends (.refl s)

theorem leads_readResolved (r : Region) (v : Reg) {transfer : Reg → State → Plan} (s : State)
    (h : Leads s (transfer v s)) : Leads s (readResolved r v transfer s) := by
  unfold readResolved
  split
  · exact h
  · exact .ends (.refl s)

theorem leads_readChecks (r : Region) {transfer : Reg → State → Plan} (s : State) (h : ∀ v, Leads s (transfer v s)) :
    Leads s (readChecks r transfer s) := by
  unfold readChecks
  split
  · exact leads_readResolved _ _ _ (h _)
  · split
    · exact .goesOn ((quiet_countMacro s).trans (quiet_atPhase _ _))
    · exact .raised ..

theorem leads_readChecksId (v : Reg) (s : State) : Leads s (readChecksId v s) := by
  unfold readChecksId
  split
  · exact .goesOn ((quiet_countMacro s).trans (quiet_atPhase _ _))
  · exact .ends (.refl s)

theorem leads_readChecksProt (r : Region) (v : Reg) (pp : BitVec 4) {transfer : Reg → State → Plan} (s : State)
    (h : Leads s (transfer v s)) : Leads s (readChecksProt r v pp transfer s) := by
  unfold readChecksProt
  split
  · exact .ends (.refl s)
  · exact leads_readResolved _ _ _ h

theorem leads_trackerQuery {r : Region} {s : State} {q : Nat → Plan} (h : ∀ c, Leads s (q c)) :
    Leads s (trackerQuery r s q) := by
  unfold trackerQuery
  split
  · split
    · exact h _
    · exact .raised ..
  · exact .stop ..

/-! ### Every command -/

/-- The commands that may change the session (R29, R133). -/
def isSessionCommand : Instr → Bool
  | .beginSession | .endSession => true
  | _ => false

/-- A step of a command that is no session command goes on or ends. -/
theorem leads_planOf {i : Instr} (hi : isSessionCommand i = false) (s : State) : Leads s (planOf i s) := by
  cases i with
  | beginSession => cases hi
  | endSession => cases hi
  | read r =>
    simp only [planOf, planRead]
    split
    · exact .of_quiet (kept_latchCommand ..).quiet (leads_readChecks _ _ fun _ => leads_readIntoBuf ..)
    · exact leads_readChecksId ..
    · exact leads_readChecksProt _ _ _ _ (leads_readIntoBuf ..)
    · exact .ends (.refl s)
    · exact .stop ..
  | readRegion r =>
    simp only [planOf, planReadRegion]
    split
    · split
      · exact .raised ..
      · exact .of_quiet (kept_latchCommand ..).quiet (leads_readChecks _ _ fun _ => leads_readRegionUnit ..)
    · exact leads_readChecksId ..
    · exact leads_readChecksProt _ _ _ _ (leads_readRegionUnit ..)
    · exact leads_readRegionUnit ..
    · exact .stop ..
  | write r =>
    simp only [planOf, planWrite]
    split
    · exact leads_programCommand ..
    · exact leads_engineResume s
  | writeRegion r p =>
    simp only [planOf, planWriteRegion]
    split
    · split
      · exact .raised ..
      · exact leads_programCommand ..
    · exact leads_engineResume s
  | soakProgram r =>
    simp only [planOf, planSoakProgram]
    split
    · exact leads_programCommand ..
    · exact leads_engineResume s
  | programWithSoakFallback r =>
    simp only [planOf, planProgramWithSoakFallback]
    split
    · exact leads_programCommand ..
    · exact leads_engineResume s
  | lock =>
    simp only [planOf, planLock]
    split
    · split
      · exact .raised ..
      · split
        · exact .ends (.refl s)
        · exact .lockAll fun _ u => quiet_atPhase u _
    · split
      · exact .ends (quiet_snapLock s)
      · exact .ends (.refl s)
    · exact .stop ..
  | isLocked =>
    simp only [planOf, planIsLocked]
    split
    · split
      · exact .raised ..
      · exact .ends (quiet_setQresult s _)
    · exact .stop ..
  | enableRegionProtection r =>
    simp only [planOf, planEnableRegionProtection]
    split
    · split
      · exact .raised ..
      · split
        · exact .raised ..
        · split
          · exact .raised ..
          · split
            · exact .ends (.refl s)
            · exact .protect fun _ u => quiet_atPhase u _
    · split
      · exact .ends (quiet_snapProtect s r)
      · exact .ends (.refl s)
    · exact .stop ..
  | isRegionProtected r =>
    simp only [planOf, planIsRegionProtected]
    split
    · split
      · exact .raised ..
      · exact .ends (quiet_setQresult s _)
    · exact .stop ..
  | selectNextWritable r => exact leads_trackerQuery fun _ => .ends (quiet_setQresult s _)
  | isWritable r => exact leads_trackerQuery fun _ => .ends (quiet_setQresult s _)
  | readSlot r =>
    simp only [planOf, planReadSlot]
    refine leads_trackerQuery fun c => ?_
    split
    · exact .raised ..
    · exact .ends ((quiet_slotBit ..).trans (quiet_setQresult _ _))

/-- A step of BEGIN_SESSION goes on, ends, or opens the session (R130). -/
theorem begin_cases {s t : State} (h : exec .beginSession s = .next t) :
    StepsTo s t ∨ ∃ vid pp pl, t = openSession vid pp pl s := by
  rw [exec_eq_planOf] at h
  cases hp : s.phase <;> simp only [planOf, planBeginSession, hp] at h
  case start =>
    refine .inl ?_
    split at h
    · exact (Leads.raised s _).stepsTo _ h
    · exact (Leads.goesOn ((quiet_macroUnlock _ s).trans (quiet_atPhase _ _))).stepsTo _ h
  case beginUnlocked => exact .inl ((Leads.goesOn ((quiet_countMacro s).trans (quiet_atPhase _ _))).stepsTo _ h)
  case beginIdRead vid =>
    refine .inl ?_
    split at h
    · exact (Leads.goesOn ((quiet_countMacro s).trans (quiet_atPhase _ _))).stepsTo _ h
    · exact (Leads.goesOn ((quiet_macroRelock s).trans (quiet_atPhase _ _))).stepsTo _ h
  case beginRelocked => exact .inl ((Leads.ends (.refl s)).stepsTo _ h)
  case beginProtRead vid pp pl => exact .inr ⟨vid, pp, pl, by cases h; rfl⟩
  all_goals cases h

/-- A step of END_SESSION goes on, or closes the session (R131). -/
theorem end_cases {s t : State} (h : exec .endSession s = .next t) : StepsTo s t ∨ t = closeSession s := by
  rw [exec_eq_planOf] at h
  cases hp : s.phase <;> simp only [planOf, planEndSession, hp] at h
  case start => exact .inl ((Leads.goesOn ((quiet_macroRelock s).trans (quiet_atPhase _ _))).stepsTo _ h)
  case endRelocked => exact .inr (by cases h; rfl)
  all_goals cases h

/-- Say once what a step of a command comes to: it goes on, it ends, or it is the last step of a session command. -/
theorem exec_cases {i : Instr} {s t : State} (h : exec i s = .next t) :
    StepsTo s t ∨ (i = .beginSession ∧ ∃ vid pp pl, t = openSession vid pp pl s) ∨
      (i = .endSession ∧ t = closeSession s) := by
  cases hi : isSessionCommand i with
  | false => exact .inl ((leads_planOf hi s).stepsTo t (by rw [← exec_eq_planOf, h]))
  | true =>
    cases i with
    | beginSession => exact (begin_cases h).imp_right fun g => .inl ⟨rfl, g⟩
    | endSession => exact (end_cases h).imp_right fun g => .inr ⟨rfl, g⟩
    | _ => cases hi

/-- Settles O22: a step that goes on or ends keeps the session, so a change is a session command's last step. -/
theorem onlySessionCommandsChangeTheSession : Obligations.OnlySessionCommandsChangeTheSession := by
  intro i s t h hne
  rcases exec_cases h with h | ⟨rfl, vid, pp, pl, rfl⟩ | ⟨rfl, rfl⟩
  · exact absurd h.session hne
  · exact .inl ⟨rfl, rfl⟩
  · exact .inr ⟨rfl, rfl⟩

/-- Settles O54: a step that goes on keeps ERR and RESULT, and every other step is a `finish`. -/
theorem errorsAreReportedOnlyAtTheEnd : Obligations.ErrorsAreReportedOnlyAtTheEnd := by
  intro i s t h
  rcases exec_cases h with hs | ⟨rfl, vid, pp, pl, rfl⟩ | ⟨rfl, rfl⟩
  · cases hs with
    | goesOn _ q => exact ⟨q.overrun, q.cmdLatch, q.addr, q.len, q.cfg, .inr ⟨q.busy, q.err, q.result⟩⟩
    | ends _ _ _ q => exact ⟨q.overrun, q.cmdLatch, q.addr, q.len, q.cfg, .inl ⟨rfl, rfl⟩⟩
  · exact ⟨rfl, rfl, rfl, rfl, rfl, .inl ⟨rfl, rfl⟩⟩
  · exact ⟨rfl, rfl, rfl, rfl, rfl, .inl ⟨rfl, rfl⟩⟩

end Sys2Proof.Machine
end

section
/-! The first steps of the engine commands (44_program_engine.md R183 to R195): the first pulse, and what a pulse that reported
TIMEOUT or FAULT does to the command. -/

namespace Sys2Proof.Machine

/-! ### The first unit -/

/-- The state in which a ready engine command starts its first unit: ENG is latched, and the unit is opened (R191). -/
def firstUnit (i : Instr) (s : State) : State :=
  { s with eng := engAt i s, wordIndex := 0, status := { s.status with engState := .init } }

theorem targetOf_word (c : Config) {info : RegionInfo} (hl : info.attemptLimited = false) (x : Reg) :
    targetOf c info x = x &&& wordMask c := by simp only [targetOf, hl, Bool.false_eq_true, if_false]

theorem targetOf_cell (c : Config) {info : RegionInfo} (hl : info.attemptLimited = true) (x : Reg) :
    targetOf c info x = x &&& 1 := by simp only [targetOf, hl, if_true]

/-- The word of the first unit lies in the array. -/
theorem firstUnit_inside {i : Instr} {s : State} (h : ReadyToProgram s i)
    (hl : (s.info (regionField i)).attemptLimited = false) :
    (s.info (regionField i)).base + s.addr.toNat < s.cfg.arrayWords :=
  unit_inside (s := firstUnit i s) h.legal hl h.inside

/-- A ready engine command of kind STD begins with its first unit's normal pulse. -/
theorem exec_first_normal {i : Instr} {s : State} (hi : startsNormal i = true) (h : ReadyToProgram s i)
    (hn : 1 ≤ unitCount i s) : exec i s = (normalPulse (firstUnit i s)).run := by
  rw [program_first (startsNormal_isProgram hi) h hn]
  exact congrArg Plan.run (startUnit_normal (s := firstUnit i s) _ hi rfl)

/-- A ready SOAK_PROGRAM begins with its first unit's soak pulse where soak is available. -/
theorem exec_first_soak {r : Region} {s : State} (h : ReadyToProgram s (.soakProgram r))
    (ha : soakAvailable s.cfg s.variant r s.addr.toNat = true) :
    ∃ ex, exec (.soakProgram r) s = (soakPulse ex (firstUnit (.soakProgram r) s)).run :=
  ⟨_, (program_first rfl h (Nat.le_refl 1)).trans (congrArg Plan.run
    ((startUnit_soak (s := firstUnit (.soakProgram r) s) _ rfl).trans (if_pos ha)))⟩

/-- The state after a first normal pulse, with the device in `d` and the pulsed slot `sl` (R43, R187, R188). -/
def normalBegun (i : Instr) (s : State) (d : Otp) (sl : Nat) : State :=
  { s with
    otp := d
    cnt := { s.cnt with normal := s.cnt.normal + 1, macros := s.cnt.macros + 1 }
    status := { s.status with engState := .normalProgram }
    wordIndex := 0
    eng := { engAt i s with slot := sl }
    phase := .normalPulsed s.answer.status
    env := s.drew.env }

/-- The state after a first soak pulse, with the device in `d` and the pulsed slot `sl` (R43, R195). -/
def soakBegun (i : Instr) (s : State) (d : Otp) (sl : Nat) : State :=
  { s with
    otp := d
    cnt := { s.cnt with soak := s.cnt.soak + 1, macros := s.cnt.macros + 1 }
    status := { s.status with engState := .soakProgram }
    wordIndex := 0
    eng := { engAt i s with slot := sl }
    phase := .soakPulsed s.answer.status
    env := s.drew.env }

/-! ### Words -/

/-- The device after a pulse on word `p` that requests `d` (R63). -/
def wordPulsed (s : State) (p : Nat) (d : Reg) : Otp :=
  { s.otp with mem := Memory.orWord s.otp.mem p (d &&& s.answer.bits) }

/-- What a device after a pulse on word `p` differs in (R63). -/
theorem wordPulsed_frame {s t : State} {p : Nat} {d : Reg} (h : t.otp = wordPulsed s p d) :
    t.otp = { s.otp with mem := t.otp.mem } ∧ t.word p = s.word p ||| (d &&& s.answer.bits) ∧
      ∀ a, a / 8 ≠ p → t.otp.mem.read a = s.otp.mem.read a := by
  refine ⟨by rw [h]; rfl, ?_, fun a ha => ?_⟩
  · rw [State.word, h]
    exact State.word_orWord_self s p _
  · rw [h]
    exact (Memory.read_orWord s.otp.mem p _ a).trans (if_neg ha)

/-- The first step on a word: the normal pulse at `base + offset`. -/
theorem exec_first_normal_word {i : Instr} {s : State} (hi : startsNormal i = true) (h : ReadyToProgram s i)
    (hn : 1 ≤ unitCount i s) (hl : (s.info (regionField i)).attemptLimited = false) :
    exec i s = .next (normalBegun i s (wordPulsed s ((s.info (regionField i)).base + s.addr.toNat)
      (bufAt s 0 &&& wordMask s.cfg)) s.eng.slot) := by
  have htarget : unitTarget (firstUnit i s) = bufAt s 0 &&& wordMask s.cfg := targetOf_word s.cfg hl _
  rw [exec_first_normal hi h hn,
    normalPulse_word (s := firstUnit i s) (p := (s.info (regionField i)).base + s.addr.toNat) hl rfl
      (firstUnit_inside h hl) h.unlocked, htarget]
  rcases s with ⟨⟩
  rfl

/-- The first step of SOAK_PROGRAM on a word: the soak pulse at `base + offset`. -/
theorem exec_first_soak_word {r : Region} {s : State} (h : ReadyToProgram s (.soakProgram r))
    (ha : soakAvailable s.cfg s.variant r s.addr.toNat = true) (hk : 0 < s.soak.retries.toNat)
    (hl : (s.info r).attemptLimited = false) :
    exec (.soakProgram r) s = .next (soakBegun (.soakProgram r) s (wordPulsed s ((s.info r).base + s.addr.toNat)
      (bufAt s 0 &&& wordMask s.cfg)) s.eng.slot) := by
  have htarget : unitTarget (firstUnit (.soakProgram r) s) = bufAt s 0 &&& wordMask s.cfg := targetOf_word s.cfg hl _
  obtain ⟨ex, hex⟩ := exec_first_soak h ha
  rw [hex, soakPulse_word (s := firstUnit (.soakProgram r) s) (p := (s.info r).base + s.addr.toNat) hk hl rfl
    (firstUnit_inside h hl) h.unlocked, htarget]
  rcases s with ⟨⟩
  rfl

/-- Settles O41: the first unit's normal pulse, on the word at `base + offset`. -/
theorem normalPulseOnAWord : Obligations.NormalPulseOnAWord := by
  intro i s hi h hn hl p
  obtain ⟨-, hword, hframe⟩ := wordPulsed_frame (s := s) (t := normalBegun i s
    (wordPulsed s p (bufAt s 0 &&& wordMask s.cfg)) s.eng.slot) rfl
  exact ⟨_, exec_first_normal_word hi h hn hl, hword, hframe, rfl⟩

/-! ### Slots -/

/-- The selected slot exists, and has an attempt left and is writable (R161). -/
theorem select_some {s : State} {r : Region} {c sl : Nat} (h : s.select r c = some sl) :
    sl < (s.row r c).length ∧ 0 < (s.slotAt r c sl).remaining ∧ (s.slotAt r c sl).writable = true := by
  obtain ⟨hlt, hsel, -⟩ := List.findIdx?_eq_some_iff_getElem.mp h
  simp only [Slot.selectable, Bool.and_eq_true, decide_eq_true_eq] at hsel
  rw [State.slotAt, List.getD_eq_getElem _ _ hlt]
  exact ⟨hlt, hsel⟩

/-- SLOT after an update of an existing slot. -/
theorem slotAt_modifySlot_of_lt {s : State} {r : Region} {c sl : Nat} (h : sl < (s.row r c).length) (f : Slot → Slot)
    (r' : Region) (c' sl' : Nat) : (s.modifySlot r c sl f).slotAt r' c' sl' =
      if r' = r ∧ c' = c ∧ sl' = sl then f (s.slotAt r c sl) else s.slotAt r' c' sl' := by
  rw [State.slotAt_modifySlot]
  simp only [h, and_true, and_assoc]

theorem row_length_modifySlot (s : State) (r : Region) (c sl : Nat) (f : Slot → Slot) (r' : Region) (c' : Nat) :
    ((s.modifySlot r c sl f).row r' c').length = (s.row r' c').length := by
  rw [State.row_modifySlot]
  split
  · rename_i h
    obtain ⟨rfl, rfl⟩ := h
    exact List.length_set
  · rfl

/-- Some slot of the row has the property exactly when some slot index below its length has. -/
theorem row_any_iff (s : State) (r : Region) (c : Nat) (f : Slot → Bool) :
    (s.row r c).any f = true ↔ ∃ sl < (s.row r c).length, f (s.slotAt r c sl) = true := by
  rw [List.any_eq_true]
  constructor
  · rintro ⟨x, hx, hf⟩
    obtain ⟨sl, hlt, rfl⟩ := List.getElem_of_mem hx
    exact ⟨sl, hlt, by rwa [State.slotAt, List.getD_eq_getElem _ _ hlt]⟩
  · rintro ⟨sl, hlt, hf⟩
    rw [State.slotAt, List.getD_eq_getElem _ _ hlt] at hf
    exact ⟨_, List.getElem_mem hlt, hf⟩

theorem getLsbD_and_one (x : Reg) : (x &&& 1).getLsbD 0 = x.getLsbD 0 := by simp

/-- The match of a cell's read-back with its target (R181). -/
theorem monotonicMatch_cell (b : Bool) (x : Reg) :
    monotonicMatch (if b then 1 else 0) (x &&& 1) = (b || !x.getLsbD 0) := by
  have hx : x &&& 1 = if x.getLsbD 0 then 1 else 0 := by
    rw [show (1 : Reg) = 1#64 from rfl, BitVec.and_one_eq_setWidth_ofBool_getLsbD]
    cases x.getLsbD 0 <;> rfl
  rw [hx]
  cases b <;> cases x.getLsbD 0 <;> rfl

/-- A read of a cell changes CNT_MACRO and, if it draws, the draws. -/
theorem macroReadCell_snd (r : Region) (c : Nat) (s : State) :
    (macroReadCell r c s).2 = { s.countMacro with env := (macroReadCell r c s).2.env } := by
  unfold macroReadCell
  dsimp only
  split <;> rfl

/-- The first step on a cell with a selectable slot: the normal pulse on the first one. -/
theorem exec_first_normal_cell {i : Instr} {s : State} {sl : Nat} (hi : startsNormal i = true)
    (h : ReadyToProgram s i) (hn : 1 ≤ unitCount i s) (hl : (s.info (regionField i)).attemptLimited = true)
    (hsel : s.select (regionField i) s.addr.toNat = some sl) :
    exec i s = .next (normalBegun i s (s.modifySlot (regionField i) s.addr.toNat sl (Slot.commit
      ((bufAt s 0).getLsbD 0 && !s.cellSet (regionField i) s.addr.toNat && s.answer.took))).otp sl) := by
  rw [exec_first_normal hi h hn, normalPulse_cell (s := firstUnit i s) hl hsel h.unlocked,
    normalRequest_cell (s := firstUnit i s) hl]
  rcases s with ⟨⟩
  rfl

/-- The first step on a cell with no selectable slot: the read-back. -/
theorem exec_first_normal_none {i : Instr} {s : State} (hi : startsNormal i = true) (h : ReadyToProgram s i)
    (hn : 1 ≤ unitCount i s) (hl : (s.info (regionField i)).attemptLimited = true)
    (hsel : s.select (regionField i) s.addr.toNat = none) :
    let u := (firstUnit i s).setEng .verify
    exec i s = .next ((macroReadCell (regionField i) s.addr.toNat u).2.atPhase
      (.verifyRead (macroReadCell (regionField i) s.addr.toNat u).1)) := by
  rw [exec_first_normal hi h hn, normalPulse_none (s := firstUnit i s) hl hsel,
    readBack_cell (s := (firstUnit i s).setEng .normalProgram) hl]
  rfl

/-- Settles O42: the first unit's normal pulse, on the selected slot; with none, the read-back. -/
theorem normalPulseOnACell : Obligations.NormalPulseOnACell := by
  intro i s hi h hn hl r c
  constructor
  · intro sl hsel
    exact ⟨_, exec_first_normal_cell hi h hn hl hsel, slotAt_modifySlot_of_lt (select_some hsel).1 _, rfl⟩
  · intro hsel
    refine ⟨_, (macroReadCell r c ((firstUnit i s).setEng .verify)).1, exec_first_normal_none hi h hn hl hsel,
      fun hclean => ?_, ?_⟩
    · rw [macroReadCell_clean (s := (firstUnit i s).setEng .verify) hclean]
      exact ⟨rfl, rfl⟩
    · rw [macroReadCell_snd]
      rfl

/-! ### OUTCOME after a pulse and at the end of a unit -/

/-- OUTCOME after an update at index `i`. -/
theorem outcomeAt_modifyOutcome_self (s : State) (i j : Nat) (f : OutcomeReg → OutcomeReg) :
    (s.modifyOutcome i f).outcomeAt j = if j = i then f (s.outcomeAt j) else s.outcomeAt j := by
  rw [State.outcomeAt_modifyOutcome]
  split
  · rename_i h
    rw [h]
  · rfl

theorem outcomeAt_noteNormalPulse (s : State) (j : Nat) : (noteNormalPulse s).outcomeAt j =
    if j = unitIndex s then { s.outcomeAt j with normalPulse := true } else s.outcomeAt j :=
  outcomeAt_modifyOutcome_self s _ j (fun o => { o with normalPulse := true })

theorem outcomeAt_noteSoakPulse (s : State) (j : Nat) : (noteSoakPulse s).outcomeAt j =
    if j = unitIndex s then { s.outcomeAt j with soakPulses := soakPulseBits (s.eng.k + 1) } else s.outcomeAt j :=
  outcomeAt_modifyOutcome_self s _ j (fun o => { o with soakPulses := soakPulseBits (s.eng.k + 1) })

theorem outcomeAt_endUnit (code : OutcomeCode) (s : State) (j : Nat) : (endUnit code s).outcomeAt j =
    if j = unitIndex s then { s.outcomeAt j with code := code } else s.outcomeAt j :=
  outcomeAt_modifyOutcome_self s _ j (fun o => { o with code := code })

/-- OUTCOME of a unit that ends right after its normal pulse. -/
theorem outcomeAt_endUnit_noteNormalPulse (code : OutcomeCode) (s : State) (j : Nat) :
    (endUnit code (noteNormalPulse s)).outcomeAt j =
      if j = unitIndex s then { s.outcomeAt j with code := code, normalPulse := true } else s.outcomeAt j := by
  have hu : unitIndex (noteNormalPulse s) = unitIndex s := rfl
  rw [outcomeAt_endUnit, outcomeAt_noteNormalPulse, hu]
  split <;> rfl

/-- OUTCOME of a unit that ends right after a soak pulse. -/
theorem outcomeAt_endUnit_noteSoakPulse (code : OutcomeCode) (s : State) (j : Nat) :
    (endUnit code (noteSoakPulse s)).outcomeAt j =
      if j = unitIndex s then { s.outcomeAt j with code := code, soakPulses := soakPulseBits (s.eng.k + 1) }
      else s.outcomeAt j := by
  have hu : unitIndex (noteSoakPulse s) = unitIndex s := rfl
  rw [outcomeAt_endUnit, outcomeAt_noteSoakPulse, hu]
  split <;> rfl

/-! ### A pulse that reported TIMEOUT or FAULT -/

/-- The end of a command that aborts (R187, R193). -/
theorem abortUnit_eq (code : OutcomeCode) (s : State) : abortUnit code s = { s with
    status := { s.status with
      err := unitError code, result := aggregate s.eng.nsucc s.eng.count, busy := false
      engState := if unitSucceeded code then .success else .failure }
    outcome := (abortUnit code s).outcome, phase := .start } := by
  rcases s with ⟨⟩
  rfl

/-- Settles O50: the next step records the pulse, ends the unit and finishes the command. -/
theorem badPulseStatusAborts : Obligations.BadPulseStatusAborts := by
  intro i s st hi hst u code status
  have hcode : abortCode st = code := by cases st <;> rfl
  have herr : unitError code = status.err := by cases st <;> rfl
  have hfail : unitSucceeded code = false := by cases st <;> rfl
  constructor
  · intro hp
    refine ⟨abortUnit code (noteNormalPulse s), ?_, outcomeAt_endUnit_noteNormalPulse code s, ?_⟩
    · rw [after_normal hi hp, afterPulse_bad hst, hcode, run_done]
    · rw [abortUnit_eq, herr, hfail]
      rfl
  · intro hp
    refine ⟨abortUnit code (noteSoakPulse s), ?_, outcomeAt_endUnit_noteSoakPulse code s, ?_⟩
    · rw [after_soak hi hp, afterPulse_bad hst, hcode, run_done]
    · rw [abortUnit_eq, herr, hfail]
      rfl

/-! ### A soak pulse on a slot -/

/-- The state after a soak pulse on a slot that sets its bit where `b`, and consumes an attempt (R63, R160). -/
def slotPulsed (s : State) (r : Region) (c sl : Nat) (b : Bool) : State :=
  (s.modifySlot r c sl (Slot.commit b)).recordAttempt r c sl

/-- The pulsed slot, if it was selectable (R160, R161). -/
theorem attempted_commit {x : Slot} (hr : 0 < x.remaining) (hw : x.writable = true) (b : Bool) :
    (x.commit b).attempted =
      { x with remaining := x.remaining - 1, writable := decide (x.remaining ≠ 1), committed := x.committed || b } := by
  have hlast : decide (x.remaining - 1 ≠ 0) = decide (x.remaining ≠ 1) := decide_eq_decide.mpr (by omega)
  simp only [Slot.commit, Slot.attempted, hw, Bool.true_and, hlast]

theorem slotAt_slotPulsed {s : State} {r : Region} {c sl : Nat} (h : sl < (s.row r c).length) (b : Bool)
    (r' : Region) (c' sl' : Nat) : (slotPulsed s r c sl b).slotAt r' c' sl' =
      if r' = r ∧ c' = c ∧ sl' = sl then ((s.slotAt r c sl).commit b).attempted else s.slotAt r' c' sl' := by
  have hlt : sl < ((s.modifySlot r c sl (Slot.commit b)).row r c).length := by rwa [row_length_modifySlot]
  unfold slotPulsed State.recordAttempt
  rw [slotAt_modifySlot_of_lt hlt, slotAt_modifySlot_of_lt h, slotAt_modifySlot_of_lt h]
  split <;> simp

theorem row_length_slotPulsed (s : State) (r : Region) (c sl : Nat) (b : Bool) (r' : Region) (c' : Nat) :
    ((slotPulsed s r c sl b).row r' c').length = (s.row r' c').length := by
  unfold slotPulsed State.recordAttempt
  rw [row_length_modifySlot, row_length_modifySlot]

/-- A pulse poisons no slot (R63). -/
theorem rowPoisoned_slotPulsed {s : State} {r : Region} {c sl : Nat} (h : sl < (s.row r c).length) (b : Bool) :
    (slotPulsed s r c sl b).rowPoisoned r c = s.rowPoisoned r c := by
  have hslot (j : Nat) : ((slotPulsed s r c sl b).slotAt r c j).poisoned = (s.slotAt r c j).poisoned := by
    rw [slotAt_slotPulsed h]
    split
    · rename_i hj
      obtain ⟨-, -, rfl⟩ := hj
      rfl
    · rfl
  rw [Bool.eq_iff_iff, State.rowPoisoned, State.rowPoisoned, row_any_iff, row_any_iff]
  simp only [row_length_slotPulsed, hslot]

/-- A cell that was set, or whose pulsed slot took the bit, is set after the pulse (R28, R63). -/
theorem cellValue_slotPulsed {s : State} {r : Region} {c sl : Nat} (h : sl < (s.row r c).length) {b : Bool}
    (hb : s.cellValue r c = true ∨ b = true) : (slotPulsed s r c sl b).cellValue r c = true := by
  have hslot (j : Nat) (hj : (s.slotAt r c j).committed = true ∨ j = sl ∧ b = true) :
      ((slotPulsed s r c sl b).slotAt r c j).committed = true := by
    rw [slotAt_slotPulsed h]
    split
    · rename_i he
      obtain ⟨-, -, rfl⟩ := he
      exact (Bool.or_eq_true _ _).mpr (hj.imp_right And.right)
    · rename_i he
      exact hj.resolve_right fun hjsl => he ⟨rfl, rfl, hjsl.1⟩
  rw [State.cellValue, row_any_iff, row_length_slotPulsed]
  rcases hb with hb | hb
  · rw [State.cellValue, row_any_iff] at hb
    obtain ⟨j, hlt, hj⟩ := hb
    exact ⟨j, hlt, hslot j (.inl hj)⟩
  · exact ⟨sl, h, hslot sl (.inr ⟨rfl, hb⟩)⟩

/-- What a device after a soak pulse on a selected slot differs in (R63, R160). -/
theorem slotPulsed_frame {s t : State} {r : Region} {c sl : Nat} {b : Bool} (hsel : s.select r c = some sl)
    (h : t.otp = (slotPulsed s r c sl b).otp) (hc : t.cfg = s.cfg) :
    t.otp = { s.otp with slots := t.otp.slots } ∧ ∀ r' c' sl', t.slotAt r' c' sl' =
      if r' = r ∧ c' = c ∧ sl' = sl then
        { s.slotAt r c sl with
          remaining := (s.slotAt r c sl).remaining - 1
          writable := decide ((s.slotAt r c sl).remaining ≠ 1)
          committed := (s.slotAt r c sl).committed || b }
      else s.slotAt r' c' sl' := by
  obtain ⟨hlt, hr, hw⟩ := select_some hsel
  refine ⟨by rw [h]; rfl, fun r' c' sl' => ?_⟩
  rw [slotAt_congr (s := slotPulsed s r c sl b) (by rw [h]) hc, slotAt_slotPulsed hlt, attempted_commit hr hw]

/-! ### SOAK_PROGRAM's success path -/

/-- The first step of SOAK_PROGRAM on a cell: the soak pulse on the first selectable slot, which consumes an attempt. -/
theorem exec_first_soak_cell {r : Region} {s : State} {sl : Nat} (h : ReadyToProgram s (.soakProgram r))
    (ha : soakAvailable s.cfg s.variant r s.addr.toNat = true) (hk : 0 < s.soak.retries.toNat)
    (hl : (s.info r).attemptLimited = true) (hsel : s.select r s.addr.toNat = some sl) :
    exec (.soakProgram r) s = .next (soakBegun (.soakProgram r) s
      (slotPulsed s r s.addr.toNat sl ((bufAt s 0).getLsbD 0 && s.answer.took)).otp sl) := by
  have htarget : (unitTarget (firstUnit (.soakProgram r) s)).getLsbD 0 = (bufAt s 0).getLsbD 0 :=
    (congrArg (BitVec.getLsbD · 0) (targetOf_cell s.cfg hl _)).trans (getLsbD_and_one _)
  obtain ⟨ex, hex⟩ := exec_first_soak h ha
  rw [hex, soakPulse_cell (s := firstUnit (.soakProgram r) s) hk hl hsel h.unlocked, htarget]
  rcases s with ⟨⟩
  rfl

/-- The read-back of a word that is not poisoned is exact (R64, R187). -/
theorem readBack_word_clean {s : State} {p : Nat} {e : EngState} {at_ : Reg → Phase}
    (hl : (unitInfo s).attemptLimited = false) (hp : (unitInfo s).base + unitOff s = p) (hin : p < s.cfg.arrayWords)
    (hc : s.poisoned p = false) : readBack e at_ s = .done ((s.setEng e).countMacro.atPhase (at_ (s.word p))) := by
  have hread : macroRead p (s.setEng e) = (s.word p, (s.setEng e).countMacro) := if_neg (ne_true_of_eq_false hc)
  rw [readBack_word hl hp hin, hread]

/-- The read-back of a cell with no poisoned slot is its logical value (R28, R64, R188). -/
theorem readBack_cell_clean {s : State} {e : EngState} {at_ : Reg → Phase}
    (hl : (unitInfo s).attemptLimited = true) (hc : s.rowPoisoned s.eng.region (unitOff s) = false) :
    readBack e at_ s = .done ((s.setEng e).countMacro.atPhase
      (at_ (if s.cellValue s.eng.region (unitOff s) then 1 else 0))) := by
  rw [readBack_cell hl, macroReadCell_clean (s := s.setEng e) hc]
  rfl

/-- The state in which SOAK_PROGRAM's unit is read back with value `rb` (R187). -/
def soakReadBack (s : State) (rb : Reg) : State :=
  ((noteSoakPulse s).setEng .reverify).countMacro.atPhase (.reverifyRead rb)

theorem soakReadBack_phase (s : State) (rb : Reg) : (soakReadBack s rb).phase = .reverifyRead rb := rfl

theorem soakReadBack_eng (s : State) (rb : Reg) :
    (soakReadBack s rb).eng = { s.eng with k := s.eng.k + 1 } := by simp [soakReadBack]

theorem unitIndex_soakReadBack (s : State) (rb : Reg) : unitIndex (soakReadBack s rb) = unitIndex s := by
  simp [unitIndex, soakReadBack]

theorem unitMatches_soakReadBack (s : State) (rb x : Reg) :
    unitMatches x (soakReadBack s rb) = unitMatches x s := by
  simp [unitMatches, unitTarget, unitInfo, State.info, bufAt, unitIndex, soakReadBack]

/-- The state in which the loop of `program_op` ends when unit `s` was the last and ended in Success (R191). -/
def lastUnitDone (code : OutcomeCode) (s : State) : State :=
  { endUnit code s with eng := { s.eng with nsucc := s.eng.nsucc + 1 } }

/-- The last unit that ends in Success ends the command (R191, R192). -/
theorem closeUnit_last {code : OutcomeCode} {s : State} (hc : unitSucceeded code = true)
    (hlast : s.eng.count = unitIndex s + 1) : closeUnit code s = .done (finishProgram (lastUnitDone code s)) := by
  unfold closeUnit closeWith
  rw [hlast, Nat.sub_self]
  exact if_pos hc

/-- After a soak pulse that reported READY on the last unit, a read-back that matches ends the command in two steps (R183,
R187, R191). -/
theorem soak_matches {i : Instr} {s : State} {rb : Reg} (hi : isProgram i = true) (hp : s.phase = .soakPulsed .ready)
    (hr : readBack .reverify .reverifyRead (noteSoakPulse s) = .done (soakReadBack s rb))
    (hm : unitMatches rb s = true) (hlast : s.eng.count = unitIndex s + 1) :
    execSteps i 2 s = .next (finishProgram (lastUnitDone .setSoak (soakReadBack s rb))) := by
  have hread : exec i s = .next (soakReadBack s rb) := by
    rw [after_soak hi hp, afterPulse, hr, run_done]
  have hmatch : unitMatches rb (soakReadBack s rb) = true := by rw [unitMatches_soakReadBack, hm]
  have hcount : (soakReadBack s rb).eng.count = unitIndex (soakReadBack s rb) + 1 := by
    rw [soakReadBack_eng, unitIndex_soakReadBack, hlast]
  have hend : exec i (soakReadBack s rb) = .next (finishProgram (lastUnitDone .setSoak (soakReadBack s rb))) := by
    rw [after_reverify hi (soakReadBack_phase s rb), afterReverify, if_pos hmatch, closeUnit_last rfl hcount, run_done]
  rw [execSteps_succ hread, execSteps_succ hend, execSteps]

/-- OUTCOME of a command whose last unit ends after a soak pulse. -/
theorem outcomeAt_soak_matches (code : OutcomeCode) (s : State) (rb : Reg) (j : Nat) :
    (finishProgram (lastUnitDone code (soakReadBack s rb))).outcomeAt j =
      if j = unitIndex s then { s.outcomeAt j with code := code, soakPulses := soakPulseBits (s.eng.k + 1) }
      else s.outcomeAt j := by
  have hsame : (soakReadBack s rb).outcomeAt j = (noteSoakPulse s).outcomeAt j :=
    outcomeAt_congr (by simp [soakReadBack]) j
  have hend : (finishProgram (lastUnitDone code (soakReadBack s rb))).outcomeAt j =
      (endUnit code (soakReadBack s rb)).outcomeAt j := rfl
  rw [hend, outcomeAt_endUnit, unitIndex_soakReadBack, hsame, outcomeAt_noteSoakPulse]
  split <;> rfl

/-- Three steps of a SOAK_PROGRAM whose soak pulse reported READY and whose read-back matches (R195). -/
theorem soak_ends {r : Region} {s : State} {d : Otp} {sl : Nat} {rb : Reg}
    (hbegin : exec (.soakProgram r) s = .next (soakBegun (.soakProgram r) s d sl)) (hst : s.answer.status = .ready)
    (hstart : s.phase = .start)
    (hr : readBack .reverify .reverifyRead (noteSoakPulse (soakBegun (.soakProgram r) s d sl)) =
      .done (soakReadBack (soakBegun (.soakProgram r) s d sl) rb))
    (hm : monotonicMatch rb (targetOf s.cfg (s.info r) (bufAt s 0)) = true) :
    ∃ t, execSteps (.soakProgram r) 3 s = .next t ∧ t.otp = d ∧
      t = { s with
        otp := t.otp
        cnt := { s.cnt with soak := s.cnt.soak + 1, macros := s.cnt.macros + 2 }
        status := { finished .ok .success s.status with engState := .success }
        wordIndex := 0, outcome := t.outcome, eng := t.eng, env := s.drew.env } ∧
      ∀ j, t.outcomeAt j =
        if j = 0 then { s.outcomeAt 0 with code := .setSoak, soakPulses := 1 } else s.outcomeAt j := by
  have hp : (soakBegun (.soakProgram r) s d sl).phase = .soakPulsed .ready := congrArg Phase.soakPulsed hst
  have hlast : (soakBegun (.soakProgram r) s d sl).eng.count = unitIndex (soakBegun (.soakProgram r) s d sl) + 1 := rfl
  have hcount : s.cnt.macros + 2 = s.cnt.macros + 1 + 1 := by bv_omega
  refine ⟨_, (execSteps_succ hbegin).trans (soak_matches rfl hp hr hm hlast), ?_, ?_, fun j => ?_⟩
  · rcases s with ⟨⟩
    rfl
  · rw [hcount]
    rcases s with ⟨⟩
    cases hstart
    rfl
  · rw [outcomeAt_soak_matches]
    cases j with
    | zero => rfl
    | succ j => rfl

/-- The read-back after a SOAK_PROGRAM's first pulse on a clean word (R64, R187). -/
theorem soakBegun_readBack_word {r : Region} {s : State} {d : Reg} {p : Nat} (h : ReadyToProgram s (.soakProgram r))
    (hl : (s.info r).attemptLimited = false) (hp : (s.info r).base + s.addr.toNat = p) (hc : s.poisoned p = false) :
    let b := soakBegun (.soakProgram r) s (wordPulsed s p d) s.eng.slot
    readBack .reverify .reverifyRead (noteSoakPulse b) = .done (soakReadBack b (s.word p ||| (d &&& s.answer.bits))) := by
  intro b
  have hword : (noteSoakPulse b).word p = s.word p ||| (d &&& s.answer.bits) := State.word_orWord_self s p _
  rw [← hword]
  exact readBack_word_clean (s := noteSoakPulse b) hl hp (hp ▸ firstUnit_inside h hl) hc

/-- The read-back after a SOAK_PROGRAM's first pulse on a clean cell (R64, R188). -/
theorem soakBegun_readBack_cell {r : Region} {s : State} {sl : Nat} {b : Bool}
    (hl : (s.info r).attemptLimited = true) (hlt : sl < (s.row r s.addr.toNat).length)
    (hc : s.rowPoisoned r s.addr.toNat = false) :
    let v := slotPulsed s r s.addr.toNat sl b
    let u := soakBegun (.soakProgram r) s v.otp sl
    readBack .reverify .reverifyRead (noteSoakPulse u) =
      .done (soakReadBack u (if v.cellValue r s.addr.toNat then 1 else 0)) := by
  intro v u
  have hrow : (noteSoakPulse u).row r s.addr.toNat = v.row r s.addr.toNat := row_congr rfl rfl r _
  have hclean : (noteSoakPulse u).rowPoisoned r s.addr.toNat = false := by
    rw [State.rowPoisoned, hrow]
    exact (rowPoisoned_slotPulsed hlt b).trans hc
  have hvalue : (noteSoakPulse u).cellValue r s.addr.toNat = v.cellValue r s.addr.toNat := by
    rw [State.cellValue, hrow]
    rfl
  rw [← hvalue]
  exact readBack_cell_clean (s := noteSoakPulse u) hl hclean

/-- Settles O43: the soak pulse is the first step; a clean read-back that matches ends the command two steps later. -/
theorem soakProgramBeginsWithASoakPulse : Obligations.SoakProgramBeginsWithASoakPulse := by
  intro r s h ha hk p c d begun ended pulsedWord pulsedSlot
  constructor
  · intro hl
    have hbegin := exec_first_soak_word h ha hk hl
    refine ⟨⟨_, hbegin, rfl, rfl, wordPulsed_frame rfl⟩, fun hclean hst hmatch => ?_⟩
    have hm : monotonicMatch (s.word p ||| (d &&& s.answer.bits)) (targetOf s.cfg (s.info r) (bufAt s 0)) = true := by
      rw [targetOf_word s.cfg hl]
      exact beq_iff_eq.mpr hmatch
    obtain ⟨t, hrun, hotp, hframe, hout⟩ :=
      soak_ends hbegin hst h.start (soakBegun_readBack_word h hl rfl hclean) hm
    exact ⟨t, hrun, ⟨hframe, hout⟩, wordPulsed_frame hotp⟩
  · intro sl hl hsel
    obtain ⟨hlt, -, -⟩ := select_some hsel
    have hbegin := exec_first_soak_cell h ha hk hl hsel
    refine ⟨⟨_, hbegin, rfl, rfl, slotPulsed_frame hsel rfl rfl⟩, fun hclean hst hmatch => ?_⟩
    have hm : monotonicMatch
        (if (slotPulsed s r c sl ((bufAt s 0).getLsbD 0 && s.answer.took)).cellValue r c then 1 else 0)
        (targetOf s.cfg (s.info r) (bufAt s 0)) = true := by
      rw [targetOf_cell s.cfg hl, monotonicMatch_cell]
      cases hbit : (bufAt s 0).getLsbD 0 with
      | false => simp
      | true =>
        rw [hbit, Bool.not_true, Bool.or_false, Bool.or_eq_true] at hmatch
        rw [cellValue_slotPulsed hlt (by simpa using hmatch)]
        rfl
    obtain ⟨t, hrun, hotp, hframe, hout⟩ := soak_ends hbegin hst h.start (soakBegun_readBack_cell hl hlt hclean) hm
    have hcfg : t.cfg = s.cfg := by rw [hframe]
    exact ⟨t, hrun, ⟨hframe, hout⟩, slotPulsed_frame hsel hotp hcfg⟩

end Sys2Proof.Machine
end

section
/-! What a step of any agent does to the device (20_memory.md R72, R78): its persistent state only grows and keeps its form, and
this holds without any premise on the state, because a step of a command reaches the device through one call at most. -/

namespace Sys2Proof.Machine

/-- The device of `t` is one that the device of `s` can become: it has only grown (R78), and it has kept its form. -/
structure Evolves (s t : State) : Prop where
  grows : PersistentGrows s t
  form : DeviceOk s → DeviceOk t

theorem Evolves.of_eq {s t : State} (h : t.otp = s.otp) (hc : t.cfg = s.cfg) : Evolves s t :=
  ⟨.of_eq h hc, fun d => d.congr h hc⟩

theorem Evolves.refl (s : State) : Evolves s s := .of_eq rfl rfl

theorem Evolves.trans {s t u : State} (h : Evolves s t) (g : Evolves t u) : Evolves s u :=
  ⟨h.grows.trans g.grows, g.form ∘ h.form⟩

theorem Kept.evolves {s t : State} (h : Kept s t) : Evolves s t := .of_eq h.otp h.cfg

/-! ### The calls to the OTP and the other agents -/

theorem evolves_macroPulse {s : State} {p : Nat} {x : Reg} (tm : Timing) (mg : BitVec 16) (hp : p < s.cfg.arrayWords)
    (hx : x &&& wordMask s.cfg = x) : Evolves s (macroPulse p x tm mg s).2 :=
  ⟨grows_macroPulse p x tm mg s, fun d => deviceOk_macroPulse d tm mg hp hx⟩

theorem evolves_macroPulseSlot (r : Region) (c sl : Nat) (b : Bool) (tm : Timing) (mg : BitVec 16) (s : State) :
    Evolves s (macroPulseSlot r c sl b tm mg s).2 :=
  ⟨grows_macroPulseSlot r c sl b tm mg s, fun d => deviceOk_macroPulseSlot d r c sl b tm mg⟩

theorem evolves_macroProtect (r : Region) (s : State) : Evolves s (macroProtect r s).2 :=
  ⟨grows_macroProtect r s, fun d => deviceOk_macroProtect d r⟩

theorem evolves_macroLockAll (s : State) : Evolves s (macroLockAll s).2 :=
  ⟨grows_macroLockAll s, deviceOk_macroLockAll⟩

theorem evolves_poisonWord (s : State) (p : Nat) : Evolves s (s.poisonWord p) :=
  ⟨grows_poisonWord s p, fun d => deviceOk_poisonWord d p⟩

theorem evolves_poisonSlot (s : State) (r : Region) (c sl : Nat) : Evolves s (s.modifySlot r c sl Slot.poison) :=
  ⟨grows_modifySlot s r c sl slotGrows_poison, fun d => deviceOk_poisonSlot d r c sl⟩

theorem evolves_recordAttempt (s : State) (r : Region) (c sl : Nat) : Evolves s (s.recordAttempt r c sl) :=
  ⟨grows_recordAttempt s r c sl, fun d => deviceOk_recordAttempt d r c sl⟩

theorem evolves_attemptOf (r : Region) (c sl : Nat) (s : State) (tm : Timing) : Evolves s (attemptOf r c sl s tm) := by
  cases tm with
  | normal => exact .refl s
  | soak _ => exact evolves_recordAttempt s r c sl

theorem evolves_protectDevice (s : State) (r : Region) (b : Bool) : Evolves s (s.protectDevice r b) :=
  ⟨grows_protectDevice s r b, fun d => deviceOk_protectDevice d r b⟩

theorem evolves_lockDevice (s : State) (b : Bool) : Evolves s (s.lockDevice b) :=
  ⟨grows_lockDevice s b, fun d => deviceOk_lockDevice d b⟩

theorem evolves_outOfBand (act : OobAct) (s : State) : Evolves s (outOfBand act s) := by
  unfold outOfBand
  split
  · exact ⟨grows_oobEffect act s, fun d => deviceOk_oobEffect d act⟩
  · exact .refl s

theorem evolves_hardReset (s : State) : Evolves s (hardReset s) := .of_eq rfl rfl

/-- A host write reaches no persistent item (R60, R69). -/
theorem evolves_hostWrite (idx : PortIndex) (v : Reg) (s : State) : Evolves s (hostWrite idx v s) := by
  unfold hostWrite
  split
  · exact .of_eq rfl rfl
  · cases portReg s.cfg idx <;> exact .of_eq rfl rfl

/-! ### The plans of a command -/

/-- A plan from `s` that reaches the device through one interruptible call at most, made in a state that `s` is kept in, and
whose pulse of a word requests bits of that word only. -/
inductive PlanEvolves (s : State) : Plan → Prop
  | done {t : State} (h : Evolves s t) : PlanEvolves s (.done t)
  | stop (f : Fault) : PlanEvolves s (.stop f)
  | pulse {p : Nat} {x : Reg} {tm : Timing} {mg : BitVec 16} {u : State} {k : PulseStatus → State → State}
      (kept : Kept s u) (fits : x &&& wordMask s.cfg = x) (after : ∀ st v, Evolves v (k st v)) :
      PlanEvolves s (.pulse p x tm mg u k)
  | pulseSlot {r : Region} {c sl : Nat} {b : Bool} {tm : Timing} {mg : BitVec 16} {u : State}
      {k : PulseStatus → State → State} (kept : Kept s u) (after : ∀ st v, Evolves v (k st v)) :
      PlanEvolves s (.pulseSlot r c sl b tm mg u k)
  | protect {r : Region} {u : State} {k : Bool → State → State} (kept : Kept s u)
      (after : ∀ ok v, Evolves v (k ok v)) : PlanEvolves s (.protect r u k)
  | lockAll {u : State} {k : Bool → State → State} (kept : Kept s u) (after : ∀ ok v, Evolves v (k ok v)) :
      PlanEvolves s (.lockAll u k)

theorem PlanEvolves.of_kept {s t : State} {pl : Plan} (h : Kept s t) (g : PlanEvolves t pl) : PlanEvolves s pl := by
  cases g with
  | done g => exact .done (h.evolves.trans g)
  | stop f => exact .stop f
  | pulse kept fits after => exact .pulse (h.trans kept) (h.cfg ▸ fits) after
  | pulseSlot kept after => exact .pulseSlot (h.trans kept) after
  | protect kept after => exact .protect (h.trans kept) after
  | lockAll kept after => exact .lockAll (h.trans kept) after

/-- The whole step. -/
theorem PlanEvolves.run {s t : State} {pl : Plan} (g : PlanEvolves s pl) (h : pl.run = .next t) : Evolves s t := by
  cases g with
  | done g =>
    cases h
    exact g
  | stop f => cases h
  | pulse kept fits after =>
    obtain ⟨-, h⟩ := needUnlocked_next h
    split at h <;> cases h
    exact (kept.evolves.trans (evolves_macroPulse _ _ ‹_› (kept.cfg ▸ fits))).trans (after _ _)
  | pulseSlot kept after =>
    obtain ⟨-, h⟩ := needUnlocked_next h
    cases h
    exact (kept.evolves.trans (evolves_macroPulseSlot ..)).trans (after _ _)
  | protect kept after =>
    obtain ⟨-, h⟩ := needUnlocked_next h
    cases h
    exact (kept.evolves.trans (evolves_macroProtect ..)).trans (after _ _)
  | lockAll kept after =>
    obtain ⟨-, h⟩ := needUnlocked_next h
    cases h
    exact (kept.evolves.trans (evolves_macroLockAll _)).trans (after _ _)

/-- The step that a reset interrupts (R274). -/
theorem PlanEvolves.cut {s t : State} {pl : Plan} (g : PlanEvolves s pl) (h : pl.cut s = .next t) : Evolves s t := by
  have hdrew (u : State) : Evolves u u.drew := .of_eq rfl rfl
  cases g with
  | done g =>
    cases h
    exact evolves_hardReset s
  | stop f => cases h
  | pulse kept fits after =>
    obtain ⟨-, h⟩ := needUnlocked_next h
    split at h <;> cases h
    exact (kept.evolves.trans (evolves_macroPulse _ _ ‹_› (kept.cfg ▸ fits))).trans
      ((evolves_poisonWord ..).trans (evolves_hardReset _))
  | pulseSlot kept after =>
    obtain ⟨-, h⟩ := needUnlocked_next h
    cases h
    exact (kept.evolves.trans (evolves_macroPulseSlot ..)).trans
      ((evolves_poisonSlot ..).trans ((evolves_attemptOf ..).trans (evolves_hardReset _)))
  | protect kept after =>
    obtain ⟨-, h⟩ := needUnlocked_next h
    cases h
    exact (kept.evolves.trans (hdrew _)).trans ((evolves_protectDevice ..).trans (evolves_hardReset _))
  | lockAll kept after =>
    obtain ⟨-, h⟩ := needUnlocked_next h
    cases h
    exact (kept.evolves.trans (hdrew _)).trans ((evolves_lockDevice ..).trans (evolves_hardReset _))

/-- A step that touches no persistent item. -/
theorem PlanEvolves.same {s t : State} (h : t.otp = s.otp) (hc : t.cfg = s.cfg) : PlanEvolves s (.done t) :=
  .done (.of_eq h hc)

/-! ### The engine -/

theorem planEvolves_readUnit (v : Reg) (r : Region) (o : Nat) (s : State) {k : Reg → State → State}
    (hk : ∀ x u, Evolves u (k x u)) : PlanEvolves s (readUnit v r o s k) := by
  simp only [readUnit]
  split
  · exact .done ((Evolves.of_eq (by simp) (by simp)).trans (hk _ _))
  · split
    · exact .done ((Evolves.of_eq (by simp) (by simp)).trans (hk _ _))
    · exact .stop _

theorem planEvolves_readBack (e : EngState) (at_ : Reg → Phase) (s : State) : PlanEvolves s (readBack e at_ s) := by
  unfold readBack
  exact .of_kept (kept_setEng s e) (planEvolves_readUnit _ _ _ _ fun _ _ => .of_eq rfl rfl)

theorem planEvolves_normalPulse (s : State) : PlanEvolves s (normalPulse s) := by
  have he := kept_setEng s .normalProgram
  simp only [normalPulse]
  split
  · split
    · exact .pulseSlot (he.trans (kept_eng _ _)) fun _ _ => .of_eq rfl rfl
    · exact .of_kept he (planEvolves_readBack ..)
  · exact .pulse he (targetOf_fits s.cfg (Bool.eq_false_iff.mpr ‹_›) _) fun _ _ => .of_eq rfl rfl

/-- The soak pulse, or what the unit does when none can be issued. -/
theorem planEvolves_soakPulse {ex : Plan} (s : State) (h : ¬ canSoak s → PlanEvolves s ex) :
    PlanEvolves s (soakPulse ex s) := by
  by_cases hc : canSoak s
  · have he := kept_setEng s .soakProgram
    obtain ⟨hk, hsel⟩ := hc
    simp only [soakPulse, if_pos hk]
    split
    · obtain ⟨sl, hsl⟩ := hsel ‹_›
      rw [hsl]
      exact .pulseSlot (he.trans (kept_eng _ _)) fun _ u => (evolves_recordAttempt u ..).trans (.of_eq rfl rfl)
    · exact .pulse he (targetOf_fits s.cfg (Bool.eq_false_iff.mpr ‹_›) _) fun _ _ => .of_eq rfl rfl
  · rw [(soakPulse_or ex s).resolve_left hc]
    exact h hc

/-- Wherever the loop of `program_op` leaves the step. -/
theorem LoopEnd.planEvolves {P : Prop} {s : State} {lo nb : Nat} {pl : Plan} (h : LoopEnd P s lo nb pl) :
    PlanEvolves s pl := by
  cases h with
  | finish t h => exact .same h.kept.otp h.kept.cfg
  | normal t j h => exact .of_kept h.kept (planEvolves_normalPulse t)
  | soak t j ex h _ _ _ _ _ _ can => exact .of_kept h.kept (planEvolves_soakPulse t fun n => absurd can n)

theorem planEvolves_closeUnit (c : OutcomeCode) (s : State) : PlanEvolves s (closeUnit c s) :=
  (closeUnit_end c s).planEvolves

theorem planEvolves_afterPulse (st : PulseStatus) (e : EngState) (at_ : Reg → Phase) (s : State) :
    PlanEvolves s (afterPulse st e at_ s) := by
  unfold afterPulse
  split
  · exact planEvolves_readBack ..
  · exact .same rfl rfl

theorem planEvolves_afterVerify (rb : Reg) (s : State) : PlanEvolves s (afterVerify rb s) := by
  unfold afterVerify
  split
  · exact planEvolves_closeUnit ..
  · split
    · exact .of_kept (kept_setEng s _) (planEvolves_soakPulse _ fun _ => planEvolves_closeUnit ..)
    · exact planEvolves_closeUnit ..

theorem planEvolves_afterReverify (rb : Reg) (s : State) : PlanEvolves s (afterReverify rb s) := by
  unfold afterReverify
  split
  · exact planEvolves_closeUnit ..
  · by_cases hc : canSoak (s.setEng .retrySoak)
    · exact .of_kept (kept_setEng s _) (planEvolves_soakPulse _ fun n => absurd hc n)
    · rw [(soakPulse_or _ _).resolve_left hc]
      exact planEvolves_closeUnit ..

theorem planEvolves_engineResume (s : State) : PlanEvolves s (engineResume s) := by
  unfold engineResume
  split
  · exact .of_kept (kept_noteNormalPulse s) (planEvolves_afterPulse ..)
  · exact planEvolves_afterVerify ..
  · exact .of_kept (kept_noteSoakPulse s) (planEvolves_afterPulse ..)
  · exact planEvolves_afterReverify ..
  · exact .stop _

theorem planEvolves_programCommand (i : Instr) (n : Nat) (c : SoakConfig) (s : State) :
    PlanEvolves s (programCommand i n c s) := by
  unfold programCommand
  split
  · exact .of_kept (kept_loopStart i n c s) (programOp_end i n c s).planEvolves
  · exact .same rfl rfl

/-! ### Reads and queries -/

theorem planEvolves_readIntoBuf (r : Region) (v : Reg) (i : Nat) (s : State) : PlanEvolves s (readIntoBuf r v i s) :=
  planEvolves_readUnit _ _ _ _ fun _ _ => .of_eq rfl rfl

theorem planEvolves_readRegionUnit (r : Region) (i : Nat) (v : Reg) (s : State) :
    PlanEvolves s (readRegionUnit r i v s) := by
  unfold readRegionUnit
  split
  · exact .of_kept (kept_setWordIndex i s) (planEvolves_readIntoBuf ..)
  · exact .same rfl rfl

theorem planEvolves_readResolved (r : Region) (v : Reg) {transfer : Reg → State → Plan} (s : State)
    (h : PlanEvolves s (transfer v s)) : PlanEvolves s (readResolved r v transfer s) := by
  unfold readResolved
  split
  · exact h
  · exact .same rfl rfl

theorem planEvolves_readChecks (r : Region) {transfer : Reg → State → Plan} (s : State)
    (h : ∀ v, PlanEvolves s (transfer v s)) : PlanEvolves s (readChecks r transfer s) := by
  unfold readChecks
  split
  · exact planEvolves_readResolved _ _ _ (h _)
  · split <;> exact .same rfl rfl

theorem planEvolves_readChecksId (v : Reg) (s : State) : PlanEvolves s (readChecksId v s) := by
  unfold readChecksId
  split <;> exact .same rfl rfl

theorem planEvolves_readChecksProt (r : Region) (v : Reg) (pp : BitVec 4) {transfer : Reg → State → Plan} (s : State)
    (h : PlanEvolves s (transfer v s)) : PlanEvolves s (readChecksProt r v pp transfer s) := by
  unfold readChecksProt
  split
  · exact .same rfl rfl
  · exact planEvolves_readResolved _ _ _ h

theorem planEvolves_trackerQuery {r : Region} {s : State} {q : Nat → Plan} (h : ∀ c, PlanEvolves s (q c)) :
    PlanEvolves s (trackerQuery r s q) := by
  unfold trackerQuery
  split
  · split
    · exact h _
    · exact .same rfl rfl
  · exact .stop _

/-! ### Every command -/

theorem planEvolves_beginSession (s : State) : PlanEvolves s (planBeginSession s) := by
  cases hp : s.phase <;> simp only [planBeginSession, hp]
  case start => split <;> exact .same rfl rfl
  case beginUnlocked => exact .same rfl rfl
  case beginIdRead => split <;> exact .same rfl rfl
  case beginRelocked => exact .same rfl rfl
  case beginProtRead => exact .same rfl rfl
  all_goals exact .stop _

theorem planEvolves_enableRegionProtection (r : Region) (s : State) :
    PlanEvolves s (planEnableRegionProtection r s) := by
  cases hp : s.phase <;> simp only [planEnableRegionProtection, hp]
  case start =>
    split <;> [exact .same rfl rfl; skip]
    split <;> [exact .same rfl rfl; skip]
    split <;> [exact .same rfl rfl; skip]
    split <;> [exact .same rfl rfl; skip]
    exact .protect (.refl s) fun _ _ => .of_eq rfl rfl
  case protectAnswered => split <;> exact .same rfl rfl
  all_goals exact .stop _

/-- Every plan of every command. -/
theorem planEvolves_planOf (i : Instr) (s : State) : PlanEvolves s (planOf i s) := by
  cases i with
  | beginSession => exact planEvolves_beginSession s
  | endSession =>
    simp only [planOf, planEndSession]
    split
    · exact .same rfl rfl
    · exact .same rfl rfl
    · exact .stop _
  | read r =>
    simp only [planOf, planRead]
    split
    · exact .of_kept (kept_latchCommand ..) (planEvolves_readChecks _ _ fun _ => planEvolves_readIntoBuf ..)
    · exact planEvolves_readChecksId ..
    · exact planEvolves_readChecksProt _ _ _ _ (planEvolves_readIntoBuf ..)
    · exact .same rfl rfl
    · exact .stop _
  | readRegion r =>
    simp only [planOf, planReadRegion]
    split
    · split
      · exact .same rfl rfl
      · exact .of_kept (kept_latchCommand ..) (planEvolves_readChecks _ _ fun _ => planEvolves_readRegionUnit ..)
    · exact planEvolves_readChecksId ..
    · exact planEvolves_readChecksProt _ _ _ _ (planEvolves_readRegionUnit ..)
    · exact planEvolves_readRegionUnit ..
    · exact .stop _
  | write r =>
    simp only [planOf, planWrite]
    split
    · exact planEvolves_programCommand ..
    · exact planEvolves_engineResume s
  | writeRegion r p =>
    simp only [planOf, planWriteRegion]
    split
    · split
      · exact .same rfl rfl
      · exact planEvolves_programCommand ..
    · exact planEvolves_engineResume s
  | soakProgram r =>
    simp only [planOf, planSoakProgram]
    split
    · exact planEvolves_programCommand ..
    · exact planEvolves_engineResume s
  | programWithSoakFallback r =>
    simp only [planOf, planProgramWithSoakFallback]
    split
    · exact planEvolves_programCommand ..
    · exact planEvolves_engineResume s
  | lock =>
    simp only [planOf, planLock]
    split
    · split <;> [exact .same rfl rfl; skip]
      split <;> [exact .same rfl rfl; skip]
      exact .lockAll (.refl s) fun _ _ => .of_eq rfl rfl
    · split <;> exact .same rfl rfl
    · exact .stop _
  | isLocked =>
    simp only [planOf, planIsLocked]
    split
    · split <;> exact .same rfl rfl
    · exact .stop _
  | enableRegionProtection r => exact planEvolves_enableRegionProtection r s
  | isRegionProtected r =>
    simp only [planOf, planIsRegionProtected]
    split
    · split <;> exact .same rfl rfl
    · exact .stop _
  | selectNextWritable r =>
    simp only [planOf, planSelectNextWritable]
    exact planEvolves_trackerQuery fun _ => .same rfl rfl
  | isWritable r =>
    simp only [planOf, planIsWritable]
    exact planEvolves_trackerQuery fun _ => .same rfl rfl
  | readSlot r =>
    simp only [planOf, planReadSlot]
    refine planEvolves_trackerQuery fun c => ?_
    split
    · exact .same rfl rfl
    · exact .same (by simp) (by simp)

theorem evolves_exec {i : Instr} {s t : State} (h : exec i s = .next t) : Evolves s t :=
  (planEvolves_planOf i s).run (by rw [← exec_eq_planOf, h])

/-! ### Every agent -/

theorem evolves_controllerTurn {s t : State} (h : controllerTurn s = .next t) : Evolves s t := by
  unfold controllerTurn commandStep at h
  split at h
  · split at h
    · exact evolves_exec h
    · cases h
      exact .of_eq rfl rfl
  · cases h
    exact .refl s

theorem evolves_interruptedTurn {s t : State} (h : interruptedTurn s = .next t) : Evolves s t := by
  unfold interruptedTurn at h
  split at h
  · split at h
    · exact (planEvolves_planOf _ s).cut h
    · cases h
      exact evolves_hardReset s
  · cases h
    exact evolves_hardReset s

theorem evolves_deliver {s t : State} {e : Event} (h : deliver s e = .next t) : Evolves s t := by
  cases e with
  | hostWrite idx v =>
    cases h
    exact evolves_hostWrite idx v s
  | hostRead idx =>
    cases h
    exact .of_eq rfl rfl
  | controller => exact evolves_controllerTurn h
  | outOfBand act =>
    cases h
    exact evolves_outOfBand act s
  | reset =>
    cases h
    exact evolves_hardReset s
  | resetDuringStep => exact evolves_interruptedTurn h

/-- The configuration of a step that is not refused is legal (R66). -/
theorem step_next {s t : State} (h : step s = .next t) : s.cfg.legal = true ∧ nextMove s = .next t := by
  unfold step at h
  split at h
  · exact ⟨‹_›, h⟩
  · cases h

/-- Say once what a step of any agent does to the device: it evolves. -/
theorem evolves_step {s t : State} (h : step s = .next t) : Evolves s t := by
  obtain ⟨-, h⟩ := step_next h
  unfold nextMove at h
  split at h
  · exact evolves_controllerTurn h
  · rename_i e es _
    exact (Evolves.of_eq (s := s) (t := { s with env := { s.env with inbox := es } }) rfl rfl).trans (evolves_deliver h)

/-- Settles O56: a step of any agent is a growing of the device, agent by agent and command by command. -/
theorem everyStepPreservesTheMonotonicLaws : Obligations.EveryStepPreservesTheMonotonicLaws :=
  fun _ _ h => (evolves_step h).grows

end Sys2Proof.Machine
end

section
/-! The invariant (20_memory.md R77, R78; 10_state.md R23 to R31; 44_program_engine.md R180, R185): in a state that satisfies it,
every move of every agent answers a next state, and that state satisfies it. The parts that do not depend on the command's place
are carried along first; then the engine, the reads and the other commands are followed place by place. -/

namespace Sys2Proof.Machine

/-! ### The parts of the invariant that do not depend on the command's place -/

/-- `SessionOk` but for MACRO_UNLOCKED (R29, R30, R32, R77). -/
structure SnapOk (s : State) : Prop where
  valid : s.snap.valid = decide (s.session = .active)
  idleClear : s.session = .idle → s.snap = Snap.clear
  protLe : s.snap.prot &&& s.deviceProt = s.snap.prot
  lockLe : s.snap.lock = true → s.otp.physLock = true
  variantKnown : s.session = .active → s.variant = s.cfg.chipId ∧ knownVariant s.cfg s.cfg.chipId = true

/-- The invariant but for MACRO_UNLOCKED and the command's place. -/
structure Sound (s : State) : Prop where
  legal : s.cfg.legal = true
  device : DeviceOk s
  regs : RegsOk s
  snap : SnapOk s

/-- `Sound` where MACRO_UNLOCKED follows SESSION: at every place but those inside BEGIN_SESSION and END_SESSION (R31). -/
structure Steady (s : State) : Prop extends Sound s where
  unlocked : s.macroUnlocked = decide (s.session = .active)

/-- The places inside BEGIN_SESSION and END_SESSION (R130, R131). -/
def inSessionChange : Phase → Bool
  | .beginUnlocked | .beginIdRead _ | .beginRelocked | .beginProtRead _ _ _ | .endRelocked => true
  | _ => false

theorem unlockedNow_of_outside {s : State} (h : inSessionChange s.phase = false) :
    unlockedNow s = decide (s.session = .active) := by
  revert h
  unfold unlockedNow
  cases s.phase <;> intro h
  case beginUnlocked | beginIdRead | beginRelocked | beginProtRead | endRelocked => cases h
  all_goals rfl

theorem State.Inv.sound {s : State} (h : s.Inv) : Sound s where
  legal := h.legal
  device := h.device
  regs := h.regs
  snap := ⟨h.session.valid, h.session.idleClear, h.session.protLe, h.session.lockLe, h.session.variantKnown⟩

theorem Sound.inv {s : State} (h : Sound s) (hu : s.macroUnlocked = unlockedNow s) (hp : PhaseOk s)
    (hb : s.status.busy = true) : s.Inv where
  legal := h.legal
  device := h.device
  regs := h.regs
  session := ⟨h.snap.valid, h.snap.idleClear, h.snap.protLe, h.snap.lockLe, h.snap.variantKnown, hu⟩
  phase := hp
  idleStart h := absurd hb (by rw [h]; decide)

theorem State.Inv.steady {s : State} (h : s.Inv) (hp : inSessionChange s.phase = false) : Steady s :=
  { h.sound with unlocked := by rw [h.session.unlocked, unlockedNow_of_outside hp] }

/-- A command goes on at a place outside BEGIN_SESSION and END_SESSION. -/
theorem Steady.inv {s : State} (h : Steady s) (hout : inSessionChange s.phase = false) (hp : PhaseOk s)
    (hb : s.status.busy = true) : s.Inv :=
  h.toSound.inv (by rw [h.unlocked, unlockedNow_of_outside hout]) hp hb

/-- No command runs, or one has not begun. -/
theorem Steady.inv_of_start {s : State} (h : Steady s) (hp : s.phase = .start) : s.Inv where
  legal := h.legal
  device := h.device
  regs := h.regs
  session := ⟨h.snap.valid, h.snap.idleClear, h.snap.protLe, h.snap.lockLe, h.snap.variantKnown,
    by rw [h.unlocked, unlockedNow_of_outside (by rw [hp]; rfl)]⟩
  phase := by simp only [PhaseOk, hp]
  idleStart _ := hp

/-! ### What carries them from one state to another -/

/-- The device's flags only rise (R25, R78). -/
theorem PersistentGrows.deviceProt {s t : State} (h : PersistentGrows s t) :
    s.deviceProt &&& t.deviceProt = s.deviceProt := by
  apply prot_ext
  intro r
  have hr := congrArg (protBit · r) h.prot
  simp only [protBit_and] at hr
  simp only [State.deviceProt, h.cfg, protBit_and]
  revert hr
  cases protBit s.otp.physProt r <;> cases protBit t.otp.physProt r <;> simp

/-- The registers of a session are the same, and the device has evolved. -/
structure Carries (s t : State) : Prop where
  evolves : Evolves s t
  session : t.session = s.session
  snap : t.snap = s.snap
  variant : t.variant = s.variant

theorem Kept.carries {s t : State} (h : Kept s t) : Carries s t := ⟨h.evolves, h.session, h.snap, h.variant⟩

theorem SnapOk.carry {s t : State} (h : SnapOk s) (c : Carries s t) : SnapOk t where
  valid := by rw [c.snap, c.session, h.valid]
  idleClear := by
    rw [c.snap, c.session]
    exact h.idleClear
  protLe := by
    rw [c.snap]
    exact and_le_trans h.protLe c.evolves.grows.deviceProt
  lockLe := by
    rw [c.snap]
    exact c.evolves.grows.lock ∘ h.lockLe
  variantKnown := by
    rw [c.session, c.variant, c.evolves.grows.cfg]
    exact h.variantKnown

theorem Sound.carry {s t : State} (h : Sound s) (c : Carries s t) (hr : RegsOk t) : Sound t where
  legal := by rw [c.evolves.grows.cfg, h.legal]
  device := c.evolves.form h.device
  regs := hr
  snap := h.snap.carry c

theorem Steady.carry {s t : State} (h : Steady s) (c : Carries s t) (hr : RegsOk t)
    (hu : t.macroUnlocked = s.macroUnlocked) : Steady t :=
  { h.toSound.carry c hr with unlocked := by rw [hu, h.unlocked, c.session] }

theorem RegsOk.congr {s t : State} (h : RegsOk s) (hb : t.buf = s.buf) (ho : t.outcome = s.outcome)
    (hc : t.cfg = s.cfg) : RegsOk t where
  bufWf := by rw [hb, h.bufWf]
  outcomeWf := by rw [ho, h.outcomeWf]
  bufInside i hi := by rw [bufAt_congr hb, h.bufInside i (by rwa [hc] at hi)]
  outcomeInside i hi := by rw [outcomeAt_congr ho, h.outcomeInside i (by rwa [hc] at hi)]

theorem RegsOk.setBuf {s : State} (h : RegsOk s) {i : Nat} (hi : i < s.cfg.bufWords) (v : Reg) :
    RegsOk (s.setBuf i v) where
  bufWf := sparseWf_set _ _ _ h.bufWf
  outcomeWf := h.outcomeWf
  bufInside j hj := by
    have hj : s.cfg.bufWords ≤ j := hj
    rw [bufAt_setBuf, if_neg (by omega), h.bufInside j hj]
  outcomeInside := h.outcomeInside

/-- Nothing that the invariant reads differs but the place, and the device has evolved. -/
structure Undisturbed (s t : State) : Prop extends Carries s t where
  macroUnlocked : t.macroUnlocked = s.macroUnlocked
  cmdLatch : t.cmdLatch = s.cmdLatch
  busy : t.status.busy = s.status.busy
  wordIndex : t.wordIndex = s.wordIndex
  buf : t.buf = s.buf
  outcome : t.outcome = s.outcome
  eng : t.eng = { s.eng with slot := t.eng.slot }

theorem Undisturbed.cfg {s t : State} (h : Undisturbed s t) : t.cfg = s.cfg := h.evolves.grows.cfg

theorem Undisturbed.regs {s t : State} (h : Undisturbed s t) (hr : RegsOk s) : RegsOk t :=
  hr.congr h.buf h.outcome h.cfg

theorem Sound.undisturbed {s t : State} (h : Sound s) (u : Undisturbed s t) : Sound t :=
  h.carry u.toCarries (u.regs h.regs)

theorem Steady.undisturbed {s t : State} (h : Steady s) (u : Undisturbed s t) : Steady t :=
  h.carry u.toCarries (u.regs h.regs) u.macroUnlocked

theorem session_active_of_ne {s : State} (h : s.session ≠ .idle) : s.session = .active := by
  cases hs : s.session with
  | idle => exact absurd hs h
  | active => rfl

theorem session_idle_of_ne {s : State} (h : s.session ≠ .active) : s.session = .idle := by
  cases hs : s.session with
  | idle => rfl
  | active => exact absurd hs h

theorem running_congr {s t : State} {i : Instr} (hb : t.status.busy = s.status.busy) (hc : t.cmdLatch = s.cmdLatch)
    (h : running s i) : running t i := by
  unfold running
  rwa [hb, hc]

theorem running_unique {s : State} {i j : Instr} (h : running s i) (g : running s j) : i = j :=
  Except.ok.inj (h.2.symm.trans g.2)

theorem Undisturbed.running {s t : State} {i : Instr} (u : Undisturbed s t) (h : running s i) : running t i :=
  running_congr u.busy u.cmdLatch h

theorem Undisturbed.trans {s t u : State} (h : Undisturbed s t) (g : Undisturbed t u) : Undisturbed s u where
  evolves := h.evolves.trans g.evolves
  session := g.session.trans h.session
  snap := g.snap.trans h.snap
  variant := g.variant.trans h.variant
  macroUnlocked := g.macroUnlocked.trans h.macroUnlocked
  cmdLatch := g.cmdLatch.trans h.cmdLatch
  busy := g.busy.trans h.busy
  wordIndex := g.wordIndex.trans h.wordIndex
  buf := g.buf.trans h.buf
  outcome := g.outcome.trans h.outcome
  eng := by rw [g.eng, h.eng]

theorem undisturbed_setEng (s : State) (e : EngState) : Undisturbed s (s.setEng e) :=
  ⟨⟨.of_eq rfl rfl, rfl, rfl, rfl⟩, rfl, rfl, rfl, rfl, rfl, rfl, rfl⟩

theorem undisturbed_atPhase (s : State) (p : Phase) : Undisturbed s (s.atPhase p) :=
  ⟨⟨.of_eq rfl rfl, rfl, rfl, rfl⟩, rfl, rfl, rfl, rfl, rfl, rfl, rfl⟩

theorem undisturbed_countMacro (s : State) : Undisturbed s s.countMacro :=
  ⟨⟨.of_eq rfl rfl, rfl, rfl, rfl⟩, rfl, rfl, rfl, rfl, rfl, rfl, rfl⟩

theorem undisturbed_macroRead (p : Nat) (s : State) : Undisturbed s (macroRead p s).2 := by
  refine ⟨⟨.of_eq ?_ ?_, ?_, ?_, ?_⟩, ?_, ?_, ?_, ?_, ?_, ?_, ?_⟩ <;> simp

theorem undisturbed_macroReadCell (r : Region) (c : Nat) (s : State) : Undisturbed s (macroReadCell r c s).2 := by
  refine ⟨⟨.of_eq ?_ ?_, ?_, ?_, ?_⟩, ?_, ?_, ?_, ?_, ?_, ?_, ?_⟩ <;> simp

theorem undisturbed_macroPulse {s : State} {p : Nat} {x : Reg} (tm : Timing) (mg : BitVec 16)
    (hp : p < s.cfg.arrayWords) (hx : x &&& wordMask s.cfg = x) : Undisturbed s (macroPulse p x tm mg s).2 := by
  refine ⟨⟨evolves_macroPulse tm mg hp hx, ?_, ?_, ?_⟩, ?_, ?_, ?_, ?_, ?_, ?_, ?_⟩ <;> simp

theorem undisturbed_macroPulseSlot (r : Region) (c sl : Nat) (b : Bool) (tm : Timing) (mg : BitVec 16) (s : State) :
    Undisturbed s (macroPulseSlot r c sl b tm mg s).2 := by
  refine ⟨⟨evolves_macroPulseSlot r c sl b tm mg s, ?_, ?_, ?_⟩, ?_, ?_, ?_, ?_, ?_, ?_, ?_⟩ <;> simp

theorem undisturbed_recordAttempt (s : State) (r : Region) (c sl : Nat) : Undisturbed s (s.recordAttempt r c sl) :=
  ⟨⟨evolves_recordAttempt s r c sl, rfl, rfl, rfl⟩, rfl, rfl, rfl, rfl, rfl, rfl, rfl⟩

/-- A pulse on a slot latches its index (R33). -/
theorem undisturbed_slot (s : State) (e : EngState) (sl : Nat) :
    Undisturbed s { s.setEng e with eng := { s.eng with slot := sl } } :=
  ⟨⟨.of_eq rfl rfl, rfl, rfl, rfl⟩, rfl, rfl, rfl, rfl, rfl, rfl, rfl⟩

theorem undisturbed_macroLockAll (s : State) : Undisturbed s (macroLockAll s).2 :=
  ⟨⟨evolves_macroLockAll s, rfl, rfl, rfl⟩, rfl, rfl, rfl, rfl, rfl, rfl, rfl⟩

theorem undisturbed_macroProtect (r : Region) (s : State) : Undisturbed s (macroProtect r s).2 :=
  ⟨⟨evolves_macroProtect r s, rfl, rfl, rfl⟩, rfl, rfl, rfl, rfl, rfl, rfl, rfl⟩

/-! ### The engine -/

/-- An engine command is running, past its local checks, at any place of its loop: `Programming` but for the unit. -/
structure InCommand (s : State) (i : Instr) : Prop where
  running : running s i
  program : isProgram i = true
  op : s.eng.op = some i
  region : s.eng.region = regionField i
  active : s.session = .active
  notLocked : s.snap.lock = false
  notProtected : protBit s.snap.prot s.eng.region = false
  inside : s.eng.off + s.eng.count ≤ (s.info s.eng.region).capacity
  bufs : s.eng.count ≤ s.cfg.bufWords

theorem Programming.inCommand {s : State} {i : Instr} (h : Programming s i) : InCommand s i :=
  ⟨h.running, h.program, h.op, h.region, h.active, h.notLocked, h.notProtected, h.inside, h.bufs⟩

theorem InCommand.programming {s : State} {i : Instr} (h : InCommand s i) (unit : unitIndex s < s.eng.count)
    (pulses : s.eng.k ≤ s.eng.soak.retries.toNat) (successes : s.eng.nsucc ≤ unitIndex s) : Programming s i :=
  ⟨h.running, h.program, h.op, h.region, h.active, h.notLocked, h.notProtected, h.inside, unit, h.bufs, pulses,
    successes⟩

theorem InCommand.looped {P : Prop} {s t : State} {i : Instr} (h : InCommand s i) (l : Looped P s t) :
    InCommand t i where
  running := running_congr l.kept.busy l.kept.cmdLatch h.running
  program := h.program
  op := by rw [l.op, h.op]
  region := by rw [l.region, h.region]
  active := by rw [l.kept.session, h.active]
  notLocked := by rw [l.kept.snap, h.notLocked]
  notProtected := by rw [l.kept.snap, l.region, h.notProtected]
  inside := by
    rw [l.off, l.count, l.region, State.info, l.kept.cfg, l.kept.variant]
    exact h.inside
  bufs := by
    rw [l.count, l.kept.cfg]
    exact h.bufs

theorem Programming.undisturbed {s t : State} {i : Instr} (h : Programming s i) (u : Undisturbed s t) :
    Programming t i where
  running := u.running h.running
  program := h.program
  op := by rw [u.eng]; exact h.op
  region := by rw [u.eng]; exact h.region
  active := by rw [u.session, h.active]
  notLocked := by rw [u.snap, h.notLocked]
  notProtected := by rw [u.snap, u.eng]; exact h.notProtected
  inside := by rw [u.eng, State.info, u.cfg, u.variant]; exact h.inside
  unit := by rw [unitIndex, u.wordIndex, u.eng]; exact h.unit
  bufs := by rw [u.eng, u.cfg]; exact h.bufs
  pulses := by rw [u.eng]; exact h.pulses
  successes := by rw [unitIndex, u.wordIndex, u.eng]; exact h.successes

/-- The loop's bookkeeping inside the buffers keeps the invariant's parts. -/
theorem Steady.looped {P : Prop} {s t : State} (h : Steady s) (l : Looped P s t) (hP : P)
    (hb : s.eng.count ≤ s.cfg.bufWords) : Steady t := by
  refine h.carry l.kept.carries ⟨?_, l.wf h.regs.outcomeWf, fun i hi => ?_, fun i hi => ?_⟩ l.kept.macroUnlocked
  · rw [l.kept.buf, h.regs.bufWf]
  · rw [bufAt_congr l.kept.buf, h.regs.bufInside i (by rwa [l.kept.cfg] at hi)]
  · rw [l.kept.cfg] at hi
    rw [l.outside hP i (hb.trans hi), h.regs.outcomeInside i hi]

theorem Programming.unlocked {s : State} {i : Instr} (h : Programming s i) (hs : Steady s) :
    s.macroUnlocked = true := by
  rw [hs.unlocked, h.active]
  rfl

theorem Programming.unitOff_lt {s : State} {i : Instr} (h : Programming s i) :
    unitOff s < (unitInfo s).capacity := by
  have hin := h.inside
  have hunit := h.unit
  rw [unitOff, unitInfo]
  omega

theorem legal_bufWords {c : Config} (h : c.legal = true) : 1 ≤ c.bufWords ∧ c.bufWords ≤ 256 := by
  obtain ⟨-, -, -, -, -, -, hbuf⟩ := legal_sizes h
  exact hbuf

theorem Programming.count_lt {s : State} {i : Instr} (h : Programming s i) (hs : Steady s) :
    s.eng.count < 2 ^ 64 := by
  obtain ⟨-, h256⟩ := legal_bufWords hs.legal
  have hbufs := h.bufs
  omega

/-- The step of the plan answers a next state of the invariant. -/
def PlanInv (pl : Plan) : Prop := ∃ t, pl.run = .next t ∧ t.Inv

theorem PlanInv.done {t : State} (h : t.Inv) : PlanInv (.done t) := ⟨t, rfl, h⟩

theorem Steady.finish {s : State} (h : Steady s) (e : ErrCode) (a : Aggregate) : PlanInv (.done (finish e a s)) :=
  .done (Steady.inv_of_start (s := Machine.finish e a s)
    (h.carry ⟨.of_eq rfl rfl, rfl, rfl, rfl⟩ (h.regs.congr rfl rfl rfl) rfl) rfl)

/-- A step of the engine that ends in a call to the OTP. -/
theorem Programming.inv_of_call {s t : State} {i : Instr} (h : Programming s i) (hs : Steady s) (u : Undisturbed s t)
    (hout : inSessionChange t.phase = false) (hp : Programming t i → PhaseOk t) : t.Inv :=
  (hs.undisturbed u).inv hout (hp (h.undisturbed u)) (u.running h.running).1

theorem readBack_inv {s : State} {i : Instr} {e : EngState} {at_ : Reg → Phase} (hs : Steady s)
    (h : Programming s i) (hout : ∀ rb, inSessionChange (at_ rb) = false)
    (hp : ∀ rb t, t.phase = at_ rb → Programming t i → t.eng.k = s.eng.k → PhaseOk t) :
    PlanInv (readBack e at_ s) := by
  have read {t : State} (rb : Reg) (u : Undisturbed (s.setEng e) t) : (t.atPhase (at_ rb)).Inv := by
    have u := ((undisturbed_setEng s e).trans u).trans (undisturbed_atPhase t (at_ rb))
    exact h.inv_of_call hs u (hout rb) fun g => hp rb _ rfl g (by rw [u.eng])
  cases hl : (unitInfo s).attemptLimited with
  | false =>
    rw [readBack_word hl rfl (unit_inside hs.legal hl h.unitOff_lt)]
    exact .done (read _ (undisturbed_macroRead ..))
  | true =>
    rw [readBack_cell hl]
    exact .done (read _ (undisturbed_macroReadCell ..))

/-- The verify read of a unit that has had no soak pulse (R187). -/
theorem readBack_verify_inv {s : State} {i : Instr} (hs : Steady s) (h : Programming s i) (hk : s.eng.k = 0) :
    PlanInv (readBack .verify .verifyRead s) :=
  readBack_inv hs h (fun _ => rfl) fun rb t ht g hkt => by
    simp only [PhaseOk, ht]
    exact ⟨i, g, hkt.trans hk⟩

/-- The re-verify read of a unit that has had a soak pulse (R187). -/
theorem readBack_reverify_inv {s : State} {i : Instr} (hs : Steady s) (h : Programming s i) (hk : 1 ≤ s.eng.k) :
    PlanInv (readBack .reverify .reverifyRead s) :=
  readBack_inv hs h (fun _ => rfl) fun rb t ht g hkt => by
    simp only [PhaseOk, ht]
    exact ⟨i, g, hkt ▸ hk⟩

/-- The normal pulse of a unit, or its verify read where no slot is selectable (R187, R188). -/
theorem normalPulse_inv {s : State} {i : Instr} (hs : Steady s) (h : Programming s i) (hk : s.eng.k = 0) :
    PlanInv (normalPulse s) := by
  have called {t : State} (st : PulseStatus) (u : Undisturbed s t) : (t.atPhase (.normalPulsed st)).Inv := by
    have u := u.trans (undisturbed_atPhase t (.normalPulsed st))
    exact h.inv_of_call hs u rfl fun g => ⟨i, g, by rw [u.eng]; exact hk⟩
  have u := undisturbed_setEng s .normalProgram
  cases hl : (unitInfo s).attemptLimited with
  | false =>
    have hin := unit_inside hs.legal hl h.unitOff_lt
    exact ⟨_, normalPulse_word hl rfl hin (h.unlocked hs),
      called _ (u.trans (undisturbed_macroPulse .normal 0 hin (targetOf_fits s.cfg hl _)))⟩
  | true =>
    cases hsel : s.select s.eng.region (unitOff s) with
    | none =>
      rw [normalPulse_none hl hsel]
      exact readBack_verify_inv (hs.undisturbed u) (h.undisturbed u) hk
    | some sl =>
      exact ⟨_, normalPulse_cell hl hsel (h.unlocked hs), called _ ((undisturbed_slot s _ sl).trans
        (undisturbed_macroPulseSlot _ _ _ (normalRequest s) .normal 0 _))⟩

/-- The soak pulse of a unit, where one can be issued (R183, R187, R188). -/
theorem soakPulse_inv {s : State} {i : Instr} (ex : Plan) (hs : Steady s) (h : Programming s i) (hc : canSoak s) :
    PlanInv (soakPulse ex s) := by
  obtain ⟨hk, hsel⟩ := hc
  have called {t : State} (st : PulseStatus) (u : Undisturbed s t) : (t.atPhase (.soakPulsed st)).Inv := by
    have u := u.trans (undisturbed_atPhase t (.soakPulsed st))
    exact h.inv_of_call hs u rfl fun g => ⟨i, g, by rw [u.eng]; exact hk⟩
  cases hl : (unitInfo s).attemptLimited with
  | false =>
    have hin := unit_inside hs.legal hl h.unitOff_lt
    exact ⟨_, soakPulse_word hk hl rfl hin (h.unlocked hs), called _ ((undisturbed_setEng s _).trans
      (undisturbed_macroPulse (.soak s.eng.soak.pulse) 0 hin (targetOf_fits s.cfg hl _)))⟩
  | true =>
    obtain ⟨sl, hsl⟩ := hsel hl
    exact ⟨_, soakPulse_cell hk hl hsl (h.unlocked hs), called _ (((undisturbed_slot s _ sl).trans
      (undisturbed_macroPulseSlot _ _ _ ((unitTarget s).getLsbD 0) (.soak s.eng.soak.pulse) 0 _)).trans
        (undisturbed_recordAttempt ..))⟩

/-- Wherever the loop of `program_op` leaves the step (R191). -/
theorem LoopEnd.planInv {P : Prop} {s : State} {lo nb : Nat} {pl : Plan} {i : Instr} (h : LoopEnd P s lo nb pl)
    (hs : Steady s) (hc : InCommand s i) (hP : P) (hn : s.eng.nsucc ≤ nb) : PlanInv pl := by
  have hbufs := hc.bufs
  obtain ⟨-, h256⟩ := legal_bufWords hs.legal
  have unitAt {t : State} {j : Nat} (l : Looped P s t) (index : t.wordIndex = BitVec.ofNat 64 j)
      (high : j < s.eng.count) (fresh : t.eng.k = 0) (succ : t.eng.nsucc ≤ j) : Programming t i := by
    have hj : unitIndex t = j := by
      rw [unitIndex, index, BitVec.toNat_ofNat, Nat.mod_eq_of_lt (by omega)]
    exact (hc.looped l).programming (by rw [hj, l.count]; exact high) (by rw [fresh]; exact Nat.zero_le _)
      (by rw [hj]; exact succ)
  cases h with
  | finish t l => exact (hs.looped l hP hbufs).finish _ _
  | normal t j l _ index _ high fresh succ =>
    exact normalPulse_inv (hs.looped l hP hbufs) (unitAt l index high fresh (succ hn)) fresh
  | soak t j ex l _ index _ high fresh succ can =>
    exact soakPulse_inv ex (hs.looped l hP hbufs) (unitAt l index high fresh (succ hn)) can

theorem closeUnit_inv {s : State} {i : Instr} (code : OutcomeCode) (hs : Steady s) (h : Programming s i) :
    PlanInv (closeUnit code s) :=
  (closeUnit_end code s).planInv hs h.inCommand ⟨h.count_lt hs, h.unit⟩ h.successes

theorem abortUnit_inv {s : State} {i : Instr} (code : OutcomeCode) (hs : Steady s) (h : Programming s i) :
    PlanInv (.done (abortUnit code s)) :=
  (hs.looped (looped_endUnit True code s (fun _ => h.unit) (n := s.eng.nsucc) (e := s.eng.firstErr)) trivial
    h.bufs).finish _ _

/-- After the normal pulse (R187). -/
theorem after_normal_inv {s : State} {i : Instr} {st : PulseStatus} (hs : Steady s) (h : Programming s i)
    (hk : s.eng.k = 0) : PlanInv (afterPulse st .verify .verifyRead (noteNormalPulse s)) := by
  have l := looped_noteNormalPulse True s fun _ => h.unit
  have hs' := hs.looped l trivial h.bufs
  have h' : Programming (noteNormalPulse s) i := (h.inCommand.looped l).programming h.unit h.pulses h.successes
  by_cases hst : st = .ready
  · subst hst
    exact readBack_verify_inv hs' h' hk
  · rw [afterPulse_bad hst]
    exact abortUnit_inv _ hs' h'

/-- After a soak pulse, which `ENG.k` counts now (R185, R187). -/
theorem after_soak_inv {s : State} {i : Instr} {st : PulseStatus} (hs : Steady s) (h : Programming s i)
    (hk : s.eng.k < s.eng.soak.retries.toNat) :
    PlanInv (afterPulse st .reverify .reverifyRead (noteSoakPulse s)) := by
  have l := looped_noteSoakPulse True s fun _ => h.unit
  have hs' := hs.looped l trivial h.bufs
  have h' : Programming (noteSoakPulse s) i := (h.inCommand.looped l).programming h.unit hk h.successes
  by_cases hst : st = .ready
  · subst hst
    exact readBack_reverify_inv hs' h' (Nat.le_add_left 1 s.eng.k)
  · rw [afterPulse_bad hst]
    exact abortUnit_inv _ hs' h'

/-- A soak pulse where one can be issued, or the unit's end (R183). -/
theorem soakPulse_or_close_inv {s : State} {i : Instr} {ex : Plan} (hs : Steady s) (h : Programming s i)
    (hex : PlanInv ex) : PlanInv (soakPulse ex s) := by
  rcases soakPulse_or ex s with hc | he
  · exact soakPulse_inv ex hs h hc
  · rwa [he]

theorem afterVerify_inv {s : State} {i : Instr} (rb : Reg) (hs : Steady s) (h : Programming s i) :
    PlanInv (afterVerify rb s) := by
  unfold afterVerify
  have u := undisturbed_setEng s .needsSoak
  split
  · exact closeUnit_inv _ hs h
  · split
    · exact soakPulse_or_close_inv (hs.undisturbed u) (h.undisturbed u)
        (closeUnit_inv _ (hs.undisturbed u) (h.undisturbed u))
    · exact closeUnit_inv _ hs h

theorem afterReverify_inv {s : State} {i : Instr} (rb : Reg) (hs : Steady s) (h : Programming s i) :
    PlanInv (afterReverify rb s) := by
  unfold afterReverify
  have u := undisturbed_setEng s .retrySoak
  split
  · exact closeUnit_inv _ hs h
  · exact soakPulse_or_close_inv (hs.undisturbed u) (h.undisturbed u) (closeUnit_inv _ hs h)

theorem writeChecks_ok {r : Region} {o n : Nat} {s : State} (h : writeChecks r o n s = .ok) :
    s.session = .active ∧ s.snap.lock = false ∧ protBit s.snap.prot r = false ∧ resolve (s.info r) o n = .ok := by
  unfold writeChecks at h
  split at h <;> [cases h; skip]
  split at h <;> [cases h; skip]
  split at h <;> [cases h; skip]
  rename_i hi hl hp
  exact ⟨session_active_of_ne hi, Bool.eq_false_iff.mpr hl, Bool.eq_false_iff.mpr hp, h⟩

/-- An engine command from its start (R194, R220). -/
theorem programCommand_inv {s : State} {i : Instr} {n : Nat} (c : SoakConfig) (hs : Steady s) (hr : running s i)
    (hi : isProgram i = true) (hn : n ≤ s.cfg.bufWords) : PlanInv (programCommand i n c s) := by
  unfold programCommand
  split
  · rename_i hw
    obtain ⟨ha, hl, hp, hres⟩ := writeChecks_ok hw
    obtain ⟨-, -, hcap⟩ := resolve_ok hres
    have hk := kept_loopStart i n c s
    obtain ⟨-, h256⟩ := legal_bufWords hs.legal
    have hstart : Steady (loopStart i n c s) :=
      hs.carry hk.carries (hs.regs.congr hk.buf rfl hk.cfg) hk.macroUnlocked
    exact (programOp_end i n c s).planInv hstart ⟨hr, hi, rfl, rfl, ha, hl, hp, hcap, hn⟩
      (by omega) (Nat.le_refl 0)
  · exact hs.finish _ _

/-! ### Reads (R222 to R224) -/

/-- READ or READ_REGION of region `r` is running, with its operands latched. -/
def readingIn (s : State) (r : Region) : Prop :=
  (running s (.read r) ∧ s.eng.count = 1 ∨ running s (.readRegion r)) ∧ s.eng.region = r ∧ s.eng.count ≤ s.cfg.bufWords

theorem reading_iff (s : State) : reading s ↔ ∃ r, readingIn s r := Iff.rfl

theorem readingIn.busy {s : State} {r : Region} (h : readingIn s r) : s.status.busy = true := by
  obtain ⟨⟨hr, -⟩ | hr, -⟩ := h
  · exact hr.1
  · exact hr.1

theorem readingIn.region {s : State} {r : Region} (h : readingIn s r) : s.eng.region = r := h.2.1

theorem readingIn.bufs {s : State} {r : Region} (h : readingIn s r) : s.eng.count ≤ s.cfg.bufWords := h.2.2

/-- The command that is running while `reading` holds. -/
theorem reading_cases {s : State} {i : Instr} (h : reading s) (hr : running s i) :
    ∃ r, readingIn s r ∧ (i = .read r ∧ s.eng.count = 1 ∨ i = .readRegion r) := by
  obtain ⟨r, hin⟩ := (reading_iff s).mp h
  exact ⟨r, hin, hin.1.imp (fun g => ⟨running_unique hr g.1, g.2⟩) (running_unique hr)⟩

theorem readingIn_congr {s t : State} {r : Region} (h : readingIn s r) (hb : t.status.busy = s.status.busy)
    (hc : t.cmdLatch = s.cmdLatch) (hcount : t.eng.count = s.eng.count) (hregion : t.eng.region = s.eng.region)
    (hcfg : t.cfg = s.cfg) : readingIn t r := by
  unfold readingIn
  rw [hcount, hregion, hcfg]
  exact ⟨h.1.imp (And.imp_left (running_congr hb hc)) (running_congr hb hc), h.2⟩

theorem readingIn.undisturbed {s t : State} {r : Region} (h : readingIn s r) (u : Undisturbed s t) : readingIn t r :=
  readingIn_congr h u.busy u.cmdLatch (by rw [u.eng]) (by rw [u.eng]) u.cfg

/-- What the read of a unit leaves, the place included. -/
theorem inv_of_unit_read {s t : State} {r : Region} {v : Reg} {i : Nat} {x : Reg} (hs : Steady s)
    (hr : readingIn s r) (hv : v = s.cfg.chipId) (hkn : knownVariant s.cfg v = true)
    (hin : s.eng.off + s.eng.count ≤ (regionInfo s.cfg v r).capacity) (hi : i < s.cfg.bufWords)
    (u : Undisturbed s t) : ((t.setBuf i x).atPhase (.unitRead v)).Inv := by
  have ht := hs.undisturbed u
  have hrt := hr.undisturbed u
  have hst : Steady ((t.setBuf i x).atPhase (.unitRead v)) :=
    ht.carry ⟨.of_eq rfl rfl, rfl, rfl, rfl⟩
      ((ht.regs.setBuf (by rw [u.cfg]; exact hi) x).congr rfl rfl rfl) rfl
  refine hst.inv rfl ?_ hrt.busy
  refine ⟨⟨r, readingIn_congr hrt rfl rfl rfl rfl rfl⟩, ?_⟩
  simp only [State.atPhase_cfg, State.setBuf_cfg, State.atPhase_eng, State.setBuf_eng, u.cfg, hrt.region]
  rw [u.eng]
  exact ⟨hv, hkn, hin⟩

/-- The read of a unit inside the region (R223, R224). -/
theorem readIntoBuf_inv {s : State} {r : Region} {v : Reg} {i : Nat} (hs : Steady s)
    (hr : readingIn s r) (hv : v = s.cfg.chipId) (hkn : knownVariant s.cfg v = true)
    (hin : s.eng.off + s.eng.count ≤ (regionInfo s.cfg v r).capacity) (hi : i < s.eng.count) :
    PlanInv (readIntoBuf r v i s) := by
  have hib : i < s.cfg.bufWords := Nat.lt_of_lt_of_le hi hr.bufs
  cases hl : (regionInfo s.cfg v r).attemptLimited with
  | false =>
    have harray := legal_inside hs.legal v r hl
    rw [readIntoBuf_word hl rfl (by omega)]
    exact .done (inv_of_unit_read hs hr hv hkn hin hib (undisturbed_macroRead ..))
  | true =>
    rw [readIntoBuf_cell hl rfl]
    exact .done (inv_of_unit_read hs hr hv hkn hin hib (undisturbed_macroReadCell ..))

/-- Unit `i` of READ_REGION, or its end (R224). -/
theorem readRegionUnit_inv {s : State} {r : Region} {v : Reg} (i : Nat) (hs : Steady s)
    (hr : readingIn s r) (hv : v = s.cfg.chipId) (hkn : knownVariant s.cfg v = true)
    (hin : s.eng.off + s.eng.count ≤ (regionInfo s.cfg v r).capacity) : PlanInv (readRegionUnit r i v s) := by
  unfold readRegionUnit
  split
  · have hk := kept_setWordIndex i s
    exact readIntoBuf_inv (hs.carry hk.carries (hs.regs.congr rfl rfl rfl) rfl)
      (readingIn_congr hr rfl rfl rfl rfl rfl) hv hkn hin ‹_›
  · exact hs.finish _ _

theorem readResolved_inv {s : State} {r : Region} {v : Reg} {transfer : Reg → State → Plan} (hs : Steady s)
    (ht : s.eng.off + s.eng.count ≤ (regionInfo s.cfg v r).capacity → PlanInv (transfer v s)) :
    PlanInv (readResolved r v transfer s) := by
  unfold readResolved
  split
  · obtain ⟨-, -, hcap⟩ := resolve_ok ‹_›
    exact ht hcap
  · exact hs.finish _ _

/-- A read at its start: in a session it transfers, and on the session-less path it reads the identifier (R222). -/
theorem readChecks_inv {s : State} {r : Region} {transfer : Reg → State → Plan} (hs : Steady s) (hr : readingIn s r)
    (ht : ∀ v, v = s.cfg.chipId → knownVariant s.cfg v = true →
      s.eng.off + s.eng.count ≤ (regionInfo s.cfg v r).capacity → PlanInv (transfer v s)) :
    PlanInv (readChecks r transfer s) := by
  unfold readChecks
  split
  · obtain ⟨hv, hkn⟩ := hs.snap.variantKnown ‹_›
    exact readResolved_inv hs (ht _ hv (by rw [hv, hkn]))
  · rename_i hidle
    split
    · have u := (undisturbed_countMacro s).trans (undisturbed_atPhase _ (.readIdRead s.cfg.chipId))
      exact .done ((hs.undisturbed u).inv rfl ⟨⟨r, hr.undisturbed u⟩, session_idle_of_ne hidle, rfl⟩ hr.busy)
    · exact hs.finish _ _

theorem readChecksId_inv {s : State} {vid : Reg} (hs : Steady s) (hr : reading s) (hidle : s.session = .idle)
    (hv : vid = s.cfg.chipId) : PlanInv (readChecksId vid s) := by
  obtain ⟨r, hr⟩ := (reading_iff s).mp hr
  unfold readChecksId
  split
  · have u := (undisturbed_countMacro s).trans (undisturbed_atPhase _ (.readProtRead vid s.deviceProt))
    exact .done ((hs.undisturbed u).inv rfl ⟨⟨r, hr.undisturbed u⟩, hidle, hv, ‹_›⟩ hr.busy)
  · exact hs.finish _ _

theorem readChecksProt_inv {s : State} {r : Region} {vid : Reg} {pp : BitVec 4} {transfer : Reg → State → Plan}
    (hs : Steady s) (ht : s.eng.off + s.eng.count ≤ (regionInfo s.cfg vid r).capacity → PlanInv (transfer vid s)) :
    PlanInv (readChecksProt r vid pp transfer s) := by
  unfold readChecksProt
  split
  · exact hs.finish _ _
  · exact readResolved_inv hs ht

/-- Latching a read's operands (R33). -/
theorem Steady.latched {s : State} (hs : Steady s) (i : Instr) (n : Nat) : Steady (latchCommand i n s) :=
  have hk := kept_latchCommand i n s
  hs.carry hk.carries (hs.regs.congr rfl rfl rfl) rfl

/-! ### The protection commands (R140 to R145) -/

/-- A region that is protectable in the device's variant has its flag after MacroProtect set it (R25, R65). -/
theorem deviceProt_protectDevice {s : State} {r : Region}
    (h : (regionInfo s.cfg s.cfg.chipId r).protectable = true) :
    regionBit r &&& (s.protectDevice r true).deviceProt = regionBit r := by
  apply prot_ext
  intro q
  simp only [State.deviceProt, State.protectDevice_otp, State.protectDevice_cfg, if_true, protBit_and, protBit_or,
    protBit_regionBit, protBit_protectMask]
  by_cases hq : q = r
  · subst hq
    simp [h]
  · simp [hq]

theorem lock_start_inv {s : State} (hs : Steady s) (hr : running s .lock) (hp : s.phase = .start) :
    PlanInv (planLock s) := by
  simp only [planLock, hp]
  split
  · exact hs.finish _ _
  · rename_i hidle
    have ha := session_active_of_ne hidle
    split
    · exact hs.finish _ _
    · have hu : s.macroUnlocked = true := by rw [hs.unlocked, ha]; rfl
      have u := (undisturbed_macroLockAll s).trans (undisturbed_atPhase _ (.lockAnswered s.answer.ok))
      refine ⟨_, needUnlocked_true hu _, (hs.undisturbed u).inv rfl
        ⟨u.running hr, u.session.trans ha, fun hok => ?_⟩ (u.running hr).1⟩
      have hok : s.answer.ok = true := hok
      simp [hok]

theorem protect_start_inv {s : State} {r : Region} (hs : Steady s) (hr : running s (.enableRegionProtection r))
    (hp : s.phase = .start) : PlanInv (planEnableRegionProtection r s) := by
  simp only [planEnableRegionProtection, hp]
  split <;> [exact hs.finish _ _; skip]
  rename_i hidle
  split <;> [exact hs.finish _ _; skip]
  rename_i hprotectable
  split <;> [exact hs.finish _ _; skip]
  split <;> [exact hs.finish _ _; skip]
  have ha := session_active_of_ne hidle
  have hu : s.macroUnlocked = true := by rw [hs.unlocked, ha]; rfl
  have hinfo : (regionInfo s.cfg s.cfg.chipId r).protectable = true := by
    rw [← (hs.snap.variantKnown ha).1]
    simpa [State.info] using hprotectable
  have u := (undisturbed_macroProtect r s).trans (undisturbed_atPhase _ (.protectAnswered s.answer.ok))
  refine ⟨_, needUnlocked_true hu _, (hs.undisturbed u).inv rfl
    ⟨r, u.running hr, u.session.trans ha, fun hok => ?_⟩ (u.running hr).1⟩
  have hok : s.answer.ok = true := hok
  have hset : (macroProtect r s).2.otp = (s.protectDevice r true).otp := by simp [hok]
  have hprot := deviceProt_protectDevice hinfo
  simp only [State.deviceProt, State.atPhase_otp, State.atPhase_cfg, hset, macroProtect_snd_cfg] at hprot ⊢
  exact hprot

/-- LOCK sets `SNAP.lock` once the device is locked (R140). -/
theorem Steady.snapLock {s : State} (hs : Steady s) (ha : s.session = .active) (hl : s.otp.physLock = true) :
    Steady s.snapLock where
  legal := hs.legal
  device := hs.device.congr rfl rfl
  regs := hs.regs.congr rfl rfl rfl
  snap := { hs.snap with
    idleClear := fun h => absurd (ha.symm.trans h) (by decide)
    lockLe := fun _ => hl }
  unlocked := hs.unlocked

/-- ENABLE_REGION_PROTECTION sets `SNAP.prot[r]` once the device has the flag (R142). -/
theorem Steady.snapProtect {s : State} {r : Region} (hs : Steady s) (ha : s.session = .active)
    (hp : regionBit r &&& s.deviceProt = regionBit r) : Steady (s.snapProtect r) where
  legal := hs.legal
  device := hs.device.congr rfl rfl
  regs := hs.regs.congr rfl rfl rfl
  snap := { hs.snap with
    idleClear := fun h => absurd (ha.symm.trans h) (by decide)
    protLe := by
      have h : (s.snap.prot ||| regionBit r) &&& s.deviceProt = s.snap.prot ||| regionBit r := by
        rw [BitVec.and_comm, BitVec.and_or_distrib_left, BitVec.and_comm, hs.snap.protLe, BitVec.and_comm, hp]
      exact h }
  unlocked := hs.unlocked

/-- QRESULT is no part of the invariant. -/
theorem Steady.setQresult {s : State} (hs : Steady s) (v : Reg) : Steady (s.setQresult v) :=
  hs.carry ⟨.of_eq rfl rfl, rfl, rfl, rfl⟩ (hs.regs.congr rfl rfl rfl) rfl

/-- A tracker command: a check fails, or the query answers (R165). -/
theorem trackerQuery_inv {s : State} {r : Region} {q : Nat → Plan} (hs : Steady s) (hp : s.phase = .start)
    (hq : ∀ c, PlanInv (q c)) : PlanInv (trackerQuery r s q) := by
  simp only [trackerQuery, hp]
  split
  · exact hq _
  · exact hs.finish _ _

/-! ### BEGIN_SESSION and END_SESSION (R130, R131) -/

/-- BEGIN_SESSION's last step: SNAP takes what MacroReadProt answered (R130). -/
theorem openSession_inv {s : State} {vid : Reg} {pp : BitVec 4} {pl : Bool} (h : Sound s)
    (hu : s.macroUnlocked = true) (hv : vid = s.cfg.chipId) (hk : knownVariant s.cfg vid = true)
    (hpp : pp &&& s.deviceProt = pp) (hpl : pl = true → s.otp.physLock = true) : (openSession vid pp pl s).Inv :=
  Steady.inv_of_start (s := openSession vid pp pl s)
    { legal := h.legal
      device := h.device.congr rfl rfl
      regs := h.regs.congr rfl rfl rfl
      snap := ⟨rfl, (fun g => nomatch g), hpp, hpl, fun _ => ⟨hv, hv ▸ hk⟩⟩
      unlocked := hu } rfl

/-- END_SESSION's last step (R131). -/
theorem closeSession_inv {s : State} (h : Sound s) (hu : s.macroUnlocked = false) : (closeSession s).Inv :=
  Steady.inv_of_start (s := closeSession s)
    { legal := h.legal
      device := h.device.congr rfl rfl
      regs := h.regs.congr rfl rfl rfl
      snap := ⟨rfl, fun _ => rfl, BitVec.zero_and, (fun g => nomatch g), fun g => nomatch g⟩
      unlocked := hu } rfl

/-- A step inside BEGIN_SESSION or END_SESSION: it may turn MACRO_UNLOCKED. -/
theorem Sound.inv_of_session_step {s t : State} {i : Instr} (h : Sound s) (c : Carries s t) (hb : t.buf = s.buf)
    (ho : t.outcome = s.outcome) (hu : t.macroUnlocked = unlockedNow t) (hp : PhaseOk t) (hr : running t i) : t.Inv :=
  (h.carry c (h.regs.congr hb ho c.evolves.grows.cfg)).inv hu hp hr.1

theorem begin_start_inv {s : State} (hs : Steady s) (hr : running s .beginSession) (hp : s.phase = .start) :
    PlanInv (planBeginSession s) := by
  simp only [planBeginSession, hp]
  split
  · exact hs.finish _ _
  · rename_i hactive
    have hidle := session_idle_of_ne hactive
    exact .done (hs.toSound.inv_of_session_step ⟨.of_eq rfl rfl, rfl, rfl, rfl⟩ rfl rfl rfl ⟨hr, hidle⟩ hr)

/-! ### Every command -/

/-- The first step of every command. -/
theorem start_inv {s : State} {i : Instr} (hs : Steady s) (hr : running s i) (hp : s.phase = .start) :
    PlanInv (planOf i s) := by
  obtain ⟨h1, -⟩ := legal_bufWords hs.legal
  cases i with
  | beginSession => exact begin_start_inv hs hr hp
  | endSession =>
    simp only [planOf, planEndSession, hp]
    exact .done (hs.toSound.inv_of_session_step ⟨.of_eq rfl rfl, rfl, rfl, rfl⟩ rfl rfl rfl hr hr)
  | read r =>
    simp only [planOf, planRead, hp]
    have hin : readingIn (latchCommand (.read r) 1 s) r := ⟨.inl ⟨hr, rfl⟩, rfl, h1⟩
    exact readChecks_inv (hs.latched _ _) hin fun v hv hk hcap =>
      readIntoBuf_inv (hs.latched _ _) hin hv hk hcap Nat.one_pos
  | readRegion r =>
    simp only [planOf, planReadRegion, hp]
    split
    · exact hs.finish _ _
    · have hin : readingIn (latchCommand (.readRegion r) (countOperand s) s) r :=
        ⟨.inr hr, rfl, Nat.not_lt.mp ‹_›⟩
      exact readChecks_inv (hs.latched _ _) hin fun v hv hk hcap =>
        readRegionUnit_inv 0 (hs.latched _ _) hin hv hk hcap
  | write r =>
    simp only [planOf, planWrite, hp]
    exact programCommand_inv _ hs hr rfl h1
  | writeRegion r p =>
    simp only [planOf, planWriteRegion, hp]
    split
    · exact hs.finish _ _
    · exact programCommand_inv _ hs hr rfl (Nat.not_lt.mp ‹_›)
  | soakProgram r =>
    simp only [planOf, planSoakProgram, hp]
    exact programCommand_inv _ hs hr rfl h1
  | programWithSoakFallback r =>
    simp only [planOf, planProgramWithSoakFallback, hp]
    exact programCommand_inv _ hs hr rfl h1
  | lock => exact lock_start_inv hs hr hp
  | isLocked =>
    simp only [planOf, planIsLocked, hp]
    split
    · exact hs.finish _ _
    · exact (hs.setQresult _).finish _ _
  | enableRegionProtection r => exact protect_start_inv hs hr hp
  | isRegionProtected r =>
    simp only [planOf, planIsRegionProtected, hp]
    split
    · exact hs.finish _ _
    · exact (hs.setQresult _).finish _ _
  | selectNextWritable r =>
    simp only [planOf, planSelectNextWritable]
    exact trackerQuery_inv hs hp fun _ => (hs.setQresult _).finish _ _
  | isWritable r =>
    simp only [planOf, planIsWritable]
    exact trackerQuery_inv hs hp fun _ => (hs.setQresult _).finish _ _
  | readSlot r =>
    simp only [planOf, planReadSlot]
    refine trackerQuery_inv hs hp fun c => ?_
    split
    · exact hs.finish _ _
    · have hbit : Steady (slotBit r c (countOperand s) s).2 :=
        hs.carry ⟨.of_eq (by simp) (by simp), by simp, by simp, by simp⟩
          (hs.regs.congr (by simp) (by simp) (by simp)) (by simp)
      exact (hbit.setQresult _).finish _ _

/-- An engine command that goes on, goes on with its plan. -/
theorem planOf_program {s : State} {i : Instr} (hi : isProgram i = true) (hp : s.phase ≠ .start) :
    (planOf i s).run = (engineResume s).run := by
  rw [← exec_eq_planOf, program_resumes hi hp]

/-- Every step of every command, from its place: the invariant says whose place it is. -/
theorem planOf_inv {s : State} {i : Instr} (h : s.Inv) (hr : running s i) : PlanInv (planOf i s) := by
  have hph := h.phase
  have steady (hout : inSessionChange s.phase = false) : Steady s := h.steady hout
  cases hp : s.phase <;> simp only [PhaseOk, hp] at hph <;> rw [hp] at steady
  case start => exact start_inv (steady rfl) hr hp
  case beginUnlocked =>
    obtain ⟨hb, hidle⟩ := hph
    cases running_unique hr hb
    have hu : s.macroUnlocked = true := by rw [h.session.unlocked, unlockedNow, hp]
    simp only [planOf, planBeginSession, hp]
    exact .done (h.sound.inv_of_session_step ⟨.of_eq rfl rfl, rfl, rfl, rfl⟩ rfl rfl hu ⟨hb, hidle, rfl⟩ hb)
  case beginIdRead vid =>
    obtain ⟨hb, hidle, hv⟩ := hph
    cases running_unique hr hb
    have hu : s.macroUnlocked = true := by rw [h.session.unlocked, unlockedNow, hp]
    simp only [planOf, planBeginSession, hp]
    split
    · exact .done (h.sound.inv_of_session_step ⟨.of_eq rfl rfl, rfl, rfl, rfl⟩ rfl rfl hu
        ⟨hb, hidle, hv, ‹_›, BitVec.and_self, id⟩ hb)
    · exact .done (h.sound.inv_of_session_step ⟨.of_eq rfl rfl, rfl, rfl, rfl⟩ rfl rfl rfl ⟨hb, hidle⟩ hb)
  case beginRelocked =>
    obtain ⟨hb, hidle⟩ := hph
    cases running_unique hr hb
    have hu : s.macroUnlocked = false := by rw [h.session.unlocked, unlockedNow, hp]
    simp only [planOf, planBeginSession, hp]
    exact Steady.finish { h.sound with unlocked := by rw [hu, hidle]; rfl } _ _
  case beginProtRead vid pp pl =>
    obtain ⟨hb, -, hv, hk, hpp, hpl⟩ := hph
    cases running_unique hr hb
    have hu : s.macroUnlocked = true := by rw [h.session.unlocked, unlockedNow, hp]
    simp only [planOf, planBeginSession, hp]
    exact .done (openSession_inv h.sound hu hv hk hpp hpl)
  case endRelocked =>
    cases running_unique hr hph
    have hu : s.macroUnlocked = false := by rw [h.session.unlocked, unlockedNow, hp]
    simp only [planOf, planEndSession, hp]
    exact .done (closeSession_inv h.sound hu)
  case lockAnswered ok =>
    obtain ⟨hl, ha, hok⟩ := hph
    cases running_unique hr hl
    simp only [planOf, planLock, hp]
    split
    · exact ((steady rfl).snapLock ha (hok ‹_›)).finish _ _
    · exact (steady rfl).finish _ _
  case protectAnswered ok =>
    obtain ⟨r, hl, ha, hok⟩ := hph
    cases running_unique hr hl
    simp only [planOf, planEnableRegionProtection, hp]
    split
    · exact ((steady rfl).snapProtect ha (hok ‹_›)).finish _ _
    · exact (steady rfl).finish _ _
  case readIdRead vid =>
    obtain ⟨hrd, hidle, hv⟩ := hph
    obtain ⟨r, -, ⟨rfl, -⟩ | rfl⟩ := reading_cases hrd hr
    · simp only [planOf, planRead, hp]
      exact readChecksId_inv (steady rfl) hrd hidle hv
    · simp only [planOf, planReadRegion, hp]
      exact readChecksId_inv (steady rfl) hrd hidle hv
  case readProtRead vid pp =>
    obtain ⟨hrd, -, hv, hk⟩ := hph
    obtain ⟨r, hin, ⟨rfl, hone⟩ | rfl⟩ := reading_cases hrd hr
    · simp only [planOf, planRead, hp]
      exact readChecksProt_inv (steady rfl) fun hcap =>
        readIntoBuf_inv (steady rfl) hin hv hk hcap (hone ▸ Nat.one_pos)
    · simp only [planOf, planReadRegion, hp]
      exact readChecksProt_inv (steady rfl) fun hcap => readRegionUnit_inv 0 (steady rfl) hin hv hk hcap
  case unitRead v =>
    obtain ⟨hrd, hv, hk, hcap⟩ := hph
    obtain ⟨r, hin, ⟨rfl, -⟩ | rfl⟩ := reading_cases hrd hr
    · simp only [planOf, planRead, hp]
      exact (steady rfl).finish _ _
    · simp only [planOf, planReadRegion, hp]
      rw [hin.region] at hcap
      exact readRegionUnit_inv _ (steady rfl) hin hv hk hcap
  case normalPulsed st =>
    obtain ⟨j, hj, hk⟩ := hph
    cases running_unique hr hj.running
    rw [PlanInv, planOf_program hj.program (by simp [hp])]
    simp only [engineResume, hp]
    exact after_normal_inv (steady rfl) hj hk
  case verifyRead rb =>
    obtain ⟨j, hj, -⟩ := hph
    cases running_unique hr hj.running
    rw [PlanInv, planOf_program hj.program (by simp [hp])]
    simp only [engineResume, hp]
    exact afterVerify_inv rb (steady rfl) hj
  case soakPulsed st =>
    obtain ⟨j, hj, hk⟩ := hph
    cases running_unique hr hj.running
    rw [PlanInv, planOf_program hj.program (by simp [hp])]
    simp only [engineResume, hp]
    exact after_soak_inv (steady rfl) hj hk
  case reverifyRead rb =>
    obtain ⟨j, hj, -⟩ := hph
    cases running_unique hr hj.running
    rw [PlanInv, planOf_program hj.program (by simp [hp])]
    simp only [engineResume, hp]
    exact afterReverify_inv rb (steady rfl) hj

end Sys2Proof.Machine
end

section
/-! The invariant over the moves of every agent (00_scope.md R13): the host's, the out-of-band agent's, resets and the
controller's. -/

namespace Sys2Proof.Machine

/-! ### Moves that leave the command where it stands -/

/-- A place of a command is kept by every move that disturbs nothing of the command. -/
theorem PhaseOk.undisturbed {s t : State} (h : PhaseOk s) (u : Undisturbed s t) (hp : t.phase = s.phase) :
    PhaseOk t := by
  have hgrows := u.evolves.grows
  have lock {ok : Bool} (h : ok = true → s.otp.physLock = true) : ok = true → t.otp.physLock = true := hgrows.lock ∘ h
  have read (h : reading s) : reading t := by
    obtain ⟨r, hr⟩ := (reading_iff s).mp h
    exact ⟨r, hr.undisturbed u⟩
  cases hps : s.phase <;> rw [hps] at hp <;> simp only [PhaseOk, hps] at h <;> simp only [PhaseOk, hp]
  case beginUnlocked | beginRelocked =>
    obtain ⟨hr, hidle⟩ := h
    exact ⟨u.running hr, u.session.trans hidle⟩
  case beginIdRead =>
    obtain ⟨hr, hidle, hv⟩ := h
    exact ⟨u.running hr, u.session.trans hidle, hv.trans (by rw [u.cfg])⟩
  case beginProtRead =>
    obtain ⟨hr, hidle, hv, hk, hpp, hpl⟩ := h
    rw [u.cfg]
    exact ⟨u.running hr, u.session.trans hidle, hv, hk, and_le_trans hpp hgrows.deviceProt, lock hpl⟩
  case endRelocked => exact u.running h
  case lockAnswered =>
    obtain ⟨hr, ha, hok⟩ := h
    exact ⟨u.running hr, u.session.trans ha, lock hok⟩
  case protectAnswered =>
    obtain ⟨r, hr, ha, hok⟩ := h
    exact ⟨r, u.running hr, u.session.trans ha, fun g => and_le_trans (hok g) hgrows.deviceProt⟩
  case readIdRead | readProtRead =>
    obtain ⟨hr, hidle, hv⟩ := h
    rw [u.cfg]
    exact ⟨read hr, u.session.trans hidle, hv⟩
  case unitRead =>
    obtain ⟨hr, hv⟩ := h
    rw [u.cfg, u.eng]
    exact ⟨read hr, hv⟩
  case normalPulsed | verifyRead | soakPulsed | reverifyRead =>
    obtain ⟨i, hi, hk⟩ := h
    exact ⟨i, hi.undisturbed u, by rw [u.eng]; exact hk⟩

/-- Where MACRO_UNLOCKED is 1 depends on the place and the session only (R31). -/
theorem unlockedNow_congr {s t : State} (hp : t.phase = s.phase) (hs : t.session = s.session) :
    unlockedNow t = unlockedNow s := by
  unfold unlockedNow
  rw [hp, hs]

theorem State.Inv.undisturbed {s t : State} (h : s.Inv) (u : Undisturbed s t) (hp : t.phase = s.phase) : t.Inv := by
  have ht := h.sound.undisturbed u
  refine ⟨ht.legal, ht.device, ht.regs, ⟨ht.snap.valid, ht.snap.idleClear, ht.snap.protLe, ht.snap.lockLe,
    ht.snap.variantKnown, ?_⟩, h.phase.undisturbed u hp, ?_⟩
  · rw [u.macroUnlocked, h.session.unlocked, unlockedNow_congr hp u.session]
  · rw [u.busy, hp]
    exact h.idleStart

/-! ### The host and the out-of-band agent -/

/-- The operands, OVERRUN and the model's own fields are no part of the invariant. -/
theorem State.Inv.registers {s : State} (h : s.Inv) (a l : Reg) (c : SoakConfig) (o : Bool) (e : Env) :
    { s with addr := a, len := l, soak := c, status := { s.status with overrun := o }, env := e }.Inv :=
  h.undisturbed ⟨⟨.of_eq rfl rfl, rfl, rfl, rfl⟩, rfl, rfl, rfl, rfl, rfl, rfl, rfl⟩ rfl

theorem State.Inv.withEnv {s : State} (h : s.Inv) (e : Env) : { s with env := e }.Inv :=
  h.registers s.addr s.len s.soak s.status.overrun e

theorem portReg_buf_lt {c : Config} {idx : PortIndex} {i : Nat} (h : portReg c idx = .buf i) : i < c.bufWords := by
  unfold portReg at h
  split at h
  case h_18 =>
    split at h
    · have hi := PortReg.buf.inj h
      omega
    · split at h <;> cases h
  all_goals cases h

/-- Acceptance starts a command (R96). -/
theorem accept_inv {s : State} (hs : Steady s) (v : Reg) : (accept v s).Inv :=
  Steady.inv_of_start (s := accept v s)
    (hs.carry ⟨.of_eq rfl rfl, rfl, rfl, rfl⟩ ⟨hs.regs.bufWf, rfl, hs.regs.bufInside, fun _ _ => rfl⟩ rfl) rfl

/-- A host write to a register while no command runs (R35, R37, R38, R42, R47). -/
theorem writeReg_inv {s : State} (h : s.Inv) (hp : s.phase = .start) (v : Reg) {idx : PortIndex} :
    (writeReg s v (portReg s.cfg idx)).Inv := by
  have hs := h.steady (by rw [hp]; rfl)
  cases hreg : portReg s.cfg idx
  case cmd => exact accept_inv hs v
  case buf i =>
    exact Steady.inv_of_start (s := s.setBuf i v)
      (hs.carry ⟨.of_eq rfl rfl, rfl, rfl, rfl⟩ (hs.regs.setBuf (portReg_buf_lt hreg) v) rfl) hp
  case addr => exact h.registers v s.len s.soak s.status.overrun s.env
  case len => exact h.registers s.addr v s.soak s.status.overrun s.env
  case soakPulse => exact h.registers s.addr s.len { s.soak with pulse := v.setWidth 32 } s.status.overrun s.env
  case soakRetries => exact h.registers s.addr s.len { s.soak with retries := v.setWidth 16 } s.status.overrun s.env
  case soakMargin => exact h.registers s.addr s.len { s.soak with margin := v.setWidth 16 } s.status.overrun s.env
  all_goals exact h

theorem hostWrite_inv {s : State} (h : s.Inv) (idx : PortIndex) (v : Reg) : (hostWrite idx v s).Inv := by
  cases hb : s.status.busy with
  | true =>
    rw [hostWrite_of_busy hb]
    exact h.registers s.addr s.len s.soak true s.env
  | false =>
    rw [hostWrite_of_idle hb]
    exact writeReg_inv h (h.idleStart hb) v

/-- The out-of-band agent changes the device alone (R72). -/
theorem oobEffect_frame (s : State) (act : OobAct) : oobEffect s act = { s with otp := (oobEffect s act).otp } := by
  cases act <;> simp only [oobEffect]
  case protect => rfl
  case lockAll => rfl
  all_goals split <;> rfl

theorem outOfBand_frame (act : OobAct) (s : State) :
    outOfBand act s = { s with otp := (outOfBand act s).otp } := by
  unfold outOfBand
  split
  · exact oobEffect_frame s act
  · rfl

theorem outOfBand_inv {s : State} (h : s.Inv) (act : OobAct) : (outOfBand act s).Inv := by
  have he := evolves_outOfBand act s
  rw [outOfBand_frame] at he ⊢
  exact h.undisturbed ⟨⟨he, rfl, rfl, rfl⟩, rfl, rfl, rfl, rfl, rfl, rfl, rfl⟩ rfl

/-! ### Resets (R48, R270, R274) -/

/-- The state after a reset of a device that has its form. -/
theorem hardReset_inv {s : State} (hc : s.cfg.legal = true) (hd : DeviceOk (hardReset s)) : (hardReset s).Inv :=
  Steady.inv_of_start (s := hardReset s)
    { legal := hc
      device := hd
      regs := ⟨rfl, rfl, fun _ _ => rfl, fun _ _ => rfl⟩
      snap := ⟨rfl, fun _ => rfl, BitVec.zero_and, (fun g => nomatch g), fun g => nomatch g⟩
      unlocked := rfl } rfl

/-- A reset that interrupts a step finds a next state where the step would have. -/
theorem cut_of_run {pl : Plan} {t : State} (s : State) (h : pl.run = .next t) : ∃ u, pl.cut s = .next (hardReset u) := by
  cases pl with
  | done u => exact ⟨s, rfl⟩
  | stop f => cases h
  | pulse p x tm mg u k =>
    obtain ⟨hu, h⟩ := needUnlocked_next h
    split at h
    · exact ⟨_, (needUnlocked_true hu _).trans (if_pos ‹_›)⟩
    · cases h
  | pulseSlot r c sl b tm mg u k => exact ⟨_, needUnlocked_true (needUnlocked_next h).1 _⟩
  | protect r u k => exact ⟨_, needUnlocked_true (needUnlocked_next h).1 _⟩
  | lockAll u k => exact ⟨_, needUnlocked_true (needUnlocked_next h).1 _⟩

/-- The device of a factory state has its form, under every configuration (R272). -/
theorem deviceOk_factory {s : State} (h : s.otp = Otp.factory) : DeviceOk s := by
  have hword (p : Nat) : s.word p = 0 := by simp [State.word, h, Otp.factory, Memory.word, Memory.read]
  have hrow (r : Region) (c : Nat) : s.row r c = factoryRow s.cfg := by simp [State.row, h, Otp.factory]
  have hslot {r : Region} {c : Nat} {x : Slot} (hx : x ∈ s.row r c) : x = factorySlot s.cfg := by
    rw [hrow] at hx
    exact List.eq_of_mem_replicate hx
  constructor
  · rw [h]
    rfl
  · rw [h]
    rfl
  · rw [h]
    rfl
  · exact fun p _ => hword p
  · intro p
    rw [hword]
    exact BitVec.zero_and
  · intro r c
    rw [hrow, factoryRow, List.length_replicate]
  · intro r c x hx
    rw [hslot hx]
    exact Nat.le_refl _
  · intro r c x hx hw
    rw [hslot hx] at hw ⊢
    exact of_decide_eq_true hw
  · rw [h]
    exact BitVec.zero_and

/-- Settles O57: the reset state is the reset of a legal configuration's factory state. -/
theorem resetSatisfiesTheInvariant : Obligations.ResetSatisfiesTheInvariant :=
  hardReset_inv (s := State.reset) (by decide) (deviceOk_factory rfl)

/-! ### The controller, and every move -/

/-- A place inside a command is one of a command that runs. -/
theorem PhaseOk.start_or_running {s : State} (h : PhaseOk s) : s.phase = .start ∨ ∃ i, running s i := by
  have read (h : reading s) : ∃ i, running s i := by
    obtain ⟨r, ⟨hr, -⟩ | hr, -⟩ := h
    · exact ⟨_, hr⟩
    · exact ⟨_, hr⟩
  cases hp : s.phase <;> simp only [PhaseOk, hp] at h
  case start => exact .inl rfl
  case endRelocked => exact .inr ⟨_, h⟩
  case beginUnlocked | beginIdRead | beginRelocked | beginProtRead | lockAnswered => exact .inr ⟨_, h.1⟩
  case readIdRead | readProtRead | unitRead => exact .inr (read h.1)
  case protectAnswered =>
    obtain ⟨r, hr, -⟩ := h
    exact .inr ⟨_, hr⟩
  case normalPulsed | verifyRead | soakPulsed | reverifyRead =>
    obtain ⟨i, hi, -⟩ := h
    exact .inr ⟨i, hi.running⟩

/-- The controller's turn answers a next state of the invariant. -/
theorem controllerTurn_inv {s : State} (h : s.Inv) : ∃ t, controllerTurn s = .next t ∧ t.Inv := by
  unfold controllerTurn
  split
  · rename_i hb
    unfold commandStep
    split
    · rename_i i hd
      rw [exec_eq_planOf]
      exact planOf_inv h ⟨hb, hd⟩
    · rename_i hd
      have hstart : s.phase = .start := h.phase.start_or_running.resolve_right fun ⟨i, hi⟩ => by
        rw [hi.2] at hd
        cases hd
      exact (h.steady (by rw [hstart]; rfl)).finish _ _
  · exact ⟨s, rfl, h⟩

/-- A reset during the controller's step answers a next state of the invariant (R274). -/
theorem interruptedTurn_inv {s : State} (h : s.Inv) : ∃ t, interruptedTurn s = .next t ∧ t.Inv := by
  have hplain : (hardReset s).Inv := hardReset_inv h.legal ((evolves_hardReset s).form h.device)
  unfold interruptedTurn
  split
  · rename_i hb
    split
    · rename_i i hd
      obtain ⟨t, hrun, -⟩ := planOf_inv h ⟨hb, hd⟩
      obtain ⟨u, hcut⟩ := cut_of_run s hrun
      have he := (planEvolves_planOf i s).cut hcut
      have hcfg : u.cfg = s.cfg := he.grows.cfg
      exact ⟨_, hcut, hardReset_inv (by rw [hcfg, h.legal]) (he.form h.device)⟩
    · exact ⟨_, rfl, hplain⟩
  · exact ⟨_, rfl, hplain⟩

/-- Every move answers a next state of the invariant. -/
theorem deliver_inv {s : State} (h : s.Inv) (e : Event) : ∃ t, deliver s e = .next t ∧ t.Inv := by
  cases e with
  | hostWrite idx v => exact ⟨_, rfl, hostWrite_inv h idx v⟩
  | hostRead idx => exact ⟨_, rfl, h.withEnv _⟩
  | controller => exact controllerTurn_inv h
  | outOfBand act => exact ⟨_, rfl, outOfBand_inv h act⟩
  | reset => exact ⟨_, rfl, hardReset_inv h.legal ((evolves_hardReset s).form h.device)⟩
  | resetDuringStep => exact interruptedTurn_inv h

/-- Say once what a step does to the invariant: it answers a next state, which satisfies it. -/
theorem step_inv {s : State} (h : s.Inv) : ∃ t, step s = .next t ∧ t.Inv := by
  cases hin : s.env.inbox with
  | nil =>
    rw [step_of_inbox_nil h.legal hin]
    exact controllerTurn_inv h
  | cons e es =>
    rw [step_of_inbox_cons h.legal hin]
    exact deliver_inv (h.withEnv _) e

/-- Settles O58: the one state that a step can answer satisfies the invariant. -/
theorem everyStepKeepsTheInvariant : Obligations.EveryStepKeepsTheInvariant := by
  intro s t h hstep
  obtain ⟨u, hu, hinv⟩ := step_inv h
  cases hstep.symm.trans hu
  exact hinv

/-- Settles O59: a step from a state of the invariant is no fault and no refusal. -/
theorem theMachineNeverStops : Obligations.TheMachineNeverStops := by
  intro s h
  obtain ⟨t, ht, -⟩ := step_inv h
  exact ⟨t, ht⟩

end Sys2Proof.Machine
end

section
/-! The host's reads, the out-of-band agent's changes, and the bits of BUF[0] that WRITE does not use (20_memory.md R67, R69,
R72). -/

namespace Sys2Proof.Machine

/-! ### Host reads -/

/-- The defaults of a listed variant, as the host reads them (R39). -/
theorem readReg_defaults {s : State} {u : Variant} (h : variantOf s.cfg s.variant = some u) :
    readReg s .defPulse = u.soak.pulse.setWidth 64 ∧ readReg s .defRetries = u.soak.retries.setWidth 64 ∧
      readReg s .defMargin = u.soak.margin.setWidth 64 := by simp only [readReg, defaultSoak, h, and_self]

/-- The defaults of an unknown variant read 0 (R39). -/
theorem readReg_defaults_unknown {s : State} (h : variantOf s.cfg s.variant = none) :
    readReg s .defPulse = 0 ∧ readReg s .defRetries = 0 ∧ readReg s .defMargin = 0 := by
  simp only [readReg, defaultSoak, h]
  decide

/-- Settles O11: the read is the step's move, which delivers a value, and each index names its register. -/
theorem hostReadsHaveNoSideEffect : Obligations.HostReadsHaveNoSideEffect := by
  refine ⟨fun s idx es hc h => ?_, fun s hbuf => ?_⟩
  · rw [step_of_inbox_cons hc h]
    exact ⟨_, rfl, rfl⟩
  · refine ⟨rfl, rfl, rfl, rfl, rfl, rfl, rfl, rfl, fun u => readReg_defaults, readReg_defaults_unknown, rfl, rfl, rfl,
      rfl, fun i hi => ?_⟩
    exact congrArg (readReg s) (portReg_buf s.cfg i hi hbuf)

/-! ### The out-of-band agent -/

theorem oobAllowed_iff (s : State) :
    oobAllowed s = true ↔ s.session = .idle ∨ s.cfg.oobDuringSession = true := by
  simp only [oobAllowed, Bool.or_eq_true, decide_eq_true_eq]

theorem outOfBand_of_allowed {s : State} (h : oobAllowed s = true) (act : OobAct) :
    outOfBand act s = oobEffect s act := if_pos h

/-- PHYS_PROT after the flag of region `r` was asked for: it rises where the device has it (R25). -/
theorem protBit_protectDevice (s : State) (r r' : Region) :
    protBit (s.protectDevice r true).otp.physProt r' =
      (protBit s.otp.physProt r' || (decide (r' = r) && (regionInfo s.cfg s.cfg.chipId r).protectable)) := by
  simp only [State.protectDevice_otp, if_true, protBit_or, protBit_and, protBit_regionBit, protBit_protectMask]
  by_cases h : r' = r
  · rw [h]
  · simp only [h, decide_false, Bool.false_and]

/-- A change of one slot reaches no other slot, and nothing else. -/
theorem modifySlot_frame {s : State} {r : Region} {c sl : Nat} (h : sl < (s.row r c).length) (f : Slot → Slot) :
    s.modifySlot r c sl f = { s with otp := { s.otp with slots := (s.modifySlot r c sl f).otp.slots } } ∧
      (s.modifySlot r c sl f).slotAt r c sl = f (s.slotAt r c sl) ∧
      ∀ r' c' sl', ¬ (r' = r ∧ c' = c ∧ sl' = sl) →
        (s.modifySlot r c sl f).slotAt r' c' sl' = s.slotAt r' c' sl' := by
  refine ⟨rfl, ?_, fun r' c' sl' hne => ?_⟩
  · rw [slotAt_modifySlot_of_lt h, if_pos ⟨rfl, rfl, rfl⟩]
  · rw [slotAt_modifySlot_of_lt h, if_neg hne]

/-- Settles O55: whether the agent may act, and then change by change what it reaches. -/
theorem outOfBandStepsChangeOneItem : Obligations.OutOfBandStepsChangeOneItem := by
  intro s
  refine ⟨fun act ha ho => if_neg ?_, fun hallowed => ?_⟩
  · rw [oobAllowed_iff, ha, ho]
    decide
  simp only [outOfBand_of_allowed ((oobAllowed_iff s).mpr hallowed)]
  refine ⟨fun p x hp => ?_, fun r => ?_, ?_, fun r c sl y hslot hlt => ?_⟩
  · have heffect : oobEffect s (.setBits p x) = s.orWord p (x &&& wordMask s.cfg) := if_pos hp
    exact ⟨_, heffect, rfl, fun q => State.word_orWord s p q _⟩
  · exact ⟨_, rfl, rfl, protBit_protectDevice s r⟩
  · simp only [oobEffect, State.lockDevice, Bool.or_true]
  · obtain ⟨hframe₁, hself₁, hother₁⟩ := modifySlot_frame hlt (Slot.commit true)
    obtain ⟨hframe₂, hself₂, hother₂⟩ := modifySlot_frame hlt (Slot.lower y)
    obtain ⟨hframe₃, hself₃, hother₃⟩ := modifySlot_frame hlt (fun x => { x with writable := false })
    refine ⟨_, _, _, if_pos hslot, if_pos hslot, if_pos hslot, hframe₁, hframe₂, hframe₃, ?_, fun hy => ?_, hself₃,
      fun r' c' sl' hne => ⟨hother₁ r' c' sl' hne, hother₂ r' c' sl' hne, hother₃ r' c' sl' hne⟩⟩
    · rw [hself₁, Slot.commit, Bool.or_true]
    · rw [hself₂, Slot.lower, if_pos hy]

/-! ### WRITE and the bits of BUF[0] that it does not use (20_memory.md R67) -/

/-- Two plans of states that differ in BUF only: where the first answers a next state, the second answers it with BUF `b`. -/
def SameButBuf (b : List (Nat × Reg)) (pl pl' : Plan) : Prop :=
  ∀ t, pl.run = .next t → pl'.run = .next { t with buf := b }

theorem sameButBuf_pulse (b : List (Nat × Reg)) (p : Nat) (x : Reg) (mg : BitVec 16) (s : State)
    {k : PulseStatus → State → State} (hk : ∀ st u, k st { u with buf := b } = { k st u with buf := b }) :
    SameButBuf b (.pulse p x .normal mg s k) (.pulse p x .normal mg { s with buf := b } k) := by
  intro t h
  obtain ⟨hu, h⟩ := needUnlocked_next h
  split at h <;> cases h
  exact (run_pulse (s := { s with buf := b }) hu ‹_›).trans
    (congrArg Host.Outcome.next (hk (macroPulse p x .normal mg s).1 (macroPulse p x .normal mg s).2))

theorem sameButBuf_pulseSlot (b : List (Nat × Reg)) (r : Region) (c sl : Nat) (bit : Bool) (mg : BitVec 16) (s : State)
    {k : PulseStatus → State → State} (hk : ∀ st u, k st { u with buf := b } = { k st u with buf := b }) :
    SameButBuf b (.pulseSlot r c sl bit .normal mg s k) (.pulseSlot r c sl bit .normal mg { s with buf := b } k) := by
  intro t h
  obtain ⟨hu, h⟩ := needUnlocked_next h
  cases h
  exact (run_pulseSlot (s := { s with buf := b }) hu).trans (congrArg Host.Outcome.next
    (hk (macroPulseSlot r c sl bit .normal mg s).1 (macroPulseSlot r c sl bit .normal mg s).2))

/-- A read of a cell does not look at BUF (R64). -/
theorem macroReadCell_withBuf (r : Region) (c : Nat) (s : State) (b : List (Nat × Reg)) :
    macroReadCell r c { s with buf := b } = ((macroReadCell r c s).1, { (macroReadCell r c s).2 with buf := b }) := by
  have hrow : State.rowPoisoned { s with buf := b } r c = s.rowPoisoned r c := rfl
  unfold macroReadCell
  rw [hrow]
  split <;> rfl

/-- The normal pulse on a word, as a plan (R187). -/
theorem normalPulse_eq_pulse {s : State} (hl : (unitInfo s).attemptLimited = false) :
    normalPulse s = .pulse ((unitInfo s).base + unitOff s) (unitTarget s) .normal s.eng.soak.margin
      (s.setEng .normalProgram) (fun st u => u.atPhase (.normalPulsed st)) :=
  if_neg (ne_true_of_eq_false hl)

/-- The normal pulse on a cell with a selectable slot, as a plan (R188). -/
theorem normalPulse_eq_pulseSlot {s : State} {sl : Nat} (hl : (unitInfo s).attemptLimited = true)
    (hs : s.select s.eng.region (unitOff s) = some sl) :
    normalPulse s = .pulseSlot s.eng.region (unitOff s) sl (normalRequest s) .normal s.eng.soak.margin
      { s.setEng .normalProgram with eng := { s.eng with slot := sl } } (fun st u => u.atPhase (.normalPulsed st)) := by
  have hs' : (s.setEng .normalProgram).select s.eng.region (unitOff (s.setEng .normalProgram)) = some sl := hs
  refine (if_pos hl).trans ?_
  simp only [State.setEng_eng, hs']
  rfl

/-- The normal pulse looks at BUF for its target only (R67, R187, R188). -/
theorem normalPulse_sameButBuf {s : State} {b : List (Nat × Reg)}
    (ht : unitTarget { s with buf := b } = unitTarget s) :
    SameButBuf b (normalPulse s) (normalPulse { s with buf := b }) := by
  cases hl : (unitInfo s).attemptLimited with
  | false =>
    rw [normalPulse_eq_pulse hl, normalPulse_eq_pulse (s := { s with buf := b }) hl, ht]
    exact sameButBuf_pulse b _ _ _ (s.setEng .normalProgram) fun _ _ => rfl
  | true =>
    cases hsel : s.select s.eng.region (unitOff s) with
    | some sl =>
      have hr : normalRequest { s with buf := b } = normalRequest s := by
        rw [normalRequest, ht]
        rfl
      rw [normalPulse_eq_pulseSlot hl hsel, normalPulse_eq_pulseSlot (s := { s with buf := b }) hl hsel, hr]
      exact sameButBuf_pulseSlot b _ _ _ _ _ { s.setEng .normalProgram with eng := { s.eng with slot := sl } }
        fun _ _ => rfl
    | none =>
      have hcell := macroReadCell_withBuf s.eng.region (unitOff s) ((s.setEng .normalProgram).setEng .verify) b
      rw [normalPulse_none hl hsel, normalPulse_none (s := { s with buf := b }) hl hsel,
        readBack_cell (s := s.setEng .normalProgram) hl,
        readBack_cell (s := ({ s with buf := b } : State).setEng .normalProgram) hl]
      intro t h
      cases h
      exact congrArg (fun x => Host.Outcome.next (x.2.atPhase (.verifyRead x.1))) hcell

/-- The one unit of a WRITE, opened (R191, R225). -/
def writeUnit (r : Region) (s : State) : State := openUnit 0 (loopStart (.write r) 1 (defaultSoak s.cfg s.variant) s)

/-- The first step of a WRITE: its checks, then its unit's normal pulse (R220, R225). -/
theorem write_begins {r : Region} {s : State} (hp : s.phase = .start) :
    (writeChecks r s.addr.toNat 1 s = .ok ∧ exec (.write r) s = (normalPulse (writeUnit r s)).run) ∨
      (writeChecks r s.addr.toNat 1 s ≠ .ok ∧
        exec (.write r) s = .next (raise (writeChecks r s.addr.toNat 1 s) s)) := by
  rw [program_starts (i := .write r) rfl hp (.inr fun _ _ h => nomatch h)]
  unfold programCommand
  split
  · rename_i h
    refine .inl ⟨h, congrArg Plan.run ?_⟩
    exact startUnit_normal (i := .write r) (s := writeUnit r s) (closeWith (runUnits 0)) rfl rfl
  · rename_i h
    exact .inr ⟨h, rfl⟩

/-- The target of a WRITE is BUF[0] under the mask of its region (R67). -/
theorem unitTarget_writeUnit (r : Region) (s : State) : unitTarget (writeUnit r s) =
    bufAt s 0 &&& (if (s.info r).attemptLimited then 1 else wordMask s.cfg) := by
  have h : unitTarget (writeUnit r s) = targetOf s.cfg (s.info r) (bufAt s 0) := rfl
  rw [h, targetOf]
  split <;> rfl

/-- Settles O52: the checks do not look at BUF, and the normal pulse looks at the masked target only. -/
theorem writeIgnoresTheUnusedDataBits : Obligations.WriteIgnoresTheUnusedDataBits := by
  intro r s t x y hxy h
  have hbuf (z : Reg) : bufAt ({ s with phase := .start }.setBuf 0 z) 0 = z := by rw [bufAt_setBuf, if_pos rfl]
  have htarget : unitTarget (writeUnit r ({ s with phase := .start }.setBuf 0 y)) =
      unitTarget (writeUnit r ({ s with phase := .start }.setBuf 0 x)) := by
    rw [unitTarget_writeUnit, unitTarget_writeUnit, hbuf, hbuf]
    exact hxy.symm
  rcases write_begins (r := r) (s := { s with phase := .start }.setBuf 0 x) rfl with ⟨hx, ex⟩ | ⟨hx, ex⟩ <;>
    rcases write_begins (r := r) (s := { s with phase := .start }.setBuf 0 y) rfl with ⟨hy, ey⟩ | ⟨hy, ey⟩
  · rw [ex] at h
    exact ⟨_, ey.trans (normalPulse_sameButBuf htarget t h), rfl⟩
  · exact absurd hx hy
  · exact absurd hy hx
  · rw [ex] at h
    cases h
    exact ⟨_, ey, rfl⟩

end Sys2Proof.Machine
end

section
/-! The command word (30_encoding.md R91 to R98): its fields determine it, the decoder takes exactly the encodings, the table's
rows are the same words, and what acceptance of a word does. -/

namespace Sys2Proof.Machine

/-! ### The fields of a word (R91) -/

/-- The bits of a word, from its fields (R91). -/
theorem getLsbD_eq_rawOf (w : Reg) {i : Nat} (hi : i < 64) : w.getLsbD i =
    if i < 8 then (rawOf w).opcode.getLsbD i else if i < 10 then (rawOf w).region.getLsbD (i - 8)
    else if i = 10 then (rawOf w).policy else (rawOf w).reserved.getLsbD (i - 11) := by
  unfold rawOf
  split
  · simp [*]
  split
  · simp [show i - 8 < 2 by omega, show 8 + (i - 8) = i by omega]
  split
  · simp [*]
  · simp [show i - 11 < 53 by omega, show 11 + (i - 11) = i by omega]

/-- No bit of a word is outside its fields (R91). -/
theorem rawOf_injective : Function.Injective rawOf := by
  intro w w' h
  apply BitVec.eq_of_getLsbD_eq
  intro i hi
  rw [getLsbD_eq_rawOf w hi, getLsbD_eq_rawOf w' hi, h]

/-- The fields of a masked word are the masked fields. -/
theorem rawOf_and (w m : Reg) : rawOf (w &&& m) =
    ⟨(rawOf w).opcode &&& (rawOf m).opcode, (rawOf w).region &&& (rawOf m).region, (rawOf w).policy && (rawOf m).policy,
      (rawOf w).reserved &&& (rawOf m).reserved⟩ := by
  simp only [rawOf, BitVec.extractLsb'_and, BitVec.getLsbD_and]

/-- The reserved bits are those from bit 11 on (R91). -/
theorem reserved_eq_zero_iff (w : Reg) : (rawOf w).reserved = 0 ↔ w >>> 11 = 0 := by
  constructor
  · intro h
    apply ushiftRight_eq_zero_of_bits
    intro i
    rcases Nat.lt_or_ge i 53 with hi | hi
    · rw [getLsbD_eq_rawOf w (by omega), h]
      simp (disch := omega) [if_neg]
    · exact BitVec.getLsbD_of_ge _ _ (by omega)
  · intro h
    refine extractLsb'_eq_of_bits fun i _ => ?_
    rw [← BitVec.getLsbD_ushiftRight, h]
    simp

/-- The fields of a command's word: its OPCODE and its operands' codes, 0 where it names none (R91 to R94). -/
def rawFields (i : Instr) : RawCommand := ⟨opcodeOf i, regionCode (regionField i), policyBit (policyField i), 0⟩

/-- The fields put together as R91 does come apart again. -/
theorem rawOf_fields (op : BitVec 8) (r : BitVec 2) (p : Bool) :
    rawOf (op.zeroExtend 64 ||| (r.zeroExtend 64 <<< 8) ||| ((BitVec.ofBool p).zeroExtend 64 <<< 10)) = ⟨op, r, p, 0⟩ := by
  rw [rawOf, RawCommand.mk.injEq]
  refine ⟨extractLsb'_eq_of_bits fun i hi => ?_, extractLsb'_eq_of_bits fun i hi => ?_, ?_,
    extractLsb'_eq_of_bits fun i hi => ?_⟩
  · simp [hi, show i < 10 by omega, show i < 64 by omega]
  · simp [show 8 + i < 10 by omega, show 8 + i < 64 by omega]
  · simp
  · simp (disch := omega) [BitVec.getLsbD_of_ge]

theorem rawOf_encode (i : Instr) : rawOf (encode i) = rawFields i := rawOf_fields _ _ _

/-- A word is a command's encoding when its fields are the command's. -/
theorem rawOf_eq_rawFields_iff (w : Reg) (i : Instr) : rawOf w = rawFields i ↔ w = encode i := by
  rw [← rawOf_encode, rawOf_injective.eq_iff]

/-! ### The operand codes and the opcode map (R92 to R94) -/

theorem regionCode_regionOf (c : BitVec 2) : regionCode (regionOf c) = c := by decide +revert

theorem regionOf_regionCode (r : Region) : regionOf (regionCode r) = r := by cases r <;> rfl

theorem policyBit_policyOf (b : Bool) : policyBit (policyOf b) = b := by cases b <;> rfl

theorem policyOf_policyBit (p : Policy) : policyOf (policyBit p) = p := by cases p <;> rfl

/-- The opcode map gives a command of the opcode, with the operands that such a command takes. -/
theorem opcodeMap_some {op : BitVec 8} {r : Region} {p : Policy} {i : Instr} (h : opcodeMap op r p = some i) :
    opcodeOf i = op ∧ (regionField i = if takesRegion i then r else .bulkData) ∧
      policyField i = if takesPolicy i then p else .continueOnError := by
  unfold opcodeMap at h
  split at h
  case h_16 => cases h
  all_goals
    cases h
    exact ⟨BitVec.eq_of_toNat_eq (Eq.symm ‹_›), rfl, rfl⟩

theorem opcodeMap_opcodeOf (i : Instr) : opcodeMap (opcodeOf i) (regionField i) (policyField i) = some i := by
  cases i <;> rfl

/-- The opcodes that are no command (R94). -/
theorem opcodeMap_eq_none_iff (op : BitVec 8) (r : Region) (p : Policy) :
    opcodeMap op r p = none ↔ op = 0 ∨ 0x0F < op.toNat := by
  rw [← BitVec.toNat_inj, show (0 : BitVec 8).toNat = 0 from rfl]
  unfold opcodeMap
  split
  case h_16 => grind
  all_goals simp only [reduceCtorEq, false_iff]; omega

/-- The opcodes of the commands without a region (R97). -/
theorem takesRegion_eq_false_iff (i : Instr) : takesRegion i = false ↔
    opcodeOf i = 0x01 ∨ opcodeOf i = 0x02 ∨ opcodeOf i = 0x07 ∨ opcodeOf i = 0x08 := by
  cases i <;> simp [takesRegion, opcodeOf]

/-- WRITE_REGION's opcode is the only one with a policy (R93, R97). -/
theorem takesPolicy_eq_false_iff (i : Instr) : takesPolicy i = false ↔ opcodeOf i ≠ 0x06 := by
  cases i <;> simp [takesPolicy, opcodeOf]

/-! ### The decoder (R97) -/

/-- The fields are those of a word with command `i`'s opcode: any code of an operand that `i` takes, 0 elsewhere (R97). -/
structure OfOpcode (i : Instr) (f : RawCommand) : Prop where
  opcode : f.opcode = opcodeOf i
  region : takesRegion i = false → f.region = 0
  policy : takesPolicy i = false → f.policy = false
  reserved : f.reserved = 0

theorem ofOpcode_rawFields (i : Instr) : OfOpcode i (rawFields i) := by
  obtain ⟨-, hr, hp⟩ := opcodeMap_some (opcodeMap_opcodeOf i)
  refine ⟨rfl, fun h => ?_, fun h => ?_, rfl⟩
  · rw [rawFields, hr, h]
    rfl
  · rw [rawFields, hp, h]
    rfl

/-- Which operands a command takes is its opcode's matter. -/
theorem OfOpcode.congr {i j : Instr} {f : RawCommand} (h : OfOpcode i f) (hij : opcodeOf i = opcodeOf j) :
    OfOpcode j f := by
  obtain ⟨hop, hregion, hpolicy, hres⟩ := h
  rw [takesRegion_eq_false_iff, hij, ← takesRegion_eq_false_iff] at hregion
  rw [takesPolicy_eq_false_iff, hij, ← takesPolicy_eq_false_iff] at hpolicy
  exact ⟨hop.trans hij, hregion, hpolicy, hres⟩

/-- A command's opcode is in the map, whatever the operands. -/
theorem OfOpcode.opcodeMap_ne_none {i : Instr} {f : RawCommand} (h : OfOpcode i f) (r : Region) (p : Policy) :
    opcodeMap f.opcode r p ≠ none := by
  rw [h.opcode, Ne, opcodeMap_eq_none_iff, ← opcodeMap_eq_none_iff _ (regionField i) (policyField i), opcodeMap_opcodeOf]
  exact Option.some_ne_none i

/-- The fields give back the command they are mapped to: its operands are theirs, and the codes it lacks are 0. -/
theorem OfOpcode.eq_rawFields {i : Instr} {f : RawCommand} (h : OfOpcode i f)
    (hmap : opcodeMap f.opcode (regionOf f.region) (policyOf f.policy) = some i) : f = rawFields i := by
  obtain ⟨hop, hregion, hpolicy, hres⟩ := h
  obtain ⟨-, hr, hp⟩ := opcodeMap_some hmap
  have hregion' : f.region = regionCode (regionField i) := by
    cases ht : takesRegion i with
    | true => rw [hr, ht, if_pos rfl, regionCode_regionOf]
    | false => rw [hr, ht, hregion ht]; rfl
  have hpolicy' : f.policy = policyBit (policyField i) := by
    cases ht : takesPolicy i with
    | true => rw [hp, ht, if_pos rfl, policyBit_policyOf]
    | false => rw [hp, ht, hpolicy ht]; rfl
  rw [rawFields, ← hop, ← hregion', ← hpolicy', ← hres]

/-- The checks of R97 pass when the opcode is a command's and the fields it does not take are 0. -/
theorem decodeRaw_eq_ok_iff_opcodeMap (f : RawCommand) (i : Instr) : decodeRaw f = .ok i ↔
    opcodeMap f.opcode (regionOf f.region) (policyOf f.policy) = some i ∧ OfOpcode i f := by
  constructor
  · intro h
    unfold decodeRaw at h
    split at h
    · cases h
    next hres =>
    split at h
    · cases h
    next j hmap =>
    split at h
    · cases h
    next hregion =>
    split at h
    · cases h
    next hpolicy =>
    cases h
    obtain ⟨hop, -, -⟩ := opcodeMap_some hmap
    exact ⟨hmap, hop.symm, by simpa using hregion, by simpa using hpolicy, not_not.mp hres⟩
  · rintro ⟨hmap, -, hregion, hpolicy, hres⟩
    simp only [decodeRaw, hres, hmap]
    rw [if_neg (by simp), if_neg (by simpa using hregion), if_neg (by simpa using hpolicy)]

/-- The decoder takes exactly a command's fields. -/
theorem decodeRaw_eq_ok_iff (f : RawCommand) (i : Instr) : decodeRaw f = .ok i ↔ f = rawFields i := by
  rw [decodeRaw_eq_ok_iff_opcodeMap]
  constructor
  · rintro ⟨hmap, h⟩
    exact h.eq_rawFields hmap
  · rintro rfl
    refine ⟨?_, ofOpcode_rawFields i⟩
    simp only [rawFields, regionOf_regionCode, policyOf_policyBit, opcodeMap_opcodeOf]

theorem decode_eq_ok_iff (w : Reg) (i : Instr) : decode w = .ok i ↔ w = encode i :=
  (decodeRaw_eq_ok_iff (rawOf w) i).trans (rawOf_eq_rawFields_iff w i)

/-- Settles O1: the decoder takes exactly a command's fields, and a word is its fields. -/
theorem decodeExactlyInvertsEncode : Obligations.DecodeExactlyInvertsEncode := decode_eq_ok_iff

/-- A word is legal when some command has its opcode and takes the operands it gives. -/
theorem exists_decode_ok_iff (w : Reg) : (∃ i, decode w = .ok i) ↔ ∃ i, OfOpcode i (rawOf w) := by
  constructor
  · rintro ⟨i, h⟩
    exact ⟨i, ((decodeRaw_eq_ok_iff_opcodeMap _ i).mp h).2⟩
  · rintro ⟨i, h⟩
    obtain ⟨j, hmap⟩ := Option.ne_none_iff_exists'.mp (h.opcodeMap_ne_none _ _)
    obtain ⟨hop, -, -⟩ := opcodeMap_some hmap
    exact ⟨j, (decodeRaw_eq_ok_iff_opcodeMap _ j).mpr ⟨hmap, h.congr (h.opcode.symm.trans hop.symm)⟩⟩

/-! ### The table's rows (spec/opcode_table.json) -/

/-- The mask of the row of a command's opcode: the bits of the operands it takes are free. -/
def rowMask (i : Instr) : Reg :=
  if takesPolicy i then 0xFFFFFFFFFFFFF8FF else if takesRegion i then 0xFFFFFFFFFFFFFCFF else 0xFFFFFFFFFFFFFFFF

theorem rawOf_rowMask (i : Instr) : rawOf (rowMask i) =
    ⟨BitVec.allOnes 8, if takesRegion i then 0 else BitVec.allOnes 2, !takesPolicy i, BitVec.allOnes 53⟩ := by
  have h : takesPolicy i = true → takesRegion i = true := by cases i <;> simp [takesPolicy, takesRegion]
  unfold rowMask
  split
  next hp => rw [hp, h hp]; decide
  next hp =>
    rw [Bool.eq_false_of_not_eq_true hp]
    cases takesRegion i <;> decide

theorem rawOf_opcodeWord (op : BitVec 8) : rawOf (op.zeroExtend 64) = ⟨op, 0, false, 0⟩ := by
  simpa using rawOf_fields op 0 false

/-- Every row of the table is that of a command. -/
theorem exists_instr_of_row {row : OpRow} (h : row ∈ opcodeRows) :
    ∃ i, row.pattern = (opcodeOf i).zeroExtend 64 ∧ row.mask = rowMask i := by
  simp only [opcodeRows, List.mem_cons, List.not_mem_nil, or_false] at h
  rcases h with rfl | rfl | rfl | rfl | rfl | rfl | rfl | rfl | rfl | rfl | rfl | rfl | rfl | rfl | rfl
  exacts [⟨.beginSession, rfl, rfl⟩, ⟨.endSession, rfl, rfl⟩, ⟨.read .bulkData, rfl, rfl⟩, ⟨.write .bulkData, rfl, rfl⟩,
    ⟨.readRegion .bulkData, rfl, rfl⟩, ⟨.writeRegion .bulkData .continueOnError, rfl, rfl⟩, ⟨.lock, rfl, rfl⟩,
    ⟨.isLocked, rfl, rfl⟩, ⟨.enableRegionProtection .bulkData, rfl, rfl⟩, ⟨.isRegionProtected .bulkData, rfl, rfl⟩,
    ⟨.soakProgram .bulkData, rfl, rfl⟩, ⟨.programWithSoakFallback .bulkData, rfl, rfl⟩,
    ⟨.selectNextWritable .bulkData, rfl, rfl⟩, ⟨.isWritable .bulkData, rfl, rfl⟩, ⟨.readSlot .bulkData, rfl, rfl⟩]

/-- Every command has a row in the table. -/
theorem exists_row_of_instr (i : Instr) :
    ∃ row ∈ opcodeRows, row.pattern = (opcodeOf i).zeroExtend 64 ∧ row.mask = rowMask i := by
  cases i <;> simp [opcodeRows, opcodeOf, rowMask, takesPolicy, takesRegion]

/-- A row covers the words of its command's opcode, whatever the operands. -/
theorem covers_iff_ofOpcode {row : OpRow} {i : Instr} (hp : row.pattern = (opcodeOf i).zeroExtend 64)
    (hm : row.mask = rowMask i) (w : Reg) : row.covers w = true ↔ OfOpcode i (rawOf w) := by
  rw [OpRow.covers, beq_iff_eq, hp, hm, ← rawOf_injective.eq_iff, rawOf_and, rawOf_rowMask, rawOf_opcodeWord,
    RawCommand.mk.injEq]
  simp only [BitVec.and_allOnes]
  constructor
  · rintro ⟨hop, hregion, hpolicy, hres⟩
    refine ⟨hop, fun h => ?_, fun h => ?_, hres⟩
    · simpa only [h, Bool.false_eq_true, if_false, BitVec.and_allOnes] using hregion
    · simpa only [h, Bool.not_false, Bool.and_true] using hpolicy
  · rintro ⟨hop, hregion, hpolicy, hres⟩
    refine ⟨hop, ?_, ?_, hres⟩
    · cases h : takesRegion i with
      | true => simp
      | false => simp [hregion h]
    · cases h : takesPolicy i with
      | true => simp
      | false => simp [hpolicy h]

/-- The legal words are those of a command's opcode with operands that it takes. -/
theorem legalWord_iff (w : Reg) : legalWord w = true ↔ ∃ i, OfOpcode i (rawOf w) := by
  rw [legalWord, List.any_eq_true]
  constructor
  · rintro ⟨row, hrow, hcovers⟩
    obtain ⟨i, hp, hm⟩ := exists_instr_of_row hrow
    exact ⟨i, (covers_iff_ofOpcode hp hm w).mp hcovers⟩
  · rintro ⟨i, h⟩
    obtain ⟨row, hrow, hp, hm⟩ := exists_row_of_instr i
    exact ⟨row, hrow, (covers_iff_ofOpcode hp hm w).mpr h⟩

/-- A word that a row covers has the row's opcode. -/
theorem opcode_eq_of_covers {row : OpRow} (hrow : row ∈ opcodeRows) {w : Reg} (h : row.covers w = true) :
    (rawOf w).opcode = (rawOf row.pattern).opcode := by
  obtain ⟨i, hp, hm⟩ := exists_instr_of_row hrow
  rw [((covers_iff_ofOpcode hp hm w).mp h).opcode, hp, rawOf_opcodeWord]

/-- No two rows have the same opcode. -/
theorem opcodeRows_opcodes_differ :
    opcodeRows.Pairwise fun a b => (rawOf a.pattern).opcode ≠ (rawOf b.pattern).opcode := by decide

/-- Settles O3: rows and decoder take the words of a command's opcode with its operands, and a row's opcode is its own. -/
theorem legalWordsAreTheTablesRows : Obligations.LegalWordsAreTheTablesRows := by
  refine ⟨fun w => (legalWord_iff w).trans (exists_decode_ok_iff w).symm, ?_⟩
  refine opcodeRows_opcodes_differ.imp_of_mem fun ha hb hne w ⟨hca, hcb⟩ => hne ?_
  rw [← opcode_eq_of_covers ha hca, opcode_eq_of_covers hb hcb]

/-! ### Refused words (R97, R98) -/

theorem exists_decode_error_iff (w : Reg) : (∃ e, decode w = .error e) ↔ ¬ ∃ i, decode w = .ok i := by
  cases decode w <;> simp

/-- R97's checks, on the fields. -/
theorem exists_ofOpcode_iff (f : RawCommand) : (∃ i, OfOpcode i f) ↔
    f.reserved = 0 ∧ ¬ (f.opcode = 0 ∨ 0x0F < f.opcode.toNat) ∧
      (f.opcode = 0x01 ∨ f.opcode = 0x02 ∨ f.opcode = 0x07 ∨ f.opcode = 0x08 → f.region = 0) ∧
      (f.opcode ≠ 0x06 → f.policy = false) := by
  rw [← opcodeMap_eq_none_iff _ .bulkData .continueOnError]
  constructor
  · rintro ⟨i, h⟩
    have hknown := h.opcodeMap_ne_none .bulkData .continueOnError
    obtain ⟨hop, hregion, hpolicy, hres⟩ := h
    rw [takesRegion_eq_false_iff, ← hop] at hregion
    rw [takesPolicy_eq_false_iff, ← hop] at hpolicy
    exact ⟨hres, hknown, hregion, hpolicy⟩
  · rintro ⟨hres, hknown, hregion, hpolicy⟩
    obtain ⟨i, hmap⟩ := Option.ne_none_iff_exists'.mp hknown
    obtain ⟨hop, -, -⟩ := opcodeMap_some hmap
    rw [← hop, ← takesRegion_eq_false_iff] at hregion
    rw [← hop, ← takesPolicy_eq_false_iff] at hpolicy
    exact ⟨i, hop.symm, hregion, hpolicy, hres⟩

/-- A refused word ends the command at once (R98). -/
theorem controllerTurn_of_refused {s : State} {e : Reject} (hb : s.status.busy = true)
    (hd : decode s.cmdLatch = .error e) : controllerTurn s = .next (raise .illegalCommand s) := by
  simp only [controllerTurn, hb, if_true, commandStep, hd]

/-- Settles O4: R97's checks on the fields are the bits named, and a refused word's turn is `raise`. -/
theorem illegalWordsEndWithIllegalCommand : Obligations.IllegalWordsEndWithIllegalCommand := by
  refine ⟨fun w => ?_, fun s e hc hin hb hd => ?_⟩
  · rw [exists_decode_error_iff, exists_decode_ok_iff, exists_ofOpcode_iff, reserved_eq_zero_iff]
    simp only [not_and_or, not_not, Classical.not_imp, Bool.not_eq_false, or_assoc]
    rfl
  · rw [step_of_inbox_nil hc hin, controllerTurn_of_refused hb hd]
    rfl

/-- Settles O2: the listed words are encodings, and the illegal examples fail the check they are listed for. -/
theorem listedWordsDecode : Obligations.ListedWordsDecode := by
  unfold Obligations.ListedWordsDecode
  simp only [decode_eq_ok_iff]
  decide

/-! ### Acceptance (R96) -/

/-- A word written to CMD while no command runs is accepted. -/
theorem hostWrite_cmd {s : State} (hb : s.status.busy = false) (v : Reg) : hostWrite 0 v s = accept v s :=
  hostWrite_of_idle hb 0 v

/-- Settles O7: the write is acceptance, which clears the results and no more. -/
theorem acceptanceClearsTheResults : Obligations.AcceptanceClearsTheResults := fun s v hb =>
  ⟨accept v s, hostWrite_cmd hb v, rfl, fun _ => rfl⟩

theorem withFetchWord_toNat (s : State) (w : Reg) : s.withFetchWord 64 w.toNat = issue w s := by
  rw [State.withFetchWord, Nat.mod_eq_of_lt w.isLt, BitVec.ofNat_toNat, BitVec.setWidth_eq]

/-- Settles O6: the write is the step's move and accepts the word, which the controller's turn then decodes. -/
theorem writtenCommandRunsNext : Obligations.WrittenCommandRunsNext := by
  intro s w i hc hb hd hin
  rw [withFetchWord_toNat]
  constructor
  · rw [step_of_inbox_cons hc hin]
    exact congrArg Host.Outcome.next (hostWrite_cmd (s := { s with env := { s.env with inbox := [] } }) hb w)
  · rw [step_of_inbox_nil (s := issue w s) hc rfl]
    exact controllerTurn_of_running ⟨rfl, hd⟩

end Sys2Proof.Machine
end

section
/-! `resolve` case by case, in the order of its checks (40_region_map.md R120 to R124). -/

namespace Sys2Proof.Machine

/-- Each result of `resolve` with its case; the four cases exclude each other. -/
theorem resolve_cases (info : RegionInfo) (o n : Nat) :
    (resolve info o n = .invalidAddress ∧ info.capacity ≤ o) ∨
    (resolve info o n = .alignmentError ∧ o < info.capacity ∧ o % info.alignment ≠ 0) ∨
    (resolve info o n = .boundaryError ∧ o < info.capacity ∧ o % info.alignment = 0 ∧ info.capacity < o + n) ∨
    (resolve info o n = .ok ∧ o < info.capacity ∧ o % info.alignment = 0 ∧ o + n ≤ info.capacity) := by
  by_cases ho : info.capacity ≤ o
  · exact .inl ⟨if_pos ho, ho⟩
  by_cases ha : o % info.alignment ≠ 0
  · exact .inr (.inl ⟨(if_neg ho).trans (if_pos ha), Nat.lt_of_not_le ho, ha⟩)
  rw [not_le] at ho
  rw [not_not] at ha
  by_cases hn : info.capacity < o + n
  · exact .inr (.inr (.inl ⟨by simp [resolve, ho, ha, hn], ho, ha, hn⟩))
  · exact .inr (.inr (.inr ⟨resolve_of_inside ho ha (not_lt.mp hn), ho, ha, not_lt.mp hn⟩))

/-- A range of one unit that starts inside the region ends inside it. -/
theorem resolve_one_ne_boundaryError (info : RegionInfo) (o : Nat) : resolve info o 1 ≠ .boundaryError := by
  rcases resolve_cases info o 1 with ⟨hr, -⟩ | ⟨hr, -⟩ | ⟨-, ho, -, hn⟩ | ⟨hr, -⟩
  · simp [hr]
  · simp [hr]
  · omega
  · simp [hr]

/-- Settles O33: in each case `resolve` has one result, and the conditions of the other results fail. -/
theorem resolveClassifiesRequests : Obligations.ResolveClassifiesRequests := by
  intro info o n
  have hone := resolve_one_ne_boundaryError info o
  rcases resolve_cases info o n with ⟨hr, ho⟩ | ⟨hr, ho, ha⟩ | ⟨hr, ho, ha, hn⟩ | ⟨hr, ho, ha, hn⟩
  · simp [hr, ho, hone]
  · simp [hr, ho, ha, hone]
  · simp [hr, ho, ha, hn, hone]
  · simp [hr, ho, ha, hn, hone]

end Sys2Proof.Machine
end

section
/-! The session commands from start to end (41_session.md R130, R131), and what the other commands report without a session
(R132). -/

namespace Sys2Proof.Machine

/-! ### BEGIN_SESSION and END_SESSION -/

/-- `finish` in any step of a command that started in `s` goes back to the place of `s` and changes STATUS (R44). -/
theorem finish_of_started {s : State} (hp : s.phase = .start) (e : ErrCode) (a : Aggregate) (t : State) :
    finish e a t = { t with phase := s.phase, status := finished e a t.status } := by
  rw [hp]
  rfl

/-- CNT_MACRO after three macro calls (R45). -/
theorem macros_add_three (x : Reg) : x + 3 = x + 1 + 1 + 1 := by
  rw [BitVec.add_assoc, BitVec.add_assoc]
  rfl

/-- Settles O19: the calls unlock the macro and read its identifier and its flags, and the last step opens the session. -/
theorem beginSessionOpensASession : Obligations.BeginSessionOpensASession := by
  intro s hp hi hk
  refine ⟨_, _, _, begin_unlocks hp hi, begin_readsId rfl, begin_readsProt rfl (by simpa using hk), ?_⟩
  rw [begin_opens rfl, openSession, finish_of_started hp, macros_add_three]
  simp [State.deviceProt]

/-- Settles O20: while Active the first step is `raise`; on an unknown variant the third call relocks the macro. -/
theorem beginSessionRefusals : Obligations.BeginSessionRefusals := by
  intro s hp
  constructor
  · intro hi
    rw [begin_active hp hi, raise_of_start hp]
  · intro hi hk
    refine ⟨_, _, _, begin_unlocks hp hi, begin_readsId rfl, begin_relocks rfl (by simpa using hk), ?_⟩
    rw [begin_fails rfl, finish_of_started hp, macros_add_three]
    simp

/-- Settles O21: the first step relocks the macro whatever the session, and the second closes the session. -/
theorem endSessionAlwaysRelocks : Obligations.EndSessionAlwaysRelocks := by
  intro s hp
  refine ⟨_, end_relocks hp, ?_⟩
  rw [end_closes rfl, closeSession, finish_of_started hp]
  simp [Snap.clear]

/-! ### Without a session -/

/-- `write_checks` looks at the session first (R220). -/
theorem writeChecks_idle {s : State} (hi : s.session = .idle) (r : Region) (o n : Nat) :
    writeChecks r o n s = .noSession := if_pos hi

/-- `tracker_checks` looks at the session first (R165). -/
theorem trackerChecks_idle {s : State} (hi : s.session = .idle) (r : Region) (c : Nat) :
    trackerChecks r c s = .noSession := if_pos hi

/-- Without a session a tracker command is refused before its query (R165). -/
theorem trackerQuery_idle {s : State} (hp : s.phase = .start) (hi : s.session = .idle) (r : Region) (q : Nat → Plan) :
    trackerQuery r s q = .done (raise .noSession s) := by
  simp only [trackerQuery, hp, trackerChecks_idle hi]

/-- Without a session, and without session-less reads, a read is refused (R222). -/
theorem readChecks_idle {s : State} (hi : s.session = .idle) (hw : s.cfg.readWithoutSession = false) (r : Region)
    (transfer : Reg → State → Plan) : readChecks r transfer s = .done (raise .noSession s) := by
  simp [readChecks, hi, hw]

/-- Without a session an engine command past the LEN check of WRITE_REGION is refused (R220). -/
theorem program_idle {i : Instr} {s : State} (hi : isProgram i = true) (hp : s.phase = .start) (hs : s.session = .idle)
    (hn : unitCount i s ≤ s.cfg.bufWords ∨ ∀ r p, i ≠ .writeRegion r p) :
    exec i s = .next (raise .noSession s) := by
  rw [program_starts hi hp hn, programCommand, writeChecks_idle hs]
  rfl

/-- The commands that read the array (R222). -/
def isRead : Instr → Bool
  | .read _ | .readRegion _ => true
  | _ => false

/-- Without a session a command that is neither a session command nor a read is refused, past the LEN check (R132). -/
theorem exec_idle {i : Instr} {s : State} (hc : isSessionCommand i = false) (hr : isRead i = false)
    (hp : s.phase = .start) (hs : s.session = .idle)
    (hn : ∀ r p, i = .writeRegion r p → s.len.toNat ≤ s.cfg.bufWords) : exec i s = .next (raise .noSession s) := by
  cases i with
  | beginSession | endSession => cases hc
  | read | readRegion => cases hr
  | write | soakProgram | programWithSoakFallback =>
    exact program_idle rfl hp hs (.inr fun _ _ => Instr.noConfusion)
  | writeRegion r p => exact program_idle rfl hp hs (.inl (hn r p rfl))
  | lock | isLocked | enableRegionProtection | isRegionProtected =>
    simp [exec_eq_planOf, planOf, planLock, planIsLocked, planEnableRegionProtection, planIsRegionProtected, hp, hs,
      Plan.run]
  | selectNextWritable | isWritable | readSlot =>
    simp only [exec_eq_planOf, planOf, planSelectNextWritable, planIsWritable, planReadSlot, trackerQuery_idle hp hs,
      Plan.run]

/-- Without a session, and without session-less reads, READ is refused with its latches in ENG (R222, R223). -/
theorem read_idle {s : State} (hp : s.phase = .start) (hs : s.session = .idle) (hw : s.cfg.readWithoutSession = false)
    (r : Region) : exec (.read r) s = .next (raise .noSession (latchCommand (.read r) 1 s)) := by
  simp only [exec_eq_planOf, planOf, planRead, hp]
  rw [readChecks_idle (s := latchCommand (.read r) 1 s) hs hw]
  rfl

/-- The same of READ_REGION, past its LEN check (R224). -/
theorem readRegion_idle {s : State} (hp : s.phase = .start) (hs : s.session = .idle)
    (hw : s.cfg.readWithoutSession = false) (r : Region) (hn : s.len.toNat ≤ s.cfg.bufWords) :
    exec (.readRegion r) s = .next (raise .noSession (latchCommand (.readRegion r) (countOperand s) s)) := by
  simp only [exec_eq_planOf, planOf, planReadRegion, hp]
  have hlen : ¬ countOperand s > s.cfg.bufWords := Nat.not_lt.mpr hn
  rw [if_neg hlen, readChecks_idle (s := latchCommand (.readRegion r) (countOperand s) s) hs hw]
  rfl

/-- Settles O23: a read is refused after it latched ENG, every other command with ENG as it was. -/
theorem commandsNeedASession : Obligations.CommandsNeedASession := by
  intro i s hp hs hb he hread hlen
  have refused (e : Eng) : raise .noSession { s with eng := e } =
      { s with eng := e, status := finished .noSession .failure s.status } :=
    raise_of_start (s := { s with eng := e }) hp _
  cases hr : isRead i with
  | true =>
    cases i with
    | read r => exact ⟨_, (read_idle hp hs (hread r (.inl rfl)) r).trans (congrArg _ (refused _))⟩
    | readRegion r =>
      have hn := hlen r .continueOnError (.inl rfl)
      exact ⟨_, (readRegion_idle hp hs (hread r (.inr rfl)) r hn).trans (congrArg _ (refused _))⟩
    | _ => cases hr
  | false =>
    have hc : isSessionCommand i = false := by
      cases i with
      | beginSession | endSession => contradiction
      | _ => rfl
    have hn (r p) (h : i = .writeRegion r p) : s.len.toNat ≤ s.cfg.bufWords := hlen r p (.inr h)
    exact ⟨s.eng, (exec_idle hc hr hp hs hn).trans (congrArg _ (refused _))⟩

end Sys2Proof.Machine
end

section
/-! The protection commands from start to end (42_protection.md R140 to R143): what they ask of the macro, what they answer, and
the order of their checks. -/

namespace Sys2Proof.Machine

/-! ### LOCK and IS_LOCKED -/

/-- LOCK of a device whose snapshot is locked makes no macro call (R140). -/
theorem lock_locked {s : State} (hp : s.phase = .start) (hi : s.session = .active) (hl : s.snap.lock = true) :
    exec .lock s = .next (finish .ok .success s) := by
  simp [exec, execLock, planLock, hp, hi, hl, Plan.run]

theorem isLocked_answers {s : State} (hp : s.phase = .start) (hi : s.session = .active) :
    exec .isLocked s = .next (finish .ok .success (s.setQresult (boolWord s.snap.lock))) := by
  simp [exec, execIsLocked, planIsLocked, hp, hi, Plan.run]

/-- Settles O24: the first step asks the macro and the second notes its answer, or the first step ends the command. -/
theorem lockSetsTheLock : Obligations.LockSetsTheLock := by
  intro s hp hi
  constructor
  · intro hu hl
    refine ⟨_, lock_asks hp hi hl hu, ?_⟩
    rw [lock_ends rfl, macroLockAll_fst_eq]
    cases hok : s.answer.ok with
    | true =>
      rw [if_pos rfl, finish_of_started hp]
      simp [hok, finished]
    | false =>
      rw [if_neg Bool.false_ne_true, finish_of_started hp]
      simp [hok, finished, ← hl]
  · intro hl
    rw [lock_locked hp hi hl, finish_of_start hp]

/-! ### ENABLE_REGION_PROTECTION and IS_REGION_PROTECTED -/

theorem protect_unprotectable {s : State} {r : Region} (hp : s.phase = .start) (hi : s.session = .active)
    (hr : (s.info r).protectable = false) :
    exec (.enableRegionProtection r) s = .next (raise .illegalCommand s) := by
  simp [exec, execEnableRegionProtection, planEnableRegionProtection, hp, hi, hr, Plan.run]

theorem protect_locked {s : State} {r : Region} (hp : s.phase = .start) (hi : s.session = .active)
    (hr : (s.info r).protectable = true) (hl : s.snap.lock = true) :
    exec (.enableRegionProtection r) s = .next (raise .memoryLocked s) := by
  simp [exec, execEnableRegionProtection, planEnableRegionProtection, hp, hi, hr, hl, Plan.run]

/-- Protecting a region whose flag the snapshot has makes no macro call (R142). -/
theorem protect_protected {s : State} {r : Region} (hp : s.phase = .start) (hi : s.session = .active)
    (hr : (s.info r).protectable = true) (hl : s.snap.lock = false) (hb : protBit s.snap.prot r = true) :
    exec (.enableRegionProtection r) s = .next (finish .ok .success s) := by
  simp [exec, execEnableRegionProtection, planEnableRegionProtection, hp, hi, hr, hl, hb, Plan.run]

theorem isRegionProtected_answers {s : State} {r : Region} (hp : s.phase = .start) (hi : s.session = .active) :
    exec (.isRegionProtected r) s = .next (finish .ok .success (s.setQresult (boolWord (protBit s.snap.prot r)))) := by
  simp [exec, execIsRegionProtected, planIsRegionProtected, hp, hi, Plan.run]

/-- Settles O25: both queries end in their first step with a bit of the snapshot in QRESULT. -/
theorem protectionQueriesAnswerTheSnapshot : Obligations.ProtectionQueriesAnswerTheSnapshot := by
  intro r s hp hi
  rw [isLocked_answers hp hi, isRegionProtected_answers hp hi, boolWord_eq, boolWord_eq, finish_of_started hp,
    finish_of_started hp]
  exact ⟨rfl, rfl⟩

/-- Settles O27: each check ends the command in its first step, where those before it pass. -/
theorem enableProtectionChecksInOrder : Obligations.EnableProtectionChecksInOrder := by
  intro r s hp hi
  refine ⟨fun hr => ?_, fun hr hl => ?_, fun hr hl hb => ?_⟩
  · rw [protect_unprotectable hp hi hr, raise_of_start hp]
  · rw [protect_locked hp hi hr hl, raise_of_start hp]
  · rw [protect_protected hp hi hr hl hb, finish_of_start hp]

/-- MacroProtect sets the flag of its region, which the device has, and no other (R25, R65). -/
theorem protBit_macroProtect {s : State} {r : Region} (hr : (regionInfo s.cfg s.cfg.chipId r).protectable = true)
    (q : Region) : protBit (macroProtect r s).2.otp.physProt q =
      (protBit s.otp.physProt q || (decide (q = r) && (s.answer.ok || s.answer.took))) := by
  rw [macroProtect_snd_otp]
  cases s.answer.ok || s.answer.took with
  | false => simp
  | true => rw [protBit_protectDevice, hr]

theorem protBit_snapProtect (s : State) (r q : Region) :
    protBit (s.snapProtect r).snap.prot q = (protBit s.snap.prot q || decide (q = r)) := by
  rw [State.snapProtect_snap, protBit_or, protBit_regionBit]

/-- Settles O26: the first step asks the macro, which sets the device's flag, and the second notes its answer in SNAP. -/
theorem enableProtectionSetsTheRegionsFlag : Obligations.EnableProtectionSetsTheRegionsFlag := by
  intro r s hp hi hu hv hr hl hb
  have hwired : (regionInfo s.cfg s.cfg.chipId r).protectable = true := hv ▸ hr
  refine ⟨_, _, protect_asks hp hi hr hl hb hu, protect_ends rfl, ?_⟩
  rw [macroProtect_fst_eq]
  cases hok : s.answer.ok with
  | true =>
    rw [if_pos rfl, finish_of_started hp]
    refine ⟨fun q => ?_, fun q => ?_, ?_⟩
    · rw [← hok]
      exact protBit_macroProtect hwired q
    · rw [Bool.and_true]
      exact protBit_snapProtect s r q
    · simp [hok, finished]
  | false =>
    rw [if_neg Bool.false_ne_true, finish_of_started hp]
    refine ⟨fun q => ?_, fun q => ?_, ?_⟩
    · rw [← hok]
      exact protBit_macroProtect hwired q
    · rw [Bool.and_false, Bool.or_false]
      rfl
    · simp [hok, finished]

end Sys2Proof.Machine
end

section
/-! One-way protection (42_protection.md R144): no step of any agent clears a flag or the lock, neither the device's nor, while
the snapshot stays valid, the snapshot's. -/

namespace Sys2Proof.Machine

/-! ### SNAP only grows -/

/-- What R144 allows of SNAP between `p` and `q`: while it is valid, its flags and its lock only rise. -/
structure SnapGrows (p q : Snap) : Prop where
  prot : q.valid = true → p.prot &&& q.prot = p.prot
  lock : q.valid = true → p.lock = true → q.lock = true

theorem SnapGrows.refl (p : Snap) : SnapGrows p p := ⟨fun _ => BitVec.and_self, fun _ => id⟩

theorem SnapGrows.of_eq {p q : Snap} (h : q = p) : SnapGrows p q := h ▸ .refl p

/-- A snapshot that is cleared is no longer valid (R30). -/
theorem snapGrows_clear (p : Snap) : SnapGrows p Snap.clear := ⟨nofun, nofun⟩

/-- A snapshot that is taken when none was valid has nothing to keep (R130). -/
theorem SnapGrows.from_clear (q : Snap) : SnapGrows Snap.clear q := ⟨fun _ => BitVec.zero_and, nofun⟩

theorem snapGrows_snapLock (s : State) : SnapGrows s.snap s.snapLock.snap := ⟨fun _ => BitVec.and_self, fun _ _ => rfl⟩

theorem snapGrows_snapProtect (s : State) (r : Region) : SnapGrows s.snap (s.snapProtect r).snap where
  prot _ := by
    apply prot_ext
    intro q
    rw [protBit_and, protBit_snapProtect]
    exact inf_sup_self
  lock _ := id

/-- A flag stays where a field only rises. -/
theorem protBit_of_and_eq {a b : BitVec 4} (h : a &&& b = a) {r : Region} (hr : protBit a r = true) :
    protBit b r = true := by
  rw [← h, protBit_and, Bool.and_eq_true] at hr
  exact hr.2

/-! ### The plans of a command -/

/-- SNAP has grown from `p` after the step of the plan: it has in the state that the step ends in, or it has in the state of the
step's interruptible call and the rest of the step keeps it. -/
def PlanGrowsSnap (p : Snap) : Plan → Prop
  | .done t => SnapGrows p t.snap
  | .stop _ => True
  | .pulse _ _ _ _ u k => SnapGrows p u.snap ∧ ∀ st v, (k st v).snap = v.snap
  | .pulseSlot _ _ _ _ _ _ u k => SnapGrows p u.snap ∧ ∀ st v, (k st v).snap = v.snap
  | .protect _ u k => SnapGrows p u.snap ∧ ∀ ok v, (k ok v).snap = v.snap
  | .lockAll u k => SnapGrows p u.snap ∧ ∀ ok v, (k ok v).snap = v.snap

/-- The whole step: the macro's primitives do not reach SNAP. -/
theorem PlanGrowsSnap.run {p : Snap} {pl : Plan} {t : State} (g : PlanGrowsSnap p pl) (h : pl.run = .next t) :
    SnapGrows p t.snap := by
  rcases run_cases h with rfl | ⟨_, _, _, _, u, k, rfl, -, -, rfl⟩ | ⟨_, _, _, _, _, _, u, k, rfl, -, rfl⟩ |
    ⟨_, u, k, rfl, -, rfl⟩ | ⟨u, k, rfl, -, rfl⟩
  · exact g
  all_goals
    obtain ⟨hu, hk⟩ := g
    rw [hk]
    simpa using hu

/-- A step that a reset interrupts ends in the reset (R274). -/
theorem cut_snap {pl : Plan} {s t : State} (h : pl.cut s = .next t) : t.snap = Snap.clear := by
  cases pl with
  | done => cases h; rfl
  | stop => cases h
  | pulse =>
    obtain ⟨-, h⟩ := needUnlocked_next h
    split at h <;> cases h
    rfl
  | pulseSlot | protect | lockAll =>
    obtain ⟨-, h⟩ := needUnlocked_next h
    cases h
    rfl

section
variable {p : Snap} {s : State} (h : SnapGrows p s.snap)
include h

/-! ### The engine -/

theorem planGrowsSnap_readUnit (v : Reg) (r : Region) (o : Nat) {k : Reg → State → State}
    (hk : ∀ x u, (k x u).snap = u.snap) : PlanGrowsSnap p (readUnit v r o s k) := by
  simp only [readUnit]
  split
  · simpa [PlanGrowsSnap, hk] using h
  · split
    · simpa [PlanGrowsSnap, hk] using h
    · trivial

theorem planGrowsSnap_readBack (e : EngState) (at_ : Reg → Phase) : PlanGrowsSnap p (readBack e at_ s) := by
  unfold readBack
  exact planGrowsSnap_readUnit (s := s.setEng e) h _ _ _ fun _ _ => rfl

theorem planGrowsSnap_normalPulse : PlanGrowsSnap p (normalPulse s) := by
  simp only [normalPulse]
  split
  · split
    · exact ⟨h, fun _ _ => rfl⟩
    · exact planGrowsSnap_readBack (s := s.setEng .normalProgram) h _ _
  · exact ⟨h, fun _ _ => rfl⟩

/-- The soak pulse, or what the unit does when none can be issued. -/
theorem planGrowsSnap_soakPulse {ex : Plan} (hex : ¬ canSoak s → PlanGrowsSnap p ex) :
    PlanGrowsSnap p (soakPulse ex s) := by
  by_cases hc : canSoak s
  · obtain ⟨hk, hsel⟩ := hc
    simp only [soakPulse, if_pos hk]
    split
    · obtain ⟨sl, hsl⟩ := hsel ‹_›
      rw [hsl]
      exact ⟨h, fun _ _ => rfl⟩
    · exact ⟨h, fun _ _ => rfl⟩
  · rw [(soakPulse_or ex s).resolve_left hc]
    exact hex hc

/-- Wherever the loop of `program_op` leaves the step. -/
theorem LoopEnd.planGrowsSnap {P : Prop} {lo nb : Nat} {pl : Plan} (hl : LoopEnd P s lo nb pl) : PlanGrowsSnap p pl := by
  cases hl with
  | finish t hl => exact (hl.kept.snap ▸ h : SnapGrows p t.snap)
  | normal t j hl => exact planGrowsSnap_normalPulse (hl.kept.snap ▸ h)
  | soak t j ex hl _ _ _ _ _ _ can => exact planGrowsSnap_soakPulse (hl.kept.snap ▸ h) fun n => absurd can n

theorem planGrowsSnap_closeUnit (c : OutcomeCode) : PlanGrowsSnap p (closeUnit c s) :=
  (closeUnit_end c s).planGrowsSnap h

theorem planGrowsSnap_afterPulse (st : PulseStatus) (e : EngState) (at_ : Reg → Phase) :
    PlanGrowsSnap p (afterPulse st e at_ s) := by
  unfold afterPulse
  split
  · exact planGrowsSnap_readBack h _ _
  · exact h

theorem planGrowsSnap_engineResume : PlanGrowsSnap p (engineResume s) := by
  have close := planGrowsSnap_closeUnit h
  unfold engineResume
  split
  · exact planGrowsSnap_afterPulse (s := noteNormalPulse s) h _ _ _
  · unfold afterVerify
    split <;> [exact close _; skip]
    split <;> [exact planGrowsSnap_soakPulse (s := s.setEng .needsSoak) h fun _ => close _; exact close _]
  · exact planGrowsSnap_afterPulse (s := noteSoakPulse s) h _ _ _
  · unfold afterReverify
    split <;> [exact close _; exact planGrowsSnap_soakPulse (s := s.setEng .retrySoak) h fun _ => close _]
  · trivial

theorem planGrowsSnap_programCommand (i : Instr) (n : Nat) (c : SoakConfig) :
    PlanGrowsSnap p (programCommand i n c s) := by
  unfold programCommand
  split
  · exact (programOp_end i n c s).planGrowsSnap (s := loopStart i n c s) h
  · exact h

/-! ### Reads and queries -/

theorem planGrowsSnap_readIntoBuf (r : Region) (v : Reg) (i : Nat) : PlanGrowsSnap p (readIntoBuf r v i s) :=
  planGrowsSnap_readUnit h _ _ _ fun _ _ => rfl

theorem planGrowsSnap_readRegionUnit (r : Region) (i : Nat) (v : Reg) : PlanGrowsSnap p (readRegionUnit r i v s) := by
  unfold readRegionUnit
  split
  · exact planGrowsSnap_readIntoBuf (s := s.setWordIndex i) h _ _ _
  · exact h

theorem planGrowsSnap_readResolved (r : Region) (v : Reg) {transfer : Reg → State → Plan}
    (ht : ∀ v, PlanGrowsSnap p (transfer v s)) : PlanGrowsSnap p (readResolved r v transfer s) := by
  unfold readResolved
  split
  · exact ht v
  · exact h

theorem planGrowsSnap_readChecks (r : Region) {transfer : Reg → State → Plan}
    (ht : ∀ v, PlanGrowsSnap p (transfer v s)) : PlanGrowsSnap p (readChecks r transfer s) := by
  unfold readChecks
  split
  · exact planGrowsSnap_readResolved h _ _ ht
  · split <;> exact h

theorem planGrowsSnap_readChecksId (v : Reg) : PlanGrowsSnap p (readChecksId v s) := by
  unfold readChecksId
  split <;> exact h

theorem planGrowsSnap_readChecksProt (r : Region) (v : Reg) (pp : BitVec 4) {transfer : Reg → State → Plan}
    (ht : ∀ v, PlanGrowsSnap p (transfer v s)) : PlanGrowsSnap p (readChecksProt r v pp transfer s) := by
  unfold readChecksProt
  split
  · exact h
  · exact planGrowsSnap_readResolved h _ _ ht

theorem planGrowsSnap_trackerQuery (r : Region) {q : Nat → Plan} (hq : ∀ c, PlanGrowsSnap p (q c)) :
    PlanGrowsSnap p (trackerQuery r s q) := by
  unfold trackerQuery
  split
  · split
    · exact hq _
    · exact h
  · trivial

end

/-! ### The commands that write SNAP -/

theorem planGrowsSnap_beginSession {s : State}
    (hc : ∀ vid pp pl, s.phase = .beginProtRead vid pp pl → s.snap = Snap.clear) :
    PlanGrowsSnap s.snap (planBeginSession s) := by
  have same : SnapGrows s.snap s.snap := .refl _
  cases hp : s.phase <;> simp only [planBeginSession, hp]
  case start => split <;> exact same
  case beginUnlocked => exact same
  case beginIdRead => split <;> exact same
  case beginRelocked => exact same
  case beginProtRead vid pp pl =>
    rw [hc vid pp pl hp]
    exact .from_clear _
  all_goals trivial

theorem planGrowsSnap_endSession (s : State) : PlanGrowsSnap s.snap (planEndSession s) := by
  unfold planEndSession
  split
  · exact .refl s.snap
  · exact snapGrows_clear s.snap
  · trivial

theorem planGrowsSnap_lock (s : State) : PlanGrowsSnap s.snap (planLock s) := by
  have same : SnapGrows s.snap s.snap := .refl _
  unfold planLock
  split
  · split <;> [exact same; skip]
    split <;> [exact same; exact ⟨same, fun _ _ => rfl⟩]
  · split <;> [exact snapGrows_snapLock s; exact same]
  · trivial

theorem planGrowsSnap_enableRegionProtection (r : Region) (s : State) :
    PlanGrowsSnap s.snap (planEnableRegionProtection r s) := by
  have same : SnapGrows s.snap s.snap := .refl _
  unfold planEnableRegionProtection
  split
  · split <;> [exact same; skip]
    split <;> [exact same; skip]
    split <;> [exact same; skip]
    split <;> [exact same; exact ⟨same, fun _ _ => rfl⟩]
  · split <;> [exact snapGrows_snapProtect s r; exact same]
  · trivial

/-! ### Every command -/

/-- Every plan of every command, where no snapshot is valid when BEGIN_SESSION takes one. -/
theorem planGrowsSnap_planOf (i : Instr) {s : State}
    (hc : ∀ vid pp pl, s.phase = .beginProtRead vid pp pl → s.snap = Snap.clear) : PlanGrowsSnap s.snap (planOf i s) := by
  have same : SnapGrows s.snap s.snap := .refl _
  cases i with
  | beginSession => exact planGrowsSnap_beginSession hc
  | endSession => exact planGrowsSnap_endSession s
  | lock => exact planGrowsSnap_lock s
  | enableRegionProtection r => exact planGrowsSnap_enableRegionProtection r s
  | read r =>
    simp only [planOf, planRead]
    split
    · have latched : SnapGrows s.snap (latchCommand (.read r) 1 s).snap := same
      exact planGrowsSnap_readChecks latched _ fun _ => planGrowsSnap_readIntoBuf latched _ _ _
    · exact planGrowsSnap_readChecksId same _
    · exact planGrowsSnap_readChecksProt same _ _ _ fun _ => planGrowsSnap_readIntoBuf same _ _ _
    · exact same
    · trivial
  | readRegion r =>
    simp only [planOf, planReadRegion]
    split
    · split <;> [exact same; skip]
      have latched : SnapGrows s.snap (latchCommand (.readRegion r) (countOperand s) s).snap := same
      exact planGrowsSnap_readChecks latched _ fun _ => planGrowsSnap_readRegionUnit latched _ _ _
    · exact planGrowsSnap_readChecksId same _
    · exact planGrowsSnap_readChecksProt same _ _ _ fun _ => planGrowsSnap_readRegionUnit same _ _ _
    · exact planGrowsSnap_readRegionUnit same _ _ _
    · trivial
  | write r | soakProgram r | programWithSoakFallback r =>
    simp only [planOf, planWrite, planSoakProgram, planProgramWithSoakFallback]
    split
    · exact planGrowsSnap_programCommand same _ _ _
    · exact planGrowsSnap_engineResume same
  | writeRegion r q =>
    simp only [planOf, planWriteRegion]
    split
    · split <;> [exact same; exact planGrowsSnap_programCommand same _ _ _]
    · exact planGrowsSnap_engineResume same
  | isLocked | isRegionProtected r =>
    simp only [planOf, planIsLocked, planIsRegionProtected]
    split
    · split <;> exact same
    · trivial
  | selectNextWritable r | isWritable r =>
    simp only [planOf, planSelectNextWritable, planIsWritable]
    exact planGrowsSnap_trackerQuery same r fun _ => same
  | readSlot r =>
    simp only [planOf, planReadSlot]
    refine planGrowsSnap_trackerQuery same r fun c => ?_
    split
    · exact same
    · simpa [PlanGrowsSnap] using same

/-! ### Every agent -/

/-- BEGIN_SESSION takes its snapshot while none is valid (R30, R130). -/
theorem State.Inv.snap_clear_at_beginProtRead {s : State} (h : s.Inv) {vid : Reg} {pp : BitVec 4} {pl : Bool}
    (hp : s.phase = .beginProtRead vid pp pl) : s.snap = Snap.clear := by
  have hph := h.phase
  simp only [PhaseOk, hp] at hph
  obtain ⟨-, hidle, -⟩ := hph
  exact h.session.idleClear hidle

theorem snapGrows_controllerTurn {s t : State} (hs : s.Inv) (h : controllerTurn s = .next t) :
    SnapGrows s.snap t.snap := by
  unfold controllerTurn commandStep at h
  split at h
  · split at h
    · rw [exec_eq_planOf] at h
      exact (planGrowsSnap_planOf _ fun _ _ _ => hs.snap_clear_at_beginProtRead).run h
    · cases h
      exact .refl s.snap
  · cases h
    exact .refl s.snap

theorem interruptedTurn_snap {s t : State} (h : interruptedTurn s = .next t) : t.snap = Snap.clear := by
  unfold interruptedTurn at h
  split at h
  · split at h
    · exact cut_snap h
    · cases h
      rfl
  · cases h
    rfl

/-- No register that the host writes is part of SNAP (R41, R47). -/
theorem hostWrite_snap (idx : PortIndex) (v : Reg) (s : State) : (hostWrite idx v s).snap = s.snap := by
  unfold hostWrite
  split
  · rfl
  · cases portReg s.cfg idx <;> rfl

theorem outOfBand_snap (act : OobAct) (s : State) : (outOfBand act s).snap = s.snap := by
  rw [outOfBand_frame]

theorem snapGrows_deliver {s t : State} {e : Event} (hs : s.Inv) (h : deliver s e = .next t) :
    SnapGrows s.snap t.snap := by
  cases e with
  | hostWrite idx v =>
    cases h
    exact .of_eq (hostWrite_snap idx v s)
  | hostRead idx =>
    cases h
    exact .refl s.snap
  | controller => exact snapGrows_controllerTurn hs h
  | outOfBand act =>
    cases h
    exact .of_eq (outOfBand_snap act s)
  | reset =>
    cases h
    exact snapGrows_clear s.snap
  | resetDuringStep =>
    rw [interruptedTurn_snap h]
    exact snapGrows_clear s.snap

/-- Say once what a step of any agent does to SNAP: it grows while it stays valid. -/
theorem snapGrows_step {s t : State} (hs : s.Inv) (h : step s = .next t) : SnapGrows s.snap t.snap := by
  cases hin : s.env.inbox with
  | nil =>
    rw [step_of_inbox_nil hs.legal hin] at h
    exact snapGrows_controllerTurn hs h
  | cons e es =>
    rw [step_of_inbox_cons hs.legal hin] at h
    exact snapGrows_deliver (s := { s with env := { s.env with inbox := es } }) (hs.withEnv _) h

/-- Settles O28: a step of any agent is a growing of the device, and of the snapshot while it stays valid. -/
theorem protectionIsOneWay : Obligations.ProtectionIsOneWay := by
  intro s t hs h
  have device := everyStepPreservesTheMonotonicLaws s t h
  have snap := snapGrows_step hs h
  exact ⟨fun _ => protBit_of_and_eq device.prot, device.lock,
    fun _ hv => ⟨fun _ => protBit_of_and_eq (snap.prot hv), snap.lock hv⟩⟩

end Sys2Proof.Machine
end

section
/-! The tracker commands in a session (43_write_attempt_tracker.md R161 to R165): their checks, what `select` finds, and what the
three queries put in QRESULT. -/

namespace Sys2Proof.Machine

/-! ### The checks and the query (R165) -/

theorem trackerChecks_unlimited {s : State} {r : Region} (hi : s.session = .active)
    (hl : (s.info r).attemptLimited = false) (c : Nat) : trackerChecks r c s = .illegalCommand := by
  simp [trackerChecks, hi, hl]

theorem trackerChecks_outside {s : State} {r : Region} {c : Nat} (hi : s.session = .active)
    (hl : (s.info r).attemptLimited = true) (hc : (s.info r).capacity ≤ c) : trackerChecks r c s = .invalidAddress := by
  simp [trackerChecks, hi, hl, hc]

theorem trackerChecks_inside {s : State} {r : Region} {c : Nat} (hi : s.session = .active)
    (hl : (s.info r).attemptLimited = true) (hc : c < (s.info r).capacity) : trackerChecks r c s = .ok := by
  simp [trackerChecks, hi, hl, hc]

theorem trackerQuery_refused {s : State} {r : Region} {e : ErrCode} (hp : s.phase = .start)
    (hc : trackerChecks r s.addr.toNat s = e) (he : e ≠ .ok) (q : Nat → Plan) :
    trackerQuery r s q = .done (raise e s) := by
  cases e with
  | ok => contradiction
  | _ => simp only [trackerQuery, hp, offsetOperand, hc]

/-- On a cell of an attempt-limited region the query is asked. -/
theorem trackerQuery_asks {s : State} {r : Region} (hp : s.phase = .start) (hi : s.session = .active)
    (hl : (s.info r).attemptLimited = true) (hc : s.addr.toNat < (s.info r).capacity) (q : Nat → Plan) :
    trackerQuery r s q = q s.addr.toNat := by
  simp only [trackerQuery, hp, offsetOperand, trackerChecks_inside hi hl hc]

/-- Each tracker command ends with the error of its checks. -/
theorem tracker_refuses {i : Instr} {s : State} {r : Region} {e : ErrCode} (hp : s.phase = .start)
    (ht : i = .selectNextWritable r ∨ i = .isWritable r ∨ i = .readSlot r)
    (hc : trackerChecks r s.addr.toNat s = e) (he : e ≠ .ok) : exec i s = .next (raise e s) := by
  have refused := trackerQuery_refused hp hc he
  rw [exec_eq_planOf]
  rcases ht with rfl | rfl | rfl
  · rw [planOf, planSelectNextWritable, refused, run_done]
  · rw [planOf, planIsWritable, refused, run_done]
  · rw [planOf, planReadSlot, refused, run_done]

/-! ### `select` (R161) -/

theorem Slot.selectable_iff {x : Slot} : x.selectable = true ↔ 0 < x.remaining ∧ x.writable = true := by
  simp [Slot.selectable]

theorem slotAt_eq_getElem {s : State} {r : Region} {c sl : Nat} (h : sl < (s.row r c).length) :
    s.slotAt r c sl = (s.row r c)[sl] := List.getD_eq_getElem _ _ h

theorem select_eq_none_iff {s : State} {r : Region} {c : Nat} : s.select r c = none ↔
    ∀ sl < (s.row r c).length, ¬ (0 < (s.slotAt r c sl).remaining ∧ (s.slotAt r c sl).writable = true) := by
  rw [State.select, List.findIdx?_eq_none_iff, List.forall_mem_iff_forall_getElem]
  refine forall₂_congr fun sl h => ?_
  rw [slotAt_eq_getElem h, ← Slot.selectable_iff, Bool.not_eq_true]

theorem select_eq_some_of_first {s : State} {r : Region} {c sl : Nat} (h : sl < (s.row r c).length)
    (hsl : 0 < (s.slotAt r c sl).remaining ∧ (s.slotAt r c sl).writable = true)
    (hmin : ∀ j < sl, ¬ (0 < (s.slotAt r c j).remaining ∧ (s.slotAt r c j).writable = true)) :
    s.select r c = some sl := by
  refine List.findIdx?_eq_some_iff_getElem.mpr ⟨h, ?_, fun j hj => ?_⟩
  · rw [← slotAt_eq_getElem h, Slot.selectable_iff]
    exact hsl
  · rw [← slotAt_eq_getElem (hj.trans h), Slot.selectable_iff]
    exact hmin j hj

/-! ### The words in QRESULT (R40) -/

/-- The index of a slot fits below bit 8, which says that there is one. -/
theorem selectWord_some {sl : Nat} (h : sl < 256) : selectWord (some sl) = BitVec.ofNat 64 (0x100 + sl) := by
  have hor : 0x100 ||| sl = 0x100 + sl := (Nat.two_pow_add_eq_or_of_lt (i := 8) h 1).symm
  rw [← hor, BitVec.ofNat_or]
  rfl

theorem boolWord_eq_zero_or_one (b : Bool) : boolWord b = 0 ∨ boolWord b = 1 := by cases b <;> decide

theorem boolWord_eq_one_iff {b : Bool} : boolWord b = 1 ↔ b = true := by cases b <;> decide

theorem slotWord_remaining (n : Nat) (w c : Bool) : (slotWord n w c).extractLsb' 0 32 = BitVec.ofNat 32 n := by
  apply BitVec.eq_of_getLsbD_eq
  intro i hi
  simp [slotWord_getLsbD, hi]

theorem slotWord_writable (n : Nat) (w c : Bool) : (slotWord n w c).getLsbD 32 = w := by
  rw [slotWord_getLsbD]
  simp

theorem slotWord_committed (n : Nat) (w c : Bool) : (slotWord n w c).getLsbD 33 = c := by
  rw [slotWord_getLsbD]
  simp

theorem slotWord_reserved (n : Nat) (w c : Bool) : slotWord n w c >>> 34 = 0 := by
  apply BitVec.eq_of_getLsbD_eq
  intro i hi
  rw [BitVec.getLsbD_ushiftRight, slotWord_getLsbD]
  simp (disch := omega) only [if_neg]
  exact BitVec.getLsbD_zero.symm

/-! ### The queries -/

section
variable {s : State} {r : Region} (hp : s.phase = .start) (hi : s.session = .active)
  (hl : (s.info r).attemptLimited = true) (hc : s.addr.toNat < (s.info r).capacity)
include hp hi hl hc

theorem selectNextWritable_answers : exec (.selectNextWritable r) s =
    .next (finish .ok .success (s.setQresult (selectWord (s.select r s.addr.toNat)))) := by
  rw [exec_eq_planOf, planOf, planSelectNextWritable, trackerQuery_asks hp hi hl hc, run_done]

theorem isWritable_answers : exec (.isWritable r) s =
    .next (finish .ok .success (s.setQresult (boolWord (s.select r s.addr.toNat).isSome))) := by
  rw [exec_eq_planOf, planOf, planIsWritable, trackerQuery_asks hp hi hl hc, run_done]

/-- READ_SLOT past its slot check (R164). -/
theorem readSlot_answers (hn : s.len.toNat < s.cfg.numSlots) : exec (.readSlot r) s =
    .next (finish .ok .success ((slotBit r s.addr.toNat s.len.toNat s).2.setQresult
      (slotWord (s.slotAt r s.addr.toNat s.len.toNat).remaining (s.slotAt r s.addr.toNat s.len.toNat).writable
        (slotBit r s.addr.toNat s.len.toNat s).1))) := by
  rw [exec_eq_planOf, planOf, planReadSlot, trackerQuery_asks hp hi hl hc]
  exact congrArg Plan.run (if_neg (Nat.not_le.mpr hn))

theorem readSlot_outside (hn : s.cfg.numSlots ≤ s.len.toNat) :
    exec (.readSlot r) s = .next (raise .invalidAddress s) := by
  rw [exec_eq_planOf, planOf, planReadSlot, trackerQuery_asks hp hi hl hc]
  exact congrArg Plan.run (if_pos hn)

end

/-- `finish` of a query changes QRESULT and STATUS only (R40, R44). -/
theorem finish_setQresult {s : State} (hp : s.phase = .start) (q : Reg) :
    finish .ok .success (s.setQresult q) = { s with qresult := q, status := finished .ok .success s.status } :=
  finish_of_start (s := s.setQresult q) hp _ _

/-- The committed bit as it is read (R64). -/
theorem slotBit_fst (r : Region) (c sl : Nat) (s : State) : (slotBit r c sl s).1 =
    if (s.slotAt r c sl).poisoned then s.answer.slotBits.getLsbD sl else (s.slotAt r c sl).committed := by
  unfold slotBit
  split <;> rfl

/-- Reading the committed bit draws for a poisoned slot, and counts no macro call (R64). -/
theorem slotBit_snd (r : Region) (c sl : Nat) (s : State) : (slotBit r c sl s).2 =
    { s with env := if (s.slotAt r c sl).poisoned then s.drew.env else s.env } := by
  unfold slotBit
  split <;> rfl

/-- Settles O29: `select` finds nothing where no slot is good, and otherwise the first good slot. -/
theorem selectAnswersTheFirstWritableSlot : Obligations.SelectAnswersTheFirstWritableSlot := by
  intro r s hp hi hslots hl hc hrow good
  refine ⟨selectWord (s.select r s.addr.toNat), ?_, fun hnone => ?_, fun sl hlt hsl hmin => ?_⟩
  · rw [selectNextWritable_answers hp hi hl hc, finish_setQresult hp]
  · rw [select_eq_none_iff.mpr (hrow ▸ hnone)]
    rfl
  · rw [select_eq_some_of_first (hrow ▸ hlt) hsl hmin, selectWord_some (by omega)]

/-- Settles O30: IS_WRITABLE answers whether `select` finds a slot, and it finds none exactly where none is good. -/
theorem isWritableAnswersWhetherASlotRemains : Obligations.IsWritableAnswersWhetherASlotRemains := by
  intro r s hp hi hl hc hrow
  refine ⟨boolWord (s.select r s.addr.toNat).isSome, ?_, boolWord_eq_zero_or_one _, ?_⟩
  · rw [isWritable_answers hp hi hl hc, finish_setQresult hp]
  · rw [boolWord_eq_one_iff, Option.isSome_iff_ne_none, ne_eq, select_eq_none_iff, hrow]
    push Not
    rfl

/-- Settles O31: QRESULT holds the slot's fields, with the committed bit as it is read. -/
theorem readSlotShowsTheSlot : Obligations.ReadSlotShowsTheSlot := by
  intro r s hp hi hl hc hn x
  have hbit := slotBit_fst r s.addr.toNat s.len.toNat s
  refine ⟨slotWord x.remaining x.writable (slotBit r s.addr.toNat s.len.toNat s).1, ?_, slotWord_remaining _ _ _,
    slotWord_writable _ _ _, (slotWord_committed _ _ _).trans hbit, slotWord_reserved _ _ _⟩
  rw [readSlot_answers hp hi hl hc hn, finish_setQresult (by simpa using hp), slotBit_snd]

/-- Settles O32: each check ends the command in its first step, where those before it pass. -/
theorem trackerChecksInOrder : Obligations.TrackerChecksInOrder := by
  intro r i s hp hi ht
  refine ⟨fun hl => ?_, fun hl hc => ?_, fun hl hc hread hn => ?_⟩
  · rw [tracker_refuses hp ht (trackerChecks_unlimited hi hl _) (by decide), raise_of_start hp]
  · rw [tracker_refuses hp ht (trackerChecks_outside hi hl hc) (by decide), raise_of_start hp]
  · rw [hread, readSlot_outside hp hi hl hc hn, raise_of_start hp]

end Sys2Proof.Machine
end

section
/-! Termination (44_program_engine.md R200, 70_reset_and_hazards.md R288): every step of a command that goes on leaves fewer steps
to come, by a measure of the command's place, its units and its retries. -/

namespace Sys2Proof.Machine

/-! ### The measure -/

/-- The steps of one unit at most, with `retries` retries: a pulse and a read for the normal pulse and for each retry. -/
def unitSteps (retries : Nat) : Nat := (1 + retries) + (1 + retries)

/-- The steps of the units after the current one at most. -/
def laterSteps (s : State) : Nat := (s.eng.count - (unitIndex s + 1)) * unitSteps s.eng.soak.retries.toNat

/-- The soak pulses that the current unit may still have. -/
def retriesLeft (s : State) : Nat := s.eng.soak.retries.toNat - s.eng.k

/-- How many steps of command `i` can follow the next one, by the place where the command stands. -/
def stepsAfter (i : Instr) (s : State) : Nat :=
  match s.phase with
  | .start => min (unitCount i s) s.cfg.bufWords * unitSteps (soakSource i s).retries.toNat + 4
  | .beginUnlocked => 2
  | .beginIdRead _ => 1
  | .beginRelocked | .beginProtRead _ _ _ | .endRelocked | .lockAnswered _ | .protectAnswered _ => 0
  | .readIdRead _ => s.eng.count + 2
  | .readProtRead _ _ => s.eng.count + 1
  | .unitRead _ => s.eng.count - unitIndex s
  | .normalPulsed _ => laterSteps s + 2 * retriesLeft s + 1
  | .soakPulsed _ => laterSteps s + 2 * (retriesLeft s - 1) + 1
  | .verifyRead _ | .reverifyRead _ => laterSteps s + 2 * retriesLeft s

theorem stepsAfter_start {i : Instr} {s : State} (h : s.phase = .start) : stepsAfter i s =
    min (unitCount i s) s.cfg.bufWords * unitSteps (soakSource i s).retries.toNat + 4 := by
  simp only [stepsAfter, h]

theorem stepsAfter_unitRead {i : Instr} {s : State} {v : Reg} (h : s.phase = .unitRead v) :
    stepsAfter i s = s.eng.count - unitIndex s := by simp only [stepsAfter, h]

theorem stepsAfter_normalPulsed {i : Instr} {s : State} {st : PulseStatus} (h : s.phase = .normalPulsed st) :
    stepsAfter i s = laterSteps s + 2 * retriesLeft s + 1 := by simp only [stepsAfter, h]

theorem stepsAfter_soakPulsed {i : Instr} {s : State} {st : PulseStatus} (h : s.phase = .soakPulsed st) :
    stepsAfter i s = laterSteps s + 2 * (retriesLeft s - 1) + 1 := by simp only [stepsAfter, h]

theorem stepsAfter_verifyRead {i : Instr} {s : State} {rb : Reg} (h : s.phase = .verifyRead rb) :
    stepsAfter i s = laterSteps s + 2 * retriesLeft s := by simp only [stepsAfter, h]

theorem stepsAfter_reverifyRead {i : Instr} {s : State} {rb : Reg} (h : s.phase = .reverifyRead rb) :
    stepsAfter i s = laterSteps s + 2 * retriesLeft s := by simp only [stepsAfter, h]

/-- A unit `j` and the units after it take no more steps than the units from `lo` on. -/
theorem unit_steps_le {j lo n : Nat} (hlo : lo ≤ j) (hj : j < n) (retries : Nat) :
    (n - (j + 1)) * unitSteps retries + (2 * retries + 2) ≤ (n - lo) * unitSteps retries :=
  calc (n - (j + 1)) * unitSteps retries + (2 * retries + 2)
      = (n - (j + 1) + 1) * unitSteps retries := by rw [Nat.add_mul, Nat.one_mul]; unfold unitSteps; omega
    _ ≤ (n - lo) * unitSteps retries := Nat.mul_le_mul_right _ (by omega)

/-! ### What a MacroCall keeps -/

/-- The moves still to come, the unit, the latched operands and the count of soak pulses are the same. -/
structure SameUnit (s t : State) : Prop where
  inbox : t.env.inbox = s.env.inbox
  wordIndex : t.wordIndex = s.wordIndex
  count : t.eng.count = s.eng.count
  soak : t.eng.soak = s.eng.soak
  k : t.eng.k = s.eng.k

theorem SameUnit.trans {s t u : State} (h : SameUnit s t) (g : SameUnit t u) : SameUnit s u :=
  ⟨g.inbox.trans h.inbox, g.wordIndex.trans h.wordIndex, g.count.trans h.count, g.soak.trans h.soak, g.k.trans h.k⟩

theorem SameUnit.laterSteps {s t : State} (h : SameUnit s t) : laterSteps t = laterSteps s := by
  simp only [Machine.laterSteps, unitIndex, h.wordIndex, h.count, h.soak]

theorem SameUnit.retriesLeft {s t : State} (h : SameUnit s t) : retriesLeft t = retriesLeft s := by
  simp only [Machine.retriesLeft, h.soak, h.k]

theorem sameUnit_setEng (s : State) (e : EngState) : SameUnit s (s.setEng e) := by constructor <;> rfl
theorem sameUnit_atPhase (s : State) (p : Phase) : SameUnit s (s.atPhase p) := by constructor <;> rfl
theorem sameUnit_slot (s : State) (sl : Nat) : SameUnit s { s with eng := { s.eng with slot := sl } } := by
  constructor <;> rfl
theorem sameUnit_recordAttempt (s : State) (r : Region) (c sl : Nat) : SameUnit s (s.recordAttempt r c sl) := by
  constructor <;> rfl
theorem sameUnit_noteNormalPulse (s : State) : SameUnit s (noteNormalPulse s) := by constructor <;> rfl
theorem sameUnit_macroPulse (p : Nat) (x : Reg) (tm : Timing) (mg : BitVec 16) (s : State) :
    SameUnit s (macroPulse p x tm mg s).2 := by constructor <;> simp
theorem sameUnit_macroPulseSlot (r : Region) (c sl : Nat) (b : Bool) (tm : Timing) (mg : BitVec 16) (s : State) :
    SameUnit s (macroPulseSlot r c sl b tm mg s).2 := by constructor <;> simp

theorem sameUnit_macroRead (p : Nat) (s : State) : SameUnit s (macroRead p s).2 := by
  unfold macroRead
  split <;> constructor <;> rfl

theorem sameUnit_macroReadCell (r : Region) (c : Nat) (s : State) : SameUnit s (macroReadCell r c s).2 := by
  rw [macroReadCell]
  dsimp only
  split <;> constructor <;> rfl

/-! ### A step leaves fewer steps -/

/-- Every step of the plan from `s` keeps the moves still to come, and a command that goes on has fewer than `m` steps left after
its next one. -/
structure Shrinks (i : Instr) (s : State) (m : Nat) (pl : Plan) : Prop where
  next : ∀ t, pl.run = .next t → t.env.inbox = s.env.inbox ∧ (t.status.busy = true → stepsAfter i t < m)

theorem Shrinks.of_inbox {i : Instr} {s t : State} {m : Nat} {pl : Plan} (h : t.env.inbox = s.env.inbox)
    (g : Shrinks i t m pl) : Shrinks i s m pl :=
  ⟨fun u hu => ⟨(g.next u hu).1.trans h, (g.next u hu).2⟩⟩

theorem Shrinks.stop (i : Instr) (s : State) (m : Nat) (f : Fault) : Shrinks i s m (.stop f) := ⟨fun _ h => nomatch h⟩

theorem Shrinks.done {i : Instr} {s t : State} {m : Nat} (h : t.env.inbox = s.env.inbox) (hm : stepsAfter i t < m) :
    Shrinks i s m (.done t) := by
  refine ⟨fun u hu => ?_⟩
  cases hu
  exact ⟨h, fun _ => hm⟩

theorem Shrinks.ends {i : Instr} {s t : State} {m : Nat} {e : ErrCode} {a : Aggregate}
    (h : t.env.inbox = s.env.inbox) : Shrinks i s m (.done (finish e a t)) := by
  refine ⟨fun u hu => ?_⟩
  cases hu
  exact ⟨h, fun hb => nomatch hb⟩

theorem Shrinks.raised (i : Instr) (s : State) (m : Nat) (e : ErrCode) : Shrinks i s m (.done (raise e s)) := .ends rfl

theorem Shrinks.pulse {i : Instr} {s u : State} {m p : Nat} {x : Reg} {tm : Timing} {mg : BitVec 16}
    {k : PulseStatus → State → State} (h : SameUnit s u) (hk : ∀ st v, SameUnit v (k st v))
    (hm : ∀ st v, SameUnit s (k st v) → stepsAfter i (k st v) < m) : Shrinks i s m (.pulse p x tm mg u k) := by
  refine ⟨fun t ht => ?_⟩
  obtain ⟨-, ht⟩ := needUnlocked_next ht
  split at ht <;> cases ht
  have hs := (h.trans (sameUnit_macroPulse p x tm mg u)).trans (hk (macroPulse p x tm mg u).1 _)
  exact ⟨hs.inbox, fun _ => hm _ _ hs⟩

theorem Shrinks.pulseSlot {i : Instr} {s u : State} {m : Nat} {r : Region} {c sl : Nat} {b : Bool} {tm : Timing}
    {mg : BitVec 16} {k : PulseStatus → State → State} (h : SameUnit s u) (hk : ∀ st v, SameUnit v (k st v))
    (hm : ∀ st v, SameUnit s (k st v) → stepsAfter i (k st v) < m) :
    Shrinks i s m (.pulseSlot r c sl b tm mg u k) := by
  refine ⟨fun t ht => ?_⟩
  obtain ⟨-, ht⟩ := needUnlocked_next ht
  cases ht
  have hs := (h.trans (sameUnit_macroPulseSlot r c sl b tm mg u)).trans (hk (macroPulseSlot r c sl b tm mg u).1 _)
  exact ⟨hs.inbox, fun _ => hm _ _ hs⟩

theorem Shrinks.protect {i : Instr} {s : State} {m : Nat} {r : Region} {k : Bool → State → State}
    (hk : ∀ ok v, SameUnit v (k ok v)) (hm : ∀ ok v, stepsAfter i (k ok v) < m) : Shrinks i s m (.protect r s k) := by
  refine ⟨fun t ht => ?_⟩
  obtain ⟨-, ht⟩ := needUnlocked_next ht
  cases ht
  exact ⟨(hk _ _).inbox, fun _ => hm _ _⟩

theorem Shrinks.lockAll {i : Instr} {s : State} {m : Nat} {k : Bool → State → State}
    (hk : ∀ ok v, SameUnit v (k ok v)) (hm : ∀ ok v, stepsAfter i (k ok v) < m) : Shrinks i s m (.lockAll s k) := by
  refine ⟨fun t ht => ?_⟩
  obtain ⟨-, ht⟩ := needUnlocked_next ht
  cases ht
  exact ⟨(hk _ _).inbox, fun _ => hm _ _⟩

/-! ### The engine -/

theorem shrinks_readUnit {i : Instr} {s : State} {m : Nat} {v : Reg} {r : Region} {o : Nat}
    {k : Reg → State → State} (hk : ∀ x u, SameUnit u (k x u))
    (hm : ∀ x u, SameUnit s (k x u) → stepsAfter i (k x u) < m) : Shrinks i s m (readUnit v r o s k) := by
  have read {u : State} (x : Reg) (h : SameUnit s u) : Shrinks i s m (.done (k x u)) :=
    have hs := h.trans (hk x u)
    .done hs.inbox (hm x u hs)
  simp only [readUnit]
  split
  · exact read _ (sameUnit_macroReadCell ..)
  · split
    · exact read _ (sameUnit_macroRead ..)
    · exact .stop ..

theorem shrinks_readBack {i : Instr} {s : State} {m : Nat} (e : EngState) {at_ : Reg → Phase}
    (hm : ∀ x t, SameUnit s t → t.phase = at_ x → stepsAfter i t < m) : Shrinks i s m (readBack e at_ s) := by
  unfold readBack
  exact .of_inbox (sameUnit_setEng s e).inbox (shrinks_readUnit (fun x u => sameUnit_atPhase u (at_ x))
    fun x u h => hm x _ ((sameUnit_setEng s e).trans h) rfl)

theorem shrinks_verify {i : Instr} {s : State} {m : Nat} (hm : laterSteps s + 2 * retriesLeft s < m) :
    Shrinks i s m (readBack .verify .verifyRead s) :=
  shrinks_readBack .verify fun _ t h hp => by rwa [stepsAfter_verifyRead hp, h.laterSteps, h.retriesLeft]

theorem shrinks_reverify {i : Instr} {s : State} {m : Nat} (hm : laterSteps s + 2 * retriesLeft s < m) :
    Shrinks i s m (readBack .reverify .reverifyRead s) :=
  shrinks_readBack .reverify fun _ t h hp => by rwa [stepsAfter_reverifyRead hp, h.laterSteps, h.retriesLeft]

theorem shrinks_normalPulse {i : Instr} {s : State} {m : Nat} (hm : laterSteps s + 2 * retriesLeft s + 1 < m) :
    Shrinks i s m (normalPulse s) := by
  have he := sameUnit_setEng s .normalProgram
  have pulsed (st : PulseStatus) (v : State) (h : SameUnit s (v.atPhase (.normalPulsed st))) :
      stepsAfter i (v.atPhase (.normalPulsed st)) < m := by
    rwa [stepsAfter_normalPulsed rfl, h.laterSteps, h.retriesLeft]
  simp only [normalPulse]
  split
  · split
    · exact .pulseSlot (he.trans (sameUnit_slot _ _)) (fun _ u => sameUnit_atPhase u _) pulsed
    · exact .of_inbox he.inbox (shrinks_verify (by rw [he.laterSteps, he.retriesLeft]; omega))
  · exact .pulse he (fun _ u => sameUnit_atPhase u _) pulsed

/-- A soak pulse is issued while a retry is left, so the read after it has fewer left. -/
theorem shrinks_soakPulse {i : Instr} {w s : State} {m : Nat} {ex : Plan} (hs : SameUnit w s)
    (hm : laterSteps s + 2 * retriesLeft s ≤ m) (hex : ¬ canSoak s → Shrinks i w m ex) :
    Shrinks i w m (soakPulse ex s) := by
  have he := hs.trans (sameUnit_setEng s .soakProgram)
  simp only [soakPulse]
  split
  · rename_i hk
    have pulsed (st : PulseStatus) (v : State) (h : SameUnit w (v.atPhase (.soakPulsed st))) :
        stepsAfter i (v.atPhase (.soakPulsed st)) < m := by
      rw [stepsAfter_soakPulsed rfl, h.laterSteps, h.retriesLeft, ← hs.laterSteps, ← hs.retriesLeft]
      unfold retriesLeft at hm ⊢
      omega
    split
    · rename_i hl
      split
      · exact .pulseSlot (he.trans (sameUnit_slot _ _))
          (fun _ u => (sameUnit_recordAttempt u _ _ _).trans (sameUnit_atPhase _ _)) (fun st u => pulsed st _)
      · rename_i hsel
        refine hex fun hc => ?_
        obtain ⟨sl, hsl⟩ := hc.2 hl
        cases hsel.symm.trans hsl
    · exact .pulse he (fun _ u => sameUnit_atPhase u _) pulsed
  · exact hex fun hc => absurd hc.1 ‹_›

/-- Where the loop of `program_op` leaves the step, the units from `lo` on are still to come at most. -/
theorem LoopEnd.shrinks {P : Prop} {i : Instr} {s : State} {lo nb m : Nat} {pl : Plan} (h : LoopEnd P s lo nb pl)
    (hn : s.eng.count < 2 ^ 64) (hm : (s.eng.count - lo) * unitSteps s.eng.soak.retries.toNat ≤ m) :
    Shrinks i s m pl := by
  have fresh {t : State} {j : Nat} (l : Looped P s t) (index : t.wordIndex = BitVec.ofNat 64 j) (low : lo ≤ j)
      (high : j < s.eng.count) : laterSteps t + 2 * retriesLeft t + 1 < m := by
    have hj : unitIndex t = j := by rw [unitIndex, index, BitVec.toNat_ofNat, Nat.mod_eq_of_lt (by omega)]
    have hle := unit_steps_le low high s.eng.soak.retries.toNat
    have hr : retriesLeft t ≤ s.eng.soak.retries.toNat := by
      rw [← l.soak]
      exact Nat.sub_le ..
    rw [laterSteps, hj, l.count, l.soak]
    omega
  have inbox {t : State} (l : Looped P s t) : t.env.inbox = s.env.inbox := by rw [l.kept.env]
  cases h with
  | finish t l => exact .ends (inbox l)
  | normal t j l _ index low high _ _ => exact .of_inbox (inbox l) (shrinks_normalPulse (fresh l index low high))
  | soak t j ex l _ index low high _ _ can =>
    have hlt := fresh l index low high
    exact .of_inbox (inbox l) (shrinks_soakPulse (by constructor <;> rfl) (by omega) fun hc => absurd can hc)

theorem shrinks_closeUnit {i : Instr} {s : State} {m : Nat} (code : OutcomeCode) (hn : s.eng.count < 2 ^ 64)
    (hm : laterSteps s ≤ m) : Shrinks i s m (closeUnit code s) :=
  (closeUnit_end code s).shrinks hn hm

theorem shrinks_afterPulse {i : Instr} {s t : State} {m : Nat} {st : PulseStatus} {e : EngState}
    {at_ : Reg → Phase} (h : t.env.inbox = s.env.inbox) (hr : Shrinks i t m (readBack e at_ t)) :
    Shrinks i s m (afterPulse st e at_ t) := by
  cases st with
  | ready => exact .of_inbox h hr
  | timeout | fault => exact .ends h

/-- The engine goes on from its place with fewer steps to come. -/
theorem shrinks_engineResume {i : Instr} {s : State} (hn : s.eng.count < 2 ^ 64) :
    Shrinks i s (stepsAfter i s) (engineResume s) := by
  unfold engineResume
  split
  case h_1 st hp =>
    have hs := sameUnit_noteNormalPulse s
    rw [stepsAfter_normalPulsed hp]
    exact shrinks_afterPulse rfl (shrinks_verify (by rw [hs.laterSteps, hs.retriesLeft]; omega))
  case h_2 rb hp =>
    have hs := sameUnit_setEng s .needsSoak
    rw [stepsAfter_verifyRead hp]
    have close (code : OutcomeCode) {t : State} (h : SameUnit s t) :
        Shrinks i s (laterSteps s + 2 * retriesLeft s) (closeUnit code t) :=
      .of_inbox h.inbox (shrinks_closeUnit code (by rwa [h.count]) (by rw [h.laterSteps]; omega))
    unfold afterVerify
    split
    · exact close _ (by constructor <;> rfl)
    · split
      · exact shrinks_soakPulse hs (Nat.le_of_eq (by rw [hs.laterSteps, hs.retriesLeft])) fun _ => close _ hs
      · exact close _ (by constructor <;> rfl)
  case h_3 st hp =>
    rw [stepsAfter_soakPulsed hp]
    refine shrinks_afterPulse rfl (shrinks_reverify ?_)
    have hl : laterSteps (noteSoakPulse s) = laterSteps s := rfl
    have hr : retriesLeft (noteSoakPulse s) = retriesLeft s - 1 := rfl
    omega
  case h_4 rb hp =>
    have hs := sameUnit_setEng s .retrySoak
    rw [stepsAfter_reverifyRead hp]
    have close (code : OutcomeCode) : Shrinks i s (laterSteps s + 2 * retriesLeft s) (closeUnit code s) :=
      shrinks_closeUnit code hn (Nat.le_add_right ..)
    unfold afterReverify
    split
    · exact close _
    · exact shrinks_soakPulse hs (Nat.le_of_eq (by rw [hs.laterSteps, hs.retriesLeft])) fun _ => close _
  case h_5 => exact .stop ..

/-- The first step of an engine command, with no more units than the buffers hold. -/
theorem shrinks_programCommand {i : Instr} {s : State} {n m : Nat} (c : SoakConfig) (hn : n < 2 ^ 64)
    (hm : n * unitSteps c.retries.toNat ≤ m) : Shrinks i s m (programCommand i n c s) := by
  unfold programCommand
  split
  · exact .of_inbox (s := s) (t := loopStart i n c s) rfl ((programOp_end i n c s).shrinks hn hm)
  · exact .raised ..

/-! ### Reads and queries -/

theorem shrinks_readIntoBuf {i : Instr} {s : State} {m : Nat} {r : Region} {v : Reg} {j : Nat}
    (hm : s.eng.count - unitIndex s < m) : Shrinks i s m (readIntoBuf r v j s) :=
  shrinks_readUnit (fun _ _ => by constructor <;> rfl) fun x u h => by
    rw [stepsAfter_unitRead rfl, h.count, unitIndex, h.wordIndex]
    exact hm

theorem shrinks_readRegionUnit {i : Instr} {s : State} {m : Nat} {r : Region} {v : Reg} {j : Nat}
    (hn : s.eng.count < 2 ^ 64) (hm : j < s.eng.count → s.eng.count - j < m) :
    Shrinks i s m (readRegionUnit r j v s) := by
  unfold readRegionUnit
  split
  · rename_i hj
    have hu : unitIndex (s.setWordIndex j) = j := by
      simp only [unitIndex, State.setWordIndex_wordIndex, BitVec.toNat_ofNat]
      exact Nat.mod_eq_of_lt (by omega)
    exact .of_inbox (t := s.setWordIndex j) rfl (shrinks_readIntoBuf (by rw [hu]; exact hm hj))
  · exact .ends rfl

theorem shrinks_readResolved {i : Instr} {s : State} {m : Nat} {r : Region} {v : Reg}
    {transfer : Reg → State → Plan} (h : Shrinks i s m (transfer v s)) : Shrinks i s m (readResolved r v transfer s) := by
  unfold readResolved
  split
  · exact h
  · exact .ends rfl

theorem shrinks_readChecks {i : Instr} {s : State} {m : Nat} {r : Region} {transfer : Reg → State → Plan}
    (hm : s.eng.count + 2 < m) (h : ∀ v, Shrinks i s m (transfer v s)) : Shrinks i s m (readChecks r transfer s) := by
  unfold readChecks
  split
  · exact shrinks_readResolved (h _)
  · split
    · exact .done rfl hm
    · exact .raised ..

theorem shrinks_readChecksId {i : Instr} {s : State} {m : Nat} {v : Reg} (hm : s.eng.count + 1 < m) :
    Shrinks i s m (readChecksId v s) := by
  unfold readChecksId
  split
  · exact .done rfl hm
  · exact .ends rfl

theorem shrinks_readChecksProt {i : Instr} {s : State} {m : Nat} {r : Region} {v : Reg} {pp : BitVec 4}
    {transfer : Reg → State → Plan} (h : Shrinks i s m (transfer v s)) :
    Shrinks i s m (readChecksProt r v pp transfer s) := by
  unfold readChecksProt
  split
  · exact .ends rfl
  · exact shrinks_readResolved h

theorem shrinks_trackerQuery {i : Instr} {s : State} {m : Nat} {r : Region} {q : Nat → Plan}
    (h : ∀ c, Shrinks i s m (q c)) : Shrinks i s m (trackerQuery r s q) := by
  unfold trackerQuery
  split
  · split
    · exact h _
    · exact .raised ..
  · exact .stop ..

/-! ### Termination -/

/-- The places of a unit command whose operands are latched (R33). -/
def unitPhase : Phase → Bool
  | .readIdRead _ | .readProtRead _ _ | .unitRead _ => true
  | p => inEngine p

/-- A command with latched operands has no more units than the buffers hold. -/
theorem State.Inv.count_le {s : State} (h : s.Inv) (hp : unitPhase s.phase = true) : s.eng.count ≤ s.cfg.bufWords := by
  have hph := h.phase
  cases hps : s.phase <;> rw [hps] at hp <;> simp only [PhaseOk, hps] at hph
  case readIdRead | readProtRead | unitRead =>
    obtain ⟨⟨r, -, -, hle⟩, -⟩ := hph
    exact hle
  case normalPulsed | verifyRead | soakPulsed | reverifyRead =>
    obtain ⟨i, hi, -⟩ := hph
    exact hi.bufs
  all_goals cases hp

/-- The engine's current unit is one of the command's. -/
theorem State.Inv.unit_lt {s : State} (h : s.Inv) (hp : inEngine s.phase = true) : unitIndex s < s.eng.count := by
  have hph := h.phase
  cases hps : s.phase <;> rw [hps] at hp <;> simp only [PhaseOk, hps] at hph
  case normalPulsed | verifyRead | soakPulsed | reverifyRead =>
    obtain ⟨i, hi, -⟩ := hph
    exact hi.unit
  all_goals cases hp

/-- No unit takes less than two steps. -/
theorem two_mul_le_unitSteps (n retries : Nat) : 2 * n ≤ n * unitSteps retries := by
  rw [Nat.mul_comm]
  exact Nat.mul_le_mul_left n (by unfold unitSteps; omega)

/-- The first step of a command. -/
theorem shrinks_start {i : Instr} {s : State} (hp : s.phase = .start) (h1 : 1 ≤ s.cfg.bufWords)
    (h256 : s.cfg.bufWords ≤ 256) : Shrinks i s (stepsAfter i s) (planOf i s) := by
  have h2 := two_mul_le_unitSteps (min (unitCount i s) s.cfg.bufWords) (soakSource i s).retries.toNat
  rw [stepsAfter_start hp]
  generalize hx : (soakSource i s).retries.toNat = x at h2 ⊢
  have program (c : SoakConfig) (hc : c.retries.toNat = x) (hle : unitCount i s ≤ s.cfg.bufWords) :
      Shrinks i s (min (unitCount i s) s.cfg.bufWords * unitSteps x + 4) (programCommand i (unitCount i s) c s) :=
    shrinks_programCommand c (by omega) (by rw [hc, Nat.min_eq_left hle]; exact Nat.le_add_right ..)
  cases i with
  | beginSession =>
    simp only [planOf, planBeginSession, hp]
    split
    · exact .raised ..
    · exact .done rfl (show 2 < _ by omega)
  | endSession =>
    simp only [planOf, planEndSession, hp]
    exact .done rfl (show 0 < _ by omega)
  | read r =>
    simp only [planOf, planRead, hp]
    have hmin : min (unitCount (.read r) s) s.cfg.bufWords = 1 := Nat.min_eq_left h1
    rw [hmin] at h2 ⊢
    have hcount : (latchCommand (.read r) 1 s).eng.count = 1 := rfl
    exact .of_inbox (s := s) (t := latchCommand (.read r) 1 s) rfl
      (shrinks_readChecks (by omega) fun _ => shrinks_readIntoBuf (by omega))
  | readRegion r =>
    simp only [planOf, planReadRegion, hp]
    split
    · exact .raised ..
    · rename_i hlen
      have hlen : s.len.toNat ≤ s.cfg.bufWords := Nat.not_lt.mp hlen
      have hmin : min (unitCount (.readRegion r) s) s.cfg.bufWords = s.len.toNat := Nat.min_eq_left hlen
      rw [hmin] at h2 ⊢
      have hcount : (latchCommand (.readRegion r) (countOperand s) s).eng.count = s.len.toNat := rfl
      exact .of_inbox (s := s) (t := latchCommand (.readRegion r) (countOperand s) s) rfl
        (shrinks_readChecks (by omega) fun _ => shrinks_readRegionUnit (by omega) (by omega))
  | write r =>
    simp only [planOf, planWrite, hp]
    exact program _ hx h1
  | writeRegion r p =>
    simp only [planOf, planWriteRegion, hp]
    split
    · exact .raised ..
    · exact program _ hx (Nat.not_lt.mp ‹_›)
  | soakProgram r =>
    simp only [planOf, planSoakProgram, hp]
    exact program _ hx h1
  | programWithSoakFallback r =>
    simp only [planOf, planProgramWithSoakFallback, hp]
    exact program _ hx h1
  | lock =>
    simp only [planOf, planLock, hp]
    split
    · exact .raised ..
    · split
      · exact .ends rfl
      · exact .lockAll (fun _ u => sameUnit_atPhase u _) fun _ _ => show 0 < _ by omega
  | isLocked =>
    simp only [planOf, planIsLocked, hp]
    split
    · exact .raised ..
    · exact .ends rfl
  | enableRegionProtection r =>
    simp only [planOf, planEnableRegionProtection, hp]
    split
    · exact .raised ..
    · split
      · exact .raised ..
      · split
        · exact .raised ..
        · split
          · exact .ends rfl
          · exact .protect (fun _ u => sameUnit_atPhase u _) fun _ _ => show 0 < _ by omega
  | isRegionProtected r =>
    simp only [planOf, planIsRegionProtected, hp]
    split
    · exact .raised ..
    · exact .ends rfl
  | selectNextWritable r =>
    simp only [planOf, planSelectNextWritable]
    exact shrinks_trackerQuery fun _ => .ends rfl
  | isWritable r =>
    simp only [planOf, planIsWritable]
    exact shrinks_trackerQuery fun _ => .ends rfl
  | readSlot r =>
    simp only [planOf, planReadSlot]
    refine shrinks_trackerQuery fun c => ?_
    split
    · exact .raised ..
    · refine .ends ?_
      unfold slotBit
      split <;> rfl

/-- A step of an engine command that has begun. -/
theorem shrinks_program {i : Instr} {s : State} (hi : isProgram i = true) (hp : s.phase ≠ .start)
    (hn : s.eng.count < 2 ^ 64) : Shrinks i s (stepsAfter i s) (planOf i s) :=
  ⟨fun t ht => (shrinks_engineResume hn).next t (by rw [← planOf_program hi hp, ht])⟩

/-- Every step of every command, from its place: the invariant says whose place it is. -/
theorem shrinks_planOf {s : State} {i : Instr} (h : s.Inv) (hr : running s i) :
    Shrinks i s (stepsAfter i s) (planOf i s) := by
  obtain ⟨h1, h256⟩ := legal_bufWords h.legal
  have count (hu : unitPhase s.phase = true) : s.eng.count < 2 ^ 64 := by
    have hle := h.count_le hu
    omega
  have hph := h.phase
  cases hp : s.phase <;> simp only [PhaseOk, hp] at hph <;> rw [hp] at count
  case start => exact shrinks_start hp h1 h256
  case beginUnlocked =>
    cases running_unique hr hph.1
    simp only [planOf, planBeginSession, stepsAfter, hp]
    exact .done rfl (Nat.lt_succ_self 1)
  case beginIdRead =>
    cases running_unique hr hph.1
    simp only [planOf, planBeginSession, stepsAfter, hp]
    split
    · exact .done rfl Nat.one_pos
    · exact .done rfl Nat.one_pos
  case beginRelocked =>
    cases running_unique hr hph.1
    simp only [planOf, planBeginSession, hp]
    exact .ends rfl
  case beginProtRead =>
    cases running_unique hr hph.1
    simp only [planOf, planBeginSession, hp]
    exact .ends rfl
  case endRelocked =>
    cases running_unique hr hph
    simp only [planOf, planEndSession, hp]
    exact .ends rfl
  case lockAnswered =>
    cases running_unique hr hph.1
    simp only [planOf, planLock, hp]
    split
    · exact .ends rfl
    · exact .ends rfl
  case protectAnswered =>
    obtain ⟨r, hl, -⟩ := hph
    cases running_unique hr hl
    simp only [planOf, planEnableRegionProtection, hp]
    split
    · exact .ends rfl
    · exact .ends rfl
  case readIdRead =>
    obtain ⟨r, -, ⟨rfl, -⟩ | rfl⟩ := reading_cases hph.1 hr
    · simp only [planOf, planRead, stepsAfter, hp]
      exact shrinks_readChecksId (by omega)
    · simp only [planOf, planReadRegion, stepsAfter, hp]
      exact shrinks_readChecksId (by omega)
  case readProtRead =>
    obtain ⟨r, -, ⟨rfl, -⟩ | rfl⟩ := reading_cases hph.1 hr
    · simp only [planOf, planRead, stepsAfter, hp]
      exact shrinks_readChecksProt (shrinks_readIntoBuf (by omega))
    · simp only [planOf, planReadRegion, stepsAfter, hp]
      exact shrinks_readChecksProt (shrinks_readRegionUnit (count rfl) (by omega))
  case unitRead =>
    obtain ⟨r, -, ⟨rfl, -⟩ | rfl⟩ := reading_cases hph.1 hr
    · simp only [planOf, planRead, hp]
      exact .ends rfl
    · rw [stepsAfter_unitRead hp]
      simp only [planOf, planReadRegion, hp]
      exact shrinks_readRegionUnit (count rfl) (by omega)
  case normalPulsed | verifyRead | soakPulsed | reverifyRead =>
    obtain ⟨j, hj, -⟩ := hph
    cases running_unique hr hj.running
    exact shrinks_program hj.program (by simp [hp]) (count rfl)

/-- A command that is left alone takes a step, and then it has ended or goes on with fewer steps to come. -/
theorem step_shrinks {s : State} {i : Instr} (h : s.Inv) (hr : running s i) (hin : s.env.inbox = []) :
    ∃ t, step s = .next t ∧ (t.status.busy = true →
      t.Inv ∧ running t i ∧ t.env.inbox = [] ∧ stepsAfter i t < stepsAfter i s) := by
  obtain ⟨t, ht, hinv⟩ := planOf_inv h hr
  obtain ⟨hbox, hlt⟩ := (shrinks_planOf h hr).next t ht
  rw [← exec_eq_planOf] at ht
  obtain ⟨-, hlatch, -⟩ := errorsAreReportedOnlyAtTheEnd i s t ht
  refine ⟨t, by rw [step_of_inbox_nil h.legal hin, controllerTurn_of_running hr, ht], fun hb => ?_⟩
  exact ⟨hinv, ⟨hb, by rw [hlatch, hr.2]⟩, hbox.trans hin, hlt hb⟩

theorem core_run_succ {s t : State} {n : Nat} (h : step s = .next t) :
    Sys2Proof.core.run (n + 1) s = Sys2Proof.core.run n t := by
  have hstep : Sys2Proof.core.step s = .next t := h
  simp only [Host.Core.run, hstep]

/-- A command that is left alone ends: the measure bounds its steps. -/
theorem command_ends {i : Instr} (m : Nat) {s : State} (h : s.Inv) (hr : running s i) (hin : s.env.inbox = [])
    (hm : stepsAfter i s ≤ m) :
    ∃ n ≤ m + 1, ∃ t, Sys2Proof.core.run n s = .next t ∧ t.status.busy = false := by
  induction m generalizing s with
  | zero =>
    obtain ⟨t, ht, hgoes⟩ := step_shrinks h hr hin
    refine ⟨1, Nat.le_refl 1, t, core_run_succ ht, Bool.eq_false_iff.mpr fun hb => ?_⟩
    obtain ⟨-, -, -, hlt⟩ := hgoes hb
    omega
  | succ m ih =>
    obtain ⟨t, ht, hgoes⟩ := step_shrinks h hr hin
    cases hb : t.status.busy with
    | false => exact ⟨1, by omega, t, core_run_succ ht, hb⟩
    | true =>
      obtain ⟨hinv, hrt, hbox, hlt⟩ := hgoes hb
      obtain ⟨n, hn, u, hu, hend⟩ := ih hinv hrt hbox (by omega)
      exact ⟨n + 1, by omega, u, (core_run_succ ht).trans hu, hend⟩

/-- The units of a command: those it will latch, and those it has latched (R33, R126). -/
def commandUnits (i : Instr) (s : State) : Nat := if s.phase = .start then unitCount i s else s.eng.count

/-- The retries of a command: those it will latch, and those it has latched (R33, R190). -/
def commandRetries (i : Instr) (s : State) : Nat :=
  if s.phase = .start then (soakSource i s).retries.toNat else s.eng.soak.retries.toNat

/-- The units that the measure counts are the command's, and no more than the buffers hold. -/
theorem stepsAfter_le {i : Instr} {s : State} (h : s.Inv) :
    ∃ n ≤ commandUnits i s, n ≤ s.cfg.bufWords ∧ stepsAfter i s ≤ n * unitSteps (commandRetries i s) + 4 := by
  have two (n : Nat) := two_mul_le_unitSteps n (commandRetries i s)
  by_cases hp : s.phase = .start
  · refine ⟨min (unitCount i s) s.cfg.bufWords, ?_, Nat.min_le_right .., ?_⟩
    · rw [commandUnits, if_pos hp]
      exact Nat.min_le_left ..
    · rw [stepsAfter_start hp, commandRetries, if_pos hp]
  · have hunits : commandUnits i s = s.eng.count := if_neg hp
    have hretries : commandRetries i s = s.eng.soak.retries.toNat := if_neg hp
    rw [hunits]
    cases hu : unitPhase s.phase with
    | false =>
      refine ⟨0, Nat.zero_le _, Nat.zero_le _, ?_⟩
      unfold stepsAfter
      cases hps : s.phase <;> rw [hps] at hu
      case start => exact absurd hps hp
      case readIdRead | readProtRead | unitRead | normalPulsed | verifyRead | soakPulsed | reverifyRead => cases hu
      all_goals dsimp only; omega
    | true =>
      refine ⟨s.eng.count, Nat.le_refl _, h.count_le hu, ?_⟩
      have hlt := h.unit_lt
      have engine (he : inEngine s.phase = true) :
          laterSteps s + (2 * s.eng.soak.retries.toNat + 2) ≤ s.eng.count * unitSteps (commandRetries i s) := by
        rw [hretries]
        exact unit_steps_le (Nat.zero_le _) (hlt he) _
      have hleft : retriesLeft s ≤ s.eng.soak.retries.toNat := Nat.sub_le ..
      have htwo := two s.eng.count
      unfold stepsAfter
      cases hps : s.phase <;> rw [hps] at hu engine
      case start => exact absurd hps hp
      case readIdRead | readProtRead | unitRead =>
        dsimp only
        omega
      case normalPulsed | verifyRead | soakPulsed | reverifyRead =>
        have := engine rfl
        dsimp only
        omega
      all_goals cases hu

/-- Settles O60: the measure bounds the steps, and it is within the command's units and retries. -/
theorem everyCommandTerminates : Obligations.EveryCommandTerminates := by
  intro s h hb hin
  refine ⟨fun i hd => ?_, fun hd => ?_⟩
  · obtain ⟨u, hunits, hbufs, hle⟩ := stepsAfter_le (i := i) h
    obtain ⟨n, hn, t, ht, hend⟩ := command_ends _ h ⟨hb, hd⟩ hin hle
    have hretries : commandRetries i s < 2 ^ 16 := by
      unfold commandRetries
      split <;> exact BitVec.isLt _
    refine ⟨n, hn.trans (Nat.succ_le_succ (Nat.add_le_add_right (Nat.mul_le_mul_right _ hunits) 4)), ?_, t, ht, hend⟩
    calc n ≤ u * unitSteps (commandRetries i s) + 5 := hn
      _ ≤ s.cfg.bufWords * (2 * 65536) + 5 :=
        Nat.add_le_add_right (Nat.mul_le_mul hbufs (by unfold unitSteps; omega)) 5
      _ = 2 * s.cfg.bufWords * 65536 + 5 := by omega
  · have hturn : controllerTurn s = .next (raise .illegalCommand s) := by
      rw [controllerTurn, if_pos hb, commandStep]
      split
      · exact absurd ‹_› (hd _)
      · rfl
    exact ⟨_, core_run_succ ((step_of_inbox_nil h.legal hin).trans hturn), rfl⟩

end Sys2Proof.Machine
end

section
/-! How a unit of an engine command ends, and what follows in the same step (44_program_engine.md R187 to R193): the end of the
command, or the first call of the next unit. -/

namespace Sys2Proof.Machine

/-! ### The end of a unit -/

/-- The state after the bookkeeping of a unit that ended with `code`: a success is counted, the first failure is kept (R187,
R191). -/
def unitDone (code : OutcomeCode) (s : State) : State :=
  { endUnit code s with eng := { s.eng with
      nsucc := if unitSucceeded code then s.eng.nsucc + 1 else s.eng.nsucc
      firstErr := if unitSucceeded code ∨ s.eng.firstErr ≠ .ok then s.eng.firstErr else unitError code } }

/-- A unit that ends leaves the loop after a failure under fail-fast, and goes on otherwise (R191). -/
theorem closeWith_eq (next : State → Plan) (code : OutcomeCode) (s : State) : closeWith next code s =
    if unitSucceeded code = false ∧ s.eng.policy = .failFast then .done (finishProgram (unitDone code s))
    else next (unitDone code s) := by
  simp only [closeWith, unitDone]
  cases unitSucceeded code with
  | true => simp
  | false =>
    by_cases he : s.eng.firstErr = .ok
    · simp [he]
    · simp [he]

/-- After a failure under fail-fast, and after the last unit, the command ends (R191, R192). -/
theorem closeUnit_ends {code : OutcomeCode} {s : State}
    (h : unitSucceeded code = false ∧ s.eng.policy = .failFast ∨ s.eng.count ≤ unitIndex s + 1) :
    closeUnit code s = .done (finishProgram (unitDone code s)) := by
  rw [closeUnit, closeWith_eq]
  split
  · rfl
  · rw [Nat.sub_eq_zero_of_le (h.resolve_left ‹_›), runUnits]

/-- The state in which the next unit starts when the current one ended with `code` (R191). -/
def nextUnit (code : OutcomeCode) (s : State) : State := openUnit (unitIndex s + 1) (unitDone code s)

/-- Otherwise the loop goes on with the normal pulse of the next unit (R191). -/
theorem closeUnit_goesOn {i : Instr} {code : OutcomeCode} {s : State} (hi : startsNormal i = true)
    (ho : s.eng.op = some i) (h : unitSucceeded code = true ∨ s.eng.policy ≠ .failFast)
    (hlt : unitIndex s + 1 < s.eng.count) : closeUnit code s = normalPulse (nextUnit code s) := by
  have hrem : s.eng.count - (unitIndex s + 1) = s.eng.count - (unitIndex s + 2) + 1 := by omega
  have hidx : (unitDone code s).eng.count - (s.eng.count - (unitIndex s + 2) + 1) = unitIndex s + 1 := by
    have hcount : (unitDone code s).eng.count = s.eng.count := rfl
    omega
  rw [closeUnit, closeWith_eq, if_neg (by rintro ⟨hc, hp⟩; simp [hc, hp] at h), hrem, runUnits, hidx]
  exact startUnit_normal _ hi ho

/-- A read-back decides that the unit ends with `code` (R183, R187). -/
inductive UnitCloses (s : State) (rb : Reg) : OutcomeCode → Prop
  | setNormal (hp : s.phase = .verifyRead rb) (hm : unitMatches rb s = true) : UnitCloses s rb .setNormal
  | failedVerify (hp : s.phase = .verifyRead rb) (hm : unitMatches rb s = false) (ha : unitAvail s = false) :
    UnitCloses s rb .failedVerify
  | verifyExhausted (hp : s.phase = .verifyRead rb) (hm : unitMatches rb s = false) (ha : unitAvail s = true)
    (hc : ¬ canSoak s) : UnitCloses s rb .failedExhausted
  | setSoak (hp : s.phase = .reverifyRead rb) (hm : unitMatches rb s = true) : UnitCloses s rb .setSoak
  | reverifyExhausted (hp : s.phase = .reverifyRead rb) (hm : unitMatches rb s = false) (hc : ¬ canSoak s) :
    UnitCloses s rb .failedExhausted

theorem soakPulse_not {s : State} {ex : Plan} (h : ¬ canSoak s) : soakPulse ex s = ex :=
  (soakPulse_or ex s).resolve_left h

/-- The unit's end writes ENGINE_STATE, whatever it was. -/
theorem closeUnit_setEng (code : OutcomeCode) (s : State) (e : EngState) :
    closeUnit code (s.setEng e) = closeUnit code s := rfl

theorem exec_closes {i : Instr} {s : State} {rb : Reg} {code : OutcomeCode} (hi : isProgram i = true)
    (h : UnitCloses s rb code) : exec i s = (closeUnit code s).run := by
  cases h with
  | setNormal hp hm => rw [after_verify hi hp, afterVerify, if_pos hm]
  | failedVerify hp hm ha =>
    rw [after_verify hi hp, afterVerify, if_neg (ne_true_of_eq_false hm), if_neg (ne_true_of_eq_false ha)]
  | verifyExhausted hp hm ha hc =>
    rw [after_verify hi hp, afterVerify, if_neg (ne_true_of_eq_false hm), if_pos ha]
    exact congrArg Plan.run ((soakPulse_not (s := s.setEng .needsSoak) hc).trans (closeUnit_setEng ..))
  | setSoak hp hm => rw [after_reverify hi hp, afterReverify, if_pos hm]
  | reverifyExhausted hp hm hc =>
    rw [after_reverify hi hp, afterReverify, if_neg (ne_true_of_eq_false hm)]
    exact congrArg Plan.run (soakPulse_not (s := s.setEng .retrySoak) hc)

/-- OUTCOME when the current unit ends. -/
theorem outcomeAt_unitDone (code : OutcomeCode) (s : State) (j : Nat) : (unitDone code s).outcomeAt j =
    if j = unitIndex s then { s.outcomeAt j with code := code } else s.outcomeAt j := outcomeAt_endUnit code s j

/-! ### The normal pulse of a unit -/

/-- The state after a unit's normal pulse, with the device in `d` and the pulsed slot `sl` (R43, R187, R188). -/
def normalPulsed (s : State) (d : Otp) (sl : Nat) : State :=
  { s with
    otp := d
    cnt := { s.cnt with normal := s.cnt.normal + 1, macros := s.cnt.macros + 1 }
    status := { s.status with engState := .normalProgram }
    eng := { s.eng with slot := sl }
    phase := .normalPulsed s.answer.status
    env := s.drew.env }

theorem normalPulsed_otp (s : State) (d : Otp) (sl : Nat) : (normalPulsed s d sl).otp = d := rfl

theorem normalPulse_word_eq {s : State} {p : Nat} (hl : (unitInfo s).attemptLimited = false)
    (hp : (unitInfo s).base + unitOff s = p) (hin : p < s.cfg.arrayWords) (hu : s.macroUnlocked = true) :
    (normalPulse s).run = .next (normalPulsed s (wordPulsed s p (unitTarget s)) s.eng.slot) := by
  rw [normalPulse_word hl hp hin hu]
  rcases s with ⟨⟩
  rfl

theorem normalPulse_cell_eq {s : State} {sl : Nat} (hl : (unitInfo s).attemptLimited = true)
    (hs : s.select s.eng.region (unitOff s) = some sl) (hu : s.macroUnlocked = true) :
    (normalPulse s).run = .next (normalPulsed s (s.modifySlot s.eng.region (unitOff s) sl (Slot.commit
      ((bufAt s (unitIndex s)).getLsbD 0 && !s.cellSet s.eng.region (unitOff s) && s.answer.took))).otp sl) := by
  rw [normalPulse_cell hl hs hu, normalRequest_cell hl]
  rcases s with ⟨⟩
  rfl

/-! ### The next unit -/

theorem kept_nextUnit (code : OutcomeCode) (s : State) : Kept s (nextUnit code s) :=
  ((kept_endUnit code s).trans (kept_eng _ _)).trans (kept_openUnit _ _)

theorem nextUnit_eng (code : OutcomeCode) (s : State) :
    (nextUnit code s).eng = { (unitDone code s).eng with k := 0 } := rfl

theorem unitInfo_nextUnit (code : OutcomeCode) (s : State) : unitInfo (nextUnit code s) = unitInfo s := by
  have hregion : (nextUnit code s).eng.region = s.eng.region := rfl
  rw [unitInfo, unitInfo, State.info, State.info, (kept_nextUnit code s).cfg, (kept_nextUnit code s).variant, hregion]

theorem wordPulsed_congr {s t : State} (h : Kept s t) (p : Nat) (d : Reg) : wordPulsed t p d = wordPulsed s p d := by
  rw [wordPulsed, wordPulsed, answer_congr h.env, h.otp]

/-- The device after an update of a slot depends on the device only. -/
theorem modifySlot_otp_congr {s t : State} (h : t.otp = s.otp) (hc : t.cfg = s.cfg) (r : Region) (c sl : Nat)
    (f : Slot → Slot) : (t.modifySlot r c sl f).otp = (s.modifySlot r c sl f).otp := by
  have hs : t.otp.slots = s.otp.slots := by rw [h]
  rw [State.modifySlot_otp, State.modifySlot_otp, row_congr hs hc, slotAt_congr hs hc, h, hc]

theorem cellSet_congr {s t : State} (h : t.otp.slots = s.otp.slots) (hc : t.cfg = s.cfg) (r : Region) (c : Nat) :
    t.cellSet r c = s.cellSet r c := by
  simp only [State.cellSet, State.cellValue, State.rowPoisoned, row_congr h hc]

section
variable {code : OutcomeCode} {s : State} (hlt : unitIndex s + 1 < 2 ^ 64)
include hlt

theorem unitIndex_nextUnit : unitIndex (nextUnit code s) = unitIndex s + 1 := by
  have hidx : (nextUnit code s).wordIndex = BitVec.ofNat 64 (unitIndex s + 1) := rfl
  rw [unitIndex, hidx, BitVec.toNat_ofNat, Nat.mod_eq_of_lt hlt]

theorem unitOff_nextUnit : unitOff (nextUnit code s) = s.eng.off + (unitIndex s + 1) := by
  have hoff : (nextUnit code s).eng.off = s.eng.off := rfl
  rw [unitOff, unitIndex_nextUnit hlt, hoff]

theorem unitTarget_nextUnit :
    unitTarget (nextUnit code s) = targetOf s.cfg (unitInfo s) (bufAt s (unitIndex s + 1)) := by
  have hk := kept_nextUnit code s
  rw [unitTarget, unitIndex_nextUnit hlt, unitInfo_nextUnit, hk.cfg, bufAt_congr hk.buf]

/-- The next unit is a word: its normal pulse. -/
theorem normalPulse_nextUnit_word {p : Nat} (hl : (unitInfo s).attemptLimited = false)
    (hp : (unitInfo s).base + (s.eng.off + (unitIndex s + 1)) = p) (hin : p < s.cfg.arrayWords)
    (hu : s.macroUnlocked = true) : (normalPulse (nextUnit code s)).run = .next (normalPulsed (nextUnit code s)
      (wordPulsed s p (bufAt s (unitIndex s + 1) &&& wordMask s.cfg)) s.eng.slot) := by
  have hk := kept_nextUnit code s
  have hslot : (nextUnit code s).eng.slot = s.eng.slot := rfl
  have hinfo := unitInfo_nextUnit code s
  rw [normalPulse_word_eq (p := p) (by rw [hinfo, hl]) (by rw [hinfo, unitOff_nextUnit hlt, hp])
    (by rw [hk.cfg]; exact hin) (by rw [hk.macroUnlocked, hu]), unitTarget_nextUnit hlt, targetOf_word s.cfg hl,
    wordPulsed_congr hk, hslot]

/-- The next unit is a cell with a selectable slot: its normal pulse. -/
theorem normalPulse_nextUnit_cell {c sl : Nat} (hl : (unitInfo s).attemptLimited = true)
    (hc : s.eng.off + (unitIndex s + 1) = c) (hs : s.select s.eng.region c = some sl) (hu : s.macroUnlocked = true) :
    (normalPulse (nextUnit code s)).run = .next (normalPulsed (nextUnit code s)
      (s.modifySlot s.eng.region c sl (Slot.commit ((bufAt s (unitIndex s + 1)).getLsbD 0
        && !s.cellSet s.eng.region c && s.answer.took))).otp sl) := by
  have hk := kept_nextUnit code s
  have hslots : (nextUnit code s).otp.slots = s.otp.slots := by rw [hk.otp]
  have hoff : unitOff (nextUnit code s) = c := (unitOff_nextUnit hlt).trans hc
  have hregion : (nextUnit code s).eng.region = s.eng.region := rfl
  rw [normalPulse_cell_eq (sl := sl) (by rw [unitInfo_nextUnit, hl])
    (by rw [hoff, hregion, select_congr hslots hk.cfg, hs]) (by rw [hk.macroUnlocked, hu]), hoff, hregion,
    unitIndex_nextUnit hlt, modifySlot_otp_congr hk.otp hk.cfg, bufAt_congr hk.buf, cellSet_congr hslots hk.cfg,
    answer_congr hk.env]

/-- The next unit is a cell with no selectable slot: its read-back. -/
theorem normalPulse_nextUnit_none {c : Nat} (hl : (unitInfo s).attemptLimited = true)
    (hc : s.eng.off + (unitIndex s + 1) = c) (hs : s.select s.eng.region c = none) :
    normalPulse (nextUnit code s) = .done ((macroReadCell s.eng.region c ((nextUnit code s).setEng .verify)).2.atPhase
      (.verifyRead (macroReadCell s.eng.region c ((nextUnit code s).setEng .verify)).1)) := by
  have hk := kept_nextUnit code s
  have hslots : (nextUnit code s).otp.slots = s.otp.slots := by rw [hk.otp]
  have hoff : unitOff (nextUnit code s) = c := (unitOff_nextUnit hlt).trans hc
  have hregion : (nextUnit code s).eng.region = s.eng.region := rfl
  have hinfo : unitInfo ((nextUnit code s).setEng .normalProgram) = unitInfo (nextUnit code s) := rfl
  have hpulsed : unitOff ((nextUnit code s).setEng .normalProgram) = c := hoff
  rw [normalPulse_none (by rw [unitInfo_nextUnit, hl]) (by rw [hoff, hregion, select_congr hslots hk.cfg, hs]),
    readBack_cell (by rw [hinfo, unitInfo_nextUnit, hl]), hpulsed]
  rfl

end

/-! ### What such a step changes -/

/-- What SLOT differs in after an update of an existing slot. -/
theorem slotModified_frame {s t : State} {r : Region} {c sl : Nat} {f : Slot → Slot}
    (h : t.otp = (s.modifySlot r c sl f).otp) (hc : t.cfg = s.cfg) (hlt : sl < (s.row r c).length) (r' : Region)
    (c' sl' : Nat) :
    t.slotAt r' c' sl' = if r' = r ∧ c' = c ∧ sl' = sl then f (s.slotAt r c sl) else s.slotAt r' c' sl' := by
  rw [slotAt_congr (s := s.modifySlot r c sl f) (by rw [h]) hc, slotAt_modifySlot_of_lt hlt]

/-- The end of a command whose last unit ended with `code` (R44, R191, R192). -/
theorem finishProgram_unitDone (code : OutcomeCode) (s : State) : finishProgram (unitDone code s) = { s with
    status := { s.status with
      err := (unitDone code s).eng.firstErr
      result := aggregate (unitDone code s).eng.nsucc s.eng.count
      busy := false
      engState := if unitSucceeded code then .success else .failure }
    outcome := (unitDone code s).outcome
    eng := { s.eng with nsucc := (unitDone code s).eng.nsucc, firstErr := (unitDone code s).eng.firstErr }
    phase := .start } := by
  rcases s with ⟨⟩
  rfl

/-- The step from a unit that ended with `code` to the normal pulse of the next. -/
theorem normalPulsed_nextUnit (code : OutcomeCode) (s : State) (d : Otp) (sl : Nat) :
    normalPulsed (nextUnit code s) d sl = { s with
      otp := d
      cnt := { s.cnt with normal := s.cnt.normal + 1, macros := s.cnt.macros + 1 }
      status := { s.status with engState := .normalProgram }
      wordIndex := BitVec.ofNat 64 (unitIndex s + 1)
      outcome := (unitDone code s).outcome
      eng := { s.eng with
        nsucc := (unitDone code s).eng.nsucc, firstErr := (unitDone code s).eng.firstErr, k := 0, slot := sl }
      phase := .normalPulsed s.answer.status
      env := s.drew.env } := by
  rcases s with ⟨⟩
  rfl

/-- The step from a unit that ended with `code` to the read-back of a cell with no selectable slot. -/
theorem macroReadCell_nextUnit (code : OutcomeCode) (s : State) (c : Nat) :
    ∃ x v, (macroReadCell s.eng.region c ((nextUnit code s).setEng .verify)).2.atPhase
        (.verifyRead (macroReadCell s.eng.region c ((nextUnit code s).setEng .verify)).1) = { s with
          cnt := { s.cnt with macros := s.cnt.macros + 1 }
          status := { s.status with engState := .verify }
          wordIndex := BitVec.ofNat 64 (unitIndex s + 1)
          outcome := (unitDone code s).outcome
          eng := { s.eng with
            nsucc := (unitDone code s).eng.nsucc, firstErr := (unitDone code s).eng.firstErr, k := 0 }
          phase := .verifyRead x
          env := v } ∧
      (s.rowPoisoned s.eng.region c = false → x = (if s.cellValue s.eng.region c then 1 else 0) ∧ v = s.env) := by
  have hk : Kept s ((nextUnit code s).setEng .verify) := (kept_nextUnit code s).trans (kept_setEng _ _)
  generalize hu : (nextUnit code s).setEng .verify = u at hk ⊢
  have hrow : u.row s.eng.region c = s.row s.eng.region c := row_congr (by rw [hk.otp]) hk.cfg _ _
  refine ⟨(macroReadCell s.eng.region c u).1, (macroReadCell s.eng.region c u).2.env, ?_, fun h => ?_⟩
  · rw [macroReadCell_snd]
    generalize macroReadCell s.eng.region c u = y
    subst hu
    rcases s with ⟨⟩
    rfl
  · rw [macroReadCell_clean (by rw [State.rowPoisoned, hrow]; exact h), State.cellValue, hrow]
    exact ⟨rfl, hk.env⟩

/-- Settles O51: the read-back closes the unit, and then the loop ends or goes on with the next unit's normal pulse. -/
theorem unitFailureFollowsThePolicy : Obligations.UnitFailureFollowsThePolicy := by
  intro i s rb code hi ho hcount hbuf u r can hcase ok nsucc first closed
  have hcan : ¬ can → ¬ canSoak s := by
    rintro hn ⟨hk, hsel⟩
    refine hn ⟨hk, fun hl h => ?_⟩
    obtain ⟨sl, hsl⟩ := hsel hl
    cases h.symm.trans hsl
  have hcloses : UnitCloses s rb code := by
    rcases hcase with ⟨hp, ⟨hm, rfl⟩ | ⟨hm, ha, rfl⟩ | ⟨hm, ha, hn, rfl⟩⟩ | ⟨hp, ⟨hm, rfl⟩ | ⟨hm, hn, rfl⟩⟩
    · exact .setNormal hp hm
    · exact .failedVerify hp hm ha
    · exact .verifyExhausted hp hm ha (hcan hn)
    · exact .setSoak hp hm
    · exact .reverifyExhausted hp hm (hcan hn)
  have hexec := exec_closes hi hcloses
  have hok : ok ↔ unitSucceeded code = true := by cases code <;> simp [ok, unitSucceeded]
  have hnsucc : nsucc = (unitDone code s).eng.nsucc := by
    simp only [nsucc, unitDone]
    exact if_congr hok rfl rfl
  have hfirst : first = (unitDone code s).eng.firstErr := by
    have hone : (if code = .failedVerify then ErrCode.verificationFailed else .writeExhausted) = unitError code := by
      cases hcloses <;> rfl
    simp only [first, hone, ← or_assoc]
    exact if_congr (or_congr_left hok) rfl rfl
  have heng : (if code = .setNormal ∨ code = .setSoak then EngState.success else .failure) =
      if unitSucceeded code then .success else .failure := if_congr hok rfl rfl
  have hout (t : State) (h : t.outcome = (unitDone code s).outcome) : closed t := fun j =>
    (outcomeAt_congr h j).trans (outcomeAt_unitDone code s j)
  constructor
  · intro hend
    refine ⟨finishProgram (unitDone code s), ?_, hout _ rfl, ?_⟩
    · rw [hexec, closeUnit_ends (hend.imp_left (And.imp_left fun h => by simpa [hok] using h)), run_done]
    · rw [finishProgram_unitDone, hnsucc, hfirst, heng]
      rfl
  · intro hn hgo hlt hu o p eng
    have hpol : unitSucceeded code = true ∨ s.eng.policy ≠ .failFast :=
      hgo.imp hok.mp fun h => by rw [h]; decide
    have hu64 : unitIndex s + 1 < 2 ^ 64 := by
      have : unitIndex s = u := rfl
      omega
    rw [hexec, closeUnit_goesOn hn ho hpol hlt]
    refine ⟨fun hl hp => ?_, fun sl hl hs => ?_, fun hl hs => ?_⟩
    · obtain ⟨-, hword, hframe⟩ := wordPulsed_frame (s := s) (t := normalPulsed (nextUnit code s)
        (wordPulsed s p (bufAt s (u + 1) &&& wordMask s.cfg)) s.eng.slot) (normalPulsed_otp ..)
      refine ⟨_, normalPulse_nextUnit_word hu64 hl rfl hp hu, hout _ rfl, hword, hframe, ?_⟩
      rw [normalPulsed_nextUnit, ← hnsucc, ← hfirst]
      rfl
    · obtain ⟨hsl, -, -⟩ := select_some hs
      exact ⟨_, normalPulse_nextUnit_cell hu64 hl rfl hs hu, hout _ rfl,
        slotModified_frame (normalPulsed_otp ..) (kept_nextUnit code s).cfg hsl,
        by rw [normalPulsed_nextUnit, ← hnsucc, ← hfirst]; rfl⟩
    · obtain ⟨x, v, heq, hclean⟩ := macroReadCell_nextUnit code s o
      refine ⟨_, x, (congrArg Plan.run (normalPulse_nextUnit_none hu64 hl rfl hs)).trans
        ((run_done _).trans (congrArg _ heq)), hout _ rfl, hclean, ?_⟩
      rw [← hnsucc, ← hfirst]
      rfl

/-! ### SOAK_PROGRAM without a pulse -/

/-- A ready SOAK_PROGRAM that can issue no pulse ends its one unit in the first step (R183, R195). -/
theorem exec_first_soak_ends {r : Region} {s : State} (h : ReadyToProgram s (.soakProgram r))
    (hn : soakAvailable s.cfg s.variant r s.addr.toNat = true → ¬ canSoak (firstUnit (.soakProgram r) s)) :
    exec (.soakProgram r) s = .next (finishProgram (unitDone
      (if soakAvailable s.cfg s.variant r s.addr.toNat then .failedExhausted else .failedVerify)
      (firstUnit (.soakProgram r) s))) := by
  have hcount : (firstUnit (.soakProgram r) s).eng.count ≤ unitIndex (firstUnit (.soakProgram r) s) + 1 :=
    Nat.le_refl 1
  have havail : unitAvail (firstUnit (.soakProgram r) s) = soakAvailable s.cfg s.variant r s.addr.toNat := rfl
  have hclose (code : OutcomeCode) : closeWith (runUnits (unitCount (.soakProgram r) s - 1)) code
      (firstUnit (.soakProgram r) s) = .done (finishProgram (unitDone code (firstUnit (.soakProgram r) s))) :=
    closeUnit_ends (.inr hcount)
  rw [program_first rfl h (Nat.le_refl 1)]
  refine (congrArg Plan.run (startUnit_soak (s := firstUnit (.soakProgram r) s) _ rfl)).trans ?_
  rw [havail]
  cases ha : soakAvailable s.cfg s.variant r s.addr.toNat with
  | false => rw [if_neg Bool.false_ne_true, if_neg Bool.false_ne_true, hclose, run_done]
  | true => rw [if_pos rfl, if_pos rfl, soakPulse_not (hn ha), hclose, run_done]

/-- The end of a SOAK_PROGRAM whose unit failed in the first step. -/
theorem finishProgram_firstUnit {r : Region} {s : State} {code : OutcomeCode} (hp : s.phase = .start)
    (hc : unitSucceeded code = false) : finishProgram (unitDone code (firstUnit (.soakProgram r) s)) = { s with
      status := { s.status with err := unitError code, result := .failure, busy := false, engState := .failure }
      wordIndex := 0
      outcome := (unitDone code (firstUnit (.soakProgram r) s)).outcome
      eng := (finishProgram (unitDone code (firstUnit (.soakProgram r) s))).eng } := by
  cases code with
  | setNormal | setSoak => cases hc
  | _ =>
    rcases s with ⟨⟩
    cases hp
    rfl

/-- Settles O44: the one unit ends where its soak pulse would have been. -/
theorem soakProgramWithoutAPulse : Obligations.SoakProgramWithoutAPulse := by
  intro r s h avail can hno
  have hn : avail = true → ¬ canSoak (firstUnit (.soakProgram r) s) := by
    rintro ha ⟨hk, hsel⟩
    refine hno.resolve_left (by rw [ha]; decide) ⟨hk, fun hl hs => ?_⟩
    obtain ⟨sl, hsl⟩ := hsel hl
    cases hs.symm.trans hsl
  have hfail : unitSucceeded (if avail then .failedExhausted else .failedVerify) = false := by cases avail <;> rfl
  have herr : unitError (if avail then .failedExhausted else .failedVerify) =
      if avail then .writeExhausted else .verificationFailed := by cases avail <;> rfl
  refine ⟨_, exec_first_soak_ends h hn, (finishProgram_firstUnit h.start hfail).trans ?_, fun j => ?_⟩
  · rw [herr]
    rfl
  · refine (outcomeAt_unitDone _ (firstUnit (.soakProgram r) s) j).trans ?_
    cases j with
    | zero => rfl
    | succ j => rfl

end Sys2Proof.Machine
end

section
/-! A unit from its normal pulse to its end (44_program_engine.md R183, R187, R188, R197): what its reads and its soak pulses leave,
and the commands whose first unit ends in Success. -/

namespace Sys2Proof.Machine

/-! ### Answers and counts -/

theorem answerAt_zero (s : State) : s.answerAt 0 = s.answer := by
  unfold State.answerAt State.answer
  cases s.env.oracle <;> rfl

/-- After a draw the answers still to come are the later ones (R13). -/
theorem answerAt_drew {s t : State} (h : t.env = s.drew.env) (j : Nat) : t.answerAt j = s.answerAt (j + 1) := by
  have horacle : s.drew.env.oracle[j]? = s.env.oracle[j + 1]? := List.getElem?_tail
  have hdraws : s.drew.env.draws + j = s.env.draws + (j + 1) := by
    simp only [State.drew_env]
    omega
  rw [State.answerAt, State.answerAt, h, horacle, hdraws]

theorem answer_drew {s t : State} (h : t.env = s.drew.env) : t.answer = s.answerAt 1 := by
  rw [← answerAt_zero, answerAt_drew h]

/-- `m` steps, then the steps that follow. -/
theorem execSteps_add {i : Instr} {s t : State} {m : Nat} (h : execSteps i m s = .next t) (n : Nat) :
    execSteps i (m + n) s = execSteps i n t := by
  induction m generalizing s with
  | zero =>
    cases h
    rw [Nat.zero_add]
  | succ m ih =>
    rw [execSteps] at h
    split at h
    · rename_i u hu
      rw [Nat.succ_add_eq_add_succ, Nat.add_succ, execSteps_succ hu]
      exact ih h
    · cases h
    · cases h

theorem execSteps_one {i : Instr} {s t : State} (h : exec i s = .next t) : execSteps i 1 s = .next t :=
  execSteps_succ h

theorem execSteps_two {i : Instr} {s t u : State} (h : exec i s = .next t) (g : exec i t = .next u) :
    execSteps i 2 s = .next u := (execSteps_succ h).trans (execSteps_one g)

/-! ### Reads -/

/-- The state in which a unit is read back with value `rb` after its normal pulse (R187, R188). -/
def normalReadBack (s : State) (rb : Reg) : State :=
  ((noteNormalPulse s).setEng .verify).countMacro.atPhase (.verifyRead rb)

theorem unitIndex_normalReadBack (s : State) (rb : Reg) : unitIndex (normalReadBack s rb) = unitIndex s := by
  simp [unitIndex, normalReadBack]

theorem unitMatches_normalReadBack (s : State) (rb x : Reg) :
    unitMatches x (normalReadBack s rb) = unitMatches x s := by
  simp [unitMatches, unitTarget, unitInfo, State.info, bufAt, unitIndex, normalReadBack]

theorem outcomeAt_normalReadBack (s : State) (rb : Reg) (j : Nat) : (normalReadBack s rb).outcomeAt j =
    if j = unitIndex s then { s.outcomeAt j with normalPulse := true } else s.outcomeAt j :=
  outcomeAt_noteNormalPulse s j

theorem outcomeAt_soakReadBack (s : State) (rb : Reg) (j : Nat) : (soakReadBack s rb).outcomeAt j =
    if j = unitIndex s then { s.outcomeAt j with soakPulses := soakPulseBits (s.eng.k + 1) } else s.outcomeAt j :=
  outcomeAt_noteSoakPulse s j

section
variable {i : Instr} {s : State} (hi : isProgram i = true)
include hi

/-- The verify read of a word that is not poisoned (R64, R187). -/
theorem exec_verify_word {p : Nat} (hph : s.phase = .normalPulsed .ready) (hl : (unitInfo s).attemptLimited = false)
    (hp : (unitInfo s).base + unitOff s = p) (hin : p < s.cfg.arrayWords) (hc : s.poisoned p = false) :
    exec i s = .next (normalReadBack s (s.word p)) := by
  rw [after_normal hi hph, afterPulse, readBack_word_clean (s := noteNormalPulse s) hl hp hin hc, run_done]
  rfl

/-- The verify read of a cell with no poisoned slot (R64, R188). -/
theorem exec_verify_cell (hph : s.phase = .normalPulsed .ready) (hl : (unitInfo s).attemptLimited = true)
    (hc : s.rowPoisoned s.eng.region (unitOff s) = false) :
    exec i s = .next (normalReadBack s (if s.cellValue s.eng.region (unitOff s) then 1 else 0)) := by
  rw [after_normal hi hph, afterPulse, readBack_cell_clean (s := noteNormalPulse s) hl hc, run_done]
  rfl

/-- The re-verify read of a word that is not poisoned (R64, R187). -/
theorem exec_reverify_word {p : Nat} (hph : s.phase = .soakPulsed .ready) (hl : (unitInfo s).attemptLimited = false)
    (hp : (unitInfo s).base + unitOff s = p) (hin : p < s.cfg.arrayWords) (hc : s.poisoned p = false) :
    exec i s = .next (soakReadBack s (s.word p)) := by
  rw [after_soak hi hph, afterPulse, readBack_word_clean (s := noteSoakPulse s) hl hp hin hc, run_done]
  rfl

/-- The re-verify read of a cell with no poisoned slot (R64, R188). -/
theorem exec_reverify_cell (hph : s.phase = .soakPulsed .ready) (hl : (unitInfo s).attemptLimited = true)
    (hc : s.rowPoisoned s.eng.region (unitOff s) = false) :
    exec i s = .next (soakReadBack s (if s.cellValue s.eng.region (unitOff s) then 1 else 0)) := by
  rw [after_soak hi hph, afterPulse, readBack_cell_clean (s := noteSoakPulse s) hl hc, run_done]
  rfl

end

/-! ### Soak pulses -/

/-- The state after a unit's soak pulse, with the device in `d` and the pulsed slot `sl` (R43, R187, R188). -/
def soakPulsed (s : State) (d : Otp) (sl : Nat) : State :=
  { s with
    otp := d
    cnt := { s.cnt with soak := s.cnt.soak + 1, macros := s.cnt.macros + 1 }
    status := { s.status with engState := .soakProgram }
    eng := { s.eng with slot := sl }
    phase := .soakPulsed s.answer.status
    env := s.drew.env }

/-- The read-back `rb` does not match, and soak is available (R183). -/
def Missed (s : State) (rb : Reg) : Prop :=
  unitMatches rb s = false ∧ (s.phase = .verifyRead rb ∧ unitAvail s = true ∨ s.phase = .reverifyRead rb)

section
variable {i : Instr} {s : State} {rb : Reg} (hi : isProgram i = true) (hm : Missed s rb)
include hi hm

/-- A unit that has missed goes on with a soak pulse, or it is exhausted (R183). -/
theorem exec_missed : ∃ e, exec i s = (soakPulse (closeUnit .failedExhausted s) (s.setEng e)).run := by
  obtain ⟨hne, ⟨hp, ha⟩ | hp⟩ := hm
  · refine ⟨.needsSoak, ?_⟩
    rw [after_verify hi hp, afterVerify, if_neg (ne_true_of_eq_false hne), if_pos ha]
    rfl
  · refine ⟨.retrySoak, ?_⟩
    rw [after_reverify hi hp, afterReverify, if_neg (ne_true_of_eq_false hne)]

theorem exec_missed_exhausted (hc : ¬ canSoak s) : exec i s = (closeUnit .failedExhausted s).run := by
  obtain ⟨e, he⟩ := exec_missed hi hm
  rw [he]
  exact congrArg Plan.run (soakPulse_not (s := s.setEng e) hc)

theorem exec_missed_word {p : Nat} (hk : s.eng.k < s.eng.soak.retries.toNat)
    (hl : (unitInfo s).attemptLimited = false) (hp : (unitInfo s).base + unitOff s = p) (hin : p < s.cfg.arrayWords)
    (hu : s.macroUnlocked = true) :
    exec i s = .next (soakPulsed s (wordPulsed s p (unitTarget s)) s.eng.slot) := by
  obtain ⟨e, he⟩ := exec_missed hi hm
  rw [he, soakPulse_word (s := s.setEng e) hk hl hp hin hu]
  rcases s with ⟨⟩
  rfl

theorem exec_missed_cell {sl : Nat} (hk : s.eng.k < s.eng.soak.retries.toNat)
    (hl : (unitInfo s).attemptLimited = true) (hs : s.select s.eng.region (unitOff s) = some sl)
    (hu : s.macroUnlocked = true) : exec i s = .next (soakPulsed s (slotPulsed s s.eng.region (unitOff s) sl
      ((unitTarget s).getLsbD 0 && s.answer.took)).otp sl) := by
  obtain ⟨e, he⟩ := exec_missed hi hm
  rw [he, soakPulse_cell (s := s.setEng e) hk hl hs hu]
  rcases s with ⟨⟩
  rfl

end

/-! ### The value and the poison of a cell after a pulse -/

theorem rowPoisoned_of_slots {s t : State} {r : Region} {c : Nat} (hlen : (t.row r c).length = (s.row r c).length)
    (h : ∀ j, (t.slotAt r c j).poisoned = (s.slotAt r c j).poisoned) : t.rowPoisoned r c = s.rowPoisoned r c := by
  rw [Bool.eq_iff_iff, State.rowPoisoned, State.rowPoisoned, row_any_iff, row_any_iff]
  simp only [hlen, h]

theorem cellValue_of_slots {s t : State} {r : Region} {c : Nat} (hlen : (t.row r c).length = (s.row r c).length)
    (h : ∀ j, (t.slotAt r c j).committed = (s.slotAt r c j).committed) : t.cellValue r c = s.cellValue r c := by
  rw [Bool.eq_iff_iff, State.cellValue, State.cellValue, row_any_iff, row_any_iff]
  simp only [hlen, h]

theorem rowPoisoned_congr {s t : State} (h : t.otp.slots = s.otp.slots) (hc : t.cfg = s.cfg) (r : Region) (c : Nat) :
    t.rowPoisoned r c = s.rowPoisoned r c := by rw [State.rowPoisoned, row_congr h hc, State.rowPoisoned]

theorem cellValue_congr {s t : State} (h : t.otp.slots = s.otp.slots) (hc : t.cfg = s.cfg) (r : Region) (c : Nat) :
    t.cellValue r c = s.cellValue r c := by rw [State.cellValue, row_congr h hc, State.cellValue]

section
variable {s : State} {r : Region} {c sl : Nat} (hlt : sl < (s.row r c).length)
include hlt

/-- A pulse poisons no slot (R63). -/
theorem rowPoisoned_commit (b : Bool) : (s.modifySlot r c sl (Slot.commit b)).rowPoisoned r c = s.rowPoisoned r c := by
  refine rowPoisoned_of_slots (row_length_modifySlot ..) fun j => ?_
  rw [slotAt_modifySlot_of_lt hlt]
  split
  · rename_i hj
    obtain ⟨-, -, rfl⟩ := hj
    rfl
  · rfl

/-- A cell is set after a pulse if it was set before or its slot took the bit (R28, R63). -/
theorem cellValue_commit (b : Bool) :
    (s.modifySlot r c sl (Slot.commit b)).cellValue r c = (s.cellValue r c || b) := by
  have hslot (j : Nat) : ((s.modifySlot r c sl (Slot.commit b)).slotAt r c j).committed =
      ((s.slotAt r c j).committed || (decide (j = sl) && b)) := by
    rw [slotAt_modifySlot_of_lt hlt]
    by_cases hj : j = sl
    · subst hj
      simp [Slot.commit]
    · simp [hj]
  cases b with
  | false =>
    rw [Bool.or_false]
    exact cellValue_of_slots (row_length_modifySlot ..) fun j => by simp [hslot]
  | true =>
    rw [Bool.or_true, State.cellValue, row_any_iff, row_length_modifySlot]
    exact ⟨sl, hlt, by simp [hslot]⟩

/-- A soak pulse that sets nothing leaves the cell's value (R28, R63). -/
theorem cellValue_slotPulsed_false : (slotPulsed s r c sl false).cellValue r c = s.cellValue r c := by
  refine cellValue_of_slots (row_length_slotPulsed ..) fun j => ?_
  rw [slotAt_slotPulsed hlt]
  split
  · rename_i hj
    obtain ⟨-, -, rfl⟩ := hj
    exact Bool.or_false _
  · rfl

end

/-! ### A soak pulse and its read-back -/

/-- The state after a soak pulse that reported READY and its read-back `rb`, with the device in `d` (R187, R188). -/
def soakTried (s : State) (d : Otp) (sl : Nat) (rb : Reg) : State := soakReadBack (soakPulsed s d sl) rb

theorem soakTried_phase (s : State) (d : Otp) (sl : Nat) (rb : Reg) : (soakTried s d sl rb).phase = .reverifyRead rb := rfl

theorem unitMatches_soakTried (s : State) (d : Otp) (sl : Nat) (rb x : Reg) :
    unitMatches x (soakTried s d sl rb) = unitMatches x s := unitMatches_soakReadBack (soakPulsed s d sl) rb x

theorem unitIndex_soakTried (s : State) (d : Otp) (sl : Nat) (rb : Reg) :
    unitIndex (soakTried s d sl rb) = unitIndex s := unitIndex_soakReadBack (soakPulsed s d sl) rb

theorem outcomeAt_soakTried (s : State) (d : Otp) (sl : Nat) (rb : Reg) (j : Nat) :
    (soakTried s d sl rb).outcomeAt j =
      if j = unitIndex s then { s.outcomeAt j with soakPulses := soakPulseBits (s.eng.k + 1) } else s.outcomeAt j :=
  outcomeAt_soakReadBack (soakPulsed s d sl) rb j

section
variable {i : Instr} {s : State} {rb : Reg} (hi : isProgram i = true) (hm : Missed s rb)
  (hk : s.eng.k < s.eng.soak.retries.toNat) (hu : s.macroUnlocked = true) (hst : s.answer.status = .ready)
include hi hm hk hu hst

/-- A soak pulse on a word that is not poisoned, and its read-back. -/
theorem execSteps_soakTried_word {p : Nat} (hl : (unitInfo s).attemptLimited = false)
    (hp : (unitInfo s).base + unitOff s = p) (hin : p < s.cfg.arrayWords) (hc : s.poisoned p = false) :
    execSteps i 2 s = .next (soakTried s (wordPulsed s p (unitTarget s)) s.eng.slot
      (s.word p ||| (unitTarget s &&& s.answer.bits))) := by
  have hready : (soakPulsed s (wordPulsed s p (unitTarget s)) s.eng.slot).phase = .soakPulsed .ready :=
    congrArg Phase.soakPulsed hst
  have hword : (soakPulsed s (wordPulsed s p (unitTarget s)) s.eng.slot).word p =
      s.word p ||| (unitTarget s &&& s.answer.bits) := State.word_orWord_self s p _
  rw [execSteps_succ (exec_missed_word hi hm hk hl hp hin hu), soakTried, ← hword]
  exact execSteps_one (exec_reverify_word hi hready hl hp hin hc)

/-- A soak pulse on the selected slot of a cell with no poisoned slot, and its read-back. -/
theorem execSteps_soakTried_cell {r : Region} {c sl : Nat} {b : Bool} (hl : (unitInfo s).attemptLimited = true)
    (hr : s.eng.region = r) (ho : unitOff s = c) (hs : s.select r c = some sl) (hc : s.rowPoisoned r c = false)
    (hb : ((unitTarget s).getLsbD 0 && s.answer.took) = b) :
    execSteps i 2 s = .next (soakTried s (slotPulsed s r c sl b).otp sl
      (if (slotPulsed s r c sl b).cellValue r c then 1 else 0)) := by
  subst hr ho hb
  generalize hb : ((unitTarget s).getLsbD 0 && s.answer.took) = b
  obtain ⟨hlt, -, -⟩ := select_some hs
  have hsoak := exec_missed_cell hi hm hk hl hs hu
  rw [hb] at hsoak
  generalize hv : slotPulsed s s.eng.region (unitOff s) sl b = v at hsoak ⊢
  have hready : (soakPulsed s v.otp sl).phase = .soakPulsed .ready := congrArg Phase.soakPulsed hst
  have hrow : (soakPulsed s v.otp sl).row s.eng.region (unitOff s) = v.row s.eng.region (unitOff s) :=
    row_congr (s := v) (t := soakPulsed s v.otp sl) rfl (by rw [← hv]; rfl) _ _
  have hclean : (soakPulsed s v.otp sl).rowPoisoned s.eng.region (unitOff s) = false := by
    rw [State.rowPoisoned, hrow, ← hv]
    exact (rowPoisoned_slotPulsed hlt b).trans hc
  have hvalue : (soakPulsed s v.otp sl).cellValue s.eng.region (unitOff s) = v.cellValue s.eng.region (unitOff s) := by
    rw [State.cellValue, hrow, State.cellValue]
  rw [execSteps_succ hsoak, soakTried, ← hvalue]
  exact execSteps_one (exec_reverify_cell hi hready hl hclean)

end

/-! ### A first unit that is read back after its normal pulse -/

/-- The data commands of one unit that begin with a normal pulse (R196, R225). -/
theorem oneUnit {i : Instr} {r : Region} (h : i = .write r ∨ i = .programWithSoakFallback r) (s : State) :
    startsNormal i = true ∧ regionField i = r ∧ unitCount i s = 1 := by
  rcases h with rfl | rfl <;> exact ⟨rfl, rfl, rfl⟩

/-- The state in which a first unit is read back with value `rb` after its normal pulse, with the device in `d`. -/
def verifying (i : Instr) (s : State) (d : Otp) (sl : Nat) (rb : Reg) : State :=
  normalReadBack (normalBegun i s d sl) rb

section
variable (i : Instr) (s : State) (d : Otp) (sl : Nat) (rb : Reg)

theorem verifying_otp : (verifying i s d sl rb).otp = d := rfl
theorem verifying_cfg : (verifying i s d sl rb).cfg = s.cfg := rfl
theorem verifying_env : (verifying i s d sl rb).env = s.drew.env := rfl
theorem verifying_buf : (verifying i s d sl rb).buf = s.buf := rfl
theorem verifying_phase : (verifying i s d sl rb).phase = .verifyRead rb := rfl
theorem verifying_macroUnlocked : (verifying i s d sl rb).macroUnlocked = s.macroUnlocked := rfl
theorem verifying_eng : (verifying i s d sl rb).eng = { engAt i s with slot := sl } := rfl
theorem unitIndex_verifying : unitIndex (verifying i s d sl rb) = 0 := rfl
theorem unitOff_verifying : unitOff (verifying i s d sl rb) = s.addr.toNat := rfl
theorem unitInfo_verifying : unitInfo (verifying i s d sl rb) = s.info (regionField i) := rfl
theorem unitTarget_verifying :
    unitTarget (verifying i s d sl rb) = targetOf s.cfg (s.info (regionField i)) (bufAt s 0) := rfl
theorem unitAvail_verifying :
    unitAvail (verifying i s d sl rb) = soakAvailable s.cfg s.variant (regionField i) s.addr.toNat := rfl

theorem outcomeAt_verifying (j : Nat) : (verifying i s d sl rb).outcomeAt j =
    if j = 0 then { s.outcomeAt j with normalPulse := true } else s.outcomeAt j :=
  outcomeAt_normalReadBack (normalBegun i s d sl) rb j

end

section
variable {i : Instr} {s : State} (hi : startsNormal i = true) (h : ReadyToProgram s i) (hn : 1 ≤ unitCount i s)
  (hst : s.answer.status = .ready)
include hi h hn hst

/-- Two steps of a command on a poison-free word whose normal pulse reports READY (R187). -/
theorem exec_verifying_word {p : Nat} {d : Reg} (hl : (s.info (regionField i)).attemptLimited = false)
    (hp : (s.info (regionField i)).base + s.addr.toNat = p) (hd : bufAt s 0 &&& wordMask s.cfg = d)
    (hc : s.poisoned p = false) :
    exec i s = .next (normalBegun i s (wordPulsed s p d) s.eng.slot) ∧
      exec i (normalBegun i s (wordPulsed s p d) s.eng.slot) =
        .next (verifying i s (wordPulsed s p d) s.eng.slot (s.word p ||| (d &&& s.answer.bits))) := by
  subst hp hd
  refine ⟨exec_first_normal_word hi h hn hl, ?_⟩
  have hword : (normalBegun i s (wordPulsed s ((s.info (regionField i)).base + s.addr.toNat)
      (bufAt s 0 &&& wordMask s.cfg)) s.eng.slot).word ((s.info (regionField i)).base + s.addr.toNat) =
      _ := State.word_orWord_self s _ _
  rw [verifying, ← hword]
  exact exec_verify_word (startsNormal_isProgram hi) (congrArg Phase.normalPulsed hst) hl rfl (firstUnit_inside h hl) hc

/-- Two steps of a command on a cell with no poisoned slot whose normal pulse reports READY (R188). -/
theorem exec_verifying_cell {r : Region} {c sl : Nat} {b : Bool} (hr : regionField i = r) (ho : s.addr.toNat = c)
    (hl : (s.info r).attemptLimited = true) (hs : s.select r c = some sl) (hc : s.rowPoisoned r c = false)
    (hb : ((bufAt s 0).getLsbD 0 && !s.cellSet r c && s.answer.took) = b) :
    execSteps i 2 s = .next (verifying i s (s.modifySlot r c sl (Slot.commit b)).otp sl
      (if s.cellValue r c || b then 1 else 0)) := by
  subst hr ho hb
  obtain ⟨hlt, -, -⟩ := select_some hs
  have hbegin := exec_first_normal_cell hi h hn hl hs
  generalize ((bufAt s 0).getLsbD 0 && !s.cellSet (regionField i) s.addr.toNat && s.answer.took) = b at hbegin ⊢
  rw [← cellValue_commit hlt]
  have hclean := (rowPoisoned_commit hlt b).trans hc
  generalize hv : s.modifySlot (regionField i) s.addr.toNat sl (Slot.commit b) = v at hbegin hclean ⊢
  have hcfg : v.cfg = s.cfg := by rw [← hv]; rfl
  have hclean : (normalBegun i s v.otp sl).rowPoisoned (regionField i) s.addr.toNat = false := by
    rw [rowPoisoned_congr (s := v) (t := normalBegun i s v.otp sl) rfl hcfg.symm, hclean]
  have hvalue : (normalBegun i s v.otp sl).cellValue (regionField i) s.addr.toNat =
      v.cellValue (regionField i) s.addr.toNat :=
    cellValue_congr (s := v) (t := normalBegun i s v.otp sl) rfl hcfg.symm _ _
  rw [execSteps_succ hbegin, verifying, ← hvalue]
  exact execSteps_one (exec_verify_cell (startsNormal_isProgram hi) (congrArg Phase.normalPulsed hst) hl hclean)

end

end Sys2Proof.Machine
end

section
/-! The data commands of one unit whose target is met (44_program_engine.md R196, R197, 45_facade.md R225): by the normal pulse, or by
the first soak pulse. -/

namespace Sys2Proof.Machine

/-! ### The end of the one unit -/

/-- The end of a command whose one unit ended in Success. -/
theorem aggregate_one {i : Instr} {s : State} (hn : unitCount i s = 1) : aggregate 1 (unitCount i s) = .success := by
  rw [hn]
  rfl

section
variable {i : Instr} {s : State} (hi : isProgram i = true) (hn : unitCount i s = 1) (hp : s.phase = .start)
include hi hn hp

/-- A read-back that matches after the normal pulse ends the command SET_NORMAL (R183, R191). -/
theorem verifying_ends {d : Otp} {sl : Nat} {rb : Reg}
    (hm : monotonicMatch rb (targetOf s.cfg (s.info (regionField i)) (bufAt s 0)) = true) :
    ∃ t, exec i (verifying i s d sl rb) = .next t ∧ t.otp = d ∧
      (∀ j, t.outcomeAt j =
        if j = 0 then { s.outcomeAt 0 with code := .setNormal, normalPulse := true } else s.outcomeAt j) ∧
      t = { s with
        otp := t.otp
        cnt := { s.cnt with normal := s.cnt.normal + 1, macros := s.cnt.macros + 2 }
        status := { finished .ok .success s.status with engState := .success }
        wordIndex := 0, outcome := t.outcome, eng := t.eng, env := s.drew.env } := by
  have hmatch : unitMatches rb (verifying i s d sl rb) = true := by rw [unitMatches, unitTarget_verifying, hm]
  have hlast : (verifying i s d sl rb).eng.count ≤ unitIndex (verifying i s d sl rb) + 1 := Nat.le_of_eq hn
  have hmacros : s.cnt.macros + 2 = s.cnt.macros + 1 + 1 := by bv_omega
  refine ⟨finishProgram (unitDone .setNormal (verifying i s d sl rb)), ?_, rfl, fun j => ?_, ?_⟩
  · rw [exec_closes hi (.setNormal (verifying_phase ..) hmatch), closeUnit_ends (.inr hlast), run_done]
  · refine (outcomeAt_unitDone .setNormal (verifying i s d sl rb) j).trans ?_
    rw [unitIndex_verifying, outcomeAt_verifying]
    cases j with
    | zero => rfl
    | succ j => rfl
  · rw [hmacros, finished, ← aggregate_one hn]
    rcases s with ⟨⟩
    cases hp
    rfl

/-- A read-back that matches after the first soak pulse ends the command SET_SOAK (R183, R191). -/
theorem soakTried_ends {d₁ d₂ : Otp} {sl₁ sl₂ : Nat} {x₁ x₂ : Reg}
    (hm : monotonicMatch x₂ (targetOf s.cfg (s.info (regionField i)) (bufAt s 0)) = true) :
    ∃ t, exec i (soakTried (verifying i s d₁ sl₁ x₁) d₂ sl₂ x₂) = .next t ∧ t.otp = d₂ ∧
      (∀ j, t.outcomeAt j = if j = 0 then ⟨.setSoak, 1, true⟩ else s.outcomeAt j) ∧
      t = { s with
        otp := t.otp
        cnt := ⟨s.cnt.normal + 1, s.cnt.soak + 1, s.cnt.macros + 4⟩
        status := { finished .ok .success s.status with engState := .success }
        wordIndex := 0, outcome := t.outcome, eng := t.eng, env := s.drew.drew.env } := by
  have hmatch : unitMatches x₂ (soakTried (verifying i s d₁ sl₁ x₁) d₂ sl₂ x₂) = true := by
    rw [unitMatches_soakTried, unitMatches, unitTarget_verifying, hm]
  have hlast : (soakTried (verifying i s d₁ sl₁ x₁) d₂ sl₂ x₂).eng.count ≤
      unitIndex (soakTried (verifying i s d₁ sl₁ x₁) d₂ sl₂ x₂) + 1 := Nat.le_of_eq hn
  have hmacros : s.cnt.macros + 4 = s.cnt.macros + 1 + 1 + 1 + 1 := by bv_omega
  refine ⟨finishProgram (unitDone .setSoak (soakTried (verifying i s d₁ sl₁ x₁) d₂ sl₂ x₂)), ?_, rfl, fun j => ?_, ?_⟩
  · rw [exec_closes hi (.setSoak (soakTried_phase ..) hmatch), closeUnit_ends (.inr hlast), run_done]
  · refine (outcomeAt_unitDone .setSoak (soakTried (verifying i s d₁ sl₁ x₁) d₂ sl₂ x₂) j).trans ?_
    rw [unitIndex_soakTried, outcomeAt_soakTried, unitIndex_verifying, outcomeAt_verifying, verifying_eng]
    split <;> rfl
  · rw [hmacros, finished, ← aggregate_one hn]
    rcases s with ⟨⟩
    cases hp
    rfl

end

/-! ### Words -/

/-- A word that holds every requested bit after the pulse holds exactly these bits more (R63, R181). -/
theorem or_of_match {w d m : Reg} (h : (w ||| (d &&& m)) &&& d = d) : w ||| (d &&& m) = w ||| d := by
  apply BitVec.eq_of_getLsbD_eq
  intro j hj
  have hbit := congrArg (·.getLsbD j) h
  simp only [BitVec.getLsbD_or, BitVec.getLsbD_and] at hbit ⊢
  revert hbit
  cases w.getLsbD j <;> cases d.getLsbD j <;> cases m.getLsbD j <;> decide

/-- The bits requested by an earlier pulse are no more than the bits requested (R63). -/
theorem or_and_or (w d m : Reg) : w ||| (d &&& m) ||| d = w ||| d := by
  apply BitVec.eq_of_getLsbD_eq
  intro j hj
  simp only [BitVec.getLsbD_or, BitVec.getLsbD_and]
  cases w.getLsbD j <;> cases d.getLsbD j <;> cases m.getLsbD j <;> rfl

/-- Settles O45: the read-back after the normal pulse ends the command, or the one after the soak pulse does. -/
theorem goodNormalPulseNeedsNoSoak : Obligations.GoodNormalPulseNeedsNoSoak := by
  intro r i s hri h hl p d x hc hst
  obtain ⟨hi, rfl, hn⟩ := oneUnit hri s
  have hprog := startsNormal_isProgram hi
  have htarget : targetOf s.cfg (s.info (regionField i)) (bufAt s 0) = d := targetOf_word s.cfg hl _
  have hmatches {y : Reg} (hy : y &&& d = d) :
      monotonicMatch y (targetOf s.cfg (s.info (regionField i)) (bufAt s 0)) = true := by
    rw [htarget]
    exact beq_iff_eq.mpr hy
  obtain ⟨hbegin, hverify⟩ := exec_verifying_word hi h (Nat.le_of_eq hn.symm) hst hl rfl rfl hc
  constructor
  · intro hm
    obtain ⟨t, hend, hotp, hout, hframe⟩ := verifying_ends (d := wordPulsed s p d) (sl := s.eng.slot) hprog hn h.start
      (hmatches hm)
    obtain ⟨hmem, hword, hbytes⟩ := wordPulsed_frame hotp
    exact ⟨_, _, t, hbegin, hverify, hend, hword.trans (or_of_match hm), hbytes, hout, by rwa [← hmem]⟩
  · intro hmiss ha hk hst1 hmatch
    obtain ⟨hmem₁, hword₁, hbytes₁⟩ := wordPulsed_frame (verifying_otp i s (wordPulsed s p d) s.eng.slot x)
    have hmissed : Missed (verifying i s (wordPulsed s p d) s.eng.slot x) x := by
      refine ⟨?_, .inl ⟨verifying_phase .., by rw [unitAvail_verifying, ha]⟩⟩
      rw [unitMatches, unitTarget_verifying, htarget]
      exact beq_eq_false_iff_ne.mpr hmiss
    have hanswer : (verifying i s (wordPulsed s p d) s.eng.slot x).answer = s.answerAt 1 :=
      answer_drew (verifying_env ..)
    have hclean : (verifying i s (wordPulsed s p d) s.eng.slot x).poisoned p = false := by
      rw [poisoned_congr (s := s) (by rw [verifying_otp]; rfl), hc]
    have hsoak := execSteps_soakTried_word (p := p) hprog hmissed (by rw [verifying_eng]; exact hk)
      (by rw [verifying_macroUnlocked, h.unlocked]) (by rw [hanswer, hst1]) (by rw [unitInfo_verifying, hl])
      (by rw [unitInfo_verifying, unitOff_verifying]) (by rw [verifying_cfg]; exact firstUnit_inside h hl) hclean
    rw [unitTarget_verifying, htarget, hanswer, hword₁] at hsoak
    obtain ⟨t, hend, hotp, hout, hframe⟩ := soakTried_ends hprog hn h.start (hmatches hmatch)
    obtain ⟨hmem₂, hword₂, hbytes₂⟩ := wordPulsed_frame hotp
    refine ⟨t, ?_, ?_, fun a ha => (hbytes₂ a ha).trans (hbytes₁ a ha), hout, ?_⟩
    · rw [show 5 = 2 + (2 + 1) from rfl, execSteps_add (execSteps_two hbegin hverify), execSteps_add hsoak]
      exact execSteps_one hend
    · rw [hword₂, hword₁, hanswer, or_of_match hmatch, or_and_or]
    · rw [hmem₁] at hmem₂
      rwa [← hmem₂]

end Sys2Proof.Machine
end

section
/-! A cell whose target is met by the first verify (44_program_engine.md R186, R188, R197). -/

namespace Sys2Proof.Machine

/-- A slot that requests nothing new is as it was. -/
theorem commit_false (x : Slot) : x.commit false = x := by
  cases x
  simp [Slot.commit]

/-- An update that leaves the slot leaves every row. -/
theorem row_modifySlot_of_eq {s : State} {r : Region} {c sl : Nat} {f : Slot → Slot}
    (h : f (s.slotAt r c sl) = s.slotAt r c sl) (r' : Region) (c' : Nat) :
    (s.modifySlot r c sl f).row r' c' = s.row r' c' := by
  rw [State.row_modifySlot, h]
  split
  · rename_i he
    obtain ⟨rfl, rfl⟩ := he
    by_cases hlt : sl < (s.row r' c').length
    · rw [State.slotAt, List.getD_eq_getElem _ _ hlt, List.set_getElem_self]
    · exact List.set_eq_of_length_le (Nat.not_lt.mp hlt)
  · rfl

/-- No slot of a cell that is not set is committed (R28). -/
theorem committed_of_cellValue_false {s : State} {r : Region} {c sl : Nat} (h : s.cellValue r c = false)
    (hlt : sl < (s.row r c).length) : (s.slotAt r c sl).committed = false := by
  refine Bool.eq_false_iff.mpr fun hc => ?_
  have hset : s.cellValue r c = true := (row_any_iff s r c (·.committed)).mpr ⟨sl, hlt, hc⟩
  rw [h] at hset
  cases hset

/-- What the normal pulse on a clean cell's selected slot sets: the bit, where the cell was not set (R63, R197). -/
theorem slotAt_normalPulse {s t : State} {r : Region} {c sl : Nat} {bit took : Bool} (hs : s.select r c = some sl)
    (hc : s.rowPoisoned r c = false)
    (h : t.otp = (s.modifySlot r c sl (Slot.commit (bit && !s.cellSet r c && took))).otp) (hcfg : t.cfg = s.cfg)
    (r' : Region) (c' sl' : Nat) : t.slotAt r' c' sl' =
      if r' = r ∧ c' = c ∧ s.select r c = some sl' ∧ s.cellValue r c = false then
        { s.slotAt r c sl' with committed := bit && took }
      else s.slotAt r' c' sl' := by
  obtain ⟨hlt, -, -⟩ := select_some hs
  rw [slotModified_frame h hcfg hlt]
  by_cases he : r' = r ∧ c' = c ∧ sl' = sl
  · rw [if_pos he]
    obtain ⟨rfl, rfl, rfl⟩ := he
    cases hv : s.cellValue r' c' with
    | true => simp [State.cellSet, hc, hv, commit_false]
    | false => simp [State.cellSet, hv, hs, Slot.commit, committed_of_cellValue_false hv hlt]
  · rw [if_neg he, if_neg]
    rintro ⟨hr, hc', hsel, -⟩
    exact he ⟨hr, hc', Option.some.inj (hsel.symm.trans hs)⟩

/-- The state in which the first step reads back a clean cell with no selectable slot (R186, R188). -/
def readFirst (i : Instr) (s : State) (rb : Reg) : State :=
  ((firstUnit i s).setEng .verify).countMacro.atPhase (.verifyRead rb)

theorem exec_readFirst {i : Instr} {s : State} (hi : startsNormal i = true) (h : ReadyToProgram s i)
    (hn : 1 ≤ unitCount i s) (hl : (s.info (regionField i)).attemptLimited = true)
    (hs : s.select (regionField i) s.addr.toNat = none) (hc : s.rowPoisoned (regionField i) s.addr.toNat = false) :
    exec i s = .next (readFirst i s (if s.cellValue (regionField i) s.addr.toNat then 1 else 0)) := by
  rw [exec_first_normal_none hi h hn hl hs, macroReadCell_clean (s := (firstUnit i s).setEng .verify) hc]
  rfl

/-- A matching read-back of such a cell ends the command in the second step (R183, R191). -/
theorem readFirst_ends {i : Instr} {s : State} {rb : Reg} (hi : isProgram i = true) (hn : unitCount i s = 1)
    (hp : s.phase = .start) (hm : monotonicMatch rb (targetOf s.cfg (s.info (regionField i)) (bufAt s 0)) = true) :
    ∃ t, exec i (readFirst i s rb) = .next t ∧
      (∀ j, t.outcomeAt j = if j = 0 then { s.outcomeAt 0 with code := .setNormal } else s.outcomeAt j) ∧
      t = { s with
        cnt := { s.cnt with macros := s.cnt.macros + 1 }
        status := { finished .ok .success s.status with engState := .success }
        wordIndex := 0, outcome := t.outcome, eng := t.eng } := by
  have hlast : (readFirst i s rb).eng.count ≤ unitIndex (readFirst i s rb) + 1 := Nat.le_of_eq hn
  refine ⟨finishProgram (unitDone .setNormal (readFirst i s rb)), ?_, fun j => ?_, ?_⟩
  · rw [exec_closes hi (.setNormal (s := readFirst i s rb) rfl hm), closeUnit_ends (.inr hlast), run_done]
  · refine (outcomeAt_unitDone .setNormal (readFirst i s rb) j).trans ?_
    cases j with
    | zero => rfl
    | succ j => rfl
  · rw [finished, ← aggregate_one hn]
    rcases s with ⟨⟩
    cases hp
    rfl

/-- Settles O46: with a selectable slot the pulse sets it only where the cell was not set; with none, the first step is the read. -/
theorem alreadySetCellCostsNoAttempt : Obligations.AlreadySetCellCostsNoAttempt := by
  intro r i s hri h hl hc c bit pulsed hmet hst
  obtain ⟨hi, rfl, hn⟩ := oneUnit hri s
  have hprog := startsNormal_isProgram hi
  have hmatches {b : Bool} (hb : (b || !bit) = true) :
      monotonicMatch (if b then 1 else 0) (targetOf s.cfg (s.info (regionField i)) (bufAt s 0)) = true := by
    rw [targetOf_cell s.cfg hl, monotonicMatch_cell, hb]
  cases hs : s.select (regionField i) c with
  | none =>
    have hpulsed : pulsed = false := by simp only [pulsed, hs, Option.isSome_none]
    rw [hpulsed, Bool.false_and, Bool.or_false] at hmet
    obtain ⟨t, hend, hout, hframe⟩ := readFirst_ends hprog hn h.start (hmatches hmet)
    have hotp : t.otp = s.otp := by rw [hframe]
    have hcfg : t.cfg = s.cfg := by rw [hframe]
    refine ⟨t, ?_, fun r' c' sl' => ?_, fun _ r' c' => row_congr (by rw [hotp]) hcfg r' c', fun j => ?_, ?_⟩
    · rw [hpulsed]
      exact execSteps_two (exec_readFirst hi h (Nat.le_of_eq hn.symm) hl hs hc) hend
    · rw [slotAt_congr (by rw [hotp]) hcfg]
      simp
    · rw [hout, hpulsed, Bool.or_false]
    · rw [hpulsed, hotp]
      simpa using hframe
  | some sl =>
    have hpulsed : pulsed = true := by simp only [pulsed, hs, Option.isSome_some]
    rw [hpulsed, Bool.true_and] at hmet
    have hready : s.answer.status = .ready := hst hpulsed
    have hset : (s.cellValue (regionField i) c || (bit && !s.cellSet (regionField i) c && s.answer.took) || !bit) =
        true := by
      rw [State.cellSet, hc]
      revert hmet
      cases s.cellValue (regionField i) c <;> cases bit <;> cases s.answer.took <;> decide
    have hverify := exec_verifying_cell hi h (Nat.le_of_eq hn.symm) hready rfl rfl hl hs hc rfl
    obtain ⟨t, hend, hotp, hout, hframe⟩ := verifying_ends hprog hn h.start (hmatches hset)
    have hcfg : t.cfg = s.cfg := by rw [hframe]
    refine ⟨t, ?_, ?_, fun hv r' c' => ?_, fun j => ?_, ?_⟩
    · rw [hpulsed]
      exact (execSteps_add hverify 1).trans (execSteps_one hend)
    · rw [← hs]
      exact slotAt_normalPulse hs hc hotp hcfg
    · have hnone : (bit && !s.cellSet (regionField i) c && s.answer.took) = false := by
        simp [State.cellSet, hv, show s.rowPoisoned (regionField i) c = false from hc]
      rw [hnone] at hotp
      rw [row_congr (s := s.modifySlot (regionField i) c sl (Slot.commit false)) (by rw [hotp]) hcfg,
        row_modifySlot_of_eq (commit_false _)]
    · rw [hout, hpulsed, Bool.or_true]
    · have hslots : t.otp = { s.otp with slots := t.otp.slots } := by
        rw [hotp]
        rfl
      rw [hpulsed, ← hslots]
      exact hframe

end Sys2Proof.Machine
end

section
/-! A unit that never takes (44_program_engine.md R183, R186, R198): each soak pulse costs a retry, and the last one exhausts the
unit. -/

namespace Sys2Proof.Machine

/-- The one unit of a command that started in `s`, after its normal pulse, `k` soak pulses and a read-back after each, none of
which matched. -/
structure Tried (i : Instr) (s : State) (k : Nat) (u : State) : Prop where
  cfg : u.cfg = s.cfg
  variant : u.variant = s.variant
  buf : u.buf = s.buf
  macroUnlocked : u.macroUnlocked = s.macroUnlocked
  overrun : u.status.overrun = s.status.overrun
  wordIndex : u.wordIndex = 0
  eng : u.eng = { engAt i s with k := k, slot := u.eng.slot }
  normal : u.cnt.normal = s.cnt.normal + 1
  soak : u.cnt.soak = s.cnt.soak + BitVec.ofNat 64 k
  macros : u.cnt.macros = s.cnt.macros + BitVec.ofNat 64 (2 * (k + 1))
  answers : ∀ j, u.answerAt j = s.answerAt (k + 1 + j)
  outcome : u.outcomeAt 0 =
    ⟨(s.outcomeAt 0).code, if k = 0 then (s.outcomeAt 0).soakPulses else BitVec.ofNat 16 k, true⟩
  missed : ∃ rb, Missed u rb

theorem soakTried_eng (s : State) (d : Otp) (sl : Nat) (rb : Reg) :
    (soakTried s d sl rb).eng = { s.eng with k := s.eng.k + 1, slot := sl } := rfl
theorem soakTried_env (s : State) (d : Otp) (sl : Nat) (rb : Reg) : (soakTried s d sl rb).env = s.drew.env := rfl
theorem soakTried_otp (s : State) (d : Otp) (sl : Nat) (rb : Reg) : (soakTried s d sl rb).otp = d := rfl
theorem soakTried_cfg (s : State) (d : Otp) (sl : Nat) (rb : Reg) : (soakTried s d sl rb).cfg = s.cfg := rfl
theorem soakTried_soak (s : State) (d : Otp) (sl : Nat) (rb : Reg) :
    (soakTried s d sl rb).cnt.soak = s.cnt.soak + 1 := rfl

theorem soakTried_macros (s : State) (d : Otp) (sl : Nat) (rb : Reg) :
    (soakTried s d sl rb).cnt.macros = s.cnt.macros + 2 := by
  rw [show (2 : Reg) = 1 + 1 from rfl, ← BitVec.add_assoc]
  rfl

/-- The unit after its normal pulse and a read-back that does not match. -/
theorem tried_verifying {i : Instr} {s : State} {d : Otp} {sl : Nat} {rb : Reg}
    (ha : soakAvailable s.cfg s.variant (regionField i) s.addr.toNat = true)
    (hm : monotonicMatch rb (targetOf s.cfg (s.info (regionField i)) (bufAt s 0)) = false) :
    Tried i s 0 (verifying i s d sl rb) where
  cfg := rfl
  variant := rfl
  buf := rfl
  macroUnlocked := rfl
  overrun := rfl
  wordIndex := rfl
  eng := rfl
  normal := rfl
  soak := (BitVec.add_zero _).symm
  macros := BitVec.add_assoc ..
  answers j := by
    rw [answerAt_drew (verifying_env ..)]
    congr 1
    omega
  outcome := outcomeAt_verifying i s d sl rb 0
  missed := ⟨rb, by rw [unitMatches, unitTarget_verifying, hm],
    .inl ⟨verifying_phase .., by rw [unitAvail_verifying, ha]⟩⟩

section
variable {i : Instr} {s u : State} {k : Nat} (h : Tried i s k u)
include h

theorem Tried.unitInfo : unitInfo u = s.info (regionField i) := by
  rw [Machine.unitInfo, State.info, h.cfg, h.variant, h.eng]
  rfl

theorem Tried.unitOff : unitOff u = s.addr.toNat := by
  rw [Machine.unitOff, unitIndex, h.wordIndex, h.eng]
  rfl

theorem Tried.unitTarget : unitTarget u = targetOf s.cfg (s.info (regionField i)) (bufAt s 0) := by
  rw [Machine.unitTarget, h.unitInfo, h.cfg, unitIndex, h.wordIndex, bufAt, h.buf]
  rfl

theorem Tried.unitIndex : unitIndex u = 0 := by
  rw [Machine.unitIndex, h.wordIndex]
  rfl

theorem Tried.retries : u.eng.soak = soakSource i s := by rw [h.eng]; rfl

theorem Tried.k_eq : u.eng.k = k := by rw [h.eng]

theorem Tried.region : u.eng.region = regionField i := by rw [h.eng]; rfl

theorem Tried.answer : u.answer = s.answerAt (k + 1) := by rw [← answerAt_zero, h.answers]

/-- Another soak pulse that does not match. -/
theorem Tried.succ (hk : k < (soakSource i s).retries.toNat) {d : Otp} {sl : Nat} {rb : Reg}
    (hm : monotonicMatch rb (targetOf s.cfg (s.info (regionField i)) (bufAt s 0)) = false) :
    Tried i s (k + 1) (soakTried u d sl rb) where
  cfg := h.cfg
  variant := h.variant
  buf := h.buf
  macroUnlocked := h.macroUnlocked
  overrun := h.overrun
  wordIndex := h.wordIndex
  eng := by
    rw [soakTried_eng, h.eng]
  normal := h.normal
  soak := by
    rw [soakTried_soak, h.soak, BitVec.add_assoc, BitVec.ofNat_add]
    rfl
  macros := by
    rw [soakTried_macros, h.macros, BitVec.add_assoc, show 2 * (k + 1 + 1) = 2 * (k + 1) + 2 from rfl, BitVec.ofNat_add]
    rfl
  answers j := by
    rw [answerAt_drew (soakTried_env u d sl rb), h.answers]
    congr 1
    omega
  outcome := by
    have hmax := (soakSource i s).retries.isLt
    have hmin : min (k + 1) 0xFFFF = k + 1 := Nat.min_eq_left (by omega)
    rw [outcomeAt_soakTried, h.unitIndex, if_pos rfl, h.outcome, h.k_eq, soakPulseBits, hmin, if_neg (Nat.succ_ne_zero k)]
  missed := ⟨rb, by rw [unitMatches_soakTried, unitMatches, h.unitTarget, hm], .inr (soakTried_phase ..)⟩

/-- With no retry left the unit is exhausted, and the command ends (R183, R187, R198). -/
theorem Tried.ends (hi : isProgram i = true) (hn : unitCount i s = 1) (hk : k = (soakSource i s).retries.toNat) :
    ∃ t, exec i u = .next t ∧ t.cfg = u.cfg ∧ t.otp = u.otp ∧
      t.status = { finished .writeExhausted .failure s.status with engState := .failure } ∧
      t.cnt = ⟨s.cnt.normal + 1, s.cnt.soak + BitVec.ofNat 64 k, s.cnt.macros + BitVec.ofNat 64 (2 * (k + 1))⟩ ∧
      t.outcomeAt 0 = ⟨.failedExhausted, if k = 0 then (s.outcomeAt 0).soakPulses else BitVec.ofNat 16 k, true⟩ := by
  obtain ⟨rb, hm⟩ := h.missed
  have hcan : ¬ canSoak u := by
    rintro ⟨hlt, -⟩
    rw [h.k_eq, h.retries, hk] at hlt
    exact Nat.lt_irrefl _ hlt
  have hcount : u.eng.count = 1 := by
    rw [h.eng]
    exact hn
  have hlast : u.eng.count ≤ Machine.unitIndex u + 1 := by rw [hcount, h.unitIndex]
  refine ⟨finishProgram (unitDone .failedExhausted u), ?_, rfl, rfl, ?_, ?_, ?_⟩
  · rw [exec_missed_exhausted hi hm hcan, closeUnit_ends (.inr hlast), run_done]
  · have hfirst : u.eng.firstErr = .ok := by
      rw [h.eng]
      rfl
    have hnsucc : u.eng.nsucc = 0 := by
      rw [h.eng]
      rfl
    simp [unitDone, unitSucceeded, unitError, aggregate, finished, hfirst, hnsucc, hcount,
      h.overrun]
  · rw [finishProgram_unitDone, ← h.normal, ← h.soak, ← h.macros]
  · refine (outcomeAt_unitDone .failedExhausted u 0).trans ?_
    rw [h.unitIndex, if_pos rfl, h.outcome]

end

/-! ### Words -/

/-- The device of `u` is that of `s` but for the array, whose words are the same. -/
structure SameWords (s u : State) : Prop where
  otp : u.otp = { s.otp with mem := u.otp.mem }
  word : ∀ q, u.word q = s.word q

/-- A pulse that sets no further bit of its word. -/
theorem SameWords.pulsed {s u t : State} {p : Nat} {d : Reg} (h : SameWords s u) (ht : t.otp = wordPulsed u p d)
    (hd : s.word p ||| (d &&& u.answer.bits) = s.word p) : SameWords s t where
  otp := by rw [ht, wordPulsed, h.otp]
  word q := by
    have hword : t.word q = (u.orWord p (d &&& u.answer.bits)).word q := word_congr (by rw [ht]; rfl) q
    rw [hword, State.word_orWord, h.word]
    split
    · rename_i hq
      rw [hq, hd]
    · rfl

section
variable {i : Instr} {s : State} {p : Nat} {d : Reg} (hi : startsNormal i = true) (h : ReadyToProgram s i)
  (hn : 1 ≤ unitCount i s) (hl : (s.info (regionField i)).attemptLimited = false)
  (ha : soakAvailable s.cfg s.variant (regionField i) s.addr.toNat = true)
  (hp : (s.info (regionField i)).base + s.addr.toNat = p) (hd : bufAt s 0 &&& wordMask s.cfg = d)
  (hc : s.poisoned p = false) (hmiss : s.word p &&& d ≠ d)
  (hbad : ∀ j ≤ (soakSource i s).retries.toNat,
    (s.answerAt j).status = .ready ∧ s.word p ||| (d &&& (s.answerAt j).bits) = s.word p)
include hi h hn hl ha hp hd hc hmiss hbad

/-- After the normal pulse and `k` soak pulses the word is as it was (R198). -/
theorem execSteps_tried_word {k : Nat} (hk : k ≤ (soakSource i s).retries.toNat) :
    ∃ u, execSteps i (2 * (k + 1)) s = .next u ∧ Tried i s k u ∧ SameWords s u := by
  have htarget : targetOf s.cfg (s.info (regionField i)) (bufAt s 0) = d := (targetOf_word s.cfg hl _).trans hd
  have hm : monotonicMatch (s.word p) (targetOf s.cfg (s.info (regionField i)) (bufAt s 0)) = false := by
    rw [htarget]
    exact beq_eq_false_iff_ne.mpr hmiss
  induction k with
  | zero =>
    obtain ⟨hst, hsame⟩ := hbad 0 hk
    rw [answerAt_zero] at hst hsame
    obtain ⟨hbegin, hverify⟩ := exec_verifying_word hi h hn hst hl hp hd hc
    rw [hsame] at hverify
    exact ⟨_, execSteps_two hbegin hverify, tried_verifying ha hm,
      SameWords.pulsed ⟨rfl, fun _ => rfl⟩ (verifying_otp ..) hsame⟩
  | succ k ih =>
    obtain ⟨u, hu, htried, hwords⟩ := ih (Nat.le_of_succ_le hk)
    obtain ⟨hst, hsame⟩ := hbad (k + 1) hk
    rw [← htried.answer] at hst hsame
    obtain ⟨rb, hmissed⟩ := htried.missed
    have hstep := execSteps_soakTried_word (p := p) (startsNormal_isProgram hi) hmissed
      (by rw [htried.k_eq, htried.retries]; exact hk) (by rw [htried.macroUnlocked, h.unlocked]) hst
      (by rw [htried.unitInfo, hl]) (by rw [htried.unitInfo, htried.unitOff, hp])
      (by rw [htried.cfg, ← hp]; exact firstUnit_inside h hl)
      (by rw [poisoned_congr (s := s) (by rw [hwords.otp]), hc])
    rw [htried.unitTarget, htarget, hwords.word, hsame] at hstep
    exact ⟨_, (execSteps_add hu 2).trans hstep, htried.succ hk hm, hwords.pulsed (soakTried_otp ..) hsame⟩

end

/-- Settles O47: no pulse changes the word, so every read-back misses until no retry is left. -/
theorem alwaysFailingWordIsExhausted : Obligations.AlwaysFailingWordIsExhausted := by
  intro r i s hri h hl ha p d N hc hmiss hbad
  obtain ⟨hi, rfl, hn⟩ := oneUnit hri s
  obtain ⟨u, hu, htried, hwords⟩ := execSteps_tried_word hi h (Nat.le_of_eq hn.symm) hl ha rfl rfl hc hmiss hbad
    (Nat.le_refl N)
  obtain ⟨t, hend, -, hotp, hstatus, hcnt, hout⟩ := htried.ends (startsNormal_isProgram hi) hn rfl
  refine ⟨t, (execSteps_add hu 1).trans (execSteps_one hend), hstatus, hcnt, hout, fun q => ?_, ?_⟩
  · rw [word_congr (s := u) (by rw [hotp]), hwords.word]
  · rw [hotp]
    exact hwords.otp

/-! ### Cells -/

/-- No slot before the selected one is selectable (R161). -/
theorem select_some_first {s : State} {r : Region} {c sl : Nat} (h : s.select r c = some sl) (j : Nat) (hj : j < sl) :
    ¬ (0 < (s.slotAt r c j).remaining ∧ (s.slotAt r c j).writable = true) := by
  obtain ⟨hlt, -, hmin⟩ := List.findIdx?_eq_some_iff_getElem.mp h
  rw [← Slot.selectable_iff, slotAt_eq_getElem (hj.trans hlt)]
  exact hmin j hj

/-- The slot after `k` attempts that set nothing (R160). -/
def Slot.triedTimes (k : Nat) (x : Slot) : Slot :=
  { x with remaining := x.remaining - k, writable := decide (k < x.remaining) }

theorem attempted_triedTimes (k : Nat) (x : Slot) :
    ((x.triedTimes k).commit false).attempted = x.triedTimes (k + 1) := by
  have hlast : (decide (k < x.remaining) && decide (x.remaining - (k + 1) ≠ 0)) = decide (k + 1 < x.remaining) := by
    rw [← Bool.decide_and]
    exact decide_eq_decide.mpr (by omega)
  simp only [Slot.attempted, Slot.commit, Slot.triedTimes, Bool.or_false, Nat.sub_sub, hlast]

/-- The device of `u` is that of `s` but for slot `(r, c, sl)`, which has had `k` attempts. -/
structure SlotTried (s : State) (r : Region) (c sl k : Nat) (u : State) : Prop where
  cfg : u.cfg = s.cfg
  otp : u.otp = { s.otp with slots := u.otp.slots }
  length : (u.row r c).length = (s.row r c).length
  slots : ∀ r' c' sl', u.slotAt r' c' sl' =
    if r' = r ∧ c' = c ∧ sl' = sl then (s.slotAt r c sl).triedTimes k else s.slotAt r' c' sl'

section
variable {s u t : State} {r : Region} {c sl k : Nat} (h : SlotTried s r c sl k u)
include h

theorem SlotTried.slot : u.slotAt r c sl = (s.slotAt r c sl).triedTimes k :=
  (h.slots r c sl).trans (if_pos ⟨rfl, rfl, rfl⟩)

/-- While attempts are left the slot is still the first selectable one (R161). -/
theorem SlotTried.select (hs : s.select r c = some sl) (hk : k < (s.slotAt r c sl).remaining) :
    u.select r c = some sl := by
  obtain ⟨hlt, hsel⟩ := select_some hs
  refine select_eq_some_of_first (by rw [h.length]; exact hlt) ?_ fun j hj => ?_
  · rw [h.slot]
    exact ⟨Nat.sub_pos_of_lt hk, decide_eq_true hk⟩
  · rw [h.slots, if_neg (by omega)]
    exact select_some_first hs j hj

theorem SlotTried.rowPoisoned : u.rowPoisoned r c = s.rowPoisoned r c := by
  refine rowPoisoned_of_slots h.length fun j => ?_
  rw [h.slots]
  split
  · rename_i hj
    obtain ⟨-, -, rfl⟩ := hj
    rfl
  · rfl

theorem SlotTried.cellValue : u.cellValue r c = s.cellValue r c := by
  refine cellValue_of_slots h.length fun j => ?_
  rw [h.slots]
  split
  · rename_i hj
    obtain ⟨-, -, rfl⟩ := hj
    rfl
  · rfl

/-- Another attempt that sets nothing. -/
theorem SlotTried.succ (hlt : sl < (s.row r c).length) (ht : t.otp = (slotPulsed u r c sl false).otp)
    (hc : t.cfg = u.cfg) : SlotTried s r c sl (k + 1) t where
  cfg := hc.trans h.cfg
  otp := by
    have hu : (slotPulsed u r c sl false).otp = { u.otp with slots := (slotPulsed u r c sl false).otp.slots } := rfl
    rw [ht, hu, h.otp]
  length := by
    rw [row_congr (s := slotPulsed u r c sl false) (by rw [ht]) hc, row_length_slotPulsed, h.length]
  slots r' c' sl' := by
    rw [slotAt_congr (s := slotPulsed u r c sl false) (by rw [ht]) hc, slotAt_slotPulsed (by rw [h.length]; exact hlt),
      h.slot, attempted_triedTimes, h.slots]
    split <;> rfl

end

/-- The device right after a normal pulse that set nothing. -/
theorem slotTried_zero {s t : State} {r : Region} {c sl : Nat} (hs : s.select r c = some sl)
    (ht : t.otp = (s.modifySlot r c sl (Slot.commit false)).otp) (hc : t.cfg = s.cfg) : SlotTried s r c sl 0 t where
  cfg := hc
  otp := by
    rw [ht]
    rfl
  length := by rw [row_congr (s := s.modifySlot r c sl (Slot.commit false)) (by rw [ht]) hc, row_length_modifySlot]
  slots r' c' sl' := by
    obtain ⟨hlt, hr, hw⟩ := select_some hs
    have hzero : (s.slotAt r c sl).triedTimes 0 = s.slotAt r c sl := by
      rw [Slot.triedTimes, decide_eq_true hr, ← hw]
      rfl
    rw [slotModified_frame ht hc hlt, commit_false, hzero]

section
variable {i : Instr} {s : State} {r : Region} {c sl : Nat} (hi : startsNormal i = true) (h : ReadyToProgram s i)
  (hn : 1 ≤ unitCount i s) (hr : regionField i = r) (ho : s.addr.toNat = c)
  (hl : (s.info r).attemptLimited = true) (ha : soakAvailable s.cfg s.variant r c = true)
  (hs : s.select r c = some sl) (hleft : (soakSource i s).retries.toNat ≤ (s.slotAt r c sl).remaining)
  (hc : s.rowPoisoned r c = false) (hv : s.cellValue r c = false) (hbit : (bufAt s 0).getLsbD 0 = true)
  (hbad : ∀ j ≤ (soakSource i s).retries.toNat, (s.answerAt j).status = .ready ∧ (s.answerAt j).took = false)
include hi h hn hr ho hl ha hs hleft hc hv hbit hbad

/-- After the normal pulse and `k` soak pulses the slot has lost `k` attempts (R198). -/
theorem execSteps_tried_cell {k : Nat} (hk : k ≤ (soakSource i s).retries.toNat) :
    ∃ u, execSteps i (2 * (k + 1)) s = .next u ∧ Tried i s k u ∧ SlotTried s r c sl k u := by
  subst hr ho
  obtain ⟨hlt, -, -⟩ := select_some hs
  have hm : monotonicMatch 0 (targetOf s.cfg (s.info (regionField i)) (bufAt s 0)) = false := by
    rw [targetOf_cell s.cfg hl]
    exact (monotonicMatch_cell false _).trans (by rw [hbit]; rfl)
  induction k with
  | zero =>
    obtain ⟨hst, htook⟩ := hbad 0 hk
    rw [answerAt_zero] at hst htook
    have hverify := exec_verifying_cell (b := false) hi h hn hst rfl rfl hl hs hc (by rw [htook, Bool.and_false])
    rw [hv] at hverify
    exact ⟨_, hverify, tried_verifying ha hm, slotTried_zero hs (verifying_otp ..) (verifying_cfg ..)⟩
  | succ k ih =>
    obtain ⟨u, hu, htried, hslot⟩ := ih (Nat.le_of_succ_le hk)
    obtain ⟨hst, htook⟩ := hbad (k + 1) hk
    rw [← htried.answer] at hst htook
    obtain ⟨rb, hmissed⟩ := htried.missed
    have hstep := execSteps_soakTried_cell (b := false) (startsNormal_isProgram hi) hmissed
      (by rw [htried.k_eq, htried.retries]; exact hk) (by rw [htried.macroUnlocked, h.unlocked]) hst
      (by rw [htried.unitInfo, hl]) htried.region htried.unitOff (hslot.select hs (Nat.lt_of_lt_of_le hk hleft))
      (by rw [hslot.rowPoisoned, hc]) (by rw [htook, Bool.and_false])
    rw [cellValue_slotPulsed_false (by rw [hslot.length]; exact hlt), hslot.cellValue, hv] at hstep
    exact ⟨_, (execSteps_add hu 2).trans hstep, htried.succ hk hm,
      hslot.succ hlt (soakTried_otp ..) (soakTried_cfg ..)⟩

end

/-- Settles O48: each soak pulse costs the selected slot an attempt and sets nothing, until no retry is left. -/
theorem alwaysFailingCellLosesExactlyNAttempts : Obligations.AlwaysFailingCellLosesExactlyNAttempts := by
  intro r i s sl hri h hl ha c N hs hleft hc hv hbit hbad
  obtain ⟨hi, rfl, hn⟩ := oneUnit hri s
  obtain ⟨u, hu, htried, hslot⟩ := execSteps_tried_cell hi h (Nat.le_of_eq hn.symm) rfl rfl hl ha hs hleft hc hv hbit
    hbad (Nat.le_refl N)
  obtain ⟨t, hend, hcfg, hotp, hstatus, hcnt, hout⟩ := htried.ends (startsNormal_isProgram hi) hn rfl
  have hslots : ∀ r' c' sl', t.slotAt r' c' sl' = u.slotAt r' c' sl' := slotAt_congr (by rw [hotp]) hcfg
  refine ⟨t, (execSteps_add hu 1).trans (execSteps_one hend), hstatus, hcnt, ?_, fun r' c' sl' hne => ?_, ?_⟩
  · rw [hslots, hslot.slot]
    rfl
  · rw [hslots, hslot.slots, if_neg hne]
  · rw [hotp]
    exact hslot.otp

end Sys2Proof.Machine
end

section
/-! WRITE_REGION over units that all take (44_program_engine.md R188, R191, R192, 45_facade.md R226): two steps a unit, its
normal pulse, which also ends the unit before, and its read-back. -/

namespace Sys2Proof.Machine

/-! ### The loop, unit by unit -/

/-- Unit `j` of a command that started in `s` is read back after its normal pulse, and every unit before it ended in Success;
with the device in `d`, OUTCOME in `o`, the pulsed slot `sl`, the draws in `v` and the phase `ph`. -/
def loopRead (i : Instr) (s : State) (j : Nat) (d : Otp) (o : List (Nat × OutcomeReg)) (sl : Nat) (v : Env)
    (ph : Phase) : State :=
  { s with
    otp := d
    cnt := { s.cnt with
      normal := s.cnt.normal + BitVec.ofNat 64 (j + 1), macros := s.cnt.macros + BitVec.ofNat 64 (2 * (j + 1)) }
    status := { s.status with engState := .verify }
    wordIndex := BitVec.ofNat 64 j
    outcome := o
    eng := { engAt i s with nsucc := j, slot := sl }
    phase := ph
    env := v }

/-- `u` is such a state, with a read-back that matches and the answers from `j + 1` on still to come. -/
structure UnitRead (i : Instr) (s : State) (j : Nat) (u : State) : Prop where
  frame : ∃ d o sl v ph, u = loopRead i s j d o sl v ph
  answers : ∀ m, u.answerAt m = s.answerAt (j + 1 + m)
  outcome : ∀ m, u.outcomeAt m =
    if m < j then { s.outcomeAt m with code := .setNormal, normalPulse := true }
    else if m = j then { s.outcomeAt m with normalPulse := true }
    else s.outcomeAt m
  matched : ∃ rb, u.phase = .verifyRead rb ∧
    monotonicMatch rb (targetOf s.cfg (s.info (regionField i)) (bufAt s j)) = true

/-- The first unit's read-back. -/
theorem unitRead_zero {i : Instr} {s : State} {d : Otp} {sl : Nat} {rb : Reg}
    (hm : monotonicMatch rb (targetOf s.cfg (s.info (regionField i)) (bufAt s 0)) = true) :
    UnitRead i s 0 (verifying i s d sl rb) where
  frame := by
    have hmacros : s.cnt.macros + BitVec.ofNat 64 (2 * (0 + 1)) = s.cnt.macros + 1 + 1 := by bv_omega
    refine ⟨d, (verifying i s d sl rb).outcome, sl, s.drew.env, .verifyRead rb, ?_⟩
    rw [loopRead, hmacros]
    rfl
  answers m := by
    rw [answerAt_drew (verifying_env ..)]
    congr 1
    omega
  outcome m := outcomeAt_verifying i s d sl rb m
  matched := ⟨rb, verifying_phase .., hm⟩

/-! ### The read-back after a normal pulse -/

section
variable {i : Instr} {s : State} {d : Otp} {sl : Nat} (hi : isProgram i = true) (hst : s.answer.status = .ready)
include hi hst

/-- The read-back of a word that is not poisoned, right after its normal pulse, with the array as the pulse on `u` left it. -/
theorem exec_normalPulsed_word {u : State} {p : Nat} {x : Reg} (hl : (unitInfo s).attemptLimited = false)
    (hp : (unitInfo s).base + unitOff s = p) (hin : p < s.cfg.arrayWords) (hc : u.poisoned p = false) :
    exec i (normalPulsed s (wordPulsed u p x) sl) =
      .next (normalReadBack (normalPulsed s (wordPulsed u p x) sl) (u.word p ||| (x &&& u.answer.bits))) := by
  have hword : (normalPulsed s (wordPulsed u p x) sl).word p = u.word p ||| (x &&& u.answer.bits) :=
    State.word_orWord_self u p _
  rw [← hword]
  exact exec_verify_word hi (congrArg Phase.normalPulsed hst) hl hp hin hc

/-- The read-back of a cell with no poisoned slot, right after a normal pulse that left its slots as in `u`. -/
theorem exec_normalPulsed_cell {u : State} {c : Nat} (hu : u.otp = d) (hcfg : u.cfg = s.cfg)
    (hl : (unitInfo s).attemptLimited = true) (ho : unitOff s = c) (hc : u.rowPoisoned s.eng.region c = false) :
    exec i (normalPulsed s d sl) =
      .next (normalReadBack (normalPulsed s d sl) (if u.cellValue s.eng.region c then 1 else 0)) := by
  subst hu ho
  have hslots : (normalPulsed s u.otp sl).otp.slots = u.otp.slots := rfl
  have hclean := (rowPoisoned_congr hslots hcfg.symm s.eng.region (unitOff s)).trans hc
  rw [← cellValue_congr hslots hcfg.symm]
  exact exec_verify_cell hi (congrArg Phase.normalPulsed hst) hl hclean

end

/-- The state in which the next unit is read back with value `rb` after a unit that ended SET_NORMAL, with the device in `d`
and the pulsed slot `sl`. -/
def nextRead (u : State) (d : Otp) (sl : Nat) (rb : Reg) : State :=
  normalReadBack (normalPulsed (nextUnit .setNormal u) d sl) rb

theorem unitIndex_normalPulsed (s : State) (d : Otp) (sl : Nat) : unitIndex (normalPulsed s d sl) = unitIndex s := rfl

theorem normalReadBack_eq (s : State) (rb : Reg) : normalReadBack s rb = { s with
    cnt := { s.cnt with macros := s.cnt.macros + 1 }
    status := { s.status with engState := .verify }
    outcome := (noteNormalPulse s).outcome
    phase := .verifyRead rb } := by
  rcases s with ⟨⟩
  rfl

theorem nextRead_eq (u : State) (d : Otp) (sl : Nat) (rb : Reg) : nextRead u d sl rb = { u with
    otp := d
    cnt := { u.cnt with normal := u.cnt.normal + 1, macros := u.cnt.macros + 1 + 1 }
    status := { u.status with engState := .verify }
    wordIndex := BitVec.ofNat 64 (unitIndex u + 1)
    outcome := (noteNormalPulse (normalPulsed (nextUnit .setNormal u) d sl)).outcome
    eng := { u.eng with nsucc := u.eng.nsucc + 1, k := 0, slot := sl }
    phase := .verifyRead rb
    env := u.drew.env } := by
  rw [nextRead, normalReadBack_eq]
  generalize (noteNormalPulse (normalPulsed (nextUnit .setNormal u) d sl)).outcome = o
  rw [normalPulsed_nextUnit]
  rfl

theorem nextRead_otp (u : State) (d : Otp) (sl : Nat) (rb : Reg) : (nextRead u d sl rb).otp = d := by rw [nextRead_eq]
theorem nextRead_cfg (u : State) (d : Otp) (sl : Nat) (rb : Reg) : (nextRead u d sl rb).cfg = u.cfg := by rw [nextRead_eq]
theorem nextRead_env (u : State) (d : Otp) (sl : Nat) (rb : Reg) : (nextRead u d sl rb).env = u.drew.env := by
  rw [nextRead_eq]
theorem nextRead_phase (u : State) (d : Otp) (sl : Nat) (rb : Reg) : (nextRead u d sl rb).phase = .verifyRead rb := by
  rw [nextRead_eq]

section
variable {i : Instr} {s u : State} {j n : Nat} (h : UnitRead i s j u)
include h

theorem UnitRead.cfg : u.cfg = s.cfg := by
  obtain ⟨_, _, _, _, _, rfl⟩ := h.frame
  rfl

theorem UnitRead.buf : u.buf = s.buf := by
  obtain ⟨_, _, _, _, _, rfl⟩ := h.frame
  rfl

theorem UnitRead.macroUnlocked : u.macroUnlocked = s.macroUnlocked := by
  obtain ⟨_, _, _, _, _, rfl⟩ := h.frame
  rfl

theorem UnitRead.wordIndex : u.wordIndex = BitVec.ofNat 64 j := by
  obtain ⟨_, _, _, _, _, rfl⟩ := h.frame
  rfl

theorem UnitRead.eng : u.eng = { engAt i s with nsucc := j, slot := u.eng.slot } := by
  obtain ⟨_, _, _, _, _, rfl⟩ := h.frame
  rfl

theorem UnitRead.op : u.eng.op = some i := by rw [h.eng]; rfl
theorem UnitRead.region : u.eng.region = regionField i := by rw [h.eng]; rfl
theorem UnitRead.off : u.eng.off = s.addr.toNat := by rw [h.eng]; rfl
theorem UnitRead.count : u.eng.count = unitCount i s := by rw [h.eng]; rfl

theorem UnitRead.answer : u.answer = s.answerAt (j + 1) := by rw [← answerAt_zero, h.answers]

theorem UnitRead.unitInfo : unitInfo u = s.info (regionField i) := by
  obtain ⟨_, _, _, _, _, rfl⟩ := h.frame
  rfl

section
variable (hj : j < 2 ^ 64)
include hj

theorem UnitRead.unitIndex : unitIndex u = j := by
  rw [Machine.unitIndex, h.wordIndex, BitVec.toNat_ofNat, Nat.mod_eq_of_lt hj]

end

/-- OUTCOME when the unit has ended SET_NORMAL (R189). -/
theorem UnitRead.outcome_done (hj : j < 2 ^ 64) (m : Nat) : (unitDone .setNormal u).outcomeAt m =
    if m < j + 1 then { s.outcomeAt m with code := .setNormal, normalPulse := true } else s.outcomeAt m := by
  rw [outcomeAt_unitDone, h.unitIndex hj, h.outcome]
  split
  · rename_i he
    subst he
    rw [if_neg (Nat.lt_irrefl m), if_pos (Nat.lt_succ_self m)]
  · rename_i hne
    by_cases hlt : m < j
    · rw [if_pos hlt, if_pos (Nat.lt_succ_of_lt hlt)]
    · rw [if_neg hlt, if_neg (by omega)]

theorem UnitRead.outcome_next (hj : j + 1 < 2 ^ 64) (d : Otp) (sl : Nat) (rb : Reg) (m : Nat) :
    (nextRead u d sl rb).outcomeAt m =
      if m < j + 1 then { s.outcomeAt m with code := .setNormal, normalPulse := true }
      else if m = j + 1 then { s.outcomeAt m with normalPulse := true }
      else s.outcomeAt m := by
  have hj' := Nat.lt_of_succ_lt hj
  have hidx : Machine.unitIndex (normalPulsed (nextUnit .setNormal u) d sl) = j + 1 := by
    rw [unitIndex_normalPulsed, unitIndex_nextUnit (by rw [h.unitIndex hj']; exact hj), h.unitIndex hj']
  have hdone : (normalPulsed (nextUnit .setNormal u) d sl).outcomeAt m = (unitDone .setNormal u).outcomeAt m := by
    rw [normalPulsed_nextUnit]
    rfl
  rw [nextRead, outcomeAt_normalReadBack, hidx, hdone, h.outcome_done hj']
  split
  · rename_i he
    rw [he, if_neg (Nat.lt_irrefl _), if_neg (Nat.lt_irrefl _)]
  · rfl

theorem UnitRead.succ (hj : j + 1 < 2 ^ 64) {d : Otp} {sl : Nat} {rb : Reg}
    (hm : monotonicMatch rb (targetOf s.cfg (s.info (regionField i)) (bufAt s (j + 1))) = true) :
    UnitRead i s (j + 1) (nextRead u d sl rb) where
  frame := by
    have hidx := h.unitIndex (Nat.lt_of_succ_lt hj)
    rw [nextRead_eq, hidx]
    generalize (noteNormalPulse (normalPulsed (nextUnit .setNormal u) d sl)).outcome = o
    generalize u.drew.env = v
    obtain ⟨_, _, _, _, _, rfl⟩ := h.frame
    refine ⟨d, o, sl, v, .verifyRead rb, ?_⟩
    have hnormal : s.cnt.normal + BitVec.ofNat 64 (j + 1) + 1 = s.cnt.normal + BitVec.ofNat 64 (j + 1 + 1) := by
      rw [BitVec.add_assoc, BitVec.ofNat_add (j + 1)]
      rfl
    have hmacros : s.cnt.macros + BitVec.ofNat 64 (2 * (j + 1)) + 1 + 1 =
        s.cnt.macros + BitVec.ofNat 64 (2 * (j + 1 + 1)) := by
      rw [BitVec.add_assoc, BitVec.add_assoc, Nat.mul_succ 2 (j + 1), BitVec.ofNat_add (2 * (j + 1))]
      rfl
    simp only [loopRead, hnormal, hmacros]
    rfl
  answers m := by
    rw [answerAt_drew (nextRead_env u d sl rb), h.answers]
    congr 1
    omega
  outcome := h.outcome_next hj d sl rb
  matched := ⟨rb, nextRead_phase .., hm⟩

/-- The read-back ends the unit SET_NORMAL (R183). -/
theorem UnitRead.exec_eq (hi : isProgram i = true) (hj : j < 2 ^ 64) : exec i u = (closeUnit .setNormal u).run := by
  obtain ⟨rb, hph, hm⟩ := h.matched
  refine exec_closes hi (.setNormal hph ?_)
  rw [unitMatches, unitTarget, h.unitInfo, h.unitIndex hj, h.cfg, bufAt_congr h.buf, hm]

/-- It goes on with the normal pulse of the next one (R191). -/
theorem UnitRead.goesOn (hi : startsNormal i = true) (hn : unitCount i s < 2 ^ 64) (hlt : j + 1 < unitCount i s) :
    exec i u = (normalPulse (nextUnit .setNormal u)).run := by
  have hj : j < 2 ^ 64 := by omega
  rw [h.exec_eq (startsNormal_isProgram hi) hj,
    closeUnit_goesOn hi h.op (.inl rfl) (by rw [h.unitIndex hj, h.count]; exact hlt)]

/-- After the last unit the command ends OK and SUCCESS (R191, R192). -/
theorem UnitRead.ends (hi : isProgram i = true) (hp : s.phase = .start) (hn : unitCount i s < 2 ^ 64)
    (hlast : j + 1 = unitCount i s) : ∃ t, exec i u = .next t ∧ t.otp = u.otp ∧
      (∀ m, t.outcomeAt m = if m < unitCount i s then
        { s.outcomeAt m with code := .setNormal, normalPulse := true } else s.outcomeAt m) ∧
      t = { s with
        otp := t.otp
        cnt := { s.cnt with
          normal := s.cnt.normal + BitVec.ofNat 64 (unitCount i s)
          macros := s.cnt.macros + BitVec.ofNat 64 (2 * unitCount i s) }
        status := { finished .ok .success s.status with engState := .success }
        wordIndex := BitVec.ofNat 64 j, outcome := t.outcome, eng := t.eng, env := t.env } := by
  have hj : j < 2 ^ 64 := by omega
  have hcloses : exec i u = .next (finishProgram (unitDone .setNormal u)) := by
    rw [h.exec_eq hi hj, closeUnit_ends (.inr (by rw [h.unitIndex hj, h.count, hlast])), run_done]
  refine ⟨_, hcloses, rfl, fun m => ?_, ?_⟩
  · rw [← hlast]
    exact h.outcome_done hj m
  · have hnsucc : (unitDone .setNormal u).eng.nsucc = u.eng.count := by
      have hcounted : (unitDone .setNormal u).eng.nsucc = u.eng.nsucc + 1 := rfl
      rw [hcounted, h.count, ← hlast, h.eng]
    have haggregate : aggregate (unitDone .setNormal u).eng.nsucc u.eng.count = .success := by
      rw [aggregate, if_pos hnsucc]
    have hfirst : (unitDone .setNormal u).eng.firstErr = .ok := by
      have hkept : (unitDone .setNormal u).eng.firstErr = u.eng.firstErr := rfl
      rw [hkept, h.eng]
      rfl
    rw [finishProgram_unitDone, haggregate, hfirst]
    generalize (unitDone .setNormal u).outcome = o
    generalize (unitDone .setNormal u).eng.nsucc = m
    rw [← hlast]
    obtain ⟨_, _, _, _, _, rfl⟩ := h.frame
    simp only [loopRead, finished, hp]
    rfl

section
variable (hi : startsNormal i = true) (hready : ReadyToProgram s i) (hlt : j + 1 < unitCount i s)
  (hn : unitCount i s < 2 ^ 64) (hst : (s.answerAt (j + 1)).status = .ready)
include hi hready hlt hn hst

/-- The next unit is a word that is not poisoned: its normal pulse and its read-back. -/
theorem UnitRead.next_word (hl : (s.info (regionField i)).attemptLimited = false) {p : Nat} {d : Reg}
    (hp : (s.info (regionField i)).base + (s.addr.toNat + (j + 1)) = p) (hin : p < s.cfg.arrayWords)
    (hd : bufAt s (j + 1) &&& wordMask s.cfg = d) (hc : u.poisoned p = false) : execSteps i 2 u =
      .next (nextRead u (wordPulsed u p d) u.eng.slot (u.word p ||| (d &&& (s.answerAt (j + 1)).bits))) := by
  have hk := kept_nextUnit .setNormal u
  have hidx := h.unitIndex (j := j) (by omega)
  have hinfo : Machine.unitInfo (nextUnit .setNormal u) = s.info (regionField i) := by rw [unitInfo_nextUnit, h.unitInfo]
  have hoff : unitOff (nextUnit .setNormal u) = s.addr.toNat + (j + 1) := by
    rw [unitOff_nextUnit (by omega), hidx, h.off]
  have hpulse := h.goesOn hi hn hlt
  rw [normalPulse_nextUnit_word (s := u) (p := p) (by omega) (by rw [h.unitInfo, hl])
    (by rw [h.unitInfo, h.off, hidx, hp]) (by rw [h.cfg]; exact hin) (by rw [h.macroUnlocked, hready.unlocked]), hidx,
    bufAt_congr h.buf, h.cfg, hd] at hpulse
  rw [nextRead, ← h.answer]
  exact execSteps_two hpulse (exec_normalPulsed_word (startsNormal_isProgram hi)
    (by rw [answer_congr hk.env, h.answer, hst]) (by rw [hinfo, hl]) (by rw [hinfo, hoff, hp])
    (by rw [hk.cfg, h.cfg]; exact hin) hc)

/-- The next unit is a cell with no poisoned slot and a selectable one: its normal pulse and its read-back. -/
theorem UnitRead.next_cell {r : Region} {c sl : Nat} {b : Bool} (hr : regionField i = r)
    (hl : (s.info r).attemptLimited = true) (hc : s.addr.toNat + (j + 1) = c) (hs : u.select r c = some sl)
    (hclean : u.rowPoisoned r c = false)
    (hb : ((bufAt s (j + 1)).getLsbD 0 && !u.cellSet r c && (s.answerAt (j + 1)).took) = b) : execSteps i 2 u =
      .next (nextRead u (u.modifySlot r c sl (Slot.commit b)).otp sl (if u.cellValue r c || b then 1 else 0)) := by
  subst hr
  have hk := kept_nextUnit .setNormal u
  have hidx := h.unitIndex (j := j) (by omega)
  have hoff : unitOff (nextUnit .setNormal u) = c := by rw [unitOff_nextUnit (by omega), hidx, h.off, hc]
  have hregion : (nextUnit .setNormal u).eng.region = regionField i := h.region
  have hpulse := h.goesOn hi hn hlt
  obtain ⟨hslot, -, -⟩ := select_some hs
  rw [normalPulse_nextUnit_cell (s := u) (c := c) (sl := sl) (by omega) (by rw [h.unitInfo, hl])
    (by rw [h.off, hidx, hc]) (by rw [h.region, hs]) (by rw [h.macroUnlocked, hready.unlocked]), hidx,
    bufAt_congr h.buf, h.region, h.answer, hb] at hpulse
  rw [nextRead, ← cellValue_commit hslot]
  have hread := exec_normalPulsed_cell (s := nextUnit .setNormal u) (sl := sl)
    (u := u.modifySlot (regionField i) c sl (Slot.commit b)) (startsNormal_isProgram hi)
    (by rw [answer_congr hk.env, h.answer, hst]) rfl hk.cfg.symm (by rw [unitInfo_nextUnit, h.unitInfo, hl]) hoff
    (by rw [hregion, rowPoisoned_commit hslot, hclean])
  rw [hregion] at hread
  exact execSteps_two hpulse hread

end

end

end Sys2Proof.Machine
end

section
/-! What WRITE_REGION leaves on the device, word by word and cell by cell (45_facade.md R226). -/

namespace Sys2Proof.Machine

/-! ### Words -/

/-- The bits requested of word `j` of a data command (R181). -/
def requested (s : State) (j : Nat) : Reg := bufAt s j &&& wordMask s.cfg

/-- The device of `u` is that of `s` but for the array, in which the words `p` to `p + j - 1` hold the requested bits too. -/
structure WordsSet (s : State) (p j : Nat) (u : State) : Prop where
  otp : u.otp = { s.otp with mem := u.otp.mem }
  word : ∀ q, u.word q = if p ≤ q ∧ q < p + j then s.word q ||| requested s (q - p) else s.word q

theorem wordsSet_zero (s : State) (p : Nat) : WordsSet s p 0 s where
  otp := rfl
  word q := by rw [if_neg (by omega)]

/-- A pulse that sets every requested bit of the next word. -/
theorem WordsSet.pulsed {s u t : State} {p j : Nat} (h : WordsSet s p j u)
    (ht : t.otp = wordPulsed u (p + j) (requested s j)) (hd : requested s j &&& u.answer.bits = requested s j) :
    WordsSet s p (j + 1) t where
  otp := by rw [ht, wordPulsed, h.otp]
  word q := by
    have hword : t.word q = (u.orWord (p + j) (requested s j)).word q := by
      rw [wordPulsed, hd] at ht
      exact word_congr (s := u.orWord (p + j) (requested s j)) (by rw [ht]; rfl) q
    rw [hword, State.word_orWord, h.word]
    by_cases hq : q = p + j
    · subst hq
      rw [if_pos rfl, if_neg (by omega), if_pos (by omega), Nat.add_sub_cancel_left]
    · rw [if_neg hq]
      by_cases hin : p ≤ q ∧ q < p + j
      · rw [if_pos hin, if_pos (by omega)]
      · rw [if_neg hin, if_neg (by omega)]

/-- A word that has taken every requested bit matches (R181). -/
theorem monotonicMatch_or_self (w d : Reg) : monotonicMatch (w ||| d) d = true := by
  rw [monotonicMatch, beq_iff_eq]
  apply BitVec.eq_of_getLsbD_eq
  intro j hj
  rw [BitVec.getLsbD_and, BitVec.getLsbD_or]
  cases w.getLsbD j <;> cases d.getLsbD j <;> rfl

section
variable {i : Instr} {s : State} {p : Nat} (hi : startsNormal i = true) (h : ReadyToProgram s i)
  (hn : unitCount i s < 2 ^ 64) (hl : (s.info (regionField i)).attemptLimited = false)
  (hp : (s.info (regionField i)).base + s.addr.toNat = p) (hc : ∀ j < unitCount i s, s.poisoned (p + j) = false)
  (hd : ∀ j < unitCount i s, (s.answerAt j).status = .ready ∧ requested s j &&& (s.answerAt j).bits = requested s j)
include hi h hn hl hp hc hd

/-- After `j + 1` units the words up to `j` hold the requested bits. -/
theorem execSteps_words {j : Nat} (hj : j < unitCount i s) :
    ∃ u, execSteps i (2 * (j + 1)) s = .next u ∧ UnitRead i s j u ∧ WordsSet s p (j + 1) u := by
  have hm (j : Nat) (w : Reg) : monotonicMatch (w ||| requested s j)
      (targetOf s.cfg (s.info (regionField i)) (bufAt s j)) = true := by
    rw [targetOf_word s.cfg hl]
    exact monotonicMatch_or_self w _
  induction j with
  | zero =>
    obtain ⟨hst, hbits⟩ := hd 0 hj
    rw [answerAt_zero] at hst hbits
    obtain ⟨hbegin, hverify⟩ := exec_verifying_word (d := requested s 0) hi h hj hst hl hp rfl (hc 0 hj)
    rw [hbits] at hverify
    exact ⟨_, execSteps_two hbegin hverify, unitRead_zero (hm 0 _),
      (wordsSet_zero s p).pulsed (verifying_otp ..) hbits⟩
  | succ j ih =>
    obtain ⟨u, hu, hread, hwords⟩ := ih (Nat.lt_of_succ_lt hj)
    obtain ⟨hst, hbits⟩ := hd (j + 1) hj
    have hin : p + (j + 1) < s.cfg.arrayWords := by
      have hend := legal_inside h.legal s.variant (regionField i) hl
      have hfits := h.fits
      simp only [State.info] at hfits hp
      omega
    have hstep := hread.next_word (p := p + (j + 1)) (d := requested s (j + 1)) hi h hj hn hst hl (by omega) hin rfl
      (by rw [poisoned_congr (s := s) (by rw [hwords.otp]), hc _ hj])
    rw [hbits] at hstep
    exact ⟨_, (execSteps_add hu 2).trans hstep, hread.succ (by omega) (hm _ _),
      hwords.pulsed (nextRead_otp ..) (by rw [hread.answer, hbits])⟩

end

/-! ### Cells -/

/-- The device of `u` is that of `s` but for the counter array, in which the selected slots of the unset cells `c` to
`c + j - 1` hold the requested bits. -/
structure CellsSet (s : State) (r : Region) (c j : Nat) (u : State) : Prop where
  cfg : u.cfg = s.cfg
  otp : u.otp = { s.otp with slots := u.otp.slots }
  rows : ∀ c', c + j ≤ c' → u.row r c' = s.row r c'
  slots : ∀ r' c' sl', u.slotAt r' c' sl' =
    if r' = r ∧ c ≤ c' ∧ c' < c + j ∧ s.select r c' = some sl' ∧ s.cellValue r c' = false then
      { s.slotAt r c' sl' with committed := (bufAt s (c' - c)).getLsbD 0 }
    else s.slotAt r' c' sl'

theorem cellsSet_zero (s : State) (r : Region) (c : Nat) : CellsSet s r c 0 s where
  cfg := rfl
  otp := rfl
  rows _ _ := rfl
  slots r' c' sl' := by rw [if_neg (by omega)]

section
variable {s u t : State} {r : Region} {c j : Nat} (h : CellsSet s r c j u)
include h

theorem CellsSet.select : u.select r (c + j) = s.select r (c + j) := by
  rw [State.select, h.rows _ (Nat.le_refl _), State.select]

theorem CellsSet.rowPoisoned : u.rowPoisoned r (c + j) = s.rowPoisoned r (c + j) := by
  rw [State.rowPoisoned, h.rows _ (Nat.le_refl _), State.rowPoisoned]

theorem CellsSet.cellValue : u.cellValue r (c + j) = s.cellValue r (c + j) := by
  rw [State.cellValue, h.rows _ (Nat.le_refl _), State.cellValue]

theorem CellsSet.cellSet : u.cellSet r (c + j) = s.cellSet r (c + j) := by
  rw [State.cellSet, h.cellValue, h.rowPoisoned, State.cellSet]

theorem CellsSet.slot (sl : Nat) : u.slotAt r (c + j) sl = s.slotAt r (c + j) sl := by
  rw [h.slots, if_neg (by omega)]

/-- A pulse on the next cell's selected slot that takes. -/
theorem CellsSet.pulsed {sl : Nat} {took : Bool} (hs : s.select r (c + j) = some sl)
    (hc : s.rowPoisoned r (c + j) = false) (htook : (bufAt s j).getLsbD 0 = true → took = true)
    (ht : t.otp = (u.modifySlot r (c + j) sl (Slot.commit
      ((bufAt s j).getLsbD 0 && !s.cellSet r (c + j) && took))).otp) (hcfg : t.cfg = u.cfg) :
    CellsSet s r c (j + 1) t where
  cfg := hcfg.trans h.cfg
  otp := by
    rw [ht, State.modifySlot_otp, h.otp]
  rows c' hc' := by
    rw [row_congr (s := u.modifySlot r (c + j) sl _) (by rw [ht]) hcfg, State.row_modifySlot, if_neg (by omega)]
    exact h.rows c' (by omega)
  slots r' c' sl' := by
    have hbit : ((bufAt s j).getLsbD 0 && took) = (bufAt s j).getLsbD 0 := by
      cases hb : (bufAt s j).getLsbD 0 with
      | false => rfl
      | true => rw [htook hb, Bool.and_true]
    rw [← h.cellSet] at ht
    rw [slotAt_normalPulse (h.select.trans hs) (h.rowPoisoned.trans hc) ht hcfg, h.select, h.cellValue, hbit, h.slot]
    by_cases hcell : c' = c + j
    · subst hcell
      rw [h.slots, if_neg (c := r' = r ∧ c ≤ c + j ∧ c + j < c + j ∧ _) (by omega), Nat.add_sub_cancel_left]
      simp
    · rw [if_neg (by simp [hcell]), h.slots]
      have hlt : c' < c + (j + 1) ↔ c' < c + j := by omega
      simp only [hlt]

end

section
variable {i : Instr} {s : State} {r : Region} {c : Nat} (hi : startsNormal i = true) (h : ReadyToProgram s i)
  (hn : unitCount i s < 2 ^ 64) (hr : regionField i = r) (ho : s.addr.toNat = c)
  (hl : (s.info r).attemptLimited = true)
  (hc : ∀ j < unitCount i s, s.rowPoisoned r (c + j) = false ∧ (s.select r (c + j)).isSome = true)
  (hd : ∀ j < unitCount i s, (s.answerAt j).status = .ready ∧
    ((bufAt s j).getLsbD 0 = true → (s.answerAt j).took = true))
include hi h hn hr ho hl hc hd

/-- After `j + 1` units the cells up to `j` hold the requested bits. -/
theorem execSteps_cells {j : Nat} (hj : j < unitCount i s) :
    ∃ u, execSteps i (2 * (j + 1)) s = .next u ∧ UnitRead i s j u ∧ CellsSet s r c (j + 1) u := by
  subst hr ho
  have hm (j : Nat) (hj : j < unitCount i s) : monotonicMatch
      (if s.cellValue (regionField i) (s.addr.toNat + j) ||
        ((bufAt s j).getLsbD 0 && !s.cellSet (regionField i) (s.addr.toNat + j) && (s.answerAt j).took) then 1 else 0)
      (targetOf s.cfg (s.info (regionField i)) (bufAt s j)) = true := by
    obtain ⟨-, htook⟩ := hd j hj
    obtain ⟨hclean, -⟩ := hc j hj
    rw [targetOf_cell s.cfg hl, monotonicMatch_cell, State.cellSet, hclean]
    revert htook
    cases s.cellValue (regionField i) (s.addr.toNat + j) <;> cases (bufAt s j).getLsbD 0 <;>
      cases (s.answerAt j).took <;> decide
  induction j with
  | zero =>
    obtain ⟨hst, htook⟩ := hd 0 hj
    obtain ⟨hclean, hsome⟩ := hc 0 hj
    obtain ⟨sl, hs⟩ := Option.isSome_iff_exists.mp hsome
    have hmatch := hm 0 hj
    rw [answerAt_zero] at hst htook hmatch
    exact ⟨_, exec_verifying_cell hi h hj hst rfl rfl hl hs hclean rfl, unitRead_zero hmatch,
      (cellsSet_zero s _ _).pulsed hs hclean htook (verifying_otp ..) (verifying_cfg ..)⟩
  | succ j ih =>
    obtain ⟨u, hu, hread, hcells⟩ := ih (Nat.lt_of_succ_lt hj)
    obtain ⟨hst, htook⟩ := hd (j + 1) hj
    obtain ⟨hclean, hsome⟩ := hc (j + 1) hj
    obtain ⟨sl, hs⟩ := Option.isSome_iff_exists.mp hsome
    have hstep := hread.next_cell hi h hj hn hst rfl hl rfl (hcells.select.trans hs) (hcells.rowPoisoned.trans hclean)
      (congrArg (fun b => (bufAt s (j + 1)).getLsbD 0 && !b && (s.answerAt (j + 1)).took) hcells.cellSet)
    rw [hcells.cellValue] at hstep
    exact ⟨_, (execSteps_add hu 2).trans hstep, hread.succ (by omega) (hm (j + 1) hj),
      hcells.pulsed hs hclean htook (nextRead_otp ..) (nextRead_cfg ..)⟩

end

/-- Settles O49: two steps a unit, each of which leaves its unit set, and one step that ends the command. -/
theorem writeRegionProgramsEveryUnit : Obligations.WriteRegionProgramsEveryUnit := by
  intro r pol s h hlen n c p d done
  have hn : unitCount (.writeRegion r pol) s < 2 ^ 64 := s.len.isLt
  have hlast : n - 1 < unitCount (.writeRegion r pol) s := by
    have hcount : unitCount (.writeRegion r pol) s = n := rfl
    omega
  have hunits : n - 1 + 1 = n := Nat.sub_add_cancel hlen
  have hdone {u : State} (hu : execSteps (.writeRegion r pol) (2 * n) s = .next u)
      (hread : UnitRead (.writeRegion r pol) s (n - 1) u) : ∃ t, done t ∧ t.otp = u.otp := by
    obtain ⟨t, hend, hotp, hout, hframe⟩ := hread.ends rfl h.start hn hunits
    refine ⟨t, ⟨(execSteps_add hu 1).trans (execSteps_one hend), hout, ?_⟩, hotp⟩
    have hnormal : BitVec.ofNat 64 (unitCount (.writeRegion r pol) s) = s.len := BitVec.ofNat_toNat ..
    have hmacros : BitVec.ofNat 64 (2 * unitCount (.writeRegion r pol) s) = 2 * s.len := by
      rw [BitVec.ofNat_mul, hnormal]
      rfl
    have hindex : BitVec.ofNat 64 (n - 1) = s.len - 1 := by
      bv_omega
    rw [hnormal, hmacros, hindex] at hframe
    exact hframe
  refine ⟨fun hl hc hd => ?_, fun hl hc hd => ?_⟩
  · obtain ⟨u, hu, hread, hwords⟩ := execSteps_words (p := p) rfl h hn hl rfl hc hd hlast
    rw [hunits] at hu hwords
    obtain ⟨t, ht, hotp⟩ := hdone hu hread
    have hword (q : Nat) : t.word q = u.word q := word_congr (by rw [hotp]) q
    refine ⟨t, ht, by rw [hotp]; exact hwords.otp, fun j hj => ?_, fun q hq => ?_⟩
    · rw [hword, hwords.word, if_pos (by omega), Nat.add_sub_cancel_left]
      rfl
    · rw [hword, hwords.word, if_neg]
      rintro ⟨hle, hlt⟩
      exact hq (q - p) (by omega) (by omega)
  · obtain ⟨u, hu, hread, hcells⟩ := execSteps_cells (r := r) (c := c) rfl h hn rfl rfl hl hc hd hlast
    rw [hunits] at hu hcells
    obtain ⟨t, ht, hotp⟩ := hdone hu hread
    have hcfg : t.cfg = u.cfg := by
      obtain ⟨-, -, hframe⟩ := ht
      rw [hframe, hcells.cfg]
    refine ⟨t, ht, by rw [hotp]; exact hcells.otp, fun r' c' sl' => ?_⟩
    rw [slotAt_congr (by rw [hotp]) hcfg]
    exact hcells.slots r' c' sl'

end Sys2Proof.Machine
end

section
/-! The read commands unit by unit (45_facade.md R223, R224): the one call that reads a unit, the transfer of a range of units into
BUF, and READ in a session. -/

namespace Sys2Proof.Machine

/-! ### The call that reads a unit (R61, R64) -/

/-- A read of unit offset `o` of region `r` for variant `v`: the value and the state after the call. -/
def unitCall (v : Reg) (r : Region) (o : Nat) (s : State) : Reg × State :=
  if (regionInfo s.cfg v r).attemptLimited then macroReadCell r o s
  else macroRead ((regionInfo s.cfg v r).base + o) s

/-- The value of a unit of which nothing is poisoned (R28, R64). -/
def unitValue (v : Reg) (r : Region) (s : State) (o : Nat) : Reg :=
  if (regionInfo s.cfg v r).attemptLimited then (if s.cellValue r o then 1 else 0)
  else s.word ((regionInfo s.cfg v r).base + o)

/-- A read of the unit draws: its word, or some slot of its cell, is poisoned (R64). -/
def unitPoisoned (v : Reg) (r : Region) (s : State) (o : Nat) : Bool :=
  if (regionInfo s.cfg v r).attemptLimited then s.rowPoisoned r o
  else s.poisoned ((regionInfo s.cfg v r).base + o)

/-- The unit exists: a unit of a region that is not attempt-limited is a word of the array. -/
def UnitExists (v : Reg) (r : Region) (s : State) (o : Nat) : Prop :=
  (regionInfo s.cfg v r).attemptLimited = false → (regionInfo s.cfg v r).base + o < s.cfg.arrayWords

/-- R66: a unit inside the capacity exists. -/
theorem unitExists_of_lt {v : Reg} {r : Region} {s : State} {o : Nat} (hc : s.cfg.legal = true)
    (h : o < (regionInfo s.cfg v r).capacity) : UnitExists v r s o := by
  intro hl
  have hfits := legal_inside hc v r hl
  omega

section
variable {v : Reg} {r : Region} {o : Nat} {s : State}

theorem unitCall_cell (hl : (regionInfo s.cfg v r).attemptLimited = true) :
    unitCall v r o s = macroReadCell r o s := if_pos hl

theorem unitCall_word (hl : (regionInfo s.cfg v r).attemptLimited = false) :
    unitCall v r o s = macroRead ((regionInfo s.cfg v r).base + o) s := if_neg (ne_true_of_eq_false hl)

/-- `readUnit` is that call, for a unit that exists. -/
theorem readUnit_eq_unitCall (he : UnitExists v r s o) (k : Reg → State → State) :
    readUnit v r o s k = .done (k (unitCall v r o s).1 (unitCall v r o s).2) := by
  cases hl : (regionInfo s.cfg v r).attemptLimited with
  | true => rw [readUnit_cell hl, unitCall_cell hl]
  | false => rw [readUnit_word hl (he hl), unitCall_word hl]

/-- The call counts as one, and changes the draws at most (R45, R64). -/
theorem unitCall_snd : (unitCall v r o s).2 = { s.countMacro with env := (unitCall v r o s).2.env } := by
  unfold unitCall
  split
  · unfold macroReadCell
    cases s.rowPoisoned r o <;> rfl
  · unfold macroRead
    split <;> rfl

/-- With nothing poisoned it is exact and draws nothing (R64). -/
theorem unitCall_clean (hc : unitPoisoned v r s o = false) : unitCall v r o s = (unitValue v r s o, s.countMacro) := by
  cases hl : (regionInfo s.cfg v r).attemptLimited with
  | true =>
    simp only [unitPoisoned, hl, if_true] at hc
    simp only [unitCall_cell hl, unitValue, hl, if_true, macroReadCell_clean hc]
  | false =>
    simp only [unitPoisoned, hl, Bool.false_eq_true, if_false] at hc
    simp only [unitCall_word hl, unitValue, hl, macroRead, hc, Bool.false_eq_true, if_false]

/-- What it answers depends on the device and the draws only. -/
theorem unitCall_congr {t : State} (ho : t.otp = s.otp) (hc : t.cfg = s.cfg) (he : t.env = s.env) :
    (unitCall v r o t).1 = (unitCall v r o s).1 ∧ (unitCall v r o t).2.env = (unitCall v r o s).2.env := by
  have hslots : t.otp.slots = s.otp.slots := by rw [ho]
  have hword := word_congr (s := s) (t := t) (by rw [ho])
  have hpoison := poisoned_congr (s := s) (t := t) (by rw [ho])
  rw [unitCall, unitCall, hc]
  split
  · rw [macroReadCell_snd_env, macroReadCell_snd_env, rowPoisoned_congr hslots hc, State.drew_env, State.drew_env, he,
      macroReadCell, macroReadCell, answer_congr he, row_congr hslots hc]
    exact ⟨rfl, rfl⟩
  · rw [macroRead_fst, macroRead_fst, macroRead_snd_env, macroRead_snd_env, State.drew_env, State.drew_env, he, hpoison,
      hword, answer_congr he, hc]
    exact ⟨rfl, rfl⟩

end

theorem unitValue_congr {v : Reg} {r : Region} {s t : State} (ho : t.otp = s.otp) (hc : t.cfg = s.cfg) (o : Nat) :
    unitValue v r t o = unitValue v r s o := by
  rw [unitValue, unitValue, hc, cellValue_congr (s := s) (by rw [ho]) hc, word_congr (s := s) (by rw [ho])]

theorem unitPoisoned_congr {v : Reg} {r : Region} {s t : State} (ho : t.otp = s.otp) (hc : t.cfg = s.cfg) (o : Nat) :
    unitPoisoned v r t o = unitPoisoned v r s o := by
  rw [unitPoisoned, unitPoisoned, hc, rowPoisoned_congr (s := s) (by rw [ho]) hc, poisoned_congr (s := s) (by rw [ho])]

/-! ### One unit into BUF -/

/-- The step that reads a unit into `BUF[i]` (R223, R224; log 7). What it reads depends on the device and the draws only, so it
is given for any state `s` that has those of `b`. -/
theorem readIntoBuf_reads {r : Region} {v : Reg} {i o : Nat} {s b : State} (hotp : b.otp = s.otp) (hcfg : b.cfg = s.cfg)
    (henv : b.env = s.env) (ho : b.eng.off + i = o) (he : UnitExists v r s o) :
    ∃ t, (readIntoBuf r v i b).run = .next t ∧
      t = { b with
        buf := t.buf, cnt := { b.cnt with macros := b.cnt.macros + 1 }, phase := .unitRead v,
        env := (unitCall v r o s).2.env } ∧
      ∀ j, bufAt t j = if j = i then (unitCall v r o s).1 else bufAt b j := by
  subst ho
  obtain ⟨hvalue, hdraws⟩ := unitCall_congr (v := v) (r := r) (o := b.eng.off + i) hotp hcfg henv
  have hbuf (j : Nat) : bufAt (unitCall v r (b.eng.off + i) b).2 j = bufAt b j :=
    bufAt_congr (by rw [unitCall_snd]; rfl) j
  have hread := readUnit_eq_unitCall (v := v) (r := r) (o := b.eng.off + i) (s := b) (by rw [UnitExists, hcfg]; exact he)
    fun x u => (u.setBuf i x).atPhase (.unitRead v)
  refine ⟨_, congrArg Plan.run hread, ?_, fun j => ?_⟩
  · rw [← hdraws, unitCall_snd]
    rfl
  · rw [← hvalue, ← hbuf]
    exact bufAt_setBuf _ i j _

/-! ### A transfer of units -/

/-- `t` is the end of a transfer of `m` units to `BUF[j]` to `BUF[j + m - 1]` that began in `b`, with nothing poisoned; the last
unit's index is in WORD_INDEX unless `keep` (R223, R224). -/
structure Transferred (v : Reg) (r : Region) (keep : Prop) [Decidable keep] (j m : Nat) (b t : State) : Prop where
  frame : t = { b with
    buf := t.buf
    wordIndex := if keep ∨ m = 0 then b.wordIndex else BitVec.ofNat 64 (j + m - 1)
    cnt := { b.cnt with macros := b.cnt.macros + BitVec.ofNat 64 m }
    status := finished .ok .success b.status
    phase := .start }
  bufs : ∀ k, bufAt t k = if j ≤ k ∧ k < j + m then unitValue v r b (b.eng.off + k) else bufAt b k

theorem readRegion_next {r : Region} {v : Reg} {s : State} (hp : s.phase = .unitRead v) :
    exec (.readRegion r) s = (readRegionUnit r (unitIndex s + 1) v s).run := by
  simp only [exec_eq_planOf, planOf, planReadRegion, hp]

/-- The state after unit `j` of READ_REGION was read with nothing poisoned (R224). -/
def unitLoaded (r : Region) (v : Reg) (j : Nat) (s : State) : State :=
  ((s.setWordIndex j).countMacro.setBuf j (unitValue v r s (s.eng.off + j))).atPhase (.unitRead v)

theorem readRegionUnit_loads {r : Region} {v : Reg} {j : Nat} {s : State} (hj : j < s.eng.count)
    (he : UnitExists v r s (s.eng.off + j)) (hc : unitPoisoned v r s (s.eng.off + j) = false) :
    (readRegionUnit r j v s).run = .next (unitLoaded r v j s) := by
  have hread := readUnit_eq_unitCall (s := s.setWordIndex j) he fun x u => (u.setBuf j x).atPhase (.unitRead v)
  rw [unitCall_clean (s := s.setWordIndex j) hc] at hread
  exact congrArg Plan.run ((if_pos hj).trans hread)

section
variable (r : Region) (v : Reg) (j : Nat) (s : State)

theorem bufAt_unitLoaded (k : Nat) : bufAt (unitLoaded r v j s) k =
    if k = j then unitValue v r s (s.eng.off + j) else bufAt s k := bufAt_setBuf (s.setWordIndex j).countMacro j k _

theorem unitLoaded_eq : unitLoaded r v j s = { s with
    buf := (unitLoaded r v j s).buf
    wordIndex := BitVec.ofNat 64 j
    cnt := { s.cnt with macros := s.cnt.macros + 1 }
    phase := .unitRead v } := rfl

theorem unitLoaded_otp : (unitLoaded r v j s).otp = s.otp := by rw [unitLoaded_eq]
theorem unitLoaded_cfg : (unitLoaded r v j s).cfg = s.cfg := by rw [unitLoaded_eq]
theorem unitLoaded_eng : (unitLoaded r v j s).eng = s.eng := by rw [unitLoaded_eq]

end

/-- A transfer is the first unit and the transfer of the others. -/
theorem Transferred.cons {r : Region} {v : Reg} {j m : Nat} {b t : State}
    (h : Transferred v r False (j + 1) m (unitLoaded r v j b) t) : Transferred v r False j (m + 1) b t where
  frame := by
    have hindex : (if False ∨ m = 0 then BitVec.ofNat 64 j else BitVec.ofNat 64 (j + 1 + m - 1)) =
        if False ∨ m + 1 = 0 then b.wordIndex else BitVec.ofNat 64 (j + (m + 1) - 1) := by
      cases m with
      | zero => rfl
      | succ m => simp [Nat.add_right_comm j 1, Nat.add_assoc]
    have hmacros : b.cnt.macros + 1 + BitVec.ofNat 64 m = b.cnt.macros + BitVec.ofNat 64 (m + 1) := by
      rw [BitVec.add_assoc, Nat.add_comm m, BitVec.ofNat_add]
      rfl
    have hframe := h.frame
    generalize t.buf = x at hframe ⊢
    rw [hframe, unitLoaded_eq, ← hindex, ← hmacros]
  bufs k := by
    rw [h.bufs, bufAt_unitLoaded, unitLoaded_eng, unitValue_congr (unitLoaded_otp ..) (unitLoaded_cfg ..)]
    rcases Nat.lt_trichotomy k j with hk | rfl | hk
    · rw [if_neg (by omega), if_neg (by omega), if_neg (by omega)]
    · rw [if_neg (by omega), if_pos rfl, if_pos (by omega)]
    · by_cases hlt : k < j + 1 + m
      · rw [if_pos (by omega), if_pos (by omega)]
      · rw [if_neg (by omega), if_neg (by omega), if_neg (by omega)]

/-- Every unit of the command whose operands are latched exists and has nothing poisoned. -/
structure UnitsReadable (v : Reg) (r : Region) (s : State) : Prop where
  inside : ∀ k < s.eng.count, UnitExists v r s (s.eng.off + k)
  clean : ∀ k < s.eng.count, unitPoisoned v r s (s.eng.off + k) = false

theorem UnitsReadable.congr {v : Reg} {r : Region} {s t : State} (h : UnitsReadable v r s) (ho : t.otp = s.otp)
    (hc : t.cfg = s.cfg) (he : t.eng = s.eng) : UnitsReadable v r t where
  inside k hk := by
    rw [he] at hk ⊢
    rw [UnitExists, hc]
    exact h.inside k hk
  clean k hk := by
    rw [he] at hk ⊢
    rw [unitPoisoned_congr ho hc]
    exact h.clean k hk

/-- The loop of READ_REGION from unit `j` on: a step a unit, and one that ends the command (R224). -/
theorem readRegionUnit_transfers {r : Region} {v : Reg} (m : Nat) {j : Nat} {b : State} (hm : b.eng.count = j + m)
    (hn : b.eng.count < 2 ^ 64) (h : UnitsReadable v r b) :
    ∃ u t, (readRegionUnit r j v b).run = .next u ∧ execSteps (.readRegion r) m u = .next t ∧
      Transferred v r False j m b t := by
  induction m generalizing j b with
  | zero =>
    refine ⟨_, _, congrArg Plan.run (if_neg (by omega)), rfl, ?_, fun k => ?_⟩
    · simp only [BitVec.add_zero, or_true, if_true]
      rfl
    · rw [if_neg (by omega)]
      rfl
  | succ m ih =>
    have hj : j < b.eng.count := by omega
    have heng := unitLoaded_eng r v j b
    have hidx : unitIndex (unitLoaded r v j b) = j := (BitVec.toNat_ofNat ..).trans (Nat.mod_eq_of_lt (by omega))
    obtain ⟨u, t, hu, ht, hrest⟩ := ih (j := j + 1) (b := unitLoaded r v j b) (by rw [heng]; omega)
      (by rw [heng]; exact hn) (h.congr (unitLoaded_otp ..) (unitLoaded_cfg ..) heng)
    have hnext : exec (.readRegion r) (unitLoaded r v j b) = .next u := by
      rw [readRegion_next rfl, hidx, hu]
    exact ⟨_, t, readRegionUnit_loads hj (h.inside j hj) (h.clean j hj), (execSteps_succ hnext).trans ht, hrest.cons⟩

/-! ### The read commands at their places (R222) -/

/-- The transfer of a read command. -/
def readTransfer : Instr → Region → Reg → State → Plan
  | .readRegion _, r, v, s => readRegionUnit r 0 v s
  | _, r, v, s => readIntoBuf r v 0 s

section
variable {i : Instr} {r : Region} {s : State}

/-- A read command past the LEN check of READ_REGION latches its operands and is `read_checks` (R222 to R224). -/
theorem exec_readChecks (hi : i = .read r ∨ i = .readRegion r ∧ s.len.toNat ≤ s.cfg.bufWords) (hp : s.phase = .start) :
    exec i s = (readChecks r (readTransfer i r) (latchCommand i (unitCount i s) s)).run := by
  rw [exec_eq_planOf]
  rcases hi with rfl | ⟨rfl, hlen⟩
  · simp only [planOf, planRead, hp]
    rfl
  · simp only [planOf, planReadRegion, hp]
    exact congrArg Plan.run (if_neg (Nat.not_lt.mpr hlen))

theorem exec_readChecksId (hi : i = .read r ∨ i = .readRegion r) {vid : Reg} (hp : s.phase = .readIdRead vid) :
    exec i s = (readChecksId vid s).run := by
  rw [exec_eq_planOf]
  rcases hi with rfl | rfl <;> simp only [planOf, planRead, planReadRegion, hp]

theorem exec_readChecksProt (hi : i = .read r ∨ i = .readRegion r) {vid : Reg} {pp : BitVec 4}
    (hp : s.phase = .readProtRead vid pp) : exec i s = (readChecksProt r vid pp (readTransfer i r) s).run := by
  rw [exec_eq_planOf]
  rcases hi with rfl | rfl <;> simp only [planOf, planRead, planReadRegion, hp] <;> rfl

end

/-- The transfer of a read command whose units exist and are not poisoned (R223, R224). -/
theorem readTransfer_transfers {i : Instr} {r : Region} {v : Reg} {b : State}
    (hi : i = .read r ∧ b.eng.count = 1 ∨ i = .readRegion r ∧ b.eng.count < 2 ^ 64)
    (h : UnitsReadable v r b) :
    ∃ u t, (readTransfer i r v b).run = .next u ∧ execSteps i b.eng.count u = .next t ∧
      Transferred v r (i = .read r) 0 b.eng.count b t := by
  rcases hi with ⟨rfl, hone⟩ | ⟨rfl, hn⟩
  · have h0 : 0 < b.eng.count := by omega
    obtain ⟨u, hu, hframe, hbuf⟩ := readIntoBuf_reads (b := b) rfl rfl rfl rfl (h.inside 0 h0)
    rw [unitCall_clean (h.clean 0 h0)] at hframe hbuf
    rw [hone]
    refine ⟨u, _, hu, execSteps_one (read_ends (v := v) (by rw [hframe])), ?_, fun k => ?_⟩
    · rw [if_pos (.inl rfl)]
      generalize u.buf = x at hframe
      subst hframe
      rfl
    · have hkept : bufAt (finish .ok .success u) k = bufAt u k := rfl
      rw [hkept, hbuf]
      by_cases hk : k = 0
      · rw [if_pos hk, if_pos (by omega), hk]
      · rw [if_neg hk, if_neg (by omega)]
  · obtain ⟨u, t, hu, ht, hframe, hbufs⟩ := readRegionUnit_transfers b.eng.count (Nat.zero_add _).symm hn h
    refine ⟨u, t, hu, ht, ?_, hbufs⟩
    simp only [reduceCtorEq]
    exact hframe

/-! ### The checks of a read in a session (R222) -/

/-- The latched range passes `resolve`, and the transfer begins in the same step. -/
theorem readResolved_ok {r : Region} {v : Reg} {tr : Reg → State → Plan} {s : State}
    (h : resolve (regionInfo s.cfg v r) s.eng.off s.eng.count = .ok) : readResolved r v tr s = tr v s := by
  simp only [readResolved, h]

theorem readResolved_error {r : Region} {v : Reg} {tr : Reg → State → Plan} {s : State} {e : ErrCode}
    (h : resolve (regionInfo s.cfg v r) s.eng.off s.eng.count = e) (he : e ≠ .ok) :
    readResolved r v tr s = .done (finish e .failure s) := by
  cases e with
  | ok => contradiction
  | _ => simp only [readResolved, h]

theorem readChecks_active {s : State} (hi : s.session = .active) (r : Region) (tr : Reg → State → Plan) :
    readChecks r tr s = readResolved r s.variant tr s := if_pos hi

section
variable {i : Instr} {r : Region} {s : State}
  (hi : i = .read r ∨ i = .readRegion r ∧ s.len.toNat ≤ s.cfg.bufWords) (hp : s.phase = .start)
  (ha : s.session = .active)
include hi hp ha

/-- In a session a read command past its checks is its transfer. -/
theorem exec_read_passes (hr : resolve (s.info r) s.addr.toNat (unitCount i s) = .ok) :
    exec i s = (readTransfer i r s.variant (latchCommand i (unitCount i s) s)).run := by
  rw [exec_readChecks hi hp, readChecks_active (s := latchCommand i (unitCount i s) s) ha]
  exact congrArg Plan.run (readResolved_ok (s := latchCommand i (unitCount i s) s) hr)

/-- Otherwise it ends with the error of `resolve`. -/
theorem exec_read_refuses {e : ErrCode} (hr : resolve (s.info r) s.addr.toNat (unitCount i s) = e) (he : e ≠ .ok) :
    exec i s = .next (finish e .failure (latchCommand i (unitCount i s) s)) := by
  rw [exec_readChecks hi hp, readChecks_active (s := latchCommand i (unitCount i s) s) ha]
  exact congrArg Plan.run (readResolved_error (s := latchCommand i (unitCount i s) s) hr he)

end

/-! ### READ in a session (R223) -/

/-- READ past its checks: the call, and the step that ends the command. -/
theorem read_delivers {r : Region} {s : State} (hp : s.phase = .start) (hi : s.session = .active)
    (h1 : s.addr.toNat < (s.info r).capacity) (h2 : s.addr.toNat % (s.info r).alignment = 0)
    (he : UnitExists s.variant r s s.addr.toNat) :
    ∃ s₁ t, exec (.read r) s = .next s₁ ∧ exec (.read r) s₁ = .next t ∧
      t = { s with
        buf := t.buf, eng := t.eng, cnt := { s.cnt with macros := s.cnt.macros + 1 },
        env := (unitCall s.variant r s.addr.toNat s).2.env, status := finished .ok .success s.status } ∧
      ∀ j, bufAt t j = if j = 0 then (unitCall s.variant r s.addr.toNat s).1 else bufAt s j := by
  have hr := resolve_of_inside h1 h2 (n := 1) (by omega)
  obtain ⟨u, hu, hframe, hbuf⟩ := readIntoBuf_reads (i := 0) (o := s.addr.toNat) (s := s)
    (b := latchCommand (.read r) 1 s) rfl rfl rfl rfl he
  refine ⟨u, _, (exec_read_passes (.inl rfl) hp hi hr).trans hu, read_ends (v := s.variant) (by rw [hframe]), ?_, hbuf⟩
  generalize u.buf = x at hframe
  subst hframe
  rw [finish_of_started hp]
  rfl

/-- Settles O34: the unit is a word, which the call reads exactly, or draws if it is poisoned. -/
theorem readDeliversTheWord : Obligations.ReadDeliversTheWord := by
  intro r s hp hi hc hl h1 h2 p
  have hcall : unitCall s.variant r s.addr.toNat s = macroRead p s := unitCall_word hl
  have h := read_delivers hp hi h1 h2 (unitExists_of_lt hc h1)
  rw [hcall, macroRead_fst, macroRead_snd_env] at h
  exact h

/-- Settles O35: the unit is a cell, whose slots' bits the call ORs; with no poisoned slot they are the committed bits. -/
theorem readDeliversTheCellsValue : Obligations.ReadDeliversTheCellsValue := by
  intro r s hp hi hl h1 h2
  have hcall : unitCall s.variant r s.addr.toNat s = macroReadCell r s.addr.toNat s := unitCall_cell hl
  obtain ⟨s₁, t, hs₁, ht, hframe, hbuf⟩ := read_delivers hp hi h1 h2 fun hw => nomatch hl.symm.trans hw
  rw [hcall] at hframe hbuf
  have henv : t.env = (macroReadCell r s.addr.toNat s).2.env := by rw [hframe]
  have h0 : bufAt t 0 = (macroReadCell r s.addr.toNat s).1 := hbuf 0
  refine ⟨s₁, t, hs₁, ht, by rw [henv]; exact hframe, fun j hj => (hbuf j).trans (if_neg hj), ?_, fun hclean => ?_⟩
  · rw [h0]
    exact macroReadCell_bit ..
  · rw [henv, h0, macroReadCell_clean hclean]
    exact ⟨rfl, rfl⟩

end Sys2Proof.Machine
end

section
/-! READ_REGION in a session (45_facade.md R224), and both read commands on the session-less path (R222). -/

namespace Sys2Proof.Machine

/-! ### READ_REGION in a session -/

/-- The first step of READ_REGION past its checks, with at least one unit. -/
theorem readRegion_begins {r : Region} {s : State} (hp : s.phase = .start) (ha : s.session = .active)
    (hlen : s.len.toNat ≤ s.cfg.bufWords) (hr : resolve (s.info r) s.addr.toNat s.len.toNat = .ok) (hn : 1 ≤ s.len.toNat)
    (he : UnitExists s.variant r s s.addr.toNat) :
    ∃ t, exec (.readRegion r) s = .next t ∧
      t = { s with
        buf := t.buf, eng := t.eng, wordIndex := 0, phase := .unitRead s.variant,
        cnt := { s.cnt with macros := s.cnt.macros + 1 }, env := (unitCall s.variant r s.addr.toNat s).2.env } ∧
      ∀ j, bufAt t j = if j = 0 then (unitCall s.variant r s.addr.toNat s).1 else bufAt s j := by
  obtain ⟨t, ht, hframe, hbuf⟩ := readIntoBuf_reads (i := 0) (o := s.addr.toNat) (s := s)
    (b := (latchCommand (.readRegion r) s.len.toNat s).setWordIndex 0) rfl rfl rfl rfl he
  refine ⟨t, ?_, ?_, hbuf⟩
  · rw [exec_read_passes (.inr ⟨rfl, hlen⟩) hp ha hr, ← ht]
    exact congrArg Plan.run (if_pos hn)
  · generalize t.buf = x at hframe ⊢
    subst hframe
    rfl

/-- The transfer of a read command whose range passes `resolve` and is not poisoned. It begins in `b`, where the device and BUF
are still those of `s`, with the operands of `s` latched. -/
theorem read_transfers {i : Instr} {r : Region} {v : Reg} {s b : State} (hi : i = .read r ∨ i = .readRegion r)
    (hc : s.cfg.legal = true) (hr : resolve (regionInfo s.cfg v r) s.addr.toNat (unitCount i s) = .ok)
    (hclean : ∀ j < unitCount i s, unitPoisoned v r s (s.addr.toNat + j) = false) (hotp : b.otp = s.otp)
    (hcfg : b.cfg = s.cfg) (heng : b.eng = (latchCommand i (unitCount i s) s).eng) (hbuf : b.buf = s.buf) :
    ∃ u t, (readTransfer i r v b).run = .next u ∧ execSteps i (unitCount i s) u = .next t ∧
      t = { b with
        buf := t.buf
        wordIndex := if i = .read r ∨ unitCount i s = 0 then b.wordIndex else BitVec.ofNat 64 (unitCount i s - 1)
        cnt := { b.cnt with macros := b.cnt.macros + BitVec.ofNat 64 (unitCount i s) }
        status := finished .ok .success b.status
        phase := .start } ∧
      ∀ j, bufAt t j = if j < unitCount i s then unitValue v r s (s.addr.toNat + j) else bufAt s j := by
  have hcount : b.eng.count = unitCount i s := by rw [heng]; rfl
  have hoff : b.eng.off = s.addr.toNat := by rw [heng]; rfl
  obtain ⟨-, -, hfits⟩ := resolve_ok hr
  have hread : UnitsReadable v r b := by
    refine ⟨fun k hk => ?_, fun k hk => ?_⟩ <;> rw [hcount] at hk <;> rw [hoff]
    · exact unitExists_of_lt (by rw [hcfg]; exact hc) (by rw [hcfg]; omega)
    · rw [unitPoisoned_congr hotp hcfg]
      exact hclean k hk
  have hkind : i = .read r ∧ b.eng.count = 1 ∨ i = .readRegion r ∧ b.eng.count < 2 ^ 64 := by
    rw [hcount]
    exact hi.imp (fun h => ⟨h, by rw [h]; rfl⟩) fun h => ⟨h, by rw [h]; exact s.len.isLt⟩
  obtain ⟨u, t, hu, ht, hframe, hbufs⟩ := readTransfer_transfers hkind hread
  rw [hcount] at ht hframe hbufs
  rw [Nat.zero_add] at hframe hbufs
  refine ⟨u, t, hu, ht, hframe, fun j => ?_⟩
  rw [hbufs, hoff, unitValue_congr hotp hcfg, bufAt_congr hbuf]
  simp only [Nat.zero_le, true_and]

theorem unitPoisoned_add (v : Reg) (r : Region) (s : State) (c j : Nat) : unitPoisoned v r s (c + j) =
    if (regionInfo s.cfg v r).attemptLimited then s.rowPoisoned r (c + j)
    else s.poisoned ((regionInfo s.cfg v r).base + c + j) := by rw [unitPoisoned, Nat.add_assoc]

theorem unitValue_add (v : Reg) (r : Region) (s : State) (c j : Nat) : unitValue v r s (c + j) =
    if (regionInfo s.cfg v r).attemptLimited then (if s.cellValue r (c + j) then 1 else 0)
    else s.word ((regionInfo s.cfg v r).base + c + j) := by rw [unitValue, Nat.add_assoc]

/-- Settles O36: the first step is the call of the first unit, and each further step of the loop loads one unit, or ends it. -/
theorem readRegionFillsTheBuffers : Obligations.ReadRegionFillsTheBuffers := by
  intro r s hp hi hc hlen h1 h2 h3 p c limited value
  have hr := resolve_of_inside h1 h2 h3
  refine ⟨fun hn => ?_, fun hclean => ?_⟩
  · obtain ⟨t, ht, hframe, hbuf⟩ := readRegion_begins hp hi hlen hr hn (unitExists_of_lt hc h1)
    have henv : t.env = (unitCall s.variant r c s).2.env := by rw [hframe]
    have h0 : bufAt t 0 = (unitCall s.variant r c s).1 := hbuf 0
    refine ⟨t, ht, by rw [henv]; exact hframe, fun j hj => (hbuf j).trans (if_neg hj), fun hl => ?_, fun hl => ?_⟩
    · rw [henv, h0, unitCall_word hl, macroRead_fst, macroRead_snd_env]
      exact ⟨rfl, rfl⟩
    · have hvalue : value 0 = if s.cellValue r c then 1 else 0 := if_pos hl
      rw [henv, h0, unitCall_cell hl, hvalue]
      refine ⟨macroReadCell_bit .., fun hcell => ?_⟩
      rw [macroReadCell_clean hcell]
      exact ⟨rfl, rfl⟩
  · have hunits (j : Nat) (hj : j < s.len.toNat) : unitPoisoned s.variant r s (c + j) = false :=
      (unitPoisoned_add ..).trans (hclean j hj)
    obtain ⟨u, t, hu, ht, hframe, hbufs⟩ := read_transfers (b := latchCommand (.readRegion r) s.len.toNat s) (.inr rfl)
      hc hr hunits rfl rfl rfl rfl
    refine ⟨t, (execSteps_succ ((exec_read_passes (.inr ⟨rfl, hlen⟩) hp hi hr).trans hu)).trans ht, ?_, fun j => ?_⟩
    · have hindex : (if .readRegion r = Instr.read r ∨ unitCount (.readRegion r) s = 0 then s.wordIndex
          else BitVec.ofNat 64 (unitCount (.readRegion r) s - 1)) =
            if s.len.toNat = 0 then s.wordIndex else s.len - 1 := by
        simp only [reduceCtorEq, false_or, unitCount]
        split
        · rfl
        · bv_omega
      have hmacros : s.cnt.macros + BitVec.ofNat 64 (unitCount (.readRegion r) s) = s.cnt.macros + s.len :=
        congrArg (s.cnt.macros + ·) (BitVec.ofNat_toNat ..)
      generalize t.buf = x at hframe ⊢
      rw [← hindex, ← hmacros, hp]
      subst hframe
      rfl
    · rw [hbufs, unitValue_add]
      rfl

/-! ### The session-less path -/

/-- A read command without a session, after MacroReadId (R222). -/
def idAsked (i : Instr) (s : State) : State :=
  (latchCommand i (unitCount i s) s).countMacro.atPhase (.readIdRead s.cfg.chipId)

/-- The same after MacroReadProt. -/
def protAsked (i : Instr) (s : State) : State :=
  (idAsked i s).countMacro.atPhase (.readProtRead s.cfg.chipId s.deviceProt)

/-- CNT_MACRO after two macro calls (R45). -/
theorem macros_add_two (x : Reg) : x + 2 = x + 1 + 1 := by
  rw [BitVec.add_assoc]
  rfl

theorem idAsked_eq (i : Instr) (s : State) : idAsked i s = { s with
    eng := (latchCommand i (unitCount i s) s).eng
    cnt := { s.cnt with macros := s.cnt.macros + 1 }
    phase := .readIdRead s.cfg.chipId } := rfl

theorem protAsked_eq (i : Instr) (s : State) : protAsked i s = { s with
    eng := (latchCommand i (unitCount i s) s).eng
    cnt := { s.cnt with macros := s.cnt.macros + 2 }
    phase := .readProtRead s.cfg.chipId s.deviceProt } := by
  rw [protAsked, idAsked_eq, macros_add_two]
  rfl

theorem resolve_protAsked (i : Instr) (v : Reg) (r : Region) (s : State) :
    resolve (regionInfo (protAsked i s).cfg v r) (protAsked i s).eng.off (protAsked i s).eng.count =
      resolve (regionInfo s.cfg v r) s.addr.toNat (unitCount i s) := by
  rw [protAsked_eq]
  rfl

section
variable {i : Instr} {r : Region} {s : State}

theorem exec_asksId (hi : i = .read r ∨ i = .readRegion r ∧ s.len.toNat ≤ s.cfg.bufWords) (hp : s.phase = .start)
    (hs : s.session = .idle) (hw : s.cfg.readWithoutSession = true) : exec i s = .next (idAsked i s) := by
  have hidle : (latchCommand i (unitCount i s) s).session ≠ .active := by simp [hs]
  rw [exec_readChecks hi hp]
  exact congrArg Plan.run ((if_neg hidle).trans (if_pos hw))

section
variable (hi : i = .read r ∨ i = .readRegion r)
include hi

theorem exec_idAsked_known (hk : knownVariant s.cfg s.cfg.chipId = true) :
    exec i (idAsked i s) = .next (protAsked i s) := by
  rw [exec_readChecksId hi rfl]
  exact congrArg Plan.run (if_pos hk)

theorem exec_idAsked_unknown (hk : knownVariant s.cfg s.cfg.chipId = false) :
    exec i (idAsked i s) = .next (finish .hardwareFault .failure (idAsked i s)) := by
  rw [exec_readChecksId hi rfl]
  exact congrArg Plan.run (if_neg (ne_true_of_eq_false hk))

theorem exec_protAsked_protected (hb : protBit s.deviceProt r = true) :
    exec i (protAsked i s) = .next (finish .noSession .failure (protAsked i s)) := by
  rw [exec_readChecksProt hi rfl]
  exact congrArg Plan.run (if_pos hb)

theorem exec_protAsked_unprotected (hb : protBit s.deviceProt r = false) : exec i (protAsked i s) =
    (readResolved r s.cfg.chipId (readTransfer i r) (protAsked i s)).run := by
  rw [exec_readChecksProt hi rfl]
  exact congrArg Plan.run (if_neg (ne_true_of_eq_false hb))

end

end

/-- Settles O37: two calls come before the checks' answers, and the transfer after them is the one of a session. -/
theorem sessionlessReadPath : Obligations.SessionlessReadPath := by
  intro r i s hp hs hc hw hi info n c p value
  have hread : i = .read r ∨ i = .readRegion r := hi.imp_right And.left
  have hid := exec_asksId hi hp hs hw
  refine ⟨fun hk => ?_, fun hk => ?_⟩
  · refine ⟨_, (latchCommand i (unitCount i s) s).eng, hid, ?_⟩
    rw [exec_idAsked_unknown hread hk, finish_of_started hp, idAsked_eq]
  have hprot := exec_idAsked_known (s := s) hread hk
  refine ⟨fun hb => ?_, fun hb e he hne => ?_, fun hb hr hclean => ?_⟩
  · refine ⟨_, _, (latchCommand i (unitCount i s) s).eng, hid, hprot, ?_⟩
    rw [exec_protAsked_protected hread hb, finish_of_started hp, protAsked_eq]
  · refine ⟨_, _, (latchCommand i (unitCount i s) s).eng, hid, hprot, ?_⟩
    rw [exec_protAsked_unprotected hread hb, readResolved_error ((resolve_protAsked ..).trans he) hne, run_done,
      finish_of_started hp, protAsked_eq]
  · have hunits (j : Nat) (hj : j < n) : unitPoisoned s.cfg.chipId r s (c + j) = false :=
      (unitPoisoned_add ..).trans (hclean j hj)
    obtain ⟨u, t, hu, ht, hframe, hbufs⟩ := read_transfers (b := protAsked i s) hread hc hr hunits
      (by rw [protAsked_eq]) (by rw [protAsked_eq]) (by rw [protAsked_eq]) (by rw [protAsked_eq])
    have hgo : exec i (protAsked i s) = .next u := by
      rw [exec_protAsked_unprotected hread hb, readResolved_ok ((resolve_protAsked ..).trans hr), hu]
    have hcalls : execSteps i 3 s = .next u := by
      rw [execSteps_succ hid, execSteps_succ hprot, execSteps_one hgo]
    refine ⟨t, ?_, ?_, fun j => ?_⟩
    · rw [Nat.add_comm, execSteps_add hcalls, ht]
    · have hadd : s.cnt.macros + BitVec.ofNat 64 (n + 2) = s.cnt.macros + 2 + BitVec.ofNat 64 n := by
        rw [Nat.add_comm, BitVec.ofNat_add, ← BitVec.add_assoc]
        rfl
      generalize t.buf = x at hframe ⊢
      rw [protAsked_eq] at hframe
      rw [hadd, hp]
      subst hframe
      rfl
    · rw [hbufs, unitValue_add]

end Sys2Proof.Machine
end

section
/-! What the data and engine commands report in their first step (45_facade.md R220, R224, R226 to R228): their refusals in the
order of the checks, and the transfers of no unit. -/

namespace Sys2Proof.Machine

/-! ### The refusals of a read command in a session -/

/-- READ_REGION looks at LEN first, also without a session (R224). -/
theorem readRegion_tooLong {r : Region} {s : State} (hp : s.phase = .start) (hlen : s.cfg.bufWords < s.len.toNat) :
    exec (.readRegion r) s = .next (raise .illegalCommand s) := by
  simp only [exec_eq_planOf, planOf, planReadRegion, hp]
  exact congrArg Plan.run (if_pos hlen)

/-- Settles O38: LEN is looked at before ENG is latched, and `resolve` after. -/
theorem readChecksInOrder : Obligations.ReadChecksInOrder := by
  intro r i s hp hi
  refine ⟨fun h hlen => ?_, fun ha hlen e hr he => ⟨(latchCommand i (unitCount i s) s).eng, ?_⟩⟩
  · rw [h, readRegion_tooLong hp hlen, raise_of_start hp]
  · rw [exec_read_refuses (hi.imp_right fun h => ⟨h, hlen h⟩) hp ha hr he, finish_of_started hp]
    rfl

/-! ### The checks of an engine command (R194, R220) -/

section
variable {s : State} (ha : s.session = .active) (r : Region) (o n : Nat)
include ha

theorem writeChecks_locked (hl : s.snap.lock = true) : writeChecks r o n s = .memoryLocked := by
  simp [writeChecks, ha, hl]

theorem writeChecks_protected {r : Region} (hl : s.snap.lock = false) (hb : protBit s.snap.prot r = true) :
    writeChecks r o n s = .regionProtected := by
  simp [writeChecks, ha, hl, hb]

theorem writeChecks_open {r : Region} (hl : s.snap.lock = false) (hb : protBit s.snap.prot r = false) :
    writeChecks r o n s = resolve (s.info r) o n := by
  simp [writeChecks, ha, hl, hb]

end

/-- WRITE_REGION looks at LEN first, also without a session (R226). -/
theorem writeRegion_tooLong {r : Region} {p : Policy} {s : State} (hp : s.phase = .start)
    (hlen : s.cfg.bufWords < s.len.toNat) : exec (.writeRegion r p) s = .next (raise .illegalCommand s) := by
  simp only [exec_eq_planOf, planOf, planWriteRegion, hp]
  exact congrArg Plan.run (if_pos hlen)

/-- An engine command past the LEN check of WRITE_REGION ends with the error of `write_checks` (R220). -/
theorem program_refuses {i : Instr} {s : State} {e : ErrCode} (hi : isProgram i = true) (hp : s.phase = .start)
    (hn : unitCount i s ≤ s.cfg.bufWords ∨ ∀ r p, i ≠ .writeRegion r p)
    (hc : writeChecks (regionField i) s.addr.toNat (unitCount i s) s = e) (he : e ≠ .ok) :
    exec i s = .next (raise e s) := by
  rw [program_starts hi hp hn]
  cases e with
  | ok => contradiction
  | _ => simp only [programCommand, offsetOperand, hc, run_done]

/-- Settles O40: LEN is looked at before `write_checks`, whose checks follow in their order. -/
theorem writeChecksInOrder : Obligations.WriteChecksInOrder := by
  intro i s hp hi r refusal
  refine ⟨?_, fun hlen => ?_⟩
  · rintro ⟨p, h⟩ hlen
    exact (congrArg (exec · s) h).trans ((writeRegion_tooLong hp hlen).trans (congrArg _ (raise_of_start hp _)))
  have hn : unitCount i s ≤ s.cfg.bufWords ∨ ∀ r p, i ≠ .writeRegion r p := by
    cases i with
    | writeRegion r p => exact .inl (hlen ⟨p, rfl⟩)
    | _ => exact .inr fun _ _ => Instr.noConfusion
  have refuses {e : ErrCode} (hc : writeChecks r s.addr.toNat (unitCount i s) s = e) (he : e ≠ .ok) : refusal e :=
    (program_refuses hi hp hn hc he).trans (congrArg _ (raise_of_start hp e))
  refine ⟨fun hs => ?_, fun ha hl => ?_, fun ha hl hb => ?_, fun ha hl hb e hr he => ?_⟩
  · exact refuses (writeChecks_idle hs ..) (by decide)
  · exact refuses (writeChecks_locked ha _ _ _ hl) (by decide)
  · exact refuses (writeChecks_protected ha _ _ hl hb) (by decide)
  · exact refuses ((writeChecks_open ha _ _ hl hb).trans hr) he

/-! ### Transfers of no unit (R224, R226) -/

theorem readTransfer_empty {r r' : Region} {v : Reg} {s : State} (hn : s.eng.count = 0) :
    readTransfer (.readRegion r') r v s = .done (finish .ok .success s) := if_neg (by omega)

/-- `program_op` over no unit ends with OK and SUCCESS (R191, R192). -/
theorem programOp_empty (i : Instr) (c : SoakConfig) (s : State) :
    programOp i 0 c s = .done (finish .ok .success (loopStart i 0 c s)) := rfl

/-- Settles O39: past its checks the command has no unit, so its loop ends at once. -/
theorem emptyTransfersSucceed : Obligations.EmptyTransfersSucceed := by
  intro r i s hp ha hlen hi h1 h2
  have hzero : s.len.toNat = 0 := by rw [hlen]; rfl
  have hr : resolve (s.info r) s.addr.toNat 0 = .ok := resolve_of_inside h1 h2 (by omega)
  have hle : s.len.toNat ≤ s.cfg.bufWords := by omega
  rcases hi with rfl | ⟨⟨p, rfl⟩, hl, hb⟩
  · have hcount : unitCount (.readRegion r) s = 0 := hzero
    refine ⟨(latchCommand (.readRegion r) 0 s).eng, ?_⟩
    rw [exec_read_passes (.inr ⟨rfl, hle⟩) hp ha (by rw [hcount, hr]), hcount, readTransfer_empty rfl, run_done,
      finish_of_started hp]
    rfl
  · have hcount : unitCount (.writeRegion r p) s = 0 := hzero
    have hchecks : writeChecks r s.addr.toNat 0 s = .ok := (writeChecks_open ha _ _ hl hb).trans hr
    refine ⟨(loopStart (.writeRegion r p) 0 (defaultSoak s.cfg s.variant) s).eng, ?_⟩
    rw [program_starts (i := .writeRegion r p) rfl hp (.inl hle), hcount, programCommand, regionField, offsetOperand, hchecks,
      programOp_empty, run_done, finish_of_started hp]
    rfl

end Sys2Proof.Machine
end

section
/-! What a command has changed that its first step ends with an error of a local check (45_facade.md R227): every other way to
end in the first step reports OK or an error of the engine. -/

namespace Sys2Proof.Machine

/-! ### Refusals -/

/-- `t` is `s` after a refusal: STATUS and the latches ENG may differ. -/
def RefusedFrom (s t : State) : Prop := t = { s with eng := t.eng, status := finished t.status.err .failure s.status }

/-- A step of the plan that ends the command with an error of a local check is a refusal of the command in `s`. -/
structure Refuses (s : State) (pl : Plan) : Prop where
  refused : ∀ t, pl.run = .next t → t.status.busy = false → isLocalError t.status.err = true → RefusedFrom s t

section
variable {s u : State}

theorem Refuses.stop (s : State) (f : Fault) : Refuses s (.stop f) := ⟨fun _ h => nomatch h⟩

/-- A command that still runs is not refused. -/
theorem Refuses.of_busy {pl : Plan} (h : ∀ t, pl.run = .next t → t.status.busy = true) : Refuses s pl :=
  ⟨fun t ht hb => nomatch (h t ht).symm.trans hb⟩

theorem Refuses.goesOn (h : u.status.busy = true) : Refuses s (.done u) := by
  refine .of_busy fun t ht => ?_
  cases ht
  exact h

/-- The command ends with an error that is none of a local check's. -/
theorem Refuses.ends {e : ErrCode} {a : Aggregate} (h : isLocalError e = false) : Refuses s (.done (finish e a u)) := by
  refine ⟨fun t ht _ he => ?_⟩
  cases ht
  exact nomatch h.symm.trans he

/-- The command is refused, before or after its operands are latched. -/
theorem Refuses.raised (hp : s.phase = .start) (g : Eng) (e : ErrCode) : Refuses s (.done (raise e { s with eng := g })) := by
  refine ⟨fun t ht _ _ => ?_⟩
  cases ht
  rw [RefusedFrom, raise_of_start (s := { s with eng := g }) hp]
  rfl

theorem Refuses.pulse {p : Nat} {x : Reg} {tm : Timing} {mg : BitVec 16} {k : PulseStatus → State → State}
    (h : u.status.busy = true) (hk : ∀ st v, Quiet v (k st v)) : Refuses s (.pulse p x tm mg u k) := by
  refine .of_busy fun t ht => ?_
  obtain ⟨-, ht⟩ := needUnlocked_next ht
  split at ht <;> cases ht
  exact ((quiet_macroPulse ..).trans (hk _ _)).busy.trans h

theorem Refuses.pulseSlot {r : Region} {c sl : Nat} {b : Bool} {tm : Timing} {mg : BitVec 16}
    {k : PulseStatus → State → State} (h : u.status.busy = true) (hk : ∀ st v, Quiet v (k st v)) :
    Refuses s (.pulseSlot r c sl b tm mg u k) := by
  refine .of_busy fun t ht => ?_
  obtain ⟨-, ht⟩ := needUnlocked_next ht
  cases ht
  exact ((quiet_macroPulseSlot ..).trans (hk _ _)).busy.trans h

theorem Refuses.protect {r : Region} {k : Bool → State → State} (h : u.status.busy = true)
    (hk : ∀ ok v, Quiet v (k ok v)) : Refuses s (.protect r u k) := by
  refine .of_busy fun t ht => ?_
  obtain ⟨-, ht⟩ := needUnlocked_next ht
  cases ht
  exact ((quiet_macroProtect ..).trans (hk _ _)).busy.trans h

theorem Refuses.lockAll {k : Bool → State → State} (h : u.status.busy = true) (hk : ∀ ok v, Quiet v (k ok v)) :
    Refuses s (.lockAll u k) := by
  refine .of_busy fun t ht => ?_
  obtain ⟨-, ht⟩ := needUnlocked_next ht
  cases ht
  exact ((quiet_macroLockAll ..).trans (hk _ _)).busy.trans h

end

/-! ### The engine and the reads -/

/-- The errors of the engine are none of a local check's (R187, R189). -/
theorem unitError_not_local (c : OutcomeCode) : isLocalError (unitError c) = false := by cases c <;> rfl

section
variable {w s : State} (hb : s.status.busy = true)
include hb

theorem refuses_readUnit {v : Reg} {r : Region} {o : Nat} {k : Reg → State → State} (hk : ∀ x u, Quiet u (k x u)) :
    Refuses w (readUnit v r o s k) := by
  simp only [readUnit]
  split
  · exact .goesOn (((quiet_macroReadCell ..).trans (hk _ _)).busy.trans hb)
  · split
    · exact .goesOn (((quiet_macroRead ..).trans (hk _ _)).busy.trans hb)
    · exact .stop ..

theorem refuses_readIntoBuf {r : Region} {v : Reg} {i : Nat} : Refuses w (readIntoBuf r v i s) :=
  refuses_readUnit hb fun x u => (quiet_setBuf u i x).trans (quiet_atPhase _ _)

theorem refuses_readRegionUnit {r : Region} {i : Nat} {v : Reg} : Refuses w (readRegionUnit r i v s) := by
  unfold readRegionUnit
  split
  · exact refuses_readIntoBuf (s := s.setWordIndex i) hb
  · exact .ends rfl

theorem refuses_readBack {e : EngState} {at_ : Reg → Phase} : Refuses w (readBack e at_ s) := by
  unfold readBack
  exact refuses_readUnit (s := s.setEng e) hb fun _ u => quiet_atPhase u _

theorem refuses_normalPulse : Refuses w (normalPulse s) := by
  simp only [normalPulse]
  split
  · split
    · exact .pulseSlot hb fun _ u => quiet_atPhase u _
    · exact refuses_readBack (s := s.setEng .normalProgram) hb
  · exact .pulse hb fun _ u => quiet_atPhase u _

theorem refuses_soakPulse {ex : Plan} (hex : Refuses w ex) : Refuses w (soakPulse ex s) := by
  simp only [soakPulse]
  split
  · split
    · split
      · exact .pulseSlot hb fun _ u => (quiet_recordAttempt u _ _ _).trans (quiet_atPhase _ _)
      · exact hex
    · exact .pulse hb fun _ u => quiet_atPhase u _
  · exact hex

/-- The loop of `program_op` reports the first failed unit's error, or OK (R191, R192). -/
theorem refuses_runUnits (rem : Nat) (he : isLocalError s.eng.firstErr = false) : Refuses w (runUnits rem s) := by
  induction rem generalizing s with
  | zero => exact .ends he
  | succ n ih =>
    have closes (code : OutcomeCode) (t : State) (ht : t.status.busy = true) (hf : isLocalError t.eng.firstErr = false) :
        Refuses w (closeWith (runUnits n) code t) := by
      have hfirst : isLocalError (if t.eng.firstErr = .ok then unitError code else t.eng.firstErr) = false := by
        split
        · exact unitError_not_local code
        · exact hf
      simp only [closeWith]
      split
      · exact ih ht hf
      · split
        · exact .ends hfirst
        · exact ih ht hfirst
    have hopen : (openUnit (s.eng.count - (n + 1)) s).status.busy = true := hb
    simp only [runUnits, startUnit]
    split
    · split
      · exact refuses_soakPulse hopen (closes _ _ hopen he)
      · exact closes _ _ hopen he
    · exact refuses_normalPulse hopen

end

theorem refuses_trackerQuery {s : State} (hp : s.phase = .start) {r : Region} {q : Nat → Plan}
    (h : ∀ c, Refuses s (q c)) :
    Refuses s (trackerQuery r s q) := by
  simp only [trackerQuery, hp]
  split
  · exact h _
  · exact .raised hp s.eng _

section
variable {s : State} (hp : s.phase = .start) (hb : s.status.busy = true)
include hp hb

theorem refuses_programCommand (i : Instr) (n : Nat) (c : SoakConfig) : Refuses s (programCommand i n c s) := by
  unfold programCommand
  split
  · exact refuses_runUnits (s := loopStart i n c s) hb n rfl
  · exact .raised hp s.eng _

theorem refuses_readChecks (i : Instr) (n : Nat) (r : Region) {tr : Reg → State → Plan}
    (h : ∀ v, Refuses s (tr v (latchCommand i n s))) : Refuses s (readChecks r tr (latchCommand i n s)) := by
  unfold readChecks readResolved
  split
  · split
    · exact h _
    · exact .raised hp (latchCommand i n s).eng _
  · split
    · exact .goesOn hb
    · exact .raised hp (latchCommand i n s).eng _

/-! ### Every command -/

/-- The first step of a command. -/
theorem refuses_planOf (i : Instr) : Refuses s (planOf i s) := by
  have raised (e : ErrCode) : Refuses s (.done (raise e s)) := .raised hp s.eng e
  cases i with
  | beginSession =>
    simp only [planOf, planBeginSession, hp]
    split
    · exact raised _
    · exact .goesOn hb
  | endSession =>
    simp only [planOf, planEndSession, hp]
    exact .goesOn hb
  | read r =>
    simp only [planOf, planRead, hp]
    exact refuses_readChecks hp hb _ _ _ fun _ => refuses_readIntoBuf (s := latchCommand (.read r) 1 s) hb
  | readRegion r =>
    simp only [planOf, planReadRegion, hp]
    split
    · exact raised _
    · exact refuses_readChecks hp hb _ _ _ fun _ =>
        refuses_readRegionUnit (s := latchCommand (.readRegion r) (countOperand s) s) hb
  | write | soakProgram | programWithSoakFallback =>
    simp only [planOf, planWrite, planSoakProgram, planProgramWithSoakFallback, hp]
    exact refuses_programCommand hp hb ..
  | writeRegion r p =>
    simp only [planOf, planWriteRegion, hp]
    split
    · exact raised _
    · exact refuses_programCommand hp hb ..
  | lock =>
    simp only [planOf, planLock, hp]
    split
    · exact raised _
    · split
      · exact .ends rfl
      · exact .lockAll hb fun _ u => quiet_atPhase u _
  | enableRegionProtection r =>
    simp only [planOf, planEnableRegionProtection, hp]
    split
    · exact raised _
    · split
      · exact raised _
      · split
        · exact raised _
        · split
          · exact .ends rfl
          · exact .protect hb fun _ u => quiet_atPhase u _
  | isLocked | isRegionProtected =>
    simp only [planOf, planIsLocked, planIsRegionProtected, hp]
    split
    · exact raised _
    · exact .ends rfl
  | selectNextWritable | isWritable => exact refuses_trackerQuery hp fun _ => .ends rfl
  | readSlot r =>
    simp only [planOf, planReadSlot]
    refine refuses_trackerQuery hp fun c => ?_
    split
    · exact raised _
    · exact .ends rfl

end

/-- Settles O53: a first step goes on, ends with an error that is none of a local check's, or is a refusal. -/
theorem refusalsHaveNoSideEffects : Obligations.RefusalsHaveNoSideEffects := by
  intro i s t hp hb ht
  rw [exec_eq_planOf] at ht
  exact (refuses_planOf hp hb i).refused t ht

end Sys2Proof.Machine
end

section
/-! Resets between two steps and in the middle of one (70_reset_and_hazards.md R270 to R274): a reset keeps the device and the
other agents, and commutes with the calls to the OTP, so an interrupted call is the call on the state after the reset. -/

namespace Sys2Proof.Machine

/-! ### A reset between two steps (R270) -/

/-- Settles O13: the reset is the step's move, and `hardReset` sets each volatile item. -/
theorem resetSetsVolatileKeepsPersistent : Obligations.ResetSetsVolatileKeepsPersistent := by
  intro s es hc h
  rw [step_of_inbox_cons hc h]
  exact ⟨_, rfl, rfl, fun _ => ⟨rfl, rfl⟩⟩

/-! ### The registers after a reset (R271) -/

/-- The DEF registers, which read the parameters (R39). -/
def PortReg.isDefault : PortReg → Bool
  | .defPulse | .defRetries | .defMargin => true
  | _ => false

/-- Every register that does not read the parameters reads 0 after a reset (R271). -/
theorem readReg_hardReset {p : PortReg} (h : p.isDefault = false) (s : State) : readReg (hardReset s) p = 0 := by
  cases p
  case defPulse | defRetries | defMargin => cases h
  case status => exact (by decide : statusWord false Status.clear = 0)
  case outcome i => exact (by decide : outcomeWord outcomeClear = 0)
  all_goals rfl

/-- The indices of the DEF registers (R34). -/
theorem portReg_isDefault_iff {c : Config} {idx : PortIndex} :
    (portReg c idx).isDefault = true ↔ idx = 0x009 ∨ idx = 0x00A ∨ idx = 0x00B := by
  constructor
  · intro h
    unfold portReg at h
    split at h
    case h_10 hi => exact .inl (BitVec.eq_of_toNat_eq hi)
    case h_11 hi => exact .inr (.inl (BitVec.eq_of_toNat_eq hi))
    case h_12 hi => exact .inr (.inr (BitVec.eq_of_toNat_eq hi))
    case h_18 =>
      split at h
      · cases h
      · split at h <;> cases h
    all_goals cases h
  · rintro (rfl | rfl | rfl) <;> rfl

theorem variantOf_eq_none {c : Config} {v : Reg} (h : knownVariant c v = false) : variantOf c v = none :=
  Option.isNone_iff_eq_none.mp (Option.isSome_eq_false_iff.mp h)

/-- Settles O14: an index names a DEF register, whose value is the parameters' for VARIANT = 0, or a register that reads 0. -/
theorem registersReadZeroAfterReset : Obligations.RegistersReadZeroAfterReset := by
  intro s idx
  cases hd : (portReg s.cfg idx).isDefault with
  | false =>
    obtain ⟨h9, hrest⟩ := not_or.mp (portReg_isDefault_iff.not.mp (ne_true_of_eq_false hd))
    obtain ⟨hA, hB⟩ := not_or.mp hrest
    refine ⟨fun _ => readReg_hardReset hd s, fun u _ => ?_⟩
    rw [if_neg h9, if_neg hA, if_neg hB]
    exact readReg_hardReset hd s
  | true =>
    constructor
    · intro hv
      obtain ⟨hp, hr, hm⟩ := readReg_defaults_unknown (s := hardReset s) (variantOf_eq_none hv)
      rcases portReg_isDefault_iff.mp hd with rfl | rfl | rfl
      exacts [hp, hr, hm]
    · intro u hv
      obtain ⟨hp, hr, hm⟩ := readReg_defaults (s := hardReset s) hv
      rcases portReg_isDefault_iff.mp hd with rfl | rfl | rfl
      exacts [hp, hr, hm]

/-! ### The factory state (R272) -/

/-- A device with nothing listed reads 0 in every word. -/
theorem word_factory {s : State} (h : s.otp = Otp.factory) (p : Nat) : s.word p = 0 := by
  simp [State.word, h, Otp.factory, Memory.word, Memory.read]

/-- Settles O15: nothing is listed, so every word, poison bit and row reads its factory value. -/
theorem resetStandsInTheFactoryState : Obligations.ResetStandsInTheFactoryState :=
  ⟨word_factory rfl, fun _ => rfl, BitVec.zero_and, rfl, fun _ _ => rfl⟩

/-! ### A reset commutes with the calls to the OTP -/

/-- The engine's bookkeeping does not outlast a reset. -/
theorem Kept.hardReset_eq {s u : State} (h : Kept s u) : hardReset u = hardReset s := by
  simp only [hardReset, h.cfg, h.otp, h.env]

/-- The running command's call is made in a state that the step's start is kept in. -/
theorem kept_of_callState {i : Instr} {s u : State} (h : (planOf i s).callState = some u) : Kept s u :=
  (callsFrom_planOf i s).kept u h

theorem Kept.answer {s u : State} (h : Kept s u) : u.answer = s.answer := answer_congr h.env

/-- What a pulse on word `p` leaves that set the bits of `x` and was interrupted (R274), the reset apart. -/
def wordInterrupted (s : State) (p : Nat) (x : Reg) : State := (s.drew.orWord p x).poisonWord p

/-- What a pulse on a slot leaves that set its bit where `b` and was interrupted (R274, R160), the reset apart. -/
def slotInterrupted (s : State) (r : Region) (c sl : Nat) (b : Bool) (tm : Timing) : State :=
  attemptOf r c sl ((s.drew.modifySlot r c sl (Slot.commit b)).modifySlot r c sl Slot.poison) tm

/-- The reset may come before the pulse: it keeps the device and the macro's answer. -/
theorem hardReset_macroPulse_poisonWord (s : State) (p : Nat) (t : Reg) (tm : Timing) (mg : BitVec 16) :
    hardReset ((macroPulse p t tm mg s).2.poisonWord p) = wordInterrupted (hardReset s) p (t &&& s.answer.bits) := by
  cases tm <;> rfl

theorem hardReset_macroPulseSlot_poison (s : State) (r : Region) (c sl : Nat) (b : Bool) (tm : Timing) (mg : BitVec 16) :
    hardReset (attemptOf r c sl ((macroPulseSlot r c sl b tm mg s).2.modifySlot r c sl Slot.poison) tm) =
      slotInterrupted (hardReset s) r c sl (b && s.answer.took) tm := by
  cases tm <;> rfl

/-! ### A reset that interrupts a step (R274) -/

section
variable {s u : State} {i : Instr} (hb : s.status.busy = true) (hd : decode s.cmdLatch = .ok i)
  (hu : u.macroUnlocked = true)
include hb hd

/-- The interrupted step is the cut of the running command's plan. -/
theorem deliver_resetDuringStep : deliver s .resetDuringStep = (planOf i s).cut s := by
  simp only [deliver, interruptedTurn, hb, if_true, hd]

include hu

/-- An interrupted pulse on a word leaves no trace of the step but that of the pulse (R274). -/
theorem interrupted_pulse {p : Nat} {t : Reg} {tm : Timing} {mg : BitVec 16} {k : PulseStatus → State → State}
    (h : planOf i s = .pulse p t tm mg u k) (hp : p < u.cfg.arrayWords) :
    deliver s .resetDuringStep = .next (wordInterrupted (hardReset s) p (t &&& s.answer.bits)) := by
  have kept : Kept s u := kept_of_callState (by rw [h]; rfl)
  rw [deliver_resetDuringStep hb hd, h, Plan.cut, needUnlocked_true hu, if_pos hp, hardReset_macroPulse_poisonWord,
    kept.hardReset_eq, kept.answer]

theorem interrupted_pulseSlot {r : Region} {c sl : Nat} {b : Bool} {tm : Timing} {mg : BitVec 16}
    {k : PulseStatus → State → State} (h : planOf i s = .pulseSlot r c sl b tm mg u k) :
    deliver s .resetDuringStep = .next (slotInterrupted (hardReset s) r c sl (b && s.answer.took) tm) := by
  have kept : Kept s u := kept_of_callState (by rw [h]; rfl)
  rw [deliver_resetDuringStep hb hd, h, Plan.cut, needUnlocked_true hu, hardReset_macroPulseSlot_poison,
    kept.hardReset_eq, kept.answer]

theorem interrupted_lockAll {k : Bool → State → State} (h : planOf i s = .lockAll u k) :
    deliver s .resetDuringStep = .next ((hardReset s).drew.lockDevice s.answer.took) := by
  have kept : Kept s u := kept_of_callState (by rw [h]; rfl)
  rw [deliver_resetDuringStep hb hd, h, Plan.cut, needUnlocked_true hu, ← kept.hardReset_eq, ← kept.answer]
  rfl

theorem interrupted_protect {r : Region} {k : Bool → State → State} (h : planOf i s = .protect r u k) :
    deliver s .resetDuringStep = .next ((hardReset s).drew.protectDevice r s.answer.took) := by
  have kept : Kept s u := kept_of_callState (by rw [h]; rfl)
  rw [deliver_resetDuringStep hb hd, h, Plan.cut, needUnlocked_true hu, ← kept.hardReset_eq, ← kept.answer]
  rfl

end

/-- Settles O18: the call on the state after the reset, whose flag is the macro's answer. -/
theorem interruptedProtectOrLockMayTakeEffect : Obligations.InterruptedProtectOrLockMayTakeEffect :=
  fun _ _ _ hb hd hu => ⟨fun _ h => interrupted_lockAll hb hd hu h, fun _ _ h => interrupted_protect hb hd hu h⟩

/-! ### Words -/

theorem word_wordInterrupted (s : State) (p : Nat) (x : Reg) : (wordInterrupted s p x).word p = s.word p ||| x :=
  State.word_orWord_self s.drew p x

theorem read_wordInterrupted {s : State} {p a : Nat} (h : a / 8 ≠ p) (x : Reg) :
    (wordInterrupted s p x).otp.mem.read a = s.otp.mem.read a :=
  (Memory.read_orWord s.otp.mem p x a).trans (if_neg h)

theorem poisoned_wordInterrupted (s : State) (p : Nat) (x : Reg) (q : Nat) :
    (wordInterrupted s p x).poisoned q = if q = p then true else s.poisoned q :=
  State.poisoned_poisonWord (s.drew.orWord p x) p q

/-- Settles O16: the interrupted pulse on the state after the reset. -/
theorem interruptedPulsePoisonsTheWord : Obligations.InterruptedPulsePoisonsTheWord := by
  intro s u i p t tm mg k hb hd h hu hp
  exact ⟨_, interrupted_pulse hb hd hu h hp, word_wordInterrupted (hardReset s) p _,
    fun _ ha => read_wordInterrupted (s := hardReset s) ha _, poisoned_wordInterrupted (hardReset s) p _, rfl⟩

/-! ### Slots -/

/-- A slot whose pulse set the bit where `b` and was interrupted: a soak pulse consumes its attempt (R160, R274). -/
def Slot.interrupted (b : Bool) (tm : Timing) (x : Slot) : Slot :=
  if tm = .normal then (x.commit b).poison else (x.commit b).poison.attempted

/-- SLOT after two updates of one existing slot. -/
theorem slotAt_modifySlot_twice {s : State} {r : Region} {c sl : Nat} (h : sl < (s.row r c).length) (f g : Slot → Slot)
    (r' : Region) (c' sl' : Nat) : ((s.modifySlot r c sl f).modifySlot r c sl g).slotAt r' c' sl' =
      if r' = r ∧ c' = c ∧ sl' = sl then g (f (s.slotAt r c sl)) else s.slotAt r' c' sl' := by
  have hlt : sl < ((s.modifySlot r c sl f).row r c).length := by rwa [row_length_modifySlot]
  rw [slotAt_modifySlot_of_lt hlt, slotAt_modifySlot_of_lt h, slotAt_modifySlot_of_lt h]
  split <;> simp

theorem slotAt_slotInterrupted {s : State} {r : Region} {c sl : Nat} (h : sl < (s.row r c).length) (b : Bool) (tm : Timing)
    (r' : Region) (c' sl' : Nat) : (slotInterrupted s r c sl b tm).slotAt r' c' sl' =
      if r' = r ∧ c' = c ∧ sl' = sl then (s.slotAt r c sl).interrupted b tm else s.slotAt r' c' sl' := by
  have hpulsed := slotAt_modifySlot_twice (s := s.drew) h (Slot.commit b) Slot.poison
  cases tm with
  | normal => exact hpulsed r' c' sl'
  | soak d =>
    have hlt : sl < (((s.drew.modifySlot r c sl (Slot.commit b)).modifySlot r c sl Slot.poison).row r c).length := by
      rw [row_length_modifySlot, row_length_modifySlot]
      exact h
    rw [slotInterrupted, attemptOf, State.recordAttempt, slotAt_modifySlot_of_lt hlt,
      (hpulsed r c sl).trans (if_pos ⟨rfl, rfl, rfl⟩), hpulsed]
    split <;> rfl

/-- An interruption reaches the device in SLOT alone. -/
theorem slotInterrupted_hardReset (s : State) (r : Region) (c sl : Nat) (b : Bool) (tm : Timing) :
    slotInterrupted (hardReset s) r c sl b tm = hardReset { s with
      otp := { s.otp with slots := (slotInterrupted (hardReset s) r c sl b tm).otp.slots }, env := s.drew.env } := by
  cases tm <;> rfl

theorem Slot.interrupted_committed (b : Bool) (tm : Timing) (x : Slot) :
    (x.interrupted b tm).committed = (x.committed || b) := by cases tm <;> rfl

theorem Slot.interrupted_poisoned (b : Bool) (tm : Timing) (x : Slot) : (x.interrupted b tm).poisoned = true := by
  cases tm <;> rfl

theorem Slot.interrupted_remaining (b : Bool) (tm : Timing) (x : Slot) :
    (x.interrupted b tm).remaining = x.remaining - (if tm = .normal then 0 else 1) := by cases tm <;> rfl

theorem Slot.interrupted_writable_of_normal {tm : Timing} (h : tm = .normal) (b : Bool) (x : Slot) :
    (x.interrupted b tm).writable = x.writable := by
  subst h
  rfl

/-- A soak pulse's attempt was the last one unless more than one remained (R160). -/
theorem Slot.interrupted_writable_of_soak {tm : Timing} (h : tm ≠ .normal) (b : Bool) (x : Slot) :
    (x.interrupted b tm).writable = (x.writable && decide (1 < x.remaining)) := by
  have hlast : decide (x.remaining - 1 ≠ 0) = decide (1 < x.remaining) := decide_eq_decide.mpr (by omega)
  rw [Slot.interrupted, if_neg h, ← hlast]
  rfl

/-- Settles O17: the interrupted pulse on the state after the reset. -/
theorem interruptedPulsePoisonsTheSlot : Obligations.InterruptedPulsePoisonsTheSlot := by
  intro s u i r c sl b tm mg k hb hd h hu hlt
  have hslot := slotAt_slotInterrupted (s := hardReset s) hlt (b && s.answer.took) tm
  have hself := (hslot r c sl).trans (if_pos ⟨rfl, rfl, rfl⟩)
  refine ⟨_, interrupted_pulseSlot hb hd hu h, ?_, ?_, ?_, fun htm => ?_, fun htm => ?_,
    fun r' c' sl' hne => (hslot r' c' sl').trans (if_neg hne), slotInterrupted_hardReset s r c sl _ tm⟩ <;> rw [hself]
  · exact Slot.interrupted_committed ..
  · exact Slot.interrupted_poisoned ..
  · exact Slot.interrupted_remaining ..
  · exact Slot.interrupted_writable_of_normal htm ..
  · exact Slot.interrupted_writable_of_soak htm ..

end Sys2Proof.Machine
end
